-- ==== Sys2Proof/Word.lean ====
section
/-! DEFINITION. The machine's words and the widths of its address spaces (00_scope.md R6, R11). -/

namespace Sys2Proof

/-- A long word: 32 bits (R11). -/
abbrev Word := BitVec 32

/-- A byte: 8 bits (R11). -/
abbrev Byte := BitVec 8

/-- A program address: 24 bits, counting long words (10_state.md R30). All of its arithmetic wraps (R31). -/
abbrev PAddr := BitVec 24

/-- A core register position that names storage or a readable register: 0 to 60 (10_state.md R20, R26). -/
abbrev CoreReg := Fin 61

end Sys2Proof
end

