-- ==== Sys2Proof/Config.lean ====
section
/-! DEFINITION. The parameters the source leaves to the system builder (00_scope.md R7) as one record of plain
data, and the values it leaves open altogether, as constants without a body. -/

namespace Sys2Proof

/-- Byte order of the memory system (20_memory.md R71). -/
inductive Endian where
  | little
  | big
deriving DecidableEq, Repr

/-- What an access is for (00_scope.md R7, `MEM_VALID`). -/
inductive AccessKind where
  | fetch
  | load
  | store
deriving DecidableEq, Repr

/-- The two maskable interrupt levels (60_exceptions.md R320). -/
inductive IrqLevel where
  | l1
  | l2
deriving DecidableEq, Repr

/-- One external request line and its level, `IRQ_LEVEL` (60_exceptions.md R322). -/
structure IrqLine where
  line : Nat
  level : IrqLevel
deriving DecidableEq, Repr

/-- Byte addresses `lo` to `hi` where accesses of `bytes` bytes and this kind are to invalid memory
(20_memory.md R78). -/
structure InvalidRange where
  kind : AccessKind
  bytes : Nat
  lo : Nat
  hi : Nat
deriving DecidableEq, Repr

/-- Byte addresses `lo` to `hi` where the memory system supports misaligned accesses of `bytes` bytes
(20_memory.md R74). -/
structure MisalignedRange where
  bytes : Nat
  lo : Nat
  hi : Nat
deriving DecidableEq, Repr

/-- Lowest bit of each byte of the IDENTITY word, `IDENTITY_BITS` (10_state.md R47). PRESUMED, unsafe: the
figure is lost and the rule's default is the family's (log 8). -/
structure IdentityBits where
  mancode : Nat := 24
  manver : Nat := 16
  arcnum : Nat := 8
  arcver : Nat := 0
deriving DecidableEq, Repr

/-- Bit positions of the DEBUG fields, `DEBUG_BITS` (10_state.md R48). PRESUMED, unsafe: the figure is lost and
the rule's default is the family's (log 8). -/
structure DebugBits where
  ld : Nat := 31
  sh : Nat := 30
  bh : Nat := 29
  zz : Nat := 23
  is : Nat := 11
  fh : Nat := 1
  ss : Nat := 0
deriving DecidableEq, Repr

/-- The named parameters of 00_scope.md R7. The defaults are DESIGN CHOICES, unsafe (log 1); no statement
rests on one, and no step changes the record. -/
structure Config where
  /-- `ENDIAN` (20_memory.md R71). -/
  endian : Endian := .little
  /-- `INT_VECTOR_BASE >> 2` (60_exceptions.md R321). -/
  vectorBase : PAddr := 0
  /-- `N_VECTORS` (60_exceptions.md R321). -/
  nVectors : Nat := 8
  /-- `IRQ_LEVEL` of every line, listed in `IRQ_ORDER` (60_exceptions.md R323). -/
  irqLines : List IrqLine := [⟨3, .l1⟩, ⟨4, .l1⟩, ⟨5, .l1⟩, ⟨6, .l2⟩, ⟨7, .l2⟩]
  /-- Where `MEM_VALID` is false (20_memory.md R78). -/
  invalid : List InvalidRange := []
  /-- Where `MISALIGNED_OK` is true (20_memory.md R74). -/
  misaligned : List MisalignedRange := []
  hasMul : Bool := true
  hasBarrel : Bool := true
  hasNorm : Bool := true
  hasSwap : Bool := true
  hasMinMax : Bool := true
  /-- `MUL_FAST`: the four-cycle multiplier; it bounds the window of 70_reset_and_hazards.md R412. -/
  mulFast : Bool := true
  mancode : Byte := 0
  manver : Byte := 0
  arcnum : Byte := 0
  identityBits : IdentityBits := {}
  debugBits : DebugBits := {}
  /-- The implemented build configuration registers, address and value (10_state.md R50). -/
  bcr : List (Nat × Word) := []
  /-- `N_SEM` (20_memory.md R90). -/
  nSem : Nat := 4
  /-- `STATUS_R24` (10_state.md R41). -/
  statusR24 : Bool := false
deriving DecidableEq, Repr

/-- Which open value of one instruction or event is meant: the tags keep the draws apart. -/
inductive FreeUse where
  /-- Operand 1 read from an unimplemented core register (10_state.md R23). -/
  | operand1
  /-- Operand 2 read from an unimplemented core register (10_state.md R23). -/
  | operand2
  /-- The result of an instruction. -/
  | result
  | flagZ
  | flagN
  | flagC
  | flagV
  /-- Which of the lagged values of LP_START, LP_END, LP_COUNT a loop comparison uses
  (70_reset_and_hazards.md R404, R407); `fetch` numbers the long words an instruction fetches. -/
  | loopStart (fetch : Nat)
  | loopEnd (fetch : Nat)
  | loopCount (fetch : Nat)
  /-- Which of the lagged values a read of LP_COUNT returns (70_reset_and_hazards.md R406). -/
  | countRead
  /-- The saved address of a memory error or an invalid opcode (60_exceptions.md R326, R327). -/
  | savedPc
  /-- What a faulting store leaves in memory (60_exceptions.md R326). -/
  | stored
  /-- Whether the base register of a faulting access was written back (60_exceptions.md R326). -/
  | writeBack
  /-- MR[63:32] after a write to MULHI during a multiply (70_reset_and_hazards.md R412). -/
  | mulHi
  /-- DEBUG.LD as a load may still be outstanding (10_state.md R49). -/
  | loadPending
  /-- After how many draws the host sees a store (20_memory.md R82). -/
  | storeSeen
  /-- Whether a store not performed at a hard reset is lost (70_reset_and_hazards.md R380). -/
  | storeLost
  /-- After how many draws a running core's fetch sees code the host has changed (20_memory.md R85 (c)). -/
  | codeSeen
  /-- How far along its path the program counter is that a host sees (60_exceptions.md R363), or that counter
  itself where a BRK holds a branch (43_control.md R251). -/
  | hostPc
  /-- Whether one clock completes an instruction (60_exceptions.md R360). -/
  | cycleStep
  /-- ZZ after a single step of SLEEP (60_exceptions.md R373). -/
  | sleepStep
  /-- A core register after a hard reset (10_state.md R65). -/
  | resetReg (i : Nat)
  | resetMulLo
  | resetMulHi
deriving DecidableEq, Repr

/-- A free 32-bit value. Nothing constrains it (log 5). -/
opaque Config.freeWord : Nat → FreeUse → Word

/-- A free truth value (log 5). -/
opaque Config.freeBit : Nat → FreeUse → Bool

/-- A free natural number, for a choice among several values (log 5). -/
opaque Config.freeIndex : Nat → FreeUse → Nat

end Sys2Proof
end

