-- ==== Sys2Proof/Syntax.lean ====
section
/-! DEFINITION. The instructions, one constructor for each row of spec/opcode_table.json, and their operands. -/

namespace Sys2Proof

/-- The three register positions that are no registers (30_encoding.md R103): 61 a short immediate that
sets flags, 62 a long immediate, 63 a short immediate that does not set flags. -/
inductive Indicator where
  | shortFlags
  | long
  | shortQuiet
deriving DecidableEq, Repr

/-- A six-bit register field: a core register or an immediate indicator. As a destination an indicator
discards the result (30_encoding.md R113). -/
inductive RegField where
  | reg (r : CoreReg)
  | ind (k : Indicator)
deriving DecidableEq, Repr

/-- Condition codes (30_encoding.md R120); `ext` is one of the sixteen extension codes 0x10 to 0x1F (R121). -/
inductive Cond where
  | al | eq | ne | pl | mi | cs | cc | vs | vc | gt | ge | lt | le | hi | ls | pnz
  | ext (k : BitVec 4)
deriving DecidableEq, Repr

/-- Nullify (delay slot execution) modes 0, 1, 2 of the `N` field (42_jump_branch_loop.md R203). -/
inductive SlotMode where
  | nd
  | d
  | jd
deriving DecidableEq, Repr

/-- Access sizes (44_load_store.md R263): long word 00, byte 01, word 10. -/
inductive Size where
  | long
  | byte
  | word
deriving DecidableEq, Repr

/-- The one source operand of a single-operand instruction (41_single_operand.md R170): a register, the long
immediate, or the nine-bit short immediate. -/
inductive Src1 where
  | reg (b : CoreReg)
  | limm (v : Word)
  | short (d : BitVec 9)
deriving DecidableEq, Repr

/-- The two source operands of a dual-operand instruction (30_encoding.md R110): `r` a register, `l` the long
immediate, `s` the short immediate; the first letter is operand 1 (`B`), the second operand 2 (`C`). -/
inductive Src2 where
  | rr (b c : CoreReg)
  | rl (b : CoreReg) (v : Word)
  | lr (v : Word) (c : CoreReg)
  | ll (v : Word)
  | rs (b : CoreReg) (d : BitVec 9)
  | sr (d : BitVec 9) (c : CoreReg)
  | ss (d : BitVec 9)
deriving DecidableEq, Repr

/-- Operands and modifiers of a dual-operand instruction (40_alu.md R150). -/
structure Dual where
  dst : RegField
  src : Src2
  f : Bool
  cc : Cond
deriving DecidableEq, Repr

/-- Operands and modifiers of a single-operand instruction (41_single_operand.md R170). -/
structure Single where
  dst : RegField
  src : Src1
  f : Bool
  cc : Cond
deriving DecidableEq, Repr

/-- ROL's first word: a real destination register, flags always set (41_single_operand.md R183). -/
structure RolOp where
  dst : CoreReg
  src : Src1
  cc : Cond
deriving DecidableEq, Repr

/-- MUL64 and MULU64 (46_extensions.md R290): no destination, no flags; `short61` says which short indicator
a short-immediate form uses. -/
structure MulOp where
  src : Src2
  short61 : Bool
  cc : Cond
deriving DecidableEq, Repr

/-- LD, opcode 0x00, register + register (44_load_store.md R260 (b)). -/
structure LoadRR where
  dst : RegField
  src : Src2
  di : Bool
  awb : Bool
  size : Size
  x : Bool
deriving DecidableEq, Repr

/-- LD, opcode 0x01, register + offset (44_load_store.md R260 (a)). `limm` is the long immediate when `base`
asks for one, and 0 otherwise. -/
structure LoadRO where
  dst : RegField
  base : RegField
  limm : Word
  off : BitVec 9
  di : Bool
  awb : Bool
  size : Size
  x : Bool
deriving DecidableEq, Repr

/-- LR (45_aux_access.md R280, R281). -/
structure LrOp where
  dst : RegField
  base : RegField
  limm : Word
  off : BitVec 9
deriving DecidableEq, Repr

/-- ST (44_load_store.md R268, R269): `data` is the `C` field, `base` the `B` field. -/
structure StoreOp where
  base : RegField
  data : RegField
  limm : Word
  off : BitVec 9
  di : Bool
  awb : Bool
  size : Size
deriving DecidableEq, Repr

/-- SR (45_aux_access.md R280, R283): `data` is the `C` field, `base` the auxiliary address. -/
structure SrOp where
  base : RegField
  data : RegField
  limm : Word
  off : BitVec 9
deriving DecidableEq, Repr

/-- The branch layout (30_encoding.md R101): a signed displacement in long words, the mode and the condition. -/
structure BranchOp where
  l : BitVec 20
  n : SlotMode
  cc : Cond
deriving DecidableEq, Repr

/-- Operand 1 of Jcc and JLcc: a core register or the long immediate (42_jump_branch_loop.md R214). -/
inductive JumpSrc where
  | reg (b : CoreReg)
  | limm (v : Word)
deriving DecidableEq, Repr

/-- Jcc and JLcc (42_jump_branch_loop.md R214, R216). -/
structure JumpOp where
  src : JumpSrc
  f : Bool
  n : SlotMode
  cc : Cond
deriving DecidableEq, Repr

/-- One constructor for each row of spec/opcode_table.json. The last five are second names for words of core
instructions (30_encoding.md R142). -/
inductive Instr where
  | ldRR (o : LoadRR)
  | ldRO (o : LoadRO)
  | lr (o : LrOp)
  | st (o : StoreOp)
  | sr (o : SrOp)
  | flag (o : Single)
  | asr (o : Single)
  | lsr (o : Single)
  | ror (o : Single)
  | rrc (o : Single)
  | sexb (o : Single)
  | sexw (o : Single)
  | extb (o : Single)
  | extw (o : Single)
  | swap (o : Single)
  | norm (o : Single)
  | brk
  | sleep
  | swi
  | bcc (o : BranchOp)
  | blcc (o : BranchOp)
  | lpcc (o : BranchOp)
  | jcc (o : JumpOp)
  | jlcc (o : JumpOp)
  | add (o : Dual)
  | adc (o : Dual)
  | sub (o : Dual)
  | sbc (o : Dual)
  | and (o : Dual)
  | or (o : Dual)
  | bic (o : Dual)
  | xor (o : Dual)
  | aslm (o : Dual)
  | lsrm (o : Dual)
  | asrm (o : Dual)
  | rorm (o : Dual)
  | max (o : Dual)
  | min (o : Dual)
  | mul64 (o : MulOp)
  | mulu64 (o : MulOp)
  | nop
  | mov (o : Single)
  | asl (o : Single)
  | rlc (o : Single)
  | rol (o : RolOp)
deriving DecidableEq, Repr

/-- Whether an operand pair holds a short immediate: the word is then in the short-immediate layout and has no
flag bit and no condition field (30_encoding.md R102). -/
def Src2.isShort : Src2 → Bool
  | .rs _ _ | .sr _ _ | .ss _ => true
  | _ => false

/-- Whether a single operand is the short immediate. -/
def Src1.isShort : Src1 → Bool
  | .short _ => true
  | _ => false

/-- Whether an operand pair uses the long immediate (30_encoding.md R100). -/
def Src2.isLong : Src2 → Bool
  | .rl _ _ | .lr _ _ | .ll _ => true
  | _ => false

/-- Whether a single operand is the long immediate. -/
def Src1.isLong : Src1 → Bool
  | .limm _ => true
  | _ => false

/-- Whether a register field is the long-immediate indicator 62. -/
def RegField.isLong : RegField → Bool
  | .ind .long => true
  | _ => false

/-- Whether a register field is one of the short-immediate indicators 61 and 63. -/
def RegField.isShort : RegField → Bool
  | .ind .shortFlags | .ind .shortQuiet => true
  | _ => false

/-- Whether a register field names a core register. -/
def RegField.isReg : RegField → Bool
  | .reg _ => true
  | _ => false

/-- Operand 1 as a register field's worth of information: is it a core register? -/
def Src2.firstIsReg : Src2 → Bool
  | .rr _ _ | .rl _ _ | .rs _ _ => true
  | _ => false

/-- The two operands as one, when `B` and `C` hold the same code: the forms that MOV, ASL, RLC and ROL name
(30_encoding.md R142). -/
def Src2.same : Src2 → Option Src1
  | .rr b c => if b = c then some (.reg b) else none
  | .ll v => some (.limm v)
  | .ss d => some (.short d)
  | _ => none

/-- One operand in both the `B` and the `C` field. -/
def Src1.both : Src1 → Src2
  | .reg b => .rr b b
  | .limm v => .ll v
  | .short d => .ss d

/-- The dual-operand form of a single operand used twice (41_single_operand.md R170 (ii)). -/
def Single.both (o : Single) : Dual := ⟨o.dst, o.src.both, o.f, o.cc⟩

/-- ROL's first word as the ADD.F it is (41_single_operand.md R183). -/
def RolOp.both (o : RolOp) : Dual := ⟨.reg o.dst, o.src.both, true, o.cc⟩

/-- NOP as the XOR it is (40_alu.md R162). -/
def nopDual : Dual := ⟨.ind .shortQuiet, .ss 0x1FF#9, false, .al⟩

end Sys2Proof
end

