-- ==== Sys2Proof/WellFormed.lean ====
section
/-! DEFINITION. Which instructions have an encoding (30_encoding.md R101 to R110) and are the name their word
decodes to: the checks an assembler makes. -/

namespace Sys2Proof

/-- A short-immediate layout has no condition field: "Those instructions using short immediate data can not
have a condition code test." (30_encoding.md R102) -/
def Dual.wf (o : Dual) : Bool := !o.src.isShort || o.cc == .al

/-- The same for one operand (41_single_operand.md R170). -/
def Single.wf (o : Single) : Bool := !o.src.isShort || o.cc == .al

/-- A dual-operand instruction whose equal operands another row names must have different operands
(30_encoding.md R142). -/
def Dual.wfDistinct (o : Dual) : Bool := o.wf && o.src.same == none

/-- ADD.F with a register destination and equal operands is ROL's first word; the one-operand ASL keeps the
other forms (41_single_operand.md R180, R183). -/
def Single.wfAsl (o : Single) : Bool := o.wf && !(o.f && o.dst.isReg)

/-- ROL (41_single_operand.md R183). -/
def RolOp.wf (o : RolOp) : Bool := !o.src.isShort || o.cc == .al

/-- MUL64 and MULU64: bit 8 is a fixed 0 in the register layout (46_extensions.md R290). -/
def MulOp.wf (o : MulOp) : Bool :=
  if o.src.isShort then o.cc == .al else !o.short61

/-- LD opcode 0x00 has no short immediate; write-back needs a base register (44_load_store.md R261). -/
def LoadRR.wf (o : LoadRR) : Bool := !o.src.isShort && (!o.awb || o.src.firstIsReg)

/-- A long immediate stands only where a field asks for it. -/
def limmOk (uses : Bool) (v : Word) : Bool := uses || v == 0

/-- LD opcode 0x01: write-back needs a base register (44_load_store.md R261). -/
def LoadRO.wf (o : LoadRO) : Bool := limmOk o.base.isLong o.limm && (!o.awb || o.base.isReg)

/-- LR (45_aux_access.md R281). -/
def LrOp.wf (o : LrOp) : Bool := limmOk o.base.isLong o.limm

/-- Two short indicators in one instruction must be the same (30_encoding.md R110, decision D16). -/
def shortsMatch (b c : RegField) : Bool := !(b.isShort && c.isShort) || b == c

/-- ST (44_load_store.md R270). -/
def StoreOp.wf (o : StoreOp) : Bool :=
  limmOk (o.base.isLong || o.data.isLong) o.limm && shortsMatch o.base o.data && (!o.awb || o.base.isReg)

/-- SR (45_aux_access.md R283). -/
def SrOp.wf (o : SrOp) : Bool :=
  limmOk (o.base.isLong || o.data.isLong) o.limm && shortsMatch o.base o.data

/-- JLcc with an explicit address must not use the D mode (42_jump_branch_loop.md R215). -/
def JumpOp.wfLink (o : JumpOp) : Bool :=
  match o.src with
  | .reg _ => true
  | .limm _ => !(o.n == .d)

/-- The instruction has an encoding that decodes to it. -/
def Instr.wf : Instr → Bool
  | .ldRR o => o.wf
  | .ldRO o => o.wf
  | .lr o => o.wf
  | .st o => o.wf
  | .sr o => o.wf
  | .flag o => o.wf
  | .asr o => o.wf
  | .lsr o => o.wf
  | .ror o => o.wf
  | .rrc o => o.wf
  | .sexb o => o.wf
  | .sexw o => o.wf
  | .extb o => o.wf
  | .extw o => o.wf
  | .swap o => o.wf
  | .norm o => o.wf
  | .brk => true
  | .sleep => true
  | .swi => true
  | .bcc _ => true
  | .blcc _ => true
  | .lpcc _ => true
  | .jcc _ => true
  | .jlcc o => o.wfLink
  | .add o => o.wfDistinct
  | .adc o => o.wfDistinct
  | .sub o => o.wf
  | .sbc o => o.wf
  | .and o => o.wfDistinct
  | .or o => o.wf
  | .bic o => o.wf
  | .xor o => o.wf && o != nopDual
  | .aslm o => o.wf
  | .lsrm o => o.wf
  | .asrm o => o.wf
  | .rorm o => o.wf
  | .max o => o.wf
  | .min o => o.wf
  | .mul64 o => o.wf
  | .mulu64 o => o.wf
  | .nop => true
  | .mov o => o.wf
  | .asl o => o.wfAsl
  | .rlc o => o.wf
  | .rol o => o.wf

end Sys2Proof
end

