-- ==== Sys2Proof/Decode.lean ====
section
/-! DEFINITION. From instruction words to instructions (30_encoding.md R100 to R137), total on any two words and
refusing by name, and back: the encoder. -/

namespace Sys2Proof

/-- Why a word is no instruction of the spec: every case is the spec's own `refuse`. -/
inductive DecodeRefusal where
  /-- A reserved bit is set (30_encoding.md R111, decision D14). -/
  | reservedBits
  /-- `N` = 3 (30_encoding.md R137, decision D15). -/
  | reservedMode
  /-- `ZZ` = 3 (44_load_store.md R263, decision D15). -/
  | reservedSize
  /-- The indicators 61 and 63 in one instruction (30_encoding.md R110, decision D16). -/
  | mixedShort
  /-- A short indicator with 62, outside ST and SR (30_encoding.md R110, decision D40). -/
  | shortWithLong
  /-- LD opcode 0x00 with a short indicator (44_load_store.md R261, decision D44). -/
  | loadShort
  /-- Write-back without a base register (44_load_store.md R261, R270, decision D44). -/
  | writeBackImmediate
  /-- A jump form the page does not give (42_jump_branch_loop.md R215, decision D24). -/
  | jumpForm
  /-- MUL64 or MULU64 with `A` other than 63 or bit 8 set (46_extensions.md R290, decision D14). -/
  | multiplyForm
deriving DecidableEq, Repr

/-- What a word is (30_encoding.md R138). -/
inductive Decoded where
  /-- A defined instruction. -/
  | instr (i : Instr)
  /-- An unassigned single-operand code: no exception, a free result (30_encoding.md R136). -/
  | unassigned (o : Single)
  /-- An unassigned major opcode, 0x16 to 0x1D: instruction error (30_encoding.md R135). -/
  | invalid
  /-- A form the spec refuses. -/
  | refused (r : DecodeRefusal)
deriving DecidableEq, Repr

/-! ### The fields of a word (30_encoding.md R101) -/

/-- `I`, bits 31:27. -/
def opcodeOf (w : Word) : BitVec 5 := w.extractLsb' 27 5
/-- `A`, bits 26:21. -/
def fieldA (w : Word) : BitVec 6 := w.extractLsb' 21 6
/-- `B`, bits 20:15. -/
def fieldB (w : Word) : BitVec 6 := w.extractLsb' 15 6
/-- `C`, bits 14:9. -/
def fieldC (w : Word) : BitVec 6 := w.extractLsb' 9 6
/-- `D`, bits 8:0. -/
def fieldD (w : Word) : BitVec 9 := w.extractLsb' 0 9
/-- `F`, bit 8. -/
def fieldF (w : Word) : Bool := w.getLsbD 8
/-- Bits 7:5, reserved outside jumps. -/
def fieldR (w : Word) : BitVec 3 := w.extractLsb' 5 3
/-- `N`, bits 6:5. -/
def fieldN (w : Word) : BitVec 2 := w.extractLsb' 5 2
/-- `Q`, bits 4:0. -/
def fieldQ (w : Word) : BitVec 5 := w.extractLsb' 0 5
/-- `L`, bits 26:7. -/
def fieldL (w : Word) : BitVec 20 := w.extractLsb' 7 20

/-- The three words with `A` = `B` = `C` = 63 under opcode 3 (43_control.md R250, R252, R254). -/
def brkWord : Word := 0x1FFFFE00
/-- SLEEP (43_control.md R252). -/
def sleepWord : Word := 0x1FFFFE01
/-- SWI (43_control.md R254). -/
def swiWord : Word := 0x1FFFFE02
/-- NOP (40_alu.md R162). -/
def nopWord : Word := 0x7FFFFFFF

/-- A register position (30_encoding.md R103). -/
def regField (x : BitVec 6) : RegField :=
  if h : x.toNat < 61 then .reg ⟨x.toNat, h⟩
  else if x = 61#6 then .ind .shortFlags
  else if x = 62#6 then .ind .long
  else .ind .shortQuiet

/-- A condition code (30_encoding.md R120, R121). -/
def condOf (q : BitVec 5) : Cond :=
  if q.getLsbD 4 then .ext (q.extractLsb' 0 4) else
  match q.toNat with
  | 0 => .al | 1 => .eq | 2 => .ne | 3 => .pl | 4 => .mi | 5 => .cs | 6 => .cc | 7 => .vs
  | 8 => .vc | 9 => .gt | 10 => .ge | 11 => .lt | 12 => .le | 13 => .hi | 14 => .ls | _ => .pnz

/-- The nullify mode, none for the reserved code 3 (42_jump_branch_loop.md R203). -/
def modeOf (n : BitVec 2) : Option SlotMode :=
  match n.toNat with
  | 0 => some .nd
  | 1 => some .d
  | 2 => some .jd
  | _ => none

/-- The size code, none for the reserved code 3 (44_load_store.md R263). -/
def sizeOf (z : BitVec 2) : Option Size :=
  match z.toNat with
  | 0 => some .long
  | 1 => some .byte
  | 2 => some .word
  | _ => none

/-- `len = 2`: whether the word after this one is its long immediate (30_encoding.md R100). -/
def needsLimm (w : Word) : Bool :=
  match (opcodeOf w).toNat with
  | 4 | 5 | 6 => false
  | 1 | 3 => fieldB w == 62#6
  | _ => fieldB w == 62#6 || fieldC w == 62#6

/-! ### Operands (30_encoding.md R110) -/

/-- The long immediate where a field asks for it, 0 elsewhere. -/
def limmIf (uses : Bool) (limm : Word) : Word := if uses then limm else 0

/-- The operand pair of a dual-operand instruction (30_encoding.md R110). -/
def srcPair (b c : RegField) (d : BitVec 9) (limm : Word) : Except DecodeRefusal Src2 :=
  match b, c with
  | .reg b, .reg c => .ok (.rr b c)
  | .reg b, .ind .long => .ok (.rl b limm)
  | .reg b, .ind _ => .ok (.rs b d)
  | .ind .long, .reg c => .ok (.lr limm c)
  | .ind .long, .ind .long => .ok (.ll limm)
  | .ind .long, .ind _ => .error .shortWithLong
  | .ind _, .reg c => .ok (.sr d c)
  | .ind _, .ind .long => .error .shortWithLong
  | .ind k, .ind j => if k = j then .ok (.ss d) else .error .mixedShort

/-- The operand of a single-operand instruction: `B` only (30_encoding.md R110). -/
def srcOne (b : RegField) (d : BitVec 9) (limm : Word) : Src1 :=
  match b with
  | .reg b => .reg b
  | .ind .long => .limm limm
  | .ind _ => .short d

/-- Whether either field is 61: flags are set in the short-immediate layout (30_encoding.md R110). -/
def hasShortFlags (b c : RegField) : Bool := b == .ind .shortFlags || c == .ind .shortFlags

/-- A dual-operand instruction (30_encoding.md R110, R111). -/
def decodeDual (w limm : Word) : Except DecodeRefusal Dual :=
  let a := regField (fieldA w)
  let b := regField (fieldB w)
  let c := regField (fieldC w)
  match srcPair b c (fieldD w) limm with
  | .error r => .error r
  | .ok src =>
    if src.isShort then .ok ⟨a, src, hasShortFlags b c, .al⟩
    else if fieldR w = 0 then .ok ⟨a, src, fieldF w, condOf (fieldQ w)⟩
    else .error .reservedBits

/-- A single-operand instruction (30_encoding.md R110, R111; 41_single_operand.md R170). DESIGN CHOICE: a reserved
bit set is refused (R111) also in an unassigned code, `C` = 0x3F included, to which R136 and 43_control.md R255 give
any result: the spec does not order the two (log 34). -/
def decodeSingle (w limm : Word) : Except DecodeRefusal Single :=
  let a := regField (fieldA w)
  let b := regField (fieldB w)
  let src := srcOne b (fieldD w) limm
  if src.isShort then .ok ⟨a, src, b == .ind .shortFlags, .al⟩
  else if fieldR w = 0 then .ok ⟨a, src, fieldF w, condOf (fieldQ w)⟩
  else .error .reservedBits

/-- MUL64 and MULU64 (46_extensions.md R290). -/
def decodeMul (w limm : Word) : Except DecodeRefusal MulOp :=
  match decodeDual w limm with
  | .error r => .error r
  | .ok o =>
    if o.dst != .ind .shortQuiet then .error .multiplyForm
    else if o.src.isShort then .ok ⟨o.src, o.f, .al⟩
    else if o.f then .error .multiplyForm
    else .ok ⟨o.src, false, o.cc⟩

/-- LD, register + register (44_load_store.md R260 (b), R261). -/
def decodeLoadRR (w limm : Word) : Except DecodeRefusal LoadRR :=
  match srcPair (regField (fieldB w)) (regField (fieldC w)) (fieldD w) limm with
  | .error r => .error r
  | .ok src =>
    if src.isShort then .error .loadShort
    else if w.extractLsb' 6 3 ≠ 0 || w.getLsbD 4 then .error .reservedBits
    else if w.getLsbD 3 && !src.firstIsReg then .error .writeBackImmediate
    else match sizeOf (w.extractLsb' 1 2) with
      | none => .error .reservedSize
      | some z => .ok ⟨regField (fieldA w), src, w.getLsbD 5, w.getLsbD 3, z, w.getLsbD 0⟩

/-- LD, register + offset (44_load_store.md R260 (a), R261). -/
def decodeLoadRO (w limm : Word) : Except DecodeRefusal LoadRO :=
  let b := regField (fieldB w)
  if w.getLsbD 12 && !b.isReg then .error .writeBackImmediate
  else match sizeOf (w.extractLsb' 10 2) with
    | none => .error .reservedSize
    | some z => .ok ⟨regField (fieldA w), b, limmIf b.isLong limm, fieldD w, w.getLsbD 14, w.getLsbD 12, z,
        w.getLsbD 9⟩

/-- LR: bits 14:9 are 010000 (45_aux_access.md R280). -/
def decodeLr (w limm : Word) : Except DecodeRefusal LrOp :=
  let b := regField (fieldB w)
  if fieldC w = 16#6 then .ok ⟨regField (fieldA w), b, limmIf b.isLong limm, fieldD w⟩
  else .error .reservedBits

/-- ST (44_load_store.md R268, R270). -/
def decodeStore (w limm : Word) : Except DecodeRefusal StoreOp :=
  let b := regField (fieldB w)
  let c := regField (fieldC w)
  if w.getLsbD 21 then .error .reservedBits
  else if !shortsMatch b c then .error .mixedShort
  else if w.getLsbD 24 && !b.isReg then .error .writeBackImmediate
  else match sizeOf (w.extractLsb' 22 2) with
    | none => .error .reservedSize
    | some z => .ok ⟨b, c, limmIf (b.isLong || c.isLong) limm, fieldD w, w.getLsbD 26, w.getLsbD 24, z⟩

/-- SR: bits 26:21 are 010000 (45_aux_access.md R280). -/
def decodeSr (w limm : Word) : Except DecodeRefusal SrOp :=
  let b := regField (fieldB w)
  let c := regField (fieldC w)
  if fieldA w ≠ 16#6 then .error .reservedBits
  else if !shortsMatch b c then .error .mixedShort
  else .ok ⟨b, c, limmIf (b.isLong || c.isLong) limm, fieldD w⟩

/-- Bcc, BLcc, LPcc (42_jump_branch_loop.md R210). -/
def decodeBranch (w : Word) : Except DecodeRefusal BranchOp :=
  match modeOf (fieldN w) with
  | none => .error .reservedMode
  | some n => .ok ⟨fieldL w, n, condOf (fieldQ w)⟩

/-- Jcc and JLcc without their `C` field (42_jump_branch_loop.md R214, R215). -/
def decodeJump (w limm : Word) : Except DecodeRefusal JumpOp :=
  if fieldA w ≠ 0 then .error .jumpForm
  else if w.getLsbD 7 then .error .reservedBits
  else match modeOf (fieldN w), regField (fieldB w) with
    | none, _ => .error .reservedMode
    | some n, .reg b => .ok ⟨.reg b, fieldF w, n, condOf (fieldQ w)⟩
    | some n, .ind .long => .ok ⟨.limm limm, fieldF w, n, condOf (fieldQ w)⟩
    | some _, .ind _ => .error .jumpForm

/-! ### The opcode map (30_encoding.md R130, R132, R133) -/

/-- A refusal, or the operands under a constructor. -/
def Decoded.of {α : Type} (mk : α → Instr) : Except DecodeRefusal α → Decoded
  | .error r => .refused r
  | .ok o => .instr (mk o)

/-- Opcode 0x08: ADD, or the more specific rows whose `B` and `C` agree (30_encoding.md R142). -/
def ofAdd : Except DecodeRefusal Dual → Decoded
  | .error r => .refused r
  | .ok o =>
    match o.src.same, o.f, o.dst with
    | none, _, _ => .instr (.add o)
    | some src, true, .reg a => .instr (.rol ⟨a, src, o.cc⟩)
    | some src, _, _ => .instr (.asl ⟨o.dst, src, o.f, o.cc⟩)

/-- A row and the row that names its words with `B` = `C` (30_encoding.md R142). -/
def ofSame (mk : Dual → Instr) (mkSame : Single → Instr) : Except DecodeRefusal Dual → Decoded
  | .error r => .refused r
  | .ok o =>
    match o.src.same with
    | none => .instr (mk o)
    | some src => .instr (mkSame ⟨o.dst, src, o.f, o.cc⟩)

/-- An unassigned single-operand code (30_encoding.md R136). -/
def ofUnassigned : Except DecodeRefusal Single → Decoded
  | .error r => .refused r
  | .ok o => .unassigned o

/-- Opcode 0x03, by the `C` field (30_encoding.md R132; 43_control.md R255). -/
def decodeGroup3 (w limm : Word) : Decoded :=
  if w = brkWord then .instr .brk
  else if w = sleepWord then .instr .sleep
  else if w = swiWord then .instr .swi
  else
    let o := decodeSingle w limm
    match (fieldC w).toNat with
    | 0 => .of .flag o
    | 1 => .of .asr o
    | 2 => .of .lsr o
    | 3 => .of .ror o
    | 4 => .of .rrc o
    | 5 => .of .sexb o
    | 6 => .of .sexw o
    | 7 => .of .extb o
    | 8 => .of .extw o
    | 9 => .of .swap o
    | 10 => .of .norm o
    | _ => ofUnassigned o

/-- The instruction whose first word is `w` and whose long immediate, if it has one, is `limm`. -/
def decode (w limm : Word) : Decoded :=
  match (opcodeOf w).toNat with
  | 0 => .of .ldRR (decodeLoadRR w limm)
  | 1 => if w.getLsbD 13 then .of .lr (decodeLr w limm) else .of .ldRO (decodeLoadRO w limm)
  | 2 => if w.getLsbD 25 then .of .sr (decodeSr w limm) else .of .st (decodeStore w limm)
  | 3 => decodeGroup3 w limm
  | 4 => .of .bcc (decodeBranch w)
  | 5 => .of .blcc (decodeBranch w)
  | 6 => .of .lpcc (decodeBranch w)
  | 7 =>
    if fieldC w = 0 then .of .jcc (decodeJump w limm)
    else if fieldC w = 1#6 then
      if needsLimm w && fieldN w == 1#2 then .refused .jumpForm else .of .jlcc (decodeJump w limm)
    else .refused .jumpForm
  | 8 => ofAdd (decodeDual w limm)
  | 9 => ofSame .adc .rlc (decodeDual w limm)
  | 10 => .of .sub (decodeDual w limm)
  | 11 => .of .sbc (decodeDual w limm)
  | 12 => ofSame .and .mov (decodeDual w limm)
  | 13 => .of .or (decodeDual w limm)
  | 14 => .of .bic (decodeDual w limm)
  | 15 => if w = nopWord then .instr .nop else .of .xor (decodeDual w limm)
  | 16 => .of .aslm (decodeDual w limm)
  | 17 => .of .lsrm (decodeDual w limm)
  | 18 => .of .asrm (decodeDual w limm)
  | 19 => .of .rorm (decodeDual w limm)
  | 20 => .of .mul64 (decodeMul w limm)
  | 21 => .of .mulu64 (decodeMul w limm)
  | 30 => .of .max (decodeDual w limm)
  | 31 => .of .min (decodeDual w limm)
  | _ => .invalid

/-! ### The encoder -/

/-- The register position of a field (30_encoding.md R103). -/
def RegField.code : RegField → BitVec 6
  | .reg r => BitVec.ofNat 6 r.val
  | .ind .shortFlags => 61
  | .ind .long => 62
  | .ind .shortQuiet => 63

/-- The position of a core register. -/
def regCode (r : CoreReg) : BitVec 6 := BitVec.ofNat 6 r.val

/-- The short indicator for a flag choice (30_encoding.md R103). -/
def shortCode (f : Bool) : BitVec 6 := if f then 61 else 63

/-- The condition code (30_encoding.md R120). -/
def Cond.code : Cond → BitVec 5
  | .al => 0 | .eq => 1 | .ne => 2 | .pl => 3 | .mi => 4 | .cs => 5 | .cc => 6 | .vs => 7
  | .vc => 8 | .gt => 9 | .ge => 10 | .lt => 11 | .le => 12 | .hi => 13 | .ls => 14 | .pnz => 15
  | .ext k => 1#1 ++ k

/-- The `N` field (42_jump_branch_loop.md R203). -/
def SlotMode.code : SlotMode → BitVec 2
  | .nd => 0
  | .d => 1
  | .jd => 2

/-- The `ZZ` field (44_load_store.md R263). -/
def Size.code : Size → BitVec 2
  | .long => 0
  | .byte => 1
  | .word => 2

/-- One bit. -/
def bit (b : Bool) : BitVec 1 := BitVec.ofBool b

/-- A word from its opcode, the fields `A`, `B`, `C` and the low nine bits (30_encoding.md R101). -/
def packWord (i : BitVec 5) (a b c : BitVec 6) (low : BitVec 9) : Word := i ++ a ++ b ++ c ++ low

/-- The low nine bits of the register layout (30_encoding.md R101). -/
def regLow (f : Bool) (q : Cond) : BitVec 9 := bit f ++ 0#3 ++ q.code

/-- `B`, `C` and the low nine bits of an operand pair. -/
def packSrc2 (i : BitVec 5) (a : BitVec 6) (src : Src2) (f : Bool) (q : Cond) : Word × Option Word :=
  match src with
  | .rr b c => (packWord i a (regCode b) (regCode c) (regLow f q), none)
  | .rl b v => (packWord i a (regCode b) 62 (regLow f q), some v)
  | .lr v c => (packWord i a 62 (regCode c) (regLow f q), some v)
  | .ll v => (packWord i a 62 62 (regLow f q), some v)
  | .rs b d => (packWord i a (regCode b) (shortCode f) d, none)
  | .sr d c => (packWord i a (shortCode f) (regCode c) d, none)
  | .ss d => (packWord i a (shortCode f) (shortCode f) d, none)

/-- `B` and the low nine bits of a single operand, `C` being the sub-opcode. -/
def packSrc1 (c : BitVec 6) (o : Single) : Word × Option Word :=
  match o.src with
  | .reg b => (packWord 3 o.dst.code (regCode b) c (regLow o.f o.cc), none)
  | .limm v => (packWord 3 o.dst.code 62 c (regLow o.f o.cc), some v)
  | .short d => (packWord 3 o.dst.code (shortCode o.f) c d, none)

/-- A dual-operand instruction. -/
def packDual (i : BitVec 5) (o : Dual) : Word × Option Word := packSrc2 i o.dst.code o.src o.f o.cc

/-- MUL64 and MULU64: `A` is 63 and the short indicator is free (46_extensions.md R290). -/
def packMul (i : BitVec 5) (o : MulOp) : Word × Option Word := packSrc2 i 63 o.src o.short61 o.cc

/-- The low nine bits of LD opcode 0x00 (44_load_store.md R260 (b)). -/
def loadLow (o : LoadRR) : BitVec 9 := 0#3 ++ bit o.di ++ 0#1 ++ bit o.awb ++ o.size.code ++ bit o.x

/-- LD, register + register (44_load_store.md R260 (b)). -/
def packLoadRR (o : LoadRR) : Word × Option Word :=
  match o.src with
  | .rr b c => (packWord 0 o.dst.code (regCode b) (regCode c) (loadLow o), none)
  | .rl b v => (packWord 0 o.dst.code (regCode b) 62 (loadLow o), some v)
  | .lr v c => (packWord 0 o.dst.code 62 (regCode c) (loadLow o), some v)
  | .ll v => (packWord 0 o.dst.code 62 62 (loadLow o), some v)
  | .rs b _ => (packWord 0 o.dst.code (regCode b) 63 (loadLow o), none)
  | .sr _ c => (packWord 0 o.dst.code 63 (regCode c) (loadLow o), none)
  | .ss _ => (packWord 0 o.dst.code 63 63 (loadLow o), none)

/-- The long-immediate word where a field asks for one. -/
def limmWord (uses : Bool) (limm : Word) : Option Word := if uses then some limm else none

/-- LD, register + offset (44_load_store.md R260 (a)). -/
def packLoadRO (o : LoadRO) : Word × Option Word :=
  (packWord 1 o.dst.code o.base.code (bit o.di ++ 0#1 ++ bit o.awb ++ o.size.code ++ bit o.x) o.off,
    limmWord o.base.isLong o.limm)

/-- LR (45_aux_access.md R280). -/
def packLr (o : LrOp) : Word × Option Word :=
  (packWord 1 o.dst.code o.base.code 16 o.off, limmWord o.base.isLong o.limm)

/-- ST (44_load_store.md R268). -/
def packStore (o : StoreOp) : Word × Option Word :=
  (packWord 2 (bit o.di ++ 0#1 ++ bit o.awb ++ o.size.code ++ 0#1) o.base.code o.data.code o.off,
    limmWord (o.base.isLong || o.data.isLong) o.limm)

/-- SR (45_aux_access.md R280). -/
def packSr (o : SrOp) : Word × Option Word :=
  (packWord 2 16 o.base.code o.data.code o.off, limmWord (o.base.isLong || o.data.isLong) o.limm)

/-- The branch layout (30_encoding.md R101). -/
def packBranch (i : BitVec 5) (o : BranchOp) : Word × Option Word :=
  (i ++ o.l ++ o.n.code ++ o.cc.code, none)

/-- Jcc and JLcc, by their `C` field (42_jump_branch_loop.md R214, R216). -/
def packJump (c : BitVec 6) (o : JumpOp) : Word × Option Word :=
  let low := bit o.f ++ 0#1 ++ o.n.code ++ o.cc.code
  match o.src with
  | .reg b => (packWord 7 0 (regCode b) c low, none)
  | .limm v => (packWord 7 0 62 c low, some v)

/-- The words of an instruction: the first, and the long immediate if it has one. -/
def encode : Instr → Word × Option Word
  | .ldRR o => packLoadRR o
  | .ldRO o => packLoadRO o
  | .lr o => packLr o
  | .st o => packStore o
  | .sr o => packSr o
  | .flag o => packSrc1 0 o
  | .asr o => packSrc1 1 o
  | .lsr o => packSrc1 2 o
  | .ror o => packSrc1 3 o
  | .rrc o => packSrc1 4 o
  | .sexb o => packSrc1 5 o
  | .sexw o => packSrc1 6 o
  | .extb o => packSrc1 7 o
  | .extw o => packSrc1 8 o
  | .swap o => packSrc1 9 o
  | .norm o => packSrc1 10 o
  | .brk => (brkWord, none)
  | .sleep => (sleepWord, none)
  | .swi => (swiWord, none)
  | .bcc o => packBranch 4 o
  | .blcc o => packBranch 5 o
  | .lpcc o => packBranch 6 o
  | .jcc o => packJump 0 o
  | .jlcc o => packJump 1 o
  | .add o => packDual 8 o
  | .adc o => packDual 9 o
  | .sub o => packDual 10 o
  | .sbc o => packDual 11 o
  | .and o => packDual 12 o
  | .or o => packDual 13 o
  | .bic o => packDual 14 o
  | .xor o => packDual 15 o
  | .aslm o => packDual 16 o
  | .lsrm o => packDual 17 o
  | .asrm o => packDual 18 o
  | .rorm o => packDual 19 o
  | .max o => packDual 30 o
  | .min o => packDual 31 o
  | .mul64 o => packMul 20 o
  | .mulu64 o => packMul 21 o
  | .nop => (nopWord, none)
  | .mov o => packDual 12 o.both
  | .asl o => packDual 8 o.both
  | .rlc o => packDual 9 o.both
  | .rol o => packDual 8 o.both

/-! ### The table's numbering -/

/-- The four bytes of a word as a little-endian memory holds them, lowest address first (20_memory.md R71). -/
def wordBytes (w : Word) : List Byte :=
  [w.extractLsb' 0 8, w.extractLsb' 8 8, w.extractLsb' 16 8, w.extractLsb' 24 8]

/-- The word a little-endian memory reads from four bytes (20_memory.md R71). -/
def bytesWord : List Byte → Word
  | [b0, b1, b2, b3] => b3 ++ b2 ++ b1 ++ b0
  | _ => 0

/-- The instruction read from table bits: bits 31:0 are the first word, bits 63:32 the long immediate, every bit
from `nbits` on being 0. -/
def decodeTableWord (nbits w : Nat) : Option Instr :=
  let v := w % 2 ^ nbits
  let first := bytesWord (wordBytes (BitVec.ofNat 32 v))
  let limm := bytesWord (wordBytes (BitVec.ofNat 32 (v / 2 ^ 32)))
  match decode first limm with
  | .instr i => some i
  | _ => none

end Sys2Proof
end

