-- ==== Sys2Proof/Machine/State.lean ====
section
/-! DEFINITION. The machine's state (10_state.md), the reasons a step can stop, and the state after reset. -/

namespace Sys2Proof.Machine

/-- Why the machine stops on what a program does at run time. Both are safe: the model stops where the source
gives no behaviour and the spec says `refuse`. -/
inductive Fault where
  /-- A misaligned word or long-word access the memory system does not support (20_memory.md R74, decision D2).
  Raised by LD, ST and host memory accesses. Safe. -/
  | misaligned
  /-- A fetch of a long word the program itself has stored to (20_memory.md R85 (b), decision D10). Raised by the
  fetch of an instruction or of its long immediate. Safe. -/
  | staleFetch
deriving DecidableEq, Repr

/-- Why an instruction or a host access has no meaning. All are safe: the model stops where the spec says
`refuse`. -/
inductive Refusal where
  /-- The meaning is not written yet. Raised by no arm of this model. Safe. -/
  | notModelled (mnemonic : String)
  /-- The word is a reserved form (30_encoding.md R138 (d)). Raised by the fetch. Safe. -/
  | undecodable (r : DecodeRefusal)
  /-- A branch, jump or loop instruction executed in a delay slot (42_jump_branch_loop.md R206, decision D29).
  Raised by Bcc, BLcc, LPcc, Jcc, JLcc. Safe. -/
  | branchInSlot
  /-- A two-word instruction behind a branch with `N` = D or JD (42_jump_branch_loop.md R205, decision D42).
  Raised by Bcc, BLcc, LPcc, Jcc, JLcc. Safe. -/
  | longInSlot
  /-- A write to r57, r58 or r59 when the multiplier is present (10_state.md R24, decision D39). Raised by any
  instruction, or the host, writing a core register. Safe. -/
  | readOnlyCore
  /-- An SR, or a host write, to a read-only auxiliary register (45_aux_access.md R286, decision D19). Safe. -/
  | readOnlyAux
  /-- FLAG with `F` set or with `A` naming a register (41_single_operand.md R190, decision D38). Safe. -/
  | flagForm
  /-- A host access that Table 18 forbids while the core runs (60_exceptions.md R355). Safe. -/
  | hostWhileRunning
  /-- A host write to DEBUG of SS while running, or of IS without SS (60_exceptions.md R360, R362). Safe. -/
  | hostStep
  /-- A host access to invalid memory, for which the spec gives nothing (20_memory.md R78). Safe. -/
  | hostMemory
deriving DecidableEq, Repr

/-- Memory: the bytes that differ from the unlisted value 0, at rising addresses (10_state.md R56). -/
abbrev Memory := List Host.Cell

/-- The canonical form: addresses rise strictly, lie below 2^32, and no listed byte is the unlisted value. -/
abbrev Memory.wf (m : Memory) : Prop :=
  m.Pairwise (fun x y => x.1 < y.1) ∧ ∀ c ∈ m, c.2 ≠ 0 ∧ c.1 < 2 ^ 32

/-- The delay-slot context (10_state.md R59 (a)). -/
inductive Slot where
  /-- The next instruction is an ordinary one. -/
  | none
  /-- The branch before had `N` = D and did not jump: its slot is an ordinary instruction of the same unit, and
  the boundary before it is no recognition point (60_exceptions.md R333). -/
  | hold
  /-- The next instruction is an executed delay slot; control then goes to `target`. -/
  | run (target : PAddr)
deriving DecidableEq, Repr

/-- A value that a written register had before the write, and how many instructions ago that was. -/
structure Lag where
  old : PAddr
  age : Nat
deriving DecidableEq, Repr

/-- A store the core has executed and the memory controller may not have performed yet: the access, what memory
held there before it, and the draw of the ST (10_state.md R58; 20_memory.md R82). -/
structure Buffered where
  addr : Word
  size : Size
  old : Word
  since : Nat
deriving DecidableEq, Repr

/-- A long word the host has changed while the core ran, as it was before; a fetch may still see it
(20_memory.md R85 (c)). -/
structure OldCode where
  word : Nat
  old : Word
  since : Nat
deriving DecidableEq, Repr

/-- What the host can do (60_exceptions.md R355). -/
inductive HostAction where
  | readCore (r : CoreReg)
  | writeCore (r : CoreReg) (v : Word)
  | readAux (a : Word)
  | writeAux (a : Word) (v : Word)
  | readMem (a : Word) (size : Size)
  | writeMem (a : Word) (size : Size) (v : Word)
deriving DecidableEq, Repr

/-- What one step meets from outside: the hard reset signal (60_exceptions.md R325), one host access (R355), or
a core step with the asserted interrupt lines (R322). -/
inductive Input where
  | reset
  | host (a : HostAction)
  | lines (asserted : List Nat)
deriving DecidableEq, Repr

/-- The whole machine. -/
structure State where
  /-- The system's parameters (00_scope.md R7), never changed by a step. -/
  cfg : Config
  /-- r0 to r31 (10_state.md R20, R21). -/
  regs : Vector Word 32
  /-- The multiply result `MR`, seen as r57 to r59 (10_state.md R24). -/
  mr : BitVec 64
  /-- LP_COUNT, r60 (10_state.md R25). -/
  lpCount : PAddr
  /-- LP_START (10_state.md R44). -/
  lpStart : PAddr
  /-- LP_END (10_state.md R45). -/
  lpEnd : PAddr
  /-- The program counter (10_state.md R30). -/
  pc : PAddr
  /-- The flags, the interrupt enables and the halt bit (10_state.md R32). -/
  z : Bool
  n : Bool
  c : Bool
  v : Bool
  e1 : Bool
  e2 : Bool
  h : Bool
  /-- The semaphore bits the processor owns, and those the host owns (20_memory.md R90). -/
  semArc : Word
  semHost : Word
  /-- Destinations of the loads that may still be outstanding; DEBUG.LD is 0 if there is none (10_state.md R48,
  R49, R57). -/
  loads : List RegField
  /-- DEBUG: self halt; breakpoint halt; sleep; cycle and instruction step (10_state.md R48). -/
  sh : Bool
  bh : Bool
  zz : Bool
  ss : Bool
  is : Bool
  /-- Memory as the core sees it, its own stores performed (10_state.md R56; 20_memory.md R80). -/
  mem : Memory
  /-- The stores the host may not see yet, newest first (10_state.md R58; 20_memory.md R82). -/
  buffer : List Buffered
  /-- The delay-slot context (10_state.md R59 (a)). -/
  slot : Slot
  /-- LP_START and LP_END as they were before an LPcc, for one more comparison (42_jump_branch_loop.md R221). -/
  lpLag : Option (PAddr × PAddr)
  /-- Values LP_START, LP_END and LP_COUNT had before recent writes, newest first
  (70_reset_and_hazards.md R404, R406, R407). -/
  startHist : List Lag
  endHist : List Lag
  countHist : List Lag
  /-- Instructions until the last multiply is certainly complete (70_reset_and_hazards.md R412). -/
  mulBusy : Nat
  /-- The upper half of the last product, which may still be on its way (70_reset_and_hazards.md R412). -/
  mulHigh : Word
  /-- The PC the host sees where it is not `pc` (10_state.md R60; 60_exceptions.md R363). -/
  hostPc : Option PAddr
  /-- Long words the program has stored to since reset or the last halt (20_memory.md R85 (b)). -/
  stored : List Nat
  /-- Code the host changed while the core ran, as it was before, oldest change first (20_memory.md R85 (c)). -/
  oldCode : List OldCode
  /-- The inputs the coming steps meet (10_state.md R61). The model's own. -/
  inputs : List Input
  /-- What the host's last read returned. The model's own. -/
  hostData : Word
  /-- The counter the free values are applied to. The model's own. -/
  draws : Nat
deriving DecidableEq, Repr

/-- The outcome of a step of this machine. -/
abbrev Result := Host.Outcome State Fault Refusal

/-- The machine right after reset (10_state.md R65). r0 to r31 and MR are 0 where the spec says `any`: DESIGN
CHOICE, unsafe (log 2, log 3). Memory lists nothing (log 4). -/
def State.reset : State where
  cfg := {}
  regs := Vector.replicate 32 0
  mr := 0
  lpCount := 0
  lpStart := 0
  lpEnd := 0
  pc := 0
  z := false
  n := false
  c := false
  v := false
  e1 := false
  e2 := false
  h := false
  semArc := 0
  semHost := 0
  loads := []
  sh := false
  bh := false
  zz := false
  ss := false
  is := false
  mem := []
  buffer := []
  slot := .none
  lpLag := none
  startHist := []
  endHist := []
  countHist := []
  mulBusy := 0
  mulHigh := 0
  hostPc := none
  stored := []
  oldCode := []
  inputs := []
  hostData := 0
  draws := 0

end Sys2Proof.Machine
end

