-- ==== Sys2Proof/Machine/Ops.lean ====
section
/-! DEFINITION. The named operations the meanings share: parameters, memory, the loop rule, registers, status,
taking an exception and returning from one. -/

namespace Sys2Proof.Machine

/-! ### Outcomes -/

/-- Go on with the next state, if there is one. -/
def andThen (r : Result) (k : State → Result) : Result :=
  match r with
  | .next s => k s
  | .fault f => .fault f
  | .refused q => .refused q

/-! ### The system's parameters (00_scope.md R7) -/

/-- `MEM_VALID(addr, n, kind)` (20_memory.md R78). -/
def memValid (cfg : Config) (addr bytes : Nat) (kind : AccessKind) : Bool :=
  !cfg.invalid.any fun r => r.kind == kind && r.bytes == bytes && decide (r.lo ≤ addr) && decide (addr ≤ r.hi)

/-- `MISALIGNED_OK(addr, n)` (20_memory.md R74). -/
def misalignedOk (cfg : Config) (addr bytes : Nat) : Bool :=
  cfg.misaligned.any fun r => r.bytes == bytes && decide (r.lo ≤ addr) && decide (addr ≤ r.hi)

/-- A byte field of IDENTITY at its place. -/
def placeByte (b : Byte) (pos : Nat) : Word := b.setWidth 32 <<< pos

/-- The IDENTITY word; ARCVER is 8 for this hardware (10_state.md R47). The places are PRESUMED, unsafe
(log 8). -/
def identityWord (cfg : Config) : Word :=
  placeByte cfg.mancode cfg.identityBits.mancode ||| placeByte cfg.manver cfg.identityBits.manver
    ||| placeByte cfg.arcnum cfg.identityBits.arcnum ||| placeByte 8 cfg.identityBits.arcver

/-- A build configuration register, if implemented (10_state.md R50). -/
def bcrAt (cfg : Config) (addr : Nat) : Option Word :=
  (cfg.bcr.find? fun p => p.1 == addr).map Prod.snd

/-- The implemented semaphore bits, 0 to `N_SEM` - 1 (20_memory.md R90). -/
def semMask (cfg : Config) : Word := BitVec.ofNat 32 (2 ^ cfg.nSem - 1)

/-- Instructions within which a multiply may still be running (46_extensions.md R294). -/
def mulCycles (cfg : Config) : Nat := if cfg.mulFast then 4 else 10

/-- Whether a major opcode is implemented: the basecase codes always, the library codes with their option
(30_encoding.md R130, R135). -/
def opcodeValid (cfg : Config) (w : Word) : Bool :=
  let i := (opcodeOf w).toNat
  if i < 16 then true
  else if i < 20 then cfg.hasBarrel
  else if i < 22 then cfg.hasMul
  else if i < 30 then false
  else cfg.hasMinMax

/-! ### Memory (20_memory.md R70, R71) -/

/-- The byte at an address. An unlisted byte is 0: DESIGN CHOICE, unsafe (log 4). -/
def Memory.byte : Memory → Nat → Byte
  | [], _ => 0
  | (k, b) :: t, a => if k = a then b else Memory.byte t a

/-- The memory with one byte changed, in canonical form. -/
def Memory.setByte : Memory → Nat → Byte → Memory
  | [], a, b => if b = 0 then [] else [(a, b)]
  | (k, c) :: t, a, b =>
    if k < a then (k, c) :: Memory.setByte t a b
    else if k = a then (if b = 0 then t else (a, b) :: t)
    else if b = 0 then (k, c) :: t
    else (a, b) :: (k, c) :: t

/-- Bytes of an access size (44_load_store.md R263). -/
def Size.bytes : Size → Nat
  | .long => 4
  | .byte => 1
  | .word => 2

/-- The bytes at `n` addresses from `a` on; addresses wrap modulo 2^32 (20_memory.md R70; log 46). -/
def Memory.readList (m : Memory) (a : Word) : Nat → List Byte
  | 0 => []
  | n + 1 => m.byte a.toNat :: Memory.readList m (a + 1) n

/-- The memory with bytes written from `a` on. -/
def Memory.writeList (m : Memory) (a : Word) : List Byte → Memory
  | [] => m
  | b :: bs => Memory.writeList (m.setByte a.toNat b) (a + 1) bs

/-- Bytes in memory order as the low-first order of a value (20_memory.md R71). -/
def byteOrder (e : Endian) (l : List Byte) : List Byte :=
  match e with
  | .little => l
  | .big => l.reverse

/-- The value of bytes, lowest first. -/
def joinBytes : List Byte → Word
  | [] => 0
  | b :: bs => (joinBytes bs <<< 8) ||| b.setWidth 32

/-- The low `n` bytes of a value, lowest first. -/
def splitBytes : Nat → Word → List Byte
  | 0, _ => []
  | n + 1, v => v.setWidth 8 :: splitBytes n (v >>> 8)

/-- `MemRead(a, n)`, zero-extended (20_memory.md R71). -/
def memRead (e : Endian) (m : Memory) (a : Word) (z : Size) : Word :=
  joinBytes (byteOrder e (m.readList a (Size.bytes z)))

/-- `MemWrite(a, n, v)` (20_memory.md R71). -/
def memWrite (e : Endian) (m : Memory) (a : Word) (z : Size) (v : Word) : Memory :=
  m.writeList a (byteOrder e (splitBytes (Size.bytes z) v))

/-- Whether an access is aligned to its size (20_memory.md R73). -/
def aligned (a : Word) (z : Size) : Bool := a.toNat % Size.bytes z == 0

/-- Whether the memory system performs the access (20_memory.md R73, R74). -/
def accessOk (cfg : Config) (a : Word) (z : Size) : Bool := aligned a z || misalignedOk cfg a.toNat (Size.bytes z)

/-- The long words that bytes from `a` on belong to, added to a list; code lies in the first 2^26 bytes
(20_memory.md R77, R85 (b)). -/
def noteStored (a : Word) : Nat → List Nat → List Nat
  | 0, l => l
  | n + 1, l =>
    noteStored (a + 1) n (if a.toNat < 2 ^ 26 && !l.contains (a.toNat / 4) then (a.toNat / 4) :: l else l)

/-- The byte address of a long-word address: `{PC, 00}`, zero-extended (10_state.md R30). -/
def codeAddr (p : PAddr) : Word := (p ++ 0#2).setWidth 32

/-- The older word of a change by the host, with a further change of memory made in it too: only the host's change is
not seen yet (20_memory.md R72, R85 (c)). -/
def OldCode.redo (e : Endian) (f : Memory → Memory) (c : OldCode) : OldCode :=
  let p := codeAddr (BitVec.ofNat 24 c.word)
  { c with old := memRead e (f (memWrite e [] p .long c.old)) p .long }

/-- Whether two accesses have a byte in common; addresses wrap (20_memory.md R70). -/
def overlap (a : Word) (z : Size) (b : Word) (y : Size) : Bool :=
  decide ((b - a).toNat < Size.bytes z) || decide ((a - b).toNat < Size.bytes y)

/-- An access of the core: the stores buffered for one of its bytes are performed before it completes
(20_memory.md R82). -/
def State.perform (s : State) (a : Word) (z : Size) : State :=
  { s with buffer := s.buffer.filter fun e => !overlap e.addr e.size a z }

/-- The core's own store: memory as the core sees it, the store buffered, the note that the code there is stale, and
the store made too in the words a fetch may still see for the host's changes (20_memory.md R80, R82, R85). -/
def State.store (s : State) (a : Word) (z : Size) (v : Word) : State :=
  { s with
    mem := memWrite s.cfg.endian s.mem a z v
    buffer := ⟨a, z, memRead s.cfg.endian s.mem a z, s.draws⟩ :: (s.perform a z).buffer
    stored := noteStored a (Size.bytes z) s.stored
    oldCode := s.oldCode.map (OldCode.redo s.cfg.endian fun m => memWrite s.cfg.endian m a z v) }

/-- Whether the host sees a buffered store: from a time of its own on that is free, and at the latest when the
core is halted with no load outstanding (20_memory.md R82, decision D9; log 49). -/
def State.performed (s : State) (e : Buffered) : Bool :=
  (s.h && s.loads.isEmpty) || decide (e.since + Config.freeIndex e.since .storeSeen ≤ s.draws)

/-- The buffer without the stores performed by now. -/
def State.settle (s : State) : State := { s with buffer := s.buffer.filter fun e => !s.performed e }

/-- Memory without some stores. -/
def undo (e : Endian) (l : List Buffered) (m : Memory) : Memory :=
  l.foldl (fun m b => memWrite e m b.addr b.size b.old) m

/-- Memory as the host sees it (20_memory.md R82). -/
def State.hostMem (s : State) : Memory := undo s.cfg.endian s.settle.buffer s.mem

/-- Whether a fetch still sees the long word as it was before a host's change: until a time that is free
(20_memory.md R85 (c); log 29). -/
def State.unseen (s : State) (p : PAddr) (e : OldCode) : Bool :=
  e.word == p.toNat && decide (s.draws < e.since + Config.freeIndex e.since .codeSeen)

/-- The long word fetched at `p` (20_memory.md R72): memory, or what was there before a change by the host that
the fetch does not see yet (R85 (c)). -/
def State.codeWord (s : State) (p : PAddr) : Word :=
  match s.oldCode.find? (s.unseen p) with
  | some e => e.old
  | none => memRead s.cfg.endian s.mem (codeAddr p) .long

/-- Whether a fetch at `p` is from valid memory (20_memory.md R78). -/
def State.fetchValid (s : State) (p : PAddr) : Bool := memValid s.cfg (codeAddr p).toNat 4 .fetch

/-- Whether the program itself has stored to the long word at `p` (20_memory.md R85 (b)). -/
def State.stale (s : State) (p : PAddr) : Bool := s.stored.contains p.toNat

/-! ### Free values (log 5) -/

/-- A free 32-bit value of this instruction. -/
def State.freeWord (s : State) (u : FreeUse) : Word := Config.freeWord s.draws u

/-- A free truth value of this instruction. -/
def State.freeBit (s : State) (u : FreeUse) : Bool := Config.freeBit s.draws u

/-- A free program address of this instruction. -/
def State.freeAddr (s : State) (u : FreeUse) : PAddr := (s.freeWord u).setWidth 24

/-- One of the values a lagging register may still show: entry `i` of the history, or the current value. -/
def pickLag : List Lag → Nat → PAddr → PAddr
  | [], _, cur => cur
  | e :: _, 0, _ => e.old
  | _ :: t, i + 1, cur => pickLag t i cur

/-- One instruction later; entries older than `limit` instructions are over. -/
def ageLags (limit : Nat) : List Lag → List Lag
  | [] => []
  | e :: t => if e.age < limit then ⟨e.old, e.age + 1⟩ :: ageLags limit t else ageLags limit t

/-- The windows of LP_START, LP_END and LP_COUNT one fetch later (70_reset_and_hazards.md R404, R406, R407). -/
def State.aged (s : State) : State :=
  { s with
    startHist := ageLags 2 s.startHist
    endHist := ageLags 2 s.endHist
    countHist := ageLags 3 s.countHist }

/-- The start of an instruction: a fresh draw, and every hazard window one instruction shorter
(70_reset_and_hazards.md R400, R404, R406, R407, R412). -/
def State.tick (s : State) : State := { s.aged with draws := s.draws + 1, mulBusy := s.mulBusy - 1 }

/-! ### The loop mechanism (42_jump_branch_loop.md R225 to R235) -/

/-- LP_START and LP_END as in force for the comparison of an instruction's fetch number `k`: the values before
an LPcc (R221), else the current ones or, up to two instructions after an SR, possibly the older ones
(70_reset_and_hazards.md R404). -/
def State.loopBounds (s : State) (k : Nat) : PAddr × PAddr :=
  match s.lpLag with
  | some b => b
  | none =>
    (pickLag s.startHist (Config.freeIndex s.draws (.loopStart k)) s.lpStart,
      pickLag s.endHist (Config.freeIndex s.draws (.loopEnd k)) s.lpEnd)

/-- Whether the fetch at `a` is the loop's last (R230). -/
def State.loopHit (s : State) (k : Nat) (a : PAddr) : Bool := a + 1 == (s.loopBounds k).2

/-- Which of the values LP_COUNT had the loop test meets: an index into its history, or past its end
(70_reset_and_hazards.md R407). -/
def State.countIndex (s : State) (k : Nat) : Nat := Config.freeIndex s.draws (.loopCount k)

/-- The value of LP_COUNT the loop tests (R230; 70_reset_and_hazards.md R407). -/
def State.testCount (s : State) (k : Nat) : PAddr := pickLag s.countHist (s.countIndex k) s.lpCount

/-- The address of the fetch that follows the one at `a` (R230, `loopnext`). -/
def State.loopAddr (s : State) (k : Nat) (a : PAddr) : PAddr :=
  if s.loopHit k a && s.testCount k != 1 then (s.loopBounds k).1 else a + 1

/-- A history whose entry `i` is decremented and whose older entries are over; none if there is no entry `i`. -/
def decLag : List Lag → Nat → List Lag
  | [], _ => []
  | e :: _, 0 => [⟨e.old - 1, e.age⟩]
  | e :: t, i + 1 => match decLag t i with
    | [] => []
    | t' => e :: t'

/-- The loop's decrement: of LP_COUNT, or of the older value it tested, the write that is still under way then
winning (R230; 70_reset_and_hazards.md R407). -/
def State.loopDecrement (s : State) (k : Nat) : State :=
  match decLag s.countHist (s.countIndex k) with
  | [] => { s with lpCount := s.lpCount - 1, countHist := [] }
  | l => { s with countHist := l }

/-- The older bounds of an LPcc serve one comparison only (R221). -/
def State.dropLag (s : State) : State := { s with lpLag := none }

/-- The effect of the fetch at `a` on the loop state (R230). -/
def State.loopFetch (s : State) (k : Nat) (a : PAddr) : State :=
  (if s.loopHit k a then s.loopDecrement k else s).dropLag

/-- The address after the instruction at `pc`, the long immediate being fetched too if it has one
(00_scope.md R10; R235). -/
def State.nextAddr (s : State) (long : Bool) : PAddr :=
  if long then (s.loopFetch 0 s.pc).loopAddr 1 (s.loopAddr 0 s.pc) else s.loopAddr 0 s.pc

/-- The loop state after those fetches. -/
def State.fetched (s : State) (long : Bool) : State :=
  if long then (s.loopFetch 0 s.pc).loopFetch 1 (s.loopAddr 0 s.pc) else s.loopFetch 0 s.pc

/-- The end of an instruction: the pc goes to `next`, or to the branch target after an executed delay slot
(42_jump_branch_loop.md R203, R204). -/
def State.retire (s : State) (next : PAddr) : State :=
  { s with
    pc := match s.slot with
      | .run target => target
      | _ => next
    slot := .none }

/-! ### Core registers (10_state.md R20 to R26) -/

/-- LP_COUNT as an operand (10_state.md R25; 70_reset_and_hazards.md R406). -/
def State.countRead (s : State) : PAddr :=
  pickLag (s.countHist.filter fun e => decide (e.age ≤ 2)) (Config.freeIndex s.draws .countRead) s.lpCount

/-- A core register as an operand; an unimplemented one reads as a free value (10_state.md R23 to R25). -/
def State.readReg (s : State) (u : FreeUse) (r : CoreReg) : Word :=
  if h : r.val < 32 then s.regs[r.val]
  else if r.val = 60 then s.countRead.setWidth 32
  else if s.cfg.hasMul && r.val == 57 then s.mr.extractLsb' 0 32
  else if s.cfg.hasMul && r.val == 58 then s.mr.extractLsb' 16 32
  else if s.cfg.hasMul && r.val == 59 then s.mr.extractLsb' 32 32
  else s.freeWord u

/-- Whether a position is one of the multiply result registers (10_state.md R24). -/
def isMulReg (cfg : Config) (r : CoreReg) : Bool := cfg.hasMul && decide (57 ≤ r.val ∧ r.val ≤ 59)

/-- An instruction that reads or writes a register waits for the loads to it (70_reset_and_hazards.md R430;
44_load_store.md R272). -/
def State.arrive (s : State) (r : CoreReg) : State := { s with loads := s.loads.filter fun d => d != .reg r }

/-- The wait for a destination, which is there whatever the condition (70_reset_and_hazards.md R430). -/
def State.awaitDst (s : State) (d : RegField) : State :=
  match d with
  | .reg r => s.arrive r
  | .ind _ => s

/-- Reading a register waits for the loads to it, and reading a multiply result for the multiply
(70_reset_and_hazards.md R412, R430). -/
def State.touch (s : State) (r : CoreReg) : State :=
  if isMulReg s.cfg r then { s.arrive r with mulBusy := 0 } else s.arrive r

/-- A write of LP_COUNT; the value before it stays visible for a while (70_reset_and_hazards.md R406, R407). -/
def State.setCount (s : State) (v : PAddr) : State :=
  { s with lpCount := v, countHist := ⟨s.lpCount, 0⟩ :: s.countHist }

/-- A core register written, after the loads to it; unimplemented ones ignore it (10_state.md R23, R25;
70_reset_and_hazards.md R430). -/
def State.setReg (s : State) (r : CoreReg) (v : Word) : State :=
  if h : r.val < 32 then { s.arrive r with regs := s.regs.set r.val v }
  else if r.val = 60 then (s.arrive r).setCount (v.setWidth 24)
  else s.arrive r

/-- A write of a core register by an instruction or the host; r57 to r59 are read-only (10_state.md R24,
decision D39). -/
def State.writeReg (s : State) (r : CoreReg) (v : Word) : Result :=
  if isMulReg s.cfg r then .refused .readOnlyCore else .next (s.setReg r v)

/-- A result written to a destination field; an immediate indicator discards it (30_encoding.md R113). -/
def State.writeDst (s : State) (d : RegField) (v : Word) : Result :=
  match d with
  | .reg r => s.writeReg r v
  | .ind _ => .next s

/-! ### Status, halting, sleeping -/

/-- `StatusWord(p)` (10_state.md R41). -/
def State.statusWord (s : State) (p : PAddr) : Word :=
  BitVec.ofBool s.z ++ BitVec.ofBool s.n ++ BitVec.ofBool s.c ++ BitVec.ofBool s.v ++ BitVec.ofBool s.e2 ++
    BitVec.ofBool s.e1 ++ BitVec.ofBool s.h ++ BitVec.ofBool s.cfg.statusR24 ++ p

/-- The pc written, no delay slot being pending (42_jump_branch_loop.md R203). -/
def State.goTo (s : State) (p : PAddr) : State := { s with pc := p, slot := .none }

/-- The halted state, the PC the host sees being given (60_exceptions.md R356, R363 to R365). -/
def State.halt (s : State) (seen : Option PAddr) : State :=
  { s with h := true, hostPc := seen, stored := [] }

/-! ### Exceptions (60_exceptions.md R320 to R337) -/

/-- The three levels (60_exceptions.md R320). -/
inductive Level where
  | exc
  | l2
  | l1
deriving DecidableEq, Repr

/-- `VectorAddr(k)` (60_exceptions.md R321). -/
def vectorAddr (cfg : Config) (k : Nat) : PAddr := cfg.vectorBase + BitVec.ofNat 24 (2 * k)

/-- The link register of a level (60_exceptions.md R321, R330). -/
def linkReg : Level → CoreReg
  | .l1 => 29
  | .l2 => 30
  | .exc => 30

/-- The enables, sleep, slot and loop context and the pc after entry to vector `k` (60_exceptions.md R330,
R332). -/
def State.toVector (s : State) (k : Nat) (lv : Level) : State :=
  { s with
    e1 := false
    e2 := match lv with
      | .l1 => s.e2
      | _ => false
    zz := false
    slot := .none
    lpLag := none
    pc := vectorAddr s.cfg k }

/-- Taking an exception or interrupt, `ret` being the address saved: the STATUS word in the level's link
register, the enables of that level and below cleared, sleep ended, the pc at the vector
(60_exceptions.md R330 to R332). The delay-slot context is over. -/
def State.enter (s : State) (k : Nat) (lv : Level) (ret : PAddr) : State :=
  (s.setReg (linkReg lv) (s.statusWord ret)).toVector k lv

/-- The memory error: vector 1, the saved address free (60_exceptions.md R326). -/
def State.memoryError (s : State) : State := s.enter 1 .exc (s.freeAddr .savedPc)

/-- The address an instruction error or SWI saves: the branch target in a delay slot, else `next`
(60_exceptions.md R327, R337). -/
def State.resumeAddr (s : State) (next : PAddr) : PAddr :=
  match s.slot with
  | .run target => target
  | _ => next

/-- The instruction error of an opcode that is not implemented, at `pc`: vector 2. With a long-immediate
indicator in the word the saved address is `next` or `loopnext(next)`, the source leaving it open
(60_exceptions.md R327). -/
def State.instructionError (s : State) (long : Bool) : State :=
  let t := s.tick
  let next := t.loopAddr 0 t.pc
  let u := t.loopFetch 0 t.pc
  let ret := if long && u.freeBit .savedPc then u.loopAddr 1 next else next
  u.enter 2 .exc (u.resumeAddr ret)

/-- Return from an exception or interrupt, the pc going to the address of the same word: flags and enables from
bits 31:26 of the saved STATUS word; H and bit 24 are ignored (60_exceptions.md R339). It is the jump with `F` through
the link register, and any other jump with `F` (42_jump_branch_loop.md R214). -/
def State.loadStatus (s : State) (w : Word) : State :=
  { s with
    z := w.getLsbD 31, n := w.getLsbD 30, c := w.getLsbD 29, v := w.getLsbD 28
    e2 := w.getLsbD 27, e1 := w.getLsbD 26 }

/-! ### Auxiliary registers (10_state.md R40 to R53) -/

/-- DEBUG as a bit at its place (10_state.md R48). -/
def debugBit (b : Bool) (pos : Nat) : Word := if b then 1#32 <<< pos else 0

/-- DEBUG as it reads, LD being given; IS, FH and SS read 0 (10_state.md R48). -/
def State.debugWord (s : State) (ld : Bool) : Word :=
  debugBit ld s.cfg.debugBits.ld ||| debugBit s.sh s.cfg.debugBits.sh ||| debugBit s.bh s.cfg.debugBits.bh |||
    debugBit s.zz s.cfg.debugBits.zz

/-- DEBUG.LD: 0 if no load is outstanding, else free (10_state.md R49; log 23). -/
def State.loadPending (s : State) : Bool := !s.loads.isEmpty && s.freeBit .loadPending

/-- An unimplemented address, and a BCR that is not there, read as IDENTITY (10_state.md R50, R53). -/
def State.otherAux (s : State) (a : Word) : Word :=
  if 0x60 ≤ a.toNat ∧ a.toNat ≤ 0x7F then (bcrAt s.cfg a.toNat).getD (identityWord s.cfg) else identityWord s.cfg

/-- `AuxRead(addr)` by either agent, the STATUS word and the semaphore bits being the agent's own
(45_aux_access.md R285). MULHI is write-only: a free value. -/
def State.auxRead (s : State) (a status sem : Word) : Word :=
  if a = 0 then status
  else if a = 1 then sem
  else if a = 2 then s.lpStart.setWidth 32
  else if a = 3 then s.lpEnd.setWidth 32
  else if a = 4 then identityWord s.cfg
  else if a = 5 then s.debugWord s.loadPending
  else if a = 0x12 ∧ s.cfg.hasMul then s.freeWord .result
  else s.otherAux a

/-- A read of DEBUG that found no load outstanding: none is, until the next LD (10_state.md R48). -/
def State.auxSeen (s : State) (a : Word) : State := if a = 5 ∧ s.loadPending = false then { s with loads := [] } else s

/-- The bits agent X owns after it writes `v`, the other agent owning `other` (20_memory.md R91). -/
def semClaim (mask other v : Word) : Word := v &&& ~~~other &&& mask

/-- The upper half of MR after a write of MULHI: while a multiply is under way the product's half may win
(70_reset_and_hazards.md R412). -/
def State.mulHiAfter (s : State) (v : Word) : Word :=
  if s.mulBusy = 0 then v else if s.freeBit .mulHi then s.mulHigh else v

/-- A write of MULHI (10_state.md R51). -/
def State.writeMulHi (s : State) (v : Word) : State :=
  { s with mr := s.mulHiAfter v ++ s.mr.extractLsb' 0 32 }

/-- `AuxWrite(addr, v)` by the core's SR (45_aux_access.md R286). -/
def State.auxWrite (s : State) (a v : Word) : Result :=
  if a = 0 then .refused .readOnlyAux
  else if a = 1 then .next { s with semArc := semClaim (semMask s.cfg) s.semHost v }
  else if a = 2 then .next { s with lpStart := v.setWidth 24, startHist := ⟨s.lpStart, 0⟩ :: s.startHist }
  else if a = 3 then .next { s with lpEnd := v.setWidth 24, endHist := ⟨s.lpEnd, 0⟩ :: s.endHist }
  else if a = 4 ∨ a = 5 then .refused .readOnlyAux
  else if 0x60 ≤ a.toNat ∧ a.toNat ≤ 0x7F then .refused .readOnlyAux
  else if a = 0x12 ∧ s.cfg.hasMul then .next (s.writeMulHi v)
  else .next s

end Sys2Proof.Machine
end

