-- ==== Sys2Proof/Machine/Operands.lean ====
section
/-! DEFINITION. Operand values (30_encoding.md R110) and the start of an instruction. -/

namespace Sys2Proof.Machine

/-- The short immediate: "always sign extended to 32 bits before use" (30_encoding.md R103). -/
def shortImm (d : BitVec 9) : Word := d.signExtend 32

/-- The state in which an instruction reads its operands: the fetches of its words, and so the loop's
decrement, come first (00_scope.md R10; 42_jump_branch_loop.md R230). -/
def State.issue (s : State) (long : Bool) : State := s.tick.fetched long

/-- The fall-through address, `next` of 00_scope.md R10. -/
def State.fallThrough (s : State) (long : Bool) : PAddr := s.tick.nextAddr long

/-- The one operand of a single-operand instruction (41_single_operand.md R170). -/
def State.val (s : State) : Src1 → Word
  | .reg b => s.readReg .operand1 b
  | .limm v => v
  | .short d => shortImm d

/-- The reads of that operand, as the multiplier sees them. -/
def State.touch1 (s : State) : Src1 → State
  | .reg b => s.touch b
  | _ => s

/-- Operand 1 (30_encoding.md R110). -/
def State.val1 (s : State) : Src2 → Word
  | .rr b _ | .rl b _ | .rs b _ => s.readReg .operand1 b
  | .lr v _ | .ll v => v
  | .sr d _ | .ss d => shortImm d

/-- Operand 2 (30_encoding.md R110). -/
def State.val2 (s : State) : Src2 → Word
  | .rr _ c | .lr _ c | .sr _ c => s.readReg .operand2 c
  | .rl _ v | .ll v => v
  | .rs _ d | .ss d => shortImm d

/-- The reads of both operands, as the multiplier sees them. -/
def State.touch2 (s : State) : Src2 → State
  | .rr b c => (s.touch b).touch c
  | .rl b _ | .rs b _ => s.touch b
  | .lr _ c | .sr _ c => s.touch c
  | .ll _ | .ss _ => s

/-- The operand of a field of LD, ST, LR and SR: a register, the long immediate or the sign-extended `D`
(30_encoding.md R110). -/
def State.fieldVal (s : State) (u : FreeUse) (f : RegField) (limm : Word) (d : BitVec 9) : Word :=
  match f with
  | .reg r => s.readReg u r
  | .ind .long => limm
  | .ind _ => shortImm d

/-- The read of that field, as the multiplier sees it. -/
def State.touchField (s : State) : RegField → State
  | .reg r => s.touch r
  | .ind _ => s

end Sys2Proof.Machine
end

