-- ==== Sys2Proof/Machine/Flags.lean ====
section
/-! DEFINITION. Conditions (30_encoding.md R120, R121), every result and flag computation, and the two execution
templates (40_alu.md R150, 41_single_operand.md R170). -/

namespace Sys2Proof.Machine

/-- `cond(q)` (30_encoding.md R120). No extension condition is implemented: they test false (R121). -/
def State.cond (s : State) : Cond → Bool
  | .al => true
  | .eq => s.z
  | .ne => !s.z
  | .pl => !s.n
  | .mi => s.n
  | .cs => s.c
  | .cc => !s.c
  | .vs => s.v
  | .vc => !s.v
  | .gt => (s.n && s.v && !s.z) || (!s.n && !s.v && !s.z)
  | .ge => (s.n && s.v) || (!s.n && !s.v)
  | .lt => (s.n && !s.v) || (!s.n && s.v)
  | .le => s.z || (s.n && !s.v) || (!s.n && s.v)
  | .hi => !s.c && !s.z
  | .ls => s.c || s.z
  | .pnz => !s.n && !s.z
  | .ext _ => false

/-- A result and the flags its page marks; `none` is a flag marked "not affected" (00_scope.md R13). -/
structure AluOut where
  result : Word
  z : Bool
  n : Bool
  c : Option Bool
  v : Option Bool
deriving DecidableEq, Repr

/-- The flags of an instruction written, if it sets flags (30_encoding.md R112). -/
def State.setFlags (s : State) (f : Bool) (o : AluOut) : State :=
  if f then { s with z := o.z, n := o.n, c := o.c.getD s.c, v := o.v.getD s.v } else s

/-! ### Results -/

/-- A result that sets Z and N only (40_alu.md R157). -/
def outZN (r : Word) : AluOut := ⟨r, r == 0, r.msb, none, none⟩

/-- A result that sets Z, N and C (41_single_operand.md R176). -/
def outZNC (r : Word) (c : Bool) : AluOut := ⟨r, r == 0, r.msb, some c, none⟩

/-- Addition with carry in (40_alu.md R151 to R153). -/
def addOut (x y : Word) (cin : Bool) : AluOut :=
  let s := x.toNat + y.toNat + cin.toNat
  let r := BitVec.ofNat 32 s
  ⟨r, r == 0, r.msb, some (decide (2 ^ 32 ≤ s)), some (x.msb == y.msb && r.msb != x.msb)⟩

/-- Whether `x - y` overflows with the result `r` (40_alu.md R153). -/
def subOverflow (x y r : Word) : Bool := x.msb != y.msb && r.msb != x.msb

/-- Subtraction with borrow in (40_alu.md R153 to R155). -/
def subOut (x y : Word) (bin : Bool) : AluOut :=
  let d : Int := (x.toNat : Int) - y.toNat - bin.toNat
  let r := BitVec.ofInt 32 d
  ⟨r, r == 0, r.msb, some (decide (d < 0)), some (subOverflow x y r)⟩

/-- MAX and MIN, `sel2` saying that operand 2 is chosen (46_extensions.md R312, R313). -/
def chooseOut (x y : Word) (sel2 : Bool) : AluOut :=
  let d := x - y
  ⟨if sel2 then y else x, x == y, d.msb, some sel2, some (subOverflow x y d)⟩

/-- MAX (46_extensions.md R312). -/
def maxOut (x y : Word) : AluOut := chooseOut x y (decide (x.toInt ≤ y.toInt))

/-- MIN (46_extensions.md R313). -/
def minOut (x y : Word) : AluOut := chooseOut x y (decide (y.toInt ≤ x.toInt))

/-- A shift by operand 2; counts of 32 and more leave result, Z and N open: free values (46_extensions.md R299,
decision D13, log 33). -/
def shiftOut (free : AluOut) (sh : Word → Nat → Word) (x y : Word) : AluOut :=
  if y.toNat < 32 then outZN (sh x y.toNat) else { free with c := none, v := none }

/-- Leading zero bits of the low `k` bits. -/
def leadingZeros (x : Word) : Nat → Nat
  | 0 => 0
  | k + 1 => if x.getLsbD k then 0 else leadingZeros x k + 1

/-- The normalization integer (46_extensions.md R306). -/
def normOf (x : Word) : Word :=
  let y := if x.msb then ~~~x else x
  if y = 0 then 31 else BitVec.ofNat 32 (leadingZeros y 32 - 1)

/-- ASR by one; the carry is the bit shifted out, DESIGN CHOICE of the spec (41_single_operand.md R176,
log 30). -/
def asrOut (x : Word) : AluOut := outZNC (x.sshiftRight 1) (x.getLsbD 0)

/-- LSR by one (41_single_operand.md R177, log 30). -/
def lsrOut (x : Word) : AluOut := outZNC (x >>> 1) (x.getLsbD 0)

/-- ROR by one (41_single_operand.md R178). -/
def rorOut (x : Word) : AluOut := outZNC (x.rotateRight 1) (x.getLsbD 0)

/-- RRC: the old carry enters at the top (41_single_operand.md R179). -/
def rrcOut (x : Word) (c : Bool) : AluOut := outZNC (BitVec.ofBool c ++ x.extractLsb' 1 31) (x.getLsbD 0)

/-- SEXB (41_single_operand.md R172). -/
def sexbOut (x : Word) : AluOut := outZN ((x.extractLsb' 0 8).signExtend 32)

/-- SEXW (41_single_operand.md R173). -/
def sexwOut (x : Word) : AluOut := outZN ((x.extractLsb' 0 16).signExtend 32)

/-- EXTB (41_single_operand.md R174). -/
def extbOut (x : Word) : AluOut := outZN ((x.extractLsb' 0 8).setWidth 32)

/-- EXTW (41_single_operand.md R175). -/
def extwOut (x : Word) : AluOut := outZN ((x.extractLsb' 0 16).setWidth 32)

/-- SWAP (46_extensions.md R308). -/
def swapOut (x : Word) : AluOut := outZN (x.extractLsb' 0 16 ++ x.extractLsb' 16 16)

/-! ### The execution templates -/

/-- A result written to the destination and, if asked for, to the flags; then the next instruction. -/
def State.complete (s : State) (d : RegField) (f : Bool) (o : AluOut) (next : PAddr) : Result :=
  andThen (s.writeDst d o.result) fun t => .next ((t.setFlags f o).retire next)

/-- The dual-operand template (40_alu.md R150). A false condition does nothing but pass the words
(30_encoding.md R114). -/
def dualOp (fn : Word → Word → Bool → AluOut) (o : Dual) (s : State) : Result :=
  let next := s.fallThrough o.src.isLong
  let t := s.issue o.src.isLong
  let u := (t.touch2 o.src).awaitDst o.dst
  if t.cond o.cc then u.complete o.dst o.f (fn (t.val1 o.src) (t.val2 o.src) t.c) next
  else .next (u.retire next)

/-- The single-operand template (41_single_operand.md R170). -/
def singleOp (fn : Word → Bool → AluOut) (o : Single) (s : State) : Result :=
  let next := s.fallThrough o.src.isLong
  let t := s.issue o.src.isLong
  let u := (t.touch1 o.src).awaitDst o.dst
  if t.cond o.cc then u.complete o.dst o.f (fn (t.val o.src) t.c) next
  else .next (u.retire next)

/-- The free value an instruction's open result takes (log 5). -/
def State.freeResult (s : State) : Word := s.tick.freeWord .result

/-- A free result and free flags: of an unassigned single-operand code (30_encoding.md R136, decision D17), and of
a shift by 32 or more places (46_extensions.md R299). -/
def State.freeOut (s : State) : AluOut :=
  ⟨s.freeResult, s.tick.freeBit .flagZ, s.tick.freeBit .flagN, some (s.tick.freeBit .flagC),
    some (s.tick.freeBit .flagV)⟩

/-- An unassigned or absent single-operand code: no exception, a free result (30_encoding.md R136). -/
def unassignedOp (o : Single) (s : State) : Result := singleOp (fun _ _ => s.freeOut) o s

end Sys2Proof.Machine
end

