-- ==== Sys2Proof/Machine/Alu.lean ====
section
/-! DEFINITION. ADD ADC SUB SBC AND OR BIC XOR (40_alu.md). -/

namespace Sys2Proof.Machine

/-- ADD (40_alu.md R151). -/
def execAdd (o : Dual) (s : State) : Result := dualOp (fun x y _ => addOut x y false) o s

/-- ADC (40_alu.md R152). -/
def execAdc (o : Dual) (s : State) : Result := dualOp addOut o s

/-- SUB (40_alu.md R154). -/
def execSub (o : Dual) (s : State) : Result := dualOp (fun x y _ => subOut x y false) o s

/-- SBC: the carry is the borrow (40_alu.md R155). -/
def execSbc (o : Dual) (s : State) : Result := dualOp subOut o s

/-- AND (40_alu.md R157). -/
def execAnd (o : Dual) (s : State) : Result := dualOp (fun x y _ => outZN (x &&& y)) o s

/-- OR (40_alu.md R158). -/
def execOr (o : Dual) (s : State) : Result := dualOp (fun x y _ => outZN (x ||| y)) o s

/-- BIC (40_alu.md R159). -/
def execBic (o : Dual) (s : State) : Result := dualOp (fun x y _ => outZN (x &&& ~~~y)) o s

/-- XOR (40_alu.md R160). -/
def execXor (o : Dual) (s : State) : Result := dualOp (fun x y _ => outZN (x ^^^ y)) o s

end Sys2Proof.Machine
end

