-- ==== Sys2Proof/Machine/AuxAccess.lean ====
section
/-! DEFINITION. LR and SR (45_aux_access.md). -/

namespace Sys2Proof.Machine

/-- Whether SR has a long immediate (45_aux_access.md R283). -/
def SrOp.isLong (o : SrOp) : Bool := o.base.isLong || o.data.isLong

/-- LR: the destination receives the auxiliary register; STATUS carries the following address
(45_aux_access.md R281, R285; 10_state.md R42). -/
def execLr (o : LrOp) (s : State) : Result :=
  let next := s.fallThrough o.base.isLong
  let t := s.issue o.base.isLong
  let a := t.fieldVal .operand1 o.base o.limm o.off
  let u := (t.touchField o.base).awaitDst o.dst
  andThen ((u.auxSeen a).writeDst o.dst (u.auxRead a (t.statusWord next) t.semArc)) fun w => .next (w.retire next)

/-- SR (45_aux_access.md R283, R286). -/
def execSr (o : SrOp) (s : State) : Result :=
  let next := s.fallThrough (SrOp.isLong o)
  let t := s.issue (SrOp.isLong o)
  let u := (t.touchField o.base).touchField o.data
  andThen (u.auxWrite (t.fieldVal .operand1 o.base o.limm o.off) (t.fieldVal .operand2 o.data o.limm o.off))
    fun w => .next (w.retire next)

end Sys2Proof.Machine
end

