-- ==== Sys2Proof/Machine/Branch.lean ====
section
/-! DEFINITION. Bcc, BLcc, LPcc, Jcc, JLcc and their delay slots (42_jump_branch_loop.md). -/

namespace Sys2Proof.Machine

/-- What stands in a delay slot, as far as the branch before it must know. -/
inductive SlotWord where
  /-- BRK: the branch is held (43_control.md R251). -/
  | brk
  /-- An instruction with a long immediate (42_jump_branch_loop.md R205). DESIGN CHOICE: a word of an opcode that is not
  implemented is none, whatever its fields, its opcode deciding before all else (30_encoding.md R135; log 37). -/
  | twoWords
  /-- A long word the program has stored to (20_memory.md R85 (b)). -/
  | stale
  | other
deriving DecidableEq, Repr

/-- The word at a slot address, at the time of its own fetch. A word in invalid memory is left to that fetch.
DESIGN CHOICE: so a slot that is killed raises no memory error, a killed instruction having no effect
(42_jump_branch_loop.md R204), although 20_memory.md R78 raises it at a fetch (log 11), and one that the program has
stored to does not stop the branch either, the memory error coming before R85 (b) (log 12). -/
def State.slotWord (s : State) (ds : PAddr) : SlotWord :=
  if !s.fetchValid ds then .other
  else if s.stale ds then .stale
  else if s.tick.codeWord ds = brkWord then .brk
  else if opcodeValid s.cfg (s.tick.codeWord ds) && needsLimm (s.tick.codeWord ds) then .twoWords
  else .other

/-- A BRK in the slot: the core halts with the branch not executed; the source does not give the PC the host
sees (43_control.md R251 (a), decision D43). -/
def State.holdAtBrk (s : State) : State :=
  { s.halt (some (s.tick.freeAddr .hostPc)) with bh := true, slot := .none, draws := s.draws + 1 }

/-- The link value of BLcc and JLcc: the slot's address, or the one after it (42_jump_branch_loop.md R203,
R213). -/
def State.linkWord (s : State) (n : SlotMode) (ds : PAddr) : Word :=
  match n with
  | .nd => s.statusWord ds
  | .d | .jd => s.statusWord (ds + 1)

/-- BLINK written (42_jump_branch_loop.md R212). -/
def State.link (s : State) (n : SlotMode) (ds : PAddr) : State := s.setReg 31 (s.linkWord n ds)

/-- The execution scheme of R203, after the instruction's own effects. A slot that is skipped is fetched one
fetch later than the branch, with the loop registers in force then (R205; 70_reset_and_hazards.md R404). -/
def State.transfer (s : State) (n : SlotMode) (jumping : Bool) (ds target : PAddr) : State :=
  match jumping, n with
  | true, .nd => s.goTo target
  | true, .d | true, .jd => { s with pc := ds, slot := .run target }
  | false, .nd => s.goTo ds
  | false, .d => { s with pc := ds, slot := .hold }
  | false, .jd => s.dropLag.goTo (s.aged.loopAddr 1 ds)

/-- The common part of the five instructions: refused in a delay slot (R206), stopped by a slot the program has
stored to, which is fetched even if it is killed (20_memory.md R85 (b)), held by a BRK in the slot
(43_control.md R251), refused before a two-word slot that may run (R205); otherwise `effect` on the state after
the fetch, with the slot's address (R201). -/
def slotted (n : SlotMode) (effect : State → PAddr → State) (s : State) : Result :=
  match s.slot with
  | .run _ => .refused .branchInSlot
  | _ =>
    let ds := s.fallThrough false
    match s.slotWord ds, n with
    | .stale, _ => .fault .staleFetch
    | .brk, _ => .next s.holdAtBrk
    | .twoWords, .d | .twoWords, .jd => .refused .longInSlot
    | _, _ => .next (effect (s.issue false) ds)

/-- The target of a relative branch (42_jump_branch_loop.md R210). -/
def relTarget (ds : PAddr) (l : BitVec 20) : PAddr := ds + l.signExtend 24

/-- Bcc (42_jump_branch_loop.md R210). -/
def execBcc (o : BranchOp) (s : State) : Result :=
  slotted o.n (fun t ds => t.transfer o.n (t.cond o.cc) ds (relTarget ds o.l)) s

/-- BLcc (42_jump_branch_loop.md R212, R213). -/
def execBlcc (o : BranchOp) (s : State) : Result :=
  slotted o.n
    (fun t ds => (if t.cond o.cc then t.link o.n ds else t).transfer o.n (t.cond o.cc) ds (relTarget ds o.l)) s

/-- The loop registers of LPcc; the comparison of the next fetch still uses the older ones, as in force for that
fetch (42_jump_branch_loop.md R220, R221; 70_reset_and_hazards.md R404). -/
def State.setLoop (s : State) (start stop : PAddr) : State :=
  { s with lpStart := start, lpEnd := stop, lpLag := some (s.aged.loopBounds 1), startHist := [], endHist := [] }

/-- LPcc: it branches when its condition is false (42_jump_branch_loop.md R220). -/
def execLpcc (o : BranchOp) (s : State) : Result :=
  slotted o.n
    (fun t ds => (if t.cond o.cc then t.setLoop ds (relTarget ds o.l) else t).transfer o.n (!t.cond o.cc) ds
      (relTarget ds o.l)) s

/-- The flags of a jump with `F` (42_jump_branch_loop.md R214). -/
def State.flagsFrom (s : State) (f : Bool) (w : Word) : State := if f then s.loadStatus w else s

/-- The jump through a register: the return from an exception when `F` is set (42_jump_branch_loop.md R214;
60_exceptions.md R339). -/
def execJcc (o : JumpOp) (s : State) : Result :=
  match o.src with
  | .reg b =>
    slotted o.n
      (fun t ds =>
        let w := t.readReg .operand1 b
        let u := t.touch b
        (if t.cond o.cc then u.flagsFrom o.f w else u).transfer o.n (t.cond o.cc) ds (w.setWidth 24)) s
  | .limm w =>
    match s.slot with
    | .run _ => .refused .branchInSlot
    | _ =>
      let t := s.issue true
      .next (if t.cond o.cc then (t.flagsFrom o.f w).goTo (w.setWidth 24) else t.goTo (s.fallThrough true))

/-- JLcc: the link takes the flags as they are before the jump loads them (42_jump_branch_loop.md R213, R216).
With an explicit address the slot address is that of the long immediate, and `N` = D is refused (R215). -/
def execJlcc (o : JumpOp) (s : State) : Result :=
  match o.src with
  | .reg b =>
    slotted o.n
      (fun t ds =>
        let w := t.readReg .operand1 b
        let u := t.touch b
        (if t.cond o.cc then (u.link o.n ds).flagsFrom o.f w else u).transfer o.n (t.cond o.cc) ds
          (w.setWidth 24)) s
  | .limm w =>
    match s.slot with
    | .run _ => .refused .branchInSlot
    | _ =>
      if o.n = .d then .refused (.undecodable .jumpForm)
      else
        let t := s.issue true
        .next (if t.cond o.cc then ((t.link o.n (s.fallThrough false)).flagsFrom o.f w).goTo (w.setWidth 24)
          else t.goTo (s.fallThrough true))

end Sys2Proof.Machine
end

