-- ==== Sys2Proof/Machine/Path.lean ====
section
/-! DEFINITION. What a fetch finds, the fetches that run ahead of a halt, and the PC the host then sees
(00_scope.md R10 step 5; 10_state.md R60; 60_exceptions.md R363, R364). -/

namespace Sys2Proof.Machine

/-- What the fetch at `pc` finds. -/
inductive Fetched where
  | instr (i : Instr)
  /-- An unassigned single-operand code (30_encoding.md R136). -/
  | unassigned (o : Single)
  /-- An opcode that is not implemented; `long` if a field holds 62 (60_exceptions.md R327). -/
  | absent (long : Bool)
  /-- The instruction word is in invalid memory (60_exceptions.md R326). -/
  | badWord
  /-- The long immediate is in invalid memory (60_exceptions.md R326, R337). -/
  | badLimm
  /-- The program has stored to one of the words (20_memory.md R85 (b)). -/
  | stale
  | refused (r : DecodeRefusal)
deriving DecidableEq, Repr

/-- The decoder's answer as a fetch result. -/
def Fetched.ofDecoded : Decoded → Fetched
  | .instr i => .instr i
  | .unassigned o => .unassigned o
  | .invalid => .absent false
  | .refused r => .refused r

/-- The fetch at `pc`: the validity of the opcode is decided on `I` alone, before anything else of the word
(30_encoding.md R135); the long immediate is the word at the address the loop mechanism gives
(42_jump_branch_loop.md R235). DESIGN CHOICES: a long word in invalid memory that the program has stored to takes the
memory error of 20_memory.md R78, and not the stop of R85 (b) (log 12); a form that is refused and asks for a long
immediate has it fetched before the refusal, so the memory error or `staleFetch` of that fetch comes first (log 35). -/
def State.fetchInstr (s : State) : Fetched :=
  if !s.fetchValid s.pc then .badWord
  else if s.stale s.pc then .stale
  else if !opcodeValid s.cfg (s.codeWord s.pc) then .absent (needsLimm (s.codeWord s.pc))
  else if needsLimm (s.codeWord s.pc) then
    if !s.fetchValid (s.fallThrough false) then .badLimm
    else if s.stale (s.fallThrough false) then .stale
    else .ofDecoded (decode (s.codeWord s.pc) (s.codeWord (s.fallThrough false)))
  else .ofDecoded (decode (s.codeWord s.pc) 0)

/-- Where an instruction sends the fetch after the word behind it, if it does (42_jump_branch_loop.md R203, R214,
R220; 43_control.md R254); `s` is the state in which it reads its operands (70_reset_and_hazards.md R406). -/
def State.sendsFetch (s : State) (ds : PAddr) (i : Instr) : Option PAddr :=
  match i with
  | .bcc o | .blcc o => if s.cond o.cc then some (relTarget ds o.l) else none
  | .lpcc o => if s.cond o.cc then none else some (relTarget ds o.l)
  | .jcc o | .jlcc o =>
    if s.cond o.cc then
      some (match o.src with
        | .reg b => (s.readReg .operand1 b).setWidth 24
        | .limm w => w.setWidth 24)
    else none
  | .swi => some (vectorAddr s.cfg 2)
  | .sleep => some ds
  | .ldRR _ | .ldRO _ | .lr _ | .st _ | .sr _ | .flag _ | .asr _ | .lsr _ | .ror _ | .rrc _ | .sexb _ | .sexw _
  | .extb _ | .extw _ | .swap _ | .norm _ | .brk | .add _ | .adc _ | .sub _ | .sbc _ | .and _ | .or _ | .bic _
  | .xor _ | .aslm _ | .lsrm _ | .asrm _ | .rorm _ | .max _ | .min _ | .mul64 _ | .mulu64 _ | .nop | .mov _
  | .asl _ | .rlc _ | .rol _ => none

/-- Whether the fetch at an address finds a BRK. -/
def State.brkAt (s : State) (p : PAddr) : Bool := s.fetchValid p && !s.stale p && s.codeWord p == brkWord

/-- The fetch after the one at `pc`: a BRK stays (43_control.md R250). -/
def State.secondFetch (s : State) : PAddr := if s.brkAt s.pc then s.pc else s.fallThrough false

/-- The fetch after the second where nothing sends it elsewhere: the loop rule behind the long immediate, or behind
the next instruction's word, as that instruction meets it (70_reset_and_hazards.md R404, R407); a BRK there stays. -/
def State.onward (s : State) (long : Bool) : PAddr :=
  if long then s.fallThrough true
  else if s.brkAt s.secondFetch then s.secondFetch
  else { s.issue false with pc := s.secondFetch }.fallThrough false

/-- The fetch after the second. A long immediate is no BRK, being never decoded (60_exceptions.md R337), and SWI goes
to its vector whatever stands behind it (43_control.md R254). DESIGN CHOICES (log 28): a word of the instruction at
`pc` in invalid memory sends this fetch to vector 1, an absent opcode to vector 2; past a word that the program has
stored to, at `pc` or as a long immediate, whatever it holds, past a refused form, and past a word behind the
instruction, wherever it lies, the loop rule goes on. -/
def State.thirdFetch (s : State) : PAddr :=
  let long := needsLimm (s.codeWord s.pc)
  match s.fetchInstr with
  | .badWord | .badLimm => vectorAddr s.cfg 1
  | .absent _ | .instr .swi => vectorAddr s.cfg 2
  | .stale => s.onward false
  | .unassigned _ | .refused _ => s.onward long
  | .instr i =>
    if !long && s.brkAt s.secondFetch then s.secondFetch
    else ((s.issue long).sendsFetch s.secondFetch i).getD (s.onward long)

/-- The address of a fetch along the program's path: `pc`, the next, or the one after. -/
def State.pathPc (s : State) (k : Nat) : PAddr :=
  match k with
  | 0 => s.pc
  | 1 => s.secondFetch
  | _ => s.thirdFetch

/-- The PC a host sees after a halt that leaves instructions in the pipeline: `pc`, the next or the one after,
freely (60_exceptions.md R363, R364, decision D21; log 28). -/
def State.seenPc (s : State) : PAddr := s.pathPc (Config.freeIndex s.draws .hostPc)

end Sys2Proof.Machine
end

