-- ==== Sys2Proof/Machine/Control.lean ====
section
/-! DEFINITION. FLAG (41_single_operand.md R190), BRK, SLEEP, SWI (43_control.md). -/

namespace Sys2Proof.Machine

/-- The flags and enables from bits 6:1 of FLAG's operand (41_single_operand.md R190). -/
def State.flagBits (s : State) (w : Word) : State :=
  { s with
    z := w.getLsbD 6, n := w.getLsbD 5, c := w.getLsbD 4, v := w.getLsbD 3
    e2 := w.getLsbD 2, e1 := w.getLsbD 1 }

/-- The core halts itself; younger instructions are in the pipeline, so the PC the host sees is one of three
(41_single_operand.md R192; 60_exceptions.md R363). -/
def State.selfHalt (s : State) : State := { s.halt (some s.seenPc) with sh := true }

/-- FLAG: bit 0 of the operand halts and leaves the flags alone, otherwise bits 6:1 replace them
(41_single_operand.md R190, R192). With `F` set or a register in `A` the spec refuses. -/
def execFlag (o : Single) (s : State) : Result :=
  if o.f || o.dst.isReg then .refused .flagForm
  else
    let next := s.fallThrough o.src.isLong
    let t := s.issue o.src.isLong
    let op := t.val o.src
    let u := t.touch1 o.src
    if t.cond o.cc then
      if op.getLsbD 0 then .next (u.retire next).selfHalt else .next ((u.flagBits op).retire next)
    else .next (u.retire next)

/-- BRK: the core halts at the BRK, which is not passed; the loop mechanism is not applied to its fetch
(43_control.md R250). DESIGN CHOICE: a BRK that the host has put where a chain of branches was cut, the context being
`hold`, ends that context, so that after the restart an interrupt may come before that slot (log 24). -/
def execBrk (s : State) : Result := .next { s.halt none with bh := true, slot := .none }

/-- SLEEP (43_control.md R252, R253). -/
def execSleep (s : State) : Result := .next { (s.issue false).retire (s.fallThrough false) with zz := true }

/-- SWI: the instruction error is taken; in a delay slot the branch target is saved (43_control.md R254;
60_exceptions.md R337). -/
def execSwi (s : State) : Result :=
  let t := s.issue false
  .next (t.enter 2 .exc (t.resumeAddr (s.fallThrough false)))

end Sys2Proof.Machine
end

