-- ==== Sys2Proof/Machine/Extension.lean ====
section
/-! DEFINITION. The extensions library: barrel shifts, MUL64, MULU64, NORM, SWAP, MAX, MIN (46_extensions.md).
An absent opcode raises the instruction error (30_encoding.md R135); an absent single-operand code is an
unassigned one (R136). -/

namespace Sys2Proof.Machine

/-- ASL multiple (46_extensions.md R300). -/
def execAslm (o : Dual) (s : State) : Result :=
  if s.cfg.hasBarrel then dualOp (fun x y _ => shiftOut s.freeOut (· <<< ·) x y) o s
  else .next (s.instructionError o.src.isLong)

/-- LSR multiple (46_extensions.md R301). -/
def execLsrm (o : Dual) (s : State) : Result :=
  if s.cfg.hasBarrel then dualOp (fun x y _ => shiftOut s.freeOut (· >>> ·) x y) o s
  else .next (s.instructionError o.src.isLong)

/-- ASR multiple (46_extensions.md R302). -/
def execAsrm (o : Dual) (s : State) : Result :=
  if s.cfg.hasBarrel then dualOp (fun x y _ => shiftOut s.freeOut BitVec.sshiftRight x y) o s
  else .next (s.instructionError o.src.isLong)

/-- ROR multiple (46_extensions.md R303). -/
def execRorm (o : Dual) (s : State) : Result :=
  if s.cfg.hasBarrel then dualOp (fun x y _ => shiftOut s.freeOut BitVec.rotateRight x y) o s
  else .next (s.instructionError o.src.isLong)

/-- MAX (46_extensions.md R312). -/
def execMax (o : Dual) (s : State) : Result :=
  if s.cfg.hasMinMax then dualOp (fun x y _ => maxOut x y) o s else .next (s.instructionError o.src.isLong)

/-- MIN (46_extensions.md R313). -/
def execMin (o : Dual) (s : State) : Result :=
  if s.cfg.hasMinMax then dualOp (fun x y _ => minOut x y) o s else .next (s.instructionError o.src.isLong)

/-- SWAP (46_extensions.md R308). -/
def execSwap (o : Single) (s : State) : Result :=
  if s.cfg.hasSwap then singleOp (fun x _ => swapOut x) o s else unassignedOp o s

/-- NORM (46_extensions.md R306). -/
def execNorm (o : Single) (s : State) : Result :=
  if s.cfg.hasNorm then singleOp (fun x _ => outZN (normOf x)) o s else unassignedOp o s

/-- The product in MR, and the multiply under way (46_extensions.md R291, R294). -/
def State.setProduct (s : State) (p : BitVec 64) : State :=
  { s with mr := p, mulBusy := mulCycles s.cfg, mulHigh := p.extractLsb' 32 32 }

/-- The multiply template (46_extensions.md R290, R291). -/
def mulOp (fn : Word → Word → BitVec 64) (o : MulOp) (s : State) : Result :=
  let next := s.fallThrough o.src.isLong
  let t := s.issue o.src.isLong
  let u := t.touch2 o.src
  if t.cond o.cc then .next ((u.setProduct (fn (t.val1 o.src) (t.val2 o.src))).retire next)
  else .next (u.retire next)

/-- The signed product (46_extensions.md R291). -/
def mulSigned (x y : Word) : BitVec 64 := BitVec.ofInt 64 (x.toInt * y.toInt)

/-- The unsigned product (46_extensions.md R292). -/
def mulUnsigned (x y : Word) : BitVec 64 := BitVec.ofNat 64 (x.toNat * y.toNat)

/-- MUL64 (46_extensions.md R291). -/
def execMul64 (o : MulOp) (s : State) : Result :=
  if s.cfg.hasMul then mulOp mulSigned o s else .next (s.instructionError o.src.isLong)

/-- MULU64 (46_extensions.md R292). -/
def execMulu64 (o : MulOp) (s : State) : Result :=
  if s.cfg.hasMul then mulOp mulUnsigned o s else .next (s.instructionError o.src.isLong)

end Sys2Proof.Machine
end

