-- ==== Sys2Proof/Machine/LoadStore.lean ====
section
/-! DEFINITION. LD and ST (44_load_store.md). `.DI` has no effect: the model has no cache (R267, log 13). -/

namespace Sys2Proof.Machine

/-- The value of loaded bytes (44_load_store.md R264). -/
def extendLoad (z : Size) (x : Bool) (raw : Word) : Word :=
  match z with
  | .long => raw
  | .word => if x then (raw.setWidth 16).signExtend 32 else (raw.setWidth 16).setWidth 32
  | .byte => if x then (raw.setWidth 8).signExtend 32 else (raw.setWidth 8).setWidth 32

/-- The register an address write-back writes, if any (44_load_store.md R265). -/
def wbReg (awb : Bool) (b : RegField) : Option CoreReg :=
  match b with
  | .reg r => if awb then some r else none
  | .ind _ => none

/-- Operand 1 of LD register + register as a field. -/
def Src2.first : Src2 → RegField
  | .rr b _ | .rl b _ | .rs b _ => .reg b
  | .lr _ _ | .ll _ => .ind .long
  | .sr _ _ | .ss _ => .ind .shortQuiet

/-- Address write-back (44_load_store.md R265). -/
def State.writeBack (s : State) (b : Option CoreReg) (a : Word) : Result :=
  match b with
  | some r => s.writeReg r a
  | none => .next s

/-- Loaded data to its destination. LP_COUNT as a load's destination takes a free value (70_reset_and_hazards.md R405).
DESIGN CHOICE: the count from before the load stays visible as after the other writes, although R406 does not name a
load among them (log 21). -/
def State.writeLoaded (s : State) (d : RegField) (v : Word) : Result :=
  if d = .reg 60 then .next (s.setReg 60 (s.freeWord .result)) else s.writeDst d v

/-- A load is outstanding, as far as DEBUG.LD and the scoreboard say (10_state.md R48, R57). -/
def State.noteLoad (s : State) (d : RegField) : State := { s with loads := d :: s.loads }

/-- A destination that a faulting access leaves open (60_exceptions.md R326). DESIGN CHOICE: of LP_COUNT, the count from
before stays visible as after a write (log 21). -/
def State.spoilDst (s : State) (d : RegField) : State :=
  match d with
  | .reg r => s.setReg r (s.freeWord .result)
  | .ind _ => s

/-- The base register of a faulting access: old or written back (60_exceptions.md R326). A write-back to LP_COUNT opens
the windows of 70_reset_and_hazards.md R406 and R407 as without the error, by the model's choice (log 21). -/
def State.spoilBase (s : State) (b : Option CoreReg) (a : Word) : State :=
  match b with
  | some r => if s.freeBit .writeBack then s.setReg r a else s
  | none => s

/-- LD from `a`, after the operands are read: memory error, unsupported misalignment, or the write-back and then
the data (44_load_store.md R262, R265; 20_memory.md R74). At a memory error the rest of the state is `e`, that of
the instructions before, LP_COUNT with it, but for the waits of the operands' reads (60_exceptions.md R326;
70_reset_and_hazards.md R412, R430). DESIGN CHOICE: a misaligned access that is supported is made whole in this one
step, though 20_memory.md R75 claims no atomicity for it (log 10). -/
def State.load (s e : State) (d : RegField) (b : Option CoreReg) (a : Word) (z : Size) (x : Bool)
    (next : PAddr) : Result :=
  if !memValid s.cfg a.toNat (Size.bytes z) .load then .next ((e.spoilBase b a).spoilDst d).memoryError
  else if !accessOk s.cfg a z then .fault .misaligned
  else
    andThen ((s.perform a z).writeBack b a) fun t =>
      andThen (t.writeLoaded d (extendLoad z x (memRead s.cfg.endian s.mem a z))) fun u =>
        .next ((u.noteLoad d).retire next)

/-- ST to `a`, after the operands are read; `e` is the state a memory error leaves otherwise as it is, as for LD
(44_load_store.md R269; 20_memory.md R74; 60_exceptions.md R326). DESIGN CHOICES: a store that takes the memory
error counts as having written its long words for 20_memory.md R85 (b) (log 11, log 12); a misaligned access that
is supported is made whole, though R75 claims no atomicity for it (log 10). -/
def State.storeTo (s e : State) (b : Option CoreReg) (a : Word) (z : Size) (v : Word) (next : PAddr) : Result :=
  if !memValid s.cfg a.toNat (Size.bytes z) .store then
    .next ((e.spoilBase b a).store a z (e.freeWord .stored)).memoryError
  else if !accessOk s.cfg a z then .fault .misaligned
  else andThen ((s.store a z v).writeBack b a) fun t => .next (t.retire next)

/-- The address of LD register + register (44_load_store.md R262). -/
def loadRRAddr (o : LoadRR) (t : State) : Word := t.val1 o.src + t.val2 o.src

/-- The address of LD register + offset (44_load_store.md R262). -/
def loadROAddr (o : LoadRO) (t : State) : Word := t.fieldVal .operand1 o.base o.limm o.off + shortImm o.off

/-- The address of ST (44_load_store.md R269). -/
def storeAddr (o : StoreOp) (t : State) : Word := t.fieldVal .operand1 o.base o.limm o.off + shortImm o.off

/-- Whether ST has a long immediate (44_load_store.md R269). -/
def StoreOp.isLong (o : StoreOp) : Bool := o.base.isLong || o.data.isLong

/-- LD, register + register (44_load_store.md R262). -/
def execLdRR (o : LoadRR) (s : State) : Result :=
  let t := s.issue o.src.isLong
  (t.touch2 o.src).load (s.tick.touch2 o.src) o.dst (wbReg o.awb (Src2.first o.src)) (loadRRAddr o t) o.size o.x
    (s.fallThrough o.src.isLong)

/-- LD, register + offset (44_load_store.md R262). -/
def execLdRO (o : LoadRO) (s : State) : Result :=
  let t := s.issue o.base.isLong
  (t.touchField o.base).load (s.tick.touchField o.base) o.dst (wbReg o.awb o.base) (loadROAddr o t) o.size o.x
    (s.fallThrough o.base.isLong)

/-- ST (44_load_store.md R269). -/
def execSt (o : StoreOp) (s : State) : Result :=
  let t := s.issue (StoreOp.isLong o)
  ((t.touchField o.base).touchField o.data).storeTo ((s.tick.touchField o.base).touchField o.data) (wbReg o.awb o.base)
    (storeAddr o t) o.size (t.fieldVal .operand2 o.data o.limm o.off) (s.fallThrough (StoreOp.isLong o))

end Sys2Proof.Machine
end

