-- ==== Sys2Proof/Machine/SecondNames.lean ====
section
/-! DEFINITION. The second names NOP, MOV, ASL/LSL by one, RLC and ROL: words of XOR, AND, ADD and ADC
(30_encoding.md R142). -/

namespace Sys2Proof.Machine

/-- NOP is XOR 0x1FF,0x1FF,0x1FF (40_alu.md R162). -/
def execNop (s : State) : Result := dualOp (fun x y _ => outZN (x ^^^ y)) nopDual s

/-- MOV a,b is AND a,b,b (41_single_operand.md R171). -/
def execMov (o : Single) (s : State) : Result := dualOp (fun x y _ => outZN (x &&& y)) o.both s

/-- ASL a,b is ADD a,b,b (41_single_operand.md R180). -/
def execAsl (o : Single) (s : State) : Result := dualOp (fun x y _ => addOut x y false) o.both s

/-- RLC a,b is ADC a,b,b (41_single_operand.md R182). -/
def execRlc (o : Single) (s : State) : Result := dualOp addOut o.both s

/-- The first word of ROL, ADD.F a,b,b; its second word is the ADC that follows (41_single_operand.md R183). -/
def execRol (o : RolOp) (s : State) : Result := dualOp (fun x y _ => addOut x y false) o.both s

end Sys2Proof.Machine
end

