-- ==== Sys2Proof/Machine/Single.lean ====
section
/-! DEFINITION. ASR LSR ROR RRC SEXB SEXW EXTB EXTW (41_single_operand.md). -/

namespace Sys2Proof.Machine

/-- ASR by one (41_single_operand.md R176). -/
def execAsr (o : Single) (s : State) : Result := singleOp (fun x _ => asrOut x) o s

/-- LSR by one (41_single_operand.md R177). -/
def execLsr (o : Single) (s : State) : Result := singleOp (fun x _ => lsrOut x) o s

/-- ROR by one (41_single_operand.md R178). -/
def execRor (o : Single) (s : State) : Result := singleOp (fun x _ => rorOut x) o s

/-- RRC (41_single_operand.md R179). -/
def execRrc (o : Single) (s : State) : Result := singleOp rrcOut o s

/-- SEXB (41_single_operand.md R172). -/
def execSexb (o : Single) (s : State) : Result := singleOp (fun x _ => sexbOut x) o s

/-- SEXW (41_single_operand.md R173). -/
def execSexw (o : Single) (s : State) : Result := singleOp (fun x _ => sexwOut x) o s

/-- EXTB (41_single_operand.md R174). -/
def execExtb (o : Single) (s : State) : Result := singleOp (fun x _ => extbOut x) o s

/-- EXTW (41_single_operand.md R175). -/
def execExtw (o : Single) (s : State) : Result := singleOp (fun x _ => extwOut x) o s

/-- An unassigned single-operand code (30_encoding.md R136). -/
def execUnassigned (o : Single) (s : State) : Result := unassignedOp o s

end Sys2Proof.Machine
end

