-- ==== Sys2Proof/Machine/Dispatch.lean ====
section
/-! DEFINITION. The meaning of every instruction: one arm per constructor. -/

namespace Sys2Proof.Machine

def exec (i : Instr) (s : State) : Host.Outcome State Fault Refusal :=
  match i with
  | .ldRR o => Sys2Proof.Machine.execLdRR o s
  | .ldRO o => Sys2Proof.Machine.execLdRO o s
  | .lr o => Sys2Proof.Machine.execLr o s
  | .st o => Sys2Proof.Machine.execSt o s
  | .sr o => Sys2Proof.Machine.execSr o s
  | .flag o => Sys2Proof.Machine.execFlag o s
  | .asr o => Sys2Proof.Machine.execAsr o s
  | .lsr o => Sys2Proof.Machine.execLsr o s
  | .ror o => Sys2Proof.Machine.execRor o s
  | .rrc o => Sys2Proof.Machine.execRrc o s
  | .sexb o => Sys2Proof.Machine.execSexb o s
  | .sexw o => Sys2Proof.Machine.execSexw o s
  | .extb o => Sys2Proof.Machine.execExtb o s
  | .extw o => Sys2Proof.Machine.execExtw o s
  | .swap o => Sys2Proof.Machine.execSwap o s
  | .norm o => Sys2Proof.Machine.execNorm o s
  | .brk => Sys2Proof.Machine.execBrk s
  | .sleep => Sys2Proof.Machine.execSleep s
  | .swi => Sys2Proof.Machine.execSwi s
  | .bcc o => Sys2Proof.Machine.execBcc o s
  | .blcc o => Sys2Proof.Machine.execBlcc o s
  | .lpcc o => Sys2Proof.Machine.execLpcc o s
  | .jcc o => Sys2Proof.Machine.execJcc o s
  | .jlcc o => Sys2Proof.Machine.execJlcc o s
  | .add o => Sys2Proof.Machine.execAdd o s
  | .adc o => Sys2Proof.Machine.execAdc o s
  | .sub o => Sys2Proof.Machine.execSub o s
  | .sbc o => Sys2Proof.Machine.execSbc o s
  | .and o => Sys2Proof.Machine.execAnd o s
  | .or o => Sys2Proof.Machine.execOr o s
  | .bic o => Sys2Proof.Machine.execBic o s
  | .xor o => Sys2Proof.Machine.execXor o s
  | .aslm o => Sys2Proof.Machine.execAslm o s
  | .lsrm o => Sys2Proof.Machine.execLsrm o s
  | .asrm o => Sys2Proof.Machine.execAsrm o s
  | .rorm o => Sys2Proof.Machine.execRorm o s
  | .max o => Sys2Proof.Machine.execMax o s
  | .min o => Sys2Proof.Machine.execMin o s
  | .mul64 o => Sys2Proof.Machine.execMul64 o s
  | .mulu64 o => Sys2Proof.Machine.execMulu64 o s
  | .nop => Sys2Proof.Machine.execNop s
  | .mov o => Sys2Proof.Machine.execMov o s
  | .asl o => Sys2Proof.Machine.execAsl o s
  | .rlc o => Sys2Proof.Machine.execRlc o s
  | .rol o => Sys2Proof.Machine.execRol o s

end Sys2Proof.Machine
end

