-- ==== Sys2Proof/Machine/Fetch.lean ====
section
/-! DEFINITION. Running the instruction fetched, with its delay slot (00_scope.md R10 step 5). -/

namespace Sys2Proof.Machine

/-- One instruction at `pc`, or the exception its fetch raises (60_exceptions.md R326, R327). DESIGN CHOICE: for the
hazard windows a fetch that raises one counts as an instruction, as a word executed would
(70_reset_and_hazards.md R400); an interrupt entry does not (log 50). -/
def State.runOne (s : State) : Result :=
  match s.fetchInstr with
  | .instr i => exec i s
  | .unassigned o => execUnassigned o s
  | .absent long => .next (s.instructionError long)
  | .badWord => .next s.tick.memoryError
  | .badLimm => .next s.tick.memoryError
  | .stale => .fault .staleFetch
  | .refused r => .refused (.undecodable r)

/-- After an instruction: the delay slot of a branch that jumped is run as well. -/
def State.slotIfTaken (t : State) : Result :=
  match t.slot with
  | .run _ => t.runOne
  | _ => .next t

/-- After an instruction: the delay slot of a branch is run as well if it executes, whether the branch jumped or
not (60_exceptions.md R333). -/
def State.slotIfAny (t : State) : Result :=
  match t.slot with
  | .run _ => t.runOne
  | .hold => andThen t.runOne State.slotIfTaken
  | .none => .next t

/-- An instruction and, if it is a branch whose delay slot executes, the instruction there: one unit that
nothing divides (60_exceptions.md R333). If a branch that did not jump has in its slot another such branch, the
next step goes on from there (log 24). -/
def State.runUnit (s : State) : Result := andThen s.runOne State.slotIfAny

/-- A long word put into memory from outside, fresh for the fetch. -/
def State.placeWord (s : State) (p : PAddr) (w : Word) : State :=
  { s with
    mem := memWrite s.cfg.endian s.mem (codeAddr p) .long w
    stored := s.stored.filter fun q => q != p.toNat
    oldCode := s.oldCode.filter fun e => e.word != p.toNat }

/-- The running core, with no input, about to fetch at `pc`. -/
def State.running (s : State) : State := { s with h := false, zz := false, inputs := [] }

/-- An instruction's words put where the next step fetches them (log 40). -/
def State.placeInstr (s : State) (w limm : Word) : State :=
  (s.running.placeWord (s.fallThrough false) limm).placeWord s.pc w

end Sys2Proof.Machine
end

