-- ==== Sys2Proof/Machine/HostPort.lean ====
section
/-! DEFINITION. The host's accesses (60_exceptions.md R355 to R366), one to a step. -/

namespace Sys2Proof.Machine

/-- The PC the host reads: `pc`, but at a halt that left instructions in the pipeline the one seen then
(60_exceptions.md R355, R363 to R365; log 28). -/
def State.hostPcRead (s : State) : PAddr := s.hostPc.getD s.pc

/-- A halt the host asks for. The core stops between two steps; a sleeping core's PC is exact
(60_exceptions.md R357, R358, R364, R365). -/
def State.hostHalt (s : State) : State := s.halt (if s.zz then none else some s.seenPc)

/-- H cleared: the core starts again, awake, and SH, BH and the step bits are over (60_exceptions.md R356, R359;
10_state.md R48). Stores performed while it was halted stay performed. -/
def State.restart (s : State) : State :=
  { s.settle with h := false, sh := false, bh := false, zz := false, ss := false, is := false, hostPc := none }

/-- Whether a BRK in a delay slot holds a branch (43_control.md R251): the PC the host sees is then not the
branch's. -/
def State.branchHeld (s : State) : Bool := s.bh && s.hostPc.isSome

/-- The PC written by the host. Writing back the PC it read together with H cleared continues where the core stopped
(60_exceptions.md R359); every other write replaces the pc outright and discards what the pipeline held, and so does
any while a branch is held (R357, R366). -/
def State.hostSetPc (s : State) (p : PAddr) (restarting : Bool) : State :=
  if restarting && p == s.hostPcRead && !s.branchHeld then s
  else { s with pc := p, slot := .none, lpLag := none, hostPc := none }

/-- The host writes STATUS (60_exceptions.md R357). -/
def State.hostStatus (s : State) (v : Word) : State :=
  if s.h then
    let t := (s.loadStatus v).hostSetPc (v.setWidth 24) (!v.getLsbD 25)
    if v.getLsbD 25 then t else t.restart
  else if v.getLsbD 25 then s.hostHalt
  else s

/-- The host writes DEBUG: FH halts, SS and IS order a step of a halted core (60_exceptions.md R358, R360 to
R362). DESIGN CHOICES (log 28), the spec describing neither FH and SS nor FH and IS in one write: with FH and SS both
set a halted core steps, and a running one refuses the write, as R360 refuses SS then; with FH and IS but no SS the
write is refused, as R362 has it, halted or running; and the one cycle for which SS and IS keep their values (10_state.md R48) is the next core step, so
that other host accesses may come before it, of which a later write of DEBUG replaces the order, one with SS clear
thus cancelling it, and a restart by STATUS cancels it. -/
def State.hostDebug (s : State) (v : Word) : Result :=
  let fh := v.getLsbD s.cfg.debugBits.fh
  let ss := v.getLsbD s.cfg.debugBits.ss
  let is := v.getLsbD s.cfg.debugBits.is
  if is && !ss then .refused .hostStep
  else if s.h then .next { s with ss := ss, is := is }
  else if ss then .refused .hostStep
  else if fh then .next s.hostHalt
  else .next s

/-- The auxiliary registers the host reaches while the core runs: STATUS, SEMAPHORE, IDENTITY, DEBUG
(60_exceptions.md R355). -/
def dualAccess (a : Word) : Bool := a == 0 || a == 1 || a == 4 || a == 5

/-- The host writes an auxiliary register (60_exceptions.md R355, R357, R358). -/
def State.hostWriteAux (s : State) (a v : Word) : Result :=
  if !s.h && !dualAccess a then .refused .hostWhileRunning
  else if a = 0 then .next (s.hostStatus v)
  else if a = 1 then .next { s with semHost := semClaim (semMask s.cfg) s.semArc v }
  else if a = 2 then .next { s with lpStart := v.setWidth 24 }
  else if a = 3 then .next { s with lpEnd := v.setWidth 24 }
  else if a = 4 then .refused .readOnlyAux
  else if a = 5 then s.hostDebug v
  else if 0x60 ≤ a.toNat ∧ a.toNat ≤ 0x7F then .refused .readOnlyAux
  else if a = 0x12 ∧ s.cfg.hasMul then .next (s.writeMulHi v)
  else .next s

/-- What the host has read. -/
def State.answer (s : State) (v : Word) : State := { s with hostData := v }

/-- The host reads an auxiliary register (60_exceptions.md R355; 20_memory.md R90). -/
def State.hostReadAux (s : State) (a : Word) : Result :=
  if !s.h && !dualAccess a then .refused .hostWhileRunning
  else .next ((s.auxSeen a).answer (s.auxRead a (s.statusWord s.hostPcRead) s.semHost))

/-- LP_COUNT, or another core register, written by the host (60_exceptions.md R355). -/
def State.hostWriteCore (s : State) (r : CoreReg) (v : Word) : Result :=
  if !s.h then .refused .hostWhileRunning
  else if r = 60 then .next { s.arrive 60 with lpCount := v.setWidth 24 }
  else s.writeReg r v

/-- A core register read by the host (60_exceptions.md R355). -/
def State.hostReadCore (s : State) (r : CoreReg) : Result :=
  if !s.h then .refused .hostWhileRunning
  else .next (s.answer (if r = 60 then s.lpCount.setWidth 32 else s.readReg .operand1 r))

/-- Memory read by the host, at any time, as far as the core's stores have reached it (60_exceptions.md R355;
20_memory.md R82). -/
def State.hostReadMem (s : State) (a : Word) (z : Size) : Result :=
  if !memValid s.cfg a.toNat (Size.bytes z) .load then .refused .hostMemory
  else if !accessOk s.cfg a z then .fault .misaligned
  else .next (s.answer (memRead s.cfg.endian s.hostMem a z))

/-- Memory written by the host: a store of the core not performed yet goes over it, and keeps what the host wrote
as what was there before (20_memory.md R82). -/
def State.hostPutMem (s : State) (a : Word) (z : Size) (v : Word) : State :=
  let e := s.cfg.endian
  { s.settle with
    mem := s.settle.buffer.foldl (fun m b => memWrite e m b.addr b.size (memRead e s.mem b.addr b.size))
      (memWrite e s.mem a z v)
    buffer := s.settle.buffer.map fun b =>
      { b with old := memRead e (memWrite e s.hostMem a z v) b.addr b.size } }

/-- The long words an access changes, for the fetch: while halted every later fetch sees the new ones, while
running at a later time (20_memory.md R85 (a), (c); log 29). -/
def State.noteCode (s : State) (a : Word) (z : Size) : State :=
  let words := noteStored a (Size.bytes z) []
  { s with oldCode :=
      if s.h then s.oldCode.filter fun e => !words.contains e.word
      else s.oldCode ++ words.map fun q =>
        ⟨q, memRead s.cfg.endian s.mem (codeAddr (BitVec.ofNat 24 q)) .long, s.draws⟩ }

/-- Memory written by the host, at any time (60_exceptions.md R355; 20_memory.md R82, R85). -/
def State.hostWriteMem (s : State) (a : Word) (z : Size) (v : Word) : Result :=
  if !memValid s.cfg a.toNat (Size.bytes z) .store then .refused .hostMemory
  else if !accessOk s.cfg a z then .fault .misaligned
  else .next ((s.noteCode a z).hostPutMem a z v)

/-- A fresh draw for an event that is no instruction. -/
def State.draw (s : State) : State := { s with draws := s.draws + 1 }

/-- One host access. -/
def State.hostAct (s : State) (a : HostAction) : Result :=
  match a with
  | .readCore r => s.draw.hostReadCore r
  | .writeCore r v => s.draw.hostWriteCore r v
  | .readAux a => s.draw.hostReadAux a
  | .writeAux a v => s.draw.hostWriteAux a v
  | .readMem a z => s.draw.hostReadMem a z
  | .writeMem a z v => s.draw.hostWriteMem a z v

end Sys2Proof.Machine
end

