-- ==== Sys2Proof/Machine/Cycle.lean ====
section
/-! DEFINITION. One step of the machine (00_scope.md R10): reset, a host access, or the core. -/

namespace Sys2Proof.Machine

/-- The first asserted line of a level, in `IRQ_ORDER` (60_exceptions.md R322, R323). -/
def firstLine (cfg : Config) (lv : IrqLevel) (lines : List Nat) : Option Nat :=
  (cfg.irqLines.find? fun l =>
    l.level == lv && lines.contains l.line && decide (3 ≤ l.line) && decide (l.line < cfg.nVectors)).map IrqLine.line

/-- The interrupt to take, if any: level 2 over level 1, each if enabled (60_exceptions.md R323, R324). -/
def State.selectIrq (s : State) (lines : List Nat) : Option (Nat × Level) :=
  match (if s.e2 then firstLine s.cfg .l2 lines else none) with
  | some k => some (k, .l2)
  | none =>
    match (if s.e1 then firstLine s.cfg .l1 lines else none) with
    | some k => some (k, .l1)
    | none => none

/-- Whether the word at `pc` is a BRK: it outranks an interrupt (43_control.md R251 (b)). -/
def State.brkNext (s : State) : Bool := s.brkAt s.pc

/-- A recognition point with an interrupt selected: its entry, the address saved being `pc`
(60_exceptions.md R330, R333), or a BRK's halt. -/
def State.interrupt (s : State) (k : Nat) (lv : Level) : Result :=
  if s.brkNext then execBrk s else .next (s.enter k lv s.pc)

/-- The running core: an interrupt at a recognition point, else an instruction (00_scope.md R10 steps 4, 5;
60_exceptions.md R333). -/
def State.awake (s : State) (lines : List Nat) : Result :=
  match s.slot, s.selectIrq lines with
  | .none, some (k, lv) => s.interrupt k lv
  | _, _ => s.runUnit

/-- The sleeping core: only a selected interrupt wakes it (60_exceptions.md R371, decision D26). -/
def State.asleep (s : State) (lines : List Nat) : Result :=
  match s.selectIrq lines with
  | some (k, lv) => s.interrupt k lv
  | none => .next s

/-- Halted again after a step, ZZ being open if the step was a SLEEP (60_exceptions.md R361, R373). -/
def State.endStep (s : State) (zz : Bool) : State := { s with h := true, zz := s.zz && zz, stored := [] }

/-- A step the host has ordered. An instruction step runs one unit; a cycle step may or may not complete one
(60_exceptions.md R360, R361, decision D21). DESIGN CHOICE: after a cycle step that completes nothing the PC the host
sees is `pc`, also where it was another before, at a halt on the way or with a BRK that held a branch (log 28). -/
def State.singleStep (s : State) (lines : List Nat) : Result :=
  if s.is || s.freeBit .cycleStep then
    andThen (s.restart.draw.awake lines) fun t => .next (t.endStep (s.freeBit .sleepStep))
  else .next (s.restart.draw.endStep false)

/-- One step of the core (00_scope.md R10 steps 2 to 5; 60_exceptions.md R370). -/
def State.coreStep (s : State) (lines : List Nat) : Result :=
  if s.h then (if s.ss then s.singleStep lines else .next s)
  else if s.zz then s.asleep lines
  else s.awake lines

/-- The stores a hard reset loses: of those not performed yet, each freely (70_reset_and_hazards.md R380, decision
D11). -/
def State.lost (s : State) : List Buffered :=
  s.settle.buffer.filter fun e => Config.freeBit e.since .storeLost

/-- The hard reset: every field as 10_state.md R65 says, r0 to r31 and MR taking free values; memory is not
changed, but for the stores lost (70_reset_and_hazards.md R380; log 43), which are taken back in the words a fetch may
still see as well. -/
def State.hardReset (s : State) : State :=
  { State.reset with
    cfg := s.cfg
    regs := Vector.ofFn fun i => s.freeWord (.resetReg i.val)
    mr := s.freeWord .resetMulHi ++ s.freeWord .resetMulLo
    pc := vectorAddr s.cfg 0
    mem := undo s.cfg.endian s.lost s.mem
    oldCode := s.oldCode.map (OldCode.redo s.cfg.endian (undo s.cfg.endian s.lost))
    inputs := s.inputs
    hostData := s.hostData
    draws := s.draws + 1 }

/-- The inputs left after the first. -/
def State.withInputs (s : State) (l : List Input) : State := { s with inputs := l }

/-- One step: the next input decides what it is; without one the core steps with no line asserted. -/
def State.cycle (s : State) : Result :=
  match s.inputs with
  | [] => s.coreStep []
  | .reset :: l => .next (s.withInputs l).hardReset
  | .host a :: l => (s.withInputs l).hostAct a
  | .lines irqs :: l => (s.withInputs l).coreStep irqs

end Sys2Proof.Machine
end

