-- ==== Sys2Proof/Machine/Step.lean ====
section
/-! DEFINITION. The step, and placing an instruction where it is fetched next. -/

namespace Sys2Proof.Machine

/-- One step of the machine (00_scope.md R10). -/
def step (s : State) : Host.Outcome State Fault Refusal := s.cycle

/-- The instruction of table bits `w` where the next step fetches it: bits 31:0 the instruction word, bits 63:32
its long immediate, 0 from `nbits` on (log 40). -/
def State.withFetchWord (s : State) (nbits w : Nat) : State :=
  s.placeInstr (BitVec.ofNat 32 (w % 2 ^ nbits)) (BitVec.ofNat 32 (w % 2 ^ nbits / 2 ^ 32))

end Sys2Proof.Machine
end

