-- ==== Sys2Proof/Safety.lean ====
section
/-! DEFINITION. What the statements are said with: the states the machine stays in, what an instruction leaves
alone, and what it means that one completes. -/

namespace Sys2Proof

open Machine

/-- No byte belongs to two buffered stores (20_memory.md R82). -/
def Apart (s : State) : Prop := s.buffer.Pairwise fun d e => overlap d.addr d.size e.addr e.size = false

/-- What every step keeps: memory is in canonical form; no semaphore bit has two owners, and only implemented
ones have one (20_memory.md R90, R92); a running core shows no halt cause, no ordered step and no other PC
(10_state.md R48); no delay slot is pending between steps (10_state.md R59); no byte is in two buffered stores
(20_memory.md R82). -/
structure Inv (s : State) : Prop where
  memory : s.mem.wf
  oneOwner : s.semArc &&& s.semHost = 0
  ownedArc : s.semArc &&& ~~~semMask s.cfg = 0
  ownedHost : s.semHost &&& ~~~semMask s.cfg = 0
  running : s.h = false → s.sh = false ∧ s.bh = false ∧ s.ss = false ∧ s.is = false ∧ s.hostPc = none
  noSlot : ∀ target, s.slot ≠ .run target
  apart : Apart s

/-! ### Operands -/

/-- Operand 1 as the instruction reads it: after its own words are fetched (00_scope.md R10). -/
def operand1 (s : State) (src : Src2) : Word := (s.issue src.isLong).val1 src

/-- Operand 2 as the instruction reads it. -/
def operand2 (s : State) (src : Src2) : Word := (s.issue src.isLong).val2 src

/-- The operand of a single-operand instruction. -/
def operand (s : State) (src : Src1) : Word := (s.issue src.isLong).val src

/-- A field operand of LD, ST, LR or SR; `long` if the instruction has a long immediate. -/
def fieldOperand (s : State) (long : Bool) (u : FreeUse) (f : RegField) (limm : Word) (d : BitVec 9) : Word :=
  (s.issue long).fieldVal u f limm d

/-- A core register that holds or shows something: r0 to r31, LP_COUNT, and the multiply results where there is
a multiplier (10_state.md R20 to R25). -/
def Implemented (s : State) (r : CoreReg) : Prop := r.val < 32 ∨ r.val = 60 ∨ isMulReg s.cfg r = true

/-- A destination an instruction may write: any but r57 to r59 where there is a multiplier (10_state.md R24). -/
def Writable (s : State) (d : RegField) : Prop := ∀ r, d = .reg r → isMulReg s.cfg r = false

/-- The field names r57, r58 or r59 (10_state.md R24). -/
def MulField (d : RegField) : Prop := d = .reg 57 ∨ d = .reg 58 ∨ d = .reg 59

/-- r0 to r31 with one of them, if the field names one, replaced. -/
def regsWith (s : State) (d : RegField) (w : Word) : Vector Word 32 :=
  Vector.ofFn fun i => if d = .reg ⟨i.val, by omega⟩ then w else s.regs[i]

/-- The flags replaced if `f` asks for it. -/
def withFlags (s : State) (f z n c v : Bool) : State := if f then { s with z := z, n := n, c := c, v := v } else s

/-- A signed value outside the 32-bit range. -/
def overflows (i : Int) : Bool := decide (i < -2 ^ 31 ∨ 2 ^ 31 ≤ i)

/-! ### Frames -/

/-- Everything but the program counter, the delay-slot context, LP_COUNT and the hazard windows is the same:
the registers, the flags and enables, the accumulator, the loop, semaphore and debug registers, every byte of
memory, and what the host sees; no load is outstanding, and no store buffered, that was not so before. -/
structure Same (s t : State) : Prop where
  cfg : t.cfg = s.cfg
  regs : t.regs = s.regs
  mr : t.mr = s.mr
  loops : t.lpStart = s.lpStart ∧ t.lpEnd = s.lpEnd
  flags : t.z = s.z ∧ t.n = s.n ∧ t.c = s.c ∧ t.v = s.v
  enables : t.e1 = s.e1 ∧ t.e2 = s.e2
  halt : t.h = s.h ∧ t.sh = s.sh ∧ t.bh = s.bh
  dbg : t.zz = s.zz ∧ t.ss = s.ss ∧ t.is = s.is
  loads : ∀ d ∈ t.loads, d ∈ s.loads
  semaphores : t.semArc = s.semArc ∧ t.semHost = s.semHost
  bytes : ∀ a, t.mem.byte a = s.mem.byte a
  buffer : ∀ e ∈ t.buffer, e ∈ s.buffer
  stored : t.stored = s.stored ∧ t.oldCode = s.oldCode
  outside : t.inputs = s.inputs ∧ t.hostPc = s.hostPc ∧ t.hostData = s.hostData

/-- The end of an instruction of one long word, or two if `long`: the pc is at the fall-through address, or at
the target if this was a delay slot (42_jump_branch_loop.md R203, R230). -/
structure Passed (s : State) (long : Bool) (t : State) : Prop where
  pc : t.pc = s.resumeAddr (s.fallThrough long)
  slot : t.slot = .none

/-- The result `r` of an instruction on `s` is that it completes: `w` is in the destination `d`, everything else is
as in `e`, which is `s` with the instruction's other effects; LP_COUNT, where it is not the destination, is as the
fetches left it (42_jump_branch_loop.md R230). -/
def Completed (r : Result) (s : State) (long : Bool) (d : RegField) (w : Word) (e : State) : Prop :=
  ∃ t, r = .next t ∧ Same { e with regs := regsWith s d w } t ∧
    t.lpCount = (if d = .reg 60 then w.setWidth 24 else (s.issue long).lpCount) ∧ Passed s long t

/-- The instruction `i` completes on `s`, as `Completed` says. -/
def Completes (i : Instr) (s : State) (long : Bool) (d : RegField) (w : Word) (e : State) : Prop :=
  Completed (exec i s) s long d w e

/-- The instruction completes on `s`, in a state of which `P` holds; LP_COUNT is as the fetches left it. -/
def DoneAs (i : Instr) (s : State) (long : Bool) (P : State → Prop) : Prop :=
  ∃ t, exec i s = .next t ∧ P t ∧ t.lpCount = (s.issue long).lpCount ∧ Passed s long t

/-- The instruction is a load of size `z` that completes: the base `wb`, if any, holds the address `a` and the
destination the data `v`, and the buffered stores with a byte of the access are performed; what LP_COUNT holds as a
load's destination is open (44_load_store.md R262, R265; 20_memory.md R82; 70_reset_and_hazards.md R405; logs 21, 49). -/
def Loads (i : Instr) (s : State) (long : Bool) (d wb : RegField) (a v : Word) (z : Size) : Prop :=
  ∃ t, exec i s = .next t ∧
    Same { s with loads := d :: s.loads, regs := regsWith { s with regs := regsWith s wb a } d v } t ∧
    t.loads.head? = some d ∧ t.buffer = s.buffer.filter (fun e => !overlap e.addr e.size a z) ∧
    (d ≠ .reg 60 → t.lpCount = if wb = .reg 60 then a.setWidth 24 else (s.issue long).lpCount) ∧ Passed s long t

/-- The register an address write-back names, if it is asked for (44_load_store.md R265). -/
def backTo (awb : Bool) (base : RegField) : RegField := if awb then base else .ind .shortQuiet

/-- An instruction or the core is stopped by the halt bit: the cause given, and nothing else changed but what
the host sees of the PC and the note of stored code (60_exceptions.md R356). -/
def HaltedFrom (s : State) (sh bh : Bool) (t : State) : Prop :=
  Same { s with h := true, sh := sh, bh := bh, hostPc := t.hostPc, stored := [] } t

/-- The state before the halt bit stopped it, the core being in `t` since and in `s` before the instruction. -/
def beforeHalt (s t : State) : State :=
  { t with h := s.h, sh := s.sh, bh := s.bh, hostPc := s.hostPc, stored := s.stored }

/-- The PC the host sees in the halted state `t` is that of one of the three fetches on the path of `q`, in which the
core was halted (60_exceptions.md R363, R364, decision D21; log 28). -/
def SeenOnPath (q t : State) : Prop := ∃ k ≤ 2, t.hostPc = some (q.pathPc k)

/-- The entry of vector `k`, of level `lv`, saving the address `ret` (60_exceptions.md R330 to R332); LP_COUNT
is as `count` says. -/
structure Entered (s : State) (k : Nat) (lv : Level) (ret count : PAddr) (t : State) : Prop where
  same : Same { s with
    regs := regsWith s (.reg (linkReg lv)) (s.statusWord ret)
    e1 := false
    e2 := lv == .l1 && s.e2
    zz := false } t
  pc : t.pc = s.cfg.vectorBase + BitVec.ofNat 24 (2 * k)
  slot : t.slot = .none
  count : t.lpCount = count

/-- The instruction is a load from invalid memory and takes the memory error: the saved address, the destination
`d` and whether the base `wb` holds the address `a` are open, the rest is as the instructions before it left it,
LP_COUNT as well (60_exceptions.md R326, decision D7). -/
def LoadFaults (i : Instr) (s : State) (d wb : RegField) (a : Word) : Prop :=
  ∃ t ret, ∃ back : Bool, ∃ data, exec i s = .next t ∧
    Entered { s with regs := regsWith { s with regs := if back then regsWith s wb a else s.regs } d data }
      1 .exc ret t.lpCount t ∧
    (d ≠ .reg 60 → t.lpCount = if wb = .reg 60 ∧ back = true then a.setWidth 24 else s.lpCount)

/-! ### The host's accesses (60_exceptions.md R355) -/

/-- A host access that only reads: it returns a word of which `P` holds, and changes nothing else. -/
def HostGets (s : State) (a : HostAction) (P : Word → Prop) : Prop :=
  ∀ l, s.inputs = .host a :: l →
    ∃ t, step s = .next t ∧ P t.hostData ∧ Same { s with inputs := l, hostData := t.hostData } t ∧ t.pc = s.pc ∧
      t.slot = s.slot ∧ t.lpCount = s.lpCount

/-- A halted core's registers read by the host (R355): r0 to r31, LP_COUNT, and the multiply results. -/
def HostReadsCore (s : State) (r : CoreReg) : Prop :=
  s.h = true → HostGets s (.readCore r) fun w =>
    (∀ h : r.val < 32, w = s.regs[r.val]) ∧ (r = 60 → w = s.lpCount.setWidth 32) ∧
    (s.cfg.hasMul = true → (r = 57 → w = s.mr.extractLsb' 0 32) ∧ (r = 58 → w = s.mr.extractLsb' 16 32) ∧
      (r = 59 → w = s.mr.extractLsb' 32 32))

/-- A halted core's registers written by the host; r57 to r59 are read-only as for programs (R355). -/
def HostWritesCore (s : State) (r : CoreReg) (v : Word) : Prop :=
  s.h = true → ∀ l, s.inputs = .host (.writeCore r v) :: l →
    (Writable s (.reg r) → ∃ t, step s = .next t ∧
      Same { s with inputs := l, regs := regsWith s (.reg r) v } t ∧ t.pc = s.pc ∧ t.slot = s.slot ∧
      t.lpCount = (if r = 60 then v.setWidth 24 else s.lpCount)) ∧
    (s.cfg.hasMul = true → MulField (.reg r) → step s = .refused .readOnlyCore)

/-- Auxiliary registers read by the host: four at any time, the others while the core is halted (R355). STATUS
carries the PC the host sees and the true H, SEMAPHORE the host's bits, DEBUG.LD is open while a load may be
outstanding (10_state.md R42, R43, R48). A build configuration register that is implemented reads as its value, and an
address where there is no register as the IDENTITY word (10_state.md R50, R53); MULHI, write-only, is open (log 36). -/
def HostReadsAux (s : State) (a : Word) : Prop :=
  (s.h = true ∨ a = 0 ∨ a = 1 ∨ a = 4 ∨ a = 5) →
    ∀ l, s.inputs = .host (.readAux a) :: l → ∃ t ld, step s = .next t ∧
      Same { s with
        inputs := l
        hostData := t.hostData
        loads := if a = 5 ∧ ld = false then [] else s.loads } t ∧ t.pc = s.pc ∧ t.slot = s.slot ∧
      t.lpCount = s.lpCount ∧ (s.loads = [] → ld = false) ∧
      (a = 0 → t.hostData = s.statusWord (s.hostPc.getD s.pc)) ∧
      (a = 1 → t.hostData = s.semHost) ∧
      (a = 2 → t.hostData = s.lpStart.setWidth 32) ∧
      (a = 3 → t.hostData = s.lpEnd.setWidth 32) ∧
      (a = 4 → t.hostData = identityWord s.cfg) ∧
      (a = 5 → t.hostData = s.debugWord ld) ∧
      (0x60 ≤ a.toNat → a.toNat ≤ 0x7F → t.hostData = (bcrAt s.cfg a.toNat).getD (identityWord s.cfg)) ∧
      (6 ≤ a.toNat → ¬(0x60 ≤ a.toNat ∧ a.toNat ≤ 0x7F) → (a ≠ 0x12 ∨ s.cfg.hasMul = false) →
        t.hostData = identityWord s.cfg)

/-- A halted core's auxiliary registers other than STATUS, SEMAPHORE and DEBUG written by the host: as SR writes
them, the read-only ones refused (R355; 45_aux_access.md R286, decision D19), IDENTITY whether halted or not. A multiply that may still be under way
can win over a write of MULHI (70_reset_and_hazards.md R412; log 22). -/
def HostWritesAux (s : State) (a v : Word) : Prop :=
  (a = 4 → ∀ l, s.inputs = .host (.writeAux a v) :: l → step s = .refused .readOnlyAux) ∧
  (s.h = true → ∀ l, s.inputs = .host (.writeAux a v) :: l →
    let done := fun (P : State → Prop) =>
      ∃ t, step s = .next t ∧ P t ∧ t.pc = s.pc ∧ t.slot = s.slot ∧ t.lpCount = s.lpCount
    (a = 2 → done (Same { s with inputs := l, lpStart := v.setWidth 24 })) ∧
    (a = 3 → done (Same { s with inputs := l, lpEnd := v.setWidth 24 })) ∧
    (a = 0x12 → s.cfg.hasMul = true → done fun t => Same { s with inputs := l, mr := t.mr } t ∧
      t.mr.extractLsb' 0 32 = s.mr.extractLsb' 0 32 ∧
      (t.mr.extractLsb' 32 32 = v ∨ 0 < s.mulBusy ∧ t.mr.extractLsb' 32 32 = s.mulHigh)) ∧
    (6 ≤ a.toNat → ¬(0x60 ≤ a.toNat ∧ a.toNat ≤ 0x7F) → (a ≠ 0x12 ∨ s.cfg.hasMul = false) →
      done (Same { s with inputs := l })) ∧
    (0x60 ≤ a.toNat → a.toNat ≤ 0x7F → step s = .refused .readOnlyAux))

/-- SEMAPHORE written by the host, at any time: it owns the implemented bits that it writes as 1 and that the
processor does not own, and nothing else changes (20_memory.md R90, R91). -/
def HostWritesSemaphore (s : State) (v : Word) : Prop :=
  ∀ l, s.inputs = .host (.writeAux 1 v) :: l → ∃ t, step s = .next t ∧
    Same { s with inputs := l, semHost := t.semHost } t ∧ t.pc = s.pc ∧ t.slot = s.slot ∧ t.lpCount = s.lpCount ∧
    ∀ k < 32, t.semHost.getLsbD k = (decide (k < s.cfg.nSem) && v.getLsbD k && !s.semArc.getLsbD k)

/-- A host write of DEBUG: FH halts and changes nothing else but the PC the host sees, which is the pc in sleep and else
that of one of the next fetches (log 28); SS, with IS or without, orders a step of a halted
core; IS without SS, and a step ordered of a running core, are refused (60_exceptions.md R358, R360 to R362). That a
refused combination is refused with FH set too, and that FH with SS steps a halted core, are the model's choices (log
28). -/
def HostWritesDebug (s : State) (v : Word) : Prop :=
  ∀ l, s.inputs = .host (.writeAux 5 v) :: l →
    let fh := v.getLsbD s.cfg.debugBits.fh
    let ss := v.getLsbD s.cfg.debugBits.ss
    let is := v.getLsbD s.cfg.debugBits.is
    ((is = true ∧ ss = false ∨ s.h = false ∧ ss = true) → step s = .refused .hostStep) ∧
    (s.h = false → is = false → ss = false → ∃ t, step s = .next t ∧ t.pc = s.pc ∧ t.slot = s.slot ∧
      t.lpCount = s.lpCount ∧
      (fh = true → HaltedFrom { s with inputs := l } s.sh s.bh t ∧ (s.zz = true → t.hostPc = none) ∧
        (s.zz = false → SeenOnPath { s with inputs := l, draws := s.draws + 1 } t)) ∧
      (fh = false → Same { s with inputs := l } t)) ∧
    (s.h = true → (is = true → ss = true) → ∃ t, step s = .next t ∧ t.pc = s.pc ∧ t.slot = s.slot ∧
      t.lpCount = s.lpCount ∧ Same { s with inputs := l, ss := ss, is := is } t)

/-- A host access to memory that is refused because the memory is invalid, or stops because it is misaligned and not
supported so (20_memory.md R74, R78, decision D2; logs 10, 29). -/
def HostStops (s : State) (act : HostAction) (a : Word) (z : Size) (kind : AccessKind) : Prop :=
  ∀ l, s.inputs = .host act :: l →
    (memValid s.cfg a.toNat (Size.bytes z) kind = false → step s = .refused .hostMemory) ∧
    (memValid s.cfg a.toNat (Size.bytes z) kind = true → accessOk s.cfg a z = false → step s = .fault .misaligned)

/-- Memory read by the host at any time: what the core has stored there, but for the stores it may not see yet.
Those are none where no buffered store has a byte of the access, and none in a core halted with no load
outstanding; an access of exactly a buffered store's bytes finds them all old or all new (20_memory.md R75, R82), for
a supported misaligned store by the model's choice (log 10). -/
def HostReadsMem (s : State) (a : Word) (z : Size) : Prop :=
  HostStops s (.readMem a z) a z .load ∧
  (memValid s.cfg a.toNat (Size.bytes z) .load = true → accessOk s.cfg a z = true →
    HostGets s (.readMem a z) fun w =>
      (((∀ b ∈ s.buffer, overlap b.addr b.size a z = false) ∨ s.h = true ∧ s.loads = []) →
        w = memRead s.cfg.endian s.mem a z) ∧
      (s.mem.wf → Apart s → ∀ b ∈ s.buffer, b.addr = a → b.size = z →
        w = memRead s.cfg.endian s.mem a z ∨ w = BitVec.ofNat 32 (b.old.toNat % 2 ^ (8 * Size.bytes z))))

/-- The byte at an address belongs to a buffered store (20_memory.md R82). -/
def InStore (l : List Buffered) (x : Nat) : Prop :=
  ∃ b ∈ l, ∃ i < Size.bytes b.size, x = (b.addr + BitVec.ofNat 32 i).toNat

/-- Memory written by the host at any time: a byte of no buffered store is as the write makes it, one of a store
still buffered afterwards stays as the core stored it, and the host reads back what it wrote: that such a store comes
after the host's write is the model's choice (20_memory.md R82; log 29). What the host reads then is what it would have
read there without the write, but for the bytes written, and of those outside the access this stays so at every later
time, whichever stores have been performed by then. A fetch at a long word the host changed finds
it from then on if the core is halted (R85 (a)), and if it runs the word as it is or as it was before this or an
earlier change, and from some time on as it is (R85 (c); log 29). -/
def HostWritesMem (s : State) (a : Word) (z : Size) (v : Word) : Prop :=
  HostStops s (.writeMem a z v) a z .store ∧
  (memValid s.cfg a.toNat (Size.bytes z) .store = true → accessOk s.cfg a z = true → s.mem.wf →
    ∀ l, s.inputs = .host (.writeMem a z v) :: l → ∃ t, step s = .next t ∧ t.pc = s.pc ∧ t.slot = s.slot ∧
      t.lpCount = s.lpCount ∧
      Same { s with inputs := l, mem := t.mem, buffer := t.buffer, oldCode := t.oldCode } t ∧
      (∀ x, (∀ i < Size.bytes z, x ≠ (a + BitVec.ofNat 32 i).toNat) → t.mem.byte x = s.mem.byte x) ∧
      (∀ x, ¬ InStore t.buffer x → t.mem.byte x = (memWrite s.cfg.endian s.mem a z v).byte x) ∧
      (∀ x, InStore t.buffer x → InStore s.buffer x ∧ t.mem.byte x = s.mem.byte x) ∧
      memRead s.cfg.endian t.hostMem a z = BitVec.ofNat 32 (v.toNat % 2 ^ (8 * Size.bytes z)) ∧
      (∀ x, t.hostMem.byte x =
        (memWrite s.cfg.endian ({ s with draws := s.draws + 1 } : State).hostMem a z v).byte x) ∧
      (Apart s → ∀ m > s.draws, ∀ x, (∀ i < Size.bytes z, x ≠ (a + BitVec.ofNat 32 i).toNat) →
        ({ t with draws := m } : State).hostMem.byte x = ({ s with draws := m } : State).hostMem.byte x) ∧
      (((∀ b ∈ s.buffer, overlap b.addr b.size a z = false) ∨ s.h = true ∧ s.loads = []) →
        memRead s.cfg.endian t.mem a z = BitVec.ofNat 32 (v.toNat % 2 ^ (8 * Size.bytes z))) ∧
      (s.h = true → ∀ p : PAddr, (∃ i < Size.bytes z, (a + BitVec.ofNat 32 i).toNat / 4 = p.toNat) →
        t.codeWord p = memRead s.cfg.endian t.mem (codeAddr p) .long) ∧
      (s.h = false → ∀ p : PAddr,
        (t.codeWord p = memRead s.cfg.endian t.mem (codeAddr p) .long ∨
          t.codeWord p = memRead s.cfg.endian s.mem (codeAddr p) .long ∨
          ∃ c ∈ s.oldCode, c.word = p.toNat ∧ t.codeWord p = c.old) ∧
        ∃ n, ∀ m ≥ n, ({ t with draws := m } : State).codeWord p = memRead s.cfg.endian t.mem (codeAddr p) .long))

/-! ### Instructions with a condition -/

/-- The condition of an instruction in the register layout that only computes, and whether it has a long
immediate (30_encoding.md R114). -/
def conditionOf : Instr → Option (Cond × Bool)
  | .flag o | .asr o | .lsr o | .ror o | .rrc o | .sexb o | .sexw o | .extb o | .extw o | .swap o | .norm o
  | .mov o | .asl o | .rlc o => some (o.cc, o.src.isLong)
  | .add o | .adc o | .sub o | .sbc o | .and o | .or o | .bic o | .xor o | .aslm o | .lsrm o | .asrm o | .rorm o
  | .max o | .min o => some (o.cc, o.src.isLong)
  | .mul64 o | .mulu64 o => some (o.cc, o.src.isLong)
  | .rol o => some (o.cc, o.src.isLong)
  | .ldRR _ | .ldRO _ | .lr _ | .st _ | .sr _ | .brk | .sleep | .swi | .bcc _ | .blcc _ | .lpcc _ | .jcc _
  | .jlcc _ | .nop => none

/-- The build has the instruction, as far as a major opcode decides it, and FLAG is in its proper form
(30_encoding.md R135; 41_single_operand.md R190). -/
def Available (cfg : Config) : Instr → Prop
  | .aslm _ | .lsrm _ | .asrm _ | .rorm _ => cfg.hasBarrel = true
  | .max _ | .min _ => cfg.hasMinMax = true
  | .mul64 _ | .mulu64 _ => cfg.hasMul = true
  | .flag o => o.f = false ∧ o.dst.isReg = false
  | _ => True

/-- The destination of an instruction that computes a result or reads an auxiliary register, and its condition
(30_encoding.md R113, R114). -/
def resultOf : Instr → Option (RegField × Cond)
  | .asr o | .lsr o | .ror o | .rrc o | .sexb o | .sexw o | .extb o | .extw o | .swap o | .norm o
  | .mov o | .asl o | .rlc o => some (o.dst, o.cc)
  | .add o | .adc o | .sub o | .sbc o | .and o | .or o | .bic o | .xor o | .aslm o | .lsrm o | .asrm o | .rorm o
  | .max o | .min o => some (o.dst, o.cc)
  | .rol o => some (.reg o.dst, o.cc)
  | .lr o => some (o.dst, .al)
  | .flag _ | .mul64 _ | .mulu64 _ | .ldRR _ | .ldRO _ | .st _ | .sr _ | .brk | .sleep | .swi | .bcc _ | .blcc _
  | .lpcc _ | .jcc _ | .jlcc _ | .nop => none

/-! ### Branches -/

/-- The branches that have a delay slot, with their mode (42_jump_branch_loop.md R203, R214). -/
def slottedMode : Instr → Option SlotMode
  | .bcc o | .blcc o | .lpcc o => some o.n
  | .jcc ⟨.reg _, _, n, _⟩ | .jlcc ⟨.reg _, _, n, _⟩ => some n
  | _ => none

/-- Bcc, BLcc, LPcc, Jcc or JLcc. -/
def isBranch : Instr → Bool
  | .bcc _ | .blcc _ | .lpcc _ | .jcc _ | .jlcc _ => true
  | _ => false

/-- The state is not in the middle of a branch and its delay slot, and the word in the slot is one the spec
gives a meaning there: none the program has stored to, no BRK, and no two-word instruction that may run or be
skipped (20_memory.md R85; 42_jump_branch_loop.md R205, R206; 43_control.md R251). -/
def SlotOk (s : State) (n : SlotMode) : Prop :=
  (∀ target, s.slot ≠ .run target) ∧ s.slotWord (s.fallThrough false) ≠ .stale ∧ s.slotWord (s.fallThrough false) ≠ .brk ∧
    (n ≠ .nd → s.slotWord (s.fallThrough false) ≠ .twoWords)

/-- The loop registers hold no older values that a fetch might still meet: no write to them is recent
(70_reset_and_hazards.md R403 to R407). -/
def LoopSettled (s : State) : Prop :=
  s.lpLag = none ∧ s.startHist = [] ∧ s.endHist = [] ∧ s.countHist = []

/-- LP_START and LP_END as they may be in force for a comparison: those an LPcc has left for it, or of each the
current value or one from before a recent write (42_jump_branch_loop.md R221; 70_reset_and_hazards.md R404). -/
def InForce (t : State) (start stop : PAddr) : Prop :=
  match t.lpLag with
  | some older => (start, stop) = older
  | none =>
    (start = t.lpStart ∨ ∃ e ∈ t.startHist, start = e.old) ∧ (stop = t.lpEnd ∨ ∃ e ∈ t.endHist, stop = e.old)

/-- The next address past a slot that mode JD skips, `skip` of 42_jump_branch_loop.md R205: the loop rule without the
decrement, exactly where no write of a loop register is recent, and otherwise with bounds and a count that may be in
force one fetch after the branch (decision D42; 70_reset_and_hazards.md R404, R407). -/
def Skips (s : State) (next : PAddr) : Prop :=
  let ds := s.fallThrough false
  let u := (s.issue false).aged
  (∃ start stop count, InForce u start stop ∧ (count = u.lpCount ∨ ∃ e ∈ u.countHist, count = e.old) ∧
    next = if ds + 1 = stop ∧ count ≠ 1 then start else ds + 1) ∧
  (LoopSettled s → next = if ds + 1 = s.lpEnd ∧ (s.issue false).lpCount ≠ 1 then s.lpStart else ds + 1)

/-- Where a branch leaves the pc and the slot context: the scheme of 42_jump_branch_loop.md R203, the slot's
address being the fall-through address. -/
def Went (s : State) (n : SlotMode) (jumping : Bool) (target : PAddr) (t : State) : Prop :=
  match jumping, n with
  | true, .nd => t.pc = target ∧ t.slot = .none
  | true, .d | true, .jd => t.pc = s.fallThrough false ∧ t.slot = .run target
  | false, .nd => t.pc = s.fallThrough false ∧ t.slot = .none
  | false, .d => t.pc = s.fallThrough false ∧ t.slot = .hold
  | false, .jd => t.pc = (s.issue false).aged.loopAddr 1 (s.fallThrough false) ∧ Skips s t.pc ∧ t.slot = .none

/-- A relative branch completes on `s`: `e` is `s` with its own effects (42_jump_branch_loop.md R203). -/
def Branches (i : Instr) (s : State) (n : SlotMode) (jumping : Bool) (target : PAddr) (e : State) : Prop :=
  ∃ t, exec i s = .next t ∧ Same e t ∧ t.lpCount = (s.issue false).lpCount ∧ Went s n jumping target t

/-- A jump to an explicit address completes on `s` (42_jump_branch_loop.md R214). -/
def Jumps (i : Instr) (s : State) (jumping : Bool) (target : PAddr) (e : State) : Prop :=
  ∃ t, exec i s = .next t ∧ Same e t ∧ t.lpCount = (s.issue true).lpCount ∧
    t.pc = (if jumping then target else s.fallThrough true) ∧ t.slot = .none

/-- The flags and enables of a STATUS-format word (10_state.md R41), if `f` asks for them. -/
def withStatus (s : State) (f : Bool) (w : Word) : State :=
  if f then { s with
    z := w.getLsbD 31, n := w.getLsbD 30, c := w.getLsbD 29, v := w.getLsbD 28
    e2 := w.getLsbD 27, e1 := w.getLsbD 26 }
  else s

/-- The link value by the mode (42_jump_branch_loop.md R203, R213). -/
def linkValue (s : State) (n : SlotMode) : Word :=
  s.statusWord (if n = .nd then s.fallThrough false else s.fallThrough false + 1)

/-- A line of a level requests an interrupt (60_exceptions.md R322). -/
def Requests (s : State) (irqs : List Nat) (lv : IrqLevel) (l : IrqLine) : Prop :=
  l.level = lv ∧ l.line ∈ irqs ∧ 3 ≤ l.line ∧ l.line < s.cfg.nVectors

/-- The line `k` is the first of its level, in `IRQ_ORDER`, that requests (60_exceptions.md R323). -/
def FirstRequest (s : State) (irqs : List Nat) (lv : IrqLevel) (k : Nat) : Prop :=
  ∃ before l after, s.cfg.irqLines = before ++ l :: after ∧ l.line = k ∧ Requests s irqs lv l ∧
    ∀ l' ∈ before, ¬ Requests s irqs lv l'

/-- The loop rule at the fetch of address `a` in state `t`: the next fetch is at `next`, and the loop state is that
of `u`. The count tested and decremented is LP_COUNT or, after a recent write of it, possibly an older value, the
write then winning over the decrement (42_jump_branch_loop.md R230; 70_reset_and_hazards.md R404, R407). -/
def LoopFetched (t u : State) (a next : PAddr) : Prop :=
  u.lpLag = none ∧ ∃ start stop, InForce t start stop ∧
    (a + 1 ≠ stop → next = a + 1 ∧ u.lpCount = t.lpCount ∧ u.countHist = t.countHist) ∧
    (a + 1 = stop →
      (next = (if t.lpCount = 1 then a + 1 else start) ∧ u.lpCount = t.lpCount - 1 ∧ u.countHist = []) ∨
      ∃ newer e older, t.countHist = newer ++ e :: older ∧ next = (if e.old = 1 then a + 1 else start) ∧
        u.lpCount = t.lpCount ∧ u.countHist = newer ++ [⟨e.old - 1, e.age⟩])

/-- Older values one instruction later: those younger than `limit` instructions are kept, and no other
(70_reset_and_hazards.md R400). -/
def LaterBy1 (limit : Nat) (l later : List Lag) : Prop :=
  later = (l.filter fun d => decide (d.age < limit)).map fun d => ⟨d.old, d.age + 1⟩

/-! ### The path of the fetches (10_state.md R60; 60_exceptions.md R363; log 28) -/

/-- Where an instruction sends the fetch after the word behind it: a branch or jump that is taken to its target, SWI to
its vector, and SLEEP nowhere on (42_jump_branch_loop.md R203, R210, R214, R220; 43_control.md R252, R254). -/
def redirected (s : State) (long : Bool) : Instr → Option PAddr
  | .bcc o | .blcc o => if s.cond o.cc then some (s.fallThrough false + BitVec.ofInt 24 o.l.toInt) else none
  | .lpcc o => if s.cond o.cc then none else some (s.fallThrough false + BitVec.ofInt 24 o.l.toInt)
  | .jcc o | .jlcc o =>
    if s.cond o.cc then
      some ((match o.src with
        | .reg b => (s.issue long).readReg .operand1 b
        | .limm w => w).setWidth 24)
    else none
  | .swi => some (s.cfg.vectorBase + 4)
  | .sleep => some (s.fallThrough false)
  | _ => none

/-- The third fetch goes on by the loop rule: behind the long immediate, or behind the next instruction's word, unless
that is a BRK. -/
def GoesOn (s : State) (long : Bool) : Prop :=
  let ds := s.fallThrough false
  (long = true → s.pathPc 2 = s.fallThrough true) ∧
  (long = false → s.brkAt ds = true → s.pathPc 2 = ds) ∧
  (long = false → s.brkAt ds = false → ∃ u, LoopFetched (s.issue false).tick u ds (s.pathPc 2))

/-- The addresses of the fetches from the pc on, of which a host sees one at a halt. -/
def PathRule (s : State) : Prop :=
  let ds := s.fallThrough false
  let long := needsLimm (s.codeWord s.pc)
  s.pathPc 0 = s.pc ∧
  (s.brkAt s.pc = true → s.pathPc 1 = s.pc ∧ s.pathPc 2 = s.pc) ∧
  (s.brkAt s.pc = false → s.pathPc 1 = ds ∧
    ((s.fetchInstr = .badWord ∨ s.fetchInstr = .badLimm) → s.pathPc 2 = s.cfg.vectorBase + 2) ∧
    (((∃ b, s.fetchInstr = .absent b) ∨ s.fetchInstr = .instr .swi) → s.pathPc 2 = s.cfg.vectorBase + 4) ∧
    (s.fetchInstr = .stale → GoesOn s false) ∧
    (((∃ o, s.fetchInstr = .unassigned o) ∨ ∃ r, s.fetchInstr = .refused r) → GoesOn s long) ∧
    ∀ i, s.fetchInstr = .instr i → i ≠ .swi →
      (long = false → s.brkAt ds = true → s.pathPc 2 = ds) ∧
      ((long = true ∨ s.brkAt ds = false) →
        (∀ p, redirected s long i = some p → s.pathPc 2 = p) ∧ (redirected s long i = none → GoesOn s long)))

/-! ### The multiplier (70_reset_and_hazards.md R412) -/

/-- The registers a source reads. -/
def Src1.regs : Src1 → List CoreReg
  | .reg b => [b]
  | _ => []

/-- The registers a pair of sources reads. -/
def Src2.regs : Src2 → List CoreReg
  | .rr b c => [b, c]
  | .rl b _ | .rs b _ => [b]
  | .lr _ c | .sr _ c => [c]
  | .ll _ | .ss _ => []

/-- The register a field reads. -/
def RegField.regs : RegField → List CoreReg
  | .reg r => [r]
  | .ind _ => []

/-- The registers an instruction reads, the multiplies apart, which start anew. -/
def readsOf : Instr → List CoreReg
  | .flag o | .asr o | .lsr o | .ror o | .rrc o | .sexb o | .sexw o | .extb o | .extw o | .swap o | .norm o
  | .mov o | .asl o | .rlc o => o.src.regs
  | .add o | .adc o | .sub o | .sbc o | .and o | .or o | .bic o | .xor o | .aslm o | .lsrm o | .asrm o | .rorm o
  | .max o | .min o => o.src.regs
  | .rol o => o.src.regs
  | .lr o => o.base.regs
  | .sr o => o.base.regs ++ o.data.regs
  | .ldRR o => o.src.regs
  | .ldRO o => o.base.regs
  | .st o => o.base.regs ++ o.data.regs
  | .jcc ⟨.reg b, _, _, _⟩ | .jlcc ⟨.reg b, _, _, _⟩ => [b]
  | .jcc ⟨.limm _, _, _, _⟩ | .jlcc ⟨.limm _, _, _, _⟩ | .mul64 _ | .mulu64 _ | .brk | .sleep | .swi | .bcc _ | .blcc _
  | .lpcc _ | .nop => []

/-! ### The words of IDENTITY and DEBUG (10_state.md R47, R48) -/

/-- Bit `k` of a byte put at the bit `pos` of a word. -/
def placedBit (b : Byte) (pos k : Nat) : Bool := decide (pos ≤ k) && b.getLsbD (k - pos)

/-! ### Steps the host orders -/

/-- The core is halted again after a unit that ended in `u`: nothing else has changed, but that ZZ is open if the unit
was a SLEEP (60_exceptions.md R361, R373; log 28). -/
def HaltedAfter (u t : State) : Prop :=
  Same { u with h := true, zz := t.zz, stored := [] } t ∧ t.pc = u.pc ∧ t.slot = u.slot ∧ t.lpCount = u.lpCount ∧
    (u.zz = false → t.zz = false)

/-- The core is halted again and has done nothing; the host then sees the PC itself (60_exceptions.md R360; log
28). -/
def HaltedIdle (s t : State) : Prop :=
  Same { s with
    h := true, sh := false, bh := false, zz := false, ss := false, is := false, hostPc := none, stored := [] } t ∧
    t.pc = s.pc ∧ t.slot = s.slot ∧ t.lpCount = s.lpCount

end Sys2Proof
end

