-- ==== Sys2Proof/Certificates/Slice0/Obligations.lean ====
section
/-! DEFINITION. The statements for the provers. Each says which rule or section of spec/ it comes from. -/

section

open Sys2Proof Sys2Proof.Machine

/-! ### Encoding -/

/-- 30_encoding.md R100 to R137: the words of a well-formed instruction say how many they are and decode to it,
whatever follows a one-word instruction. -/
def Obligations.DecodeEncode : Prop :=
  ∀ i : Instr, i.wf = true → needsLimm (encode i).1 = (encode i).2.isSome ∧
    ∀ x, decode (encode i).1 ((encode i).2.getD x) = .instr i

/-- 30_encoding.md R100 to R137: no bit of an instruction word is dropped. What decodes is well formed, and its
encoding is the word, with the long immediate where the word asks for one. -/
def Obligations.EncodeDecode : Prop :=
  ∀ (w x : Word) (i : Instr), decode w x = .instr i →
    i.wf = true ∧ encode i = (w, if needsLimm w then some x else none)

/-- Words printed in 30_encoding.md R104, R141 and 44_load_store.md R270, and the three of 43_control.md. -/
def Obligations.DecodeWords : Prop :=
  decode 0x2003E800 0 = .instr (.bcc ⟨2000, .nd, .al⟩) ∧
  decode 0x1FFFFE00 0 = .instr .brk ∧ decode 0x1FFFFE01 0 = .instr .sleep ∧ decode 0x1FFFFE02 0 = .instr .swi ∧
  decode 0x7FFFFFFF 0 = .instr .nop ∧
  decode 0x10038A32 0 = .instr (.st ⟨.reg 7, .reg 5, 0, 50, false, false, .long⟩) ∧
  decode 0x101F7E32 77 = .instr (.st ⟨.ind .long, .ind .shortQuiet, 77, 50, false, false, .long⟩) ∧
  decode 0x380E8100 0 = .instr (.jcc ⟨.reg 29, true, .nd, .al⟩)

/-- 30_encoding.md R137, the spec's decision D15: `N` = 3 in Bcc, BLcc, LPcc, Jcc, JLcc and the size code 3 in LD and
ST are refused. That the size code of LD register + register (opcode 0) is bits 2:1 is PRESUMED, unsafe: the spec
supplies it from general knowledge (44_load_store.md R260 (b), decision D34; log 31). -/
def Obligations.ReservedFieldsRefused : Prop :=
  ∀ w x : Word,
    ((opcodeOf w = 4 ∨ opcodeOf w = 5 ∨ opcodeOf w = 6 ∨ opcodeOf w = 7) → fieldN w = 3 →
      ∃ r, decode w x = .refused r) ∧
    (opcodeOf w = 0 → w.extractLsb' 1 2 = 3 → ∃ r, decode w x = .refused r) ∧
    (opcodeOf w = 1 → w.getLsbD 13 = false → w.extractLsb' 10 2 = 3 → ∃ r, decode w x = .refused r) ∧
    (opcodeOf w = 2 → w.getLsbD 25 = false → w.extractLsb' 22 2 = 3 → ∃ r, decode w x = .refused r)

/-- 30_encoding.md R135: the words the decoder finds no row for are those with `I` in 0x16 to 0x1D, and such a
word, or one of an absent option, raises the instruction error when fetched, whatever its other bits (the spec's
decision D41). Which of the two addresses is saved is open (log 35). -/
def Obligations.InvalidOpcode : Prop :=
  (∀ w x : Word, decode w x = .invalid ↔ 0x16 ≤ (opcodeOf w).toNat ∧ (opcodeOf w).toNat ≤ 0x1D) ∧
  (∀ (s : State) (w : Word), opcodeValid s.cfg w = true ↔
    (opcodeOf w).toNat < 0x10 ∨
    ((opcodeOf w).toNat < 0x14 ∧ 0x10 ≤ (opcodeOf w).toNat ∧ s.cfg.hasBarrel = true) ∨
    ((opcodeOf w).toNat < 0x16 ∧ 0x14 ≤ (opcodeOf w).toNat ∧ s.cfg.hasMul = true) ∨
    (0x1E ≤ (opcodeOf w).toNat ∧ s.cfg.hasMinMax = true)) ∧
  ∀ s : State, s.fetchValid s.pc = true → s.stale s.pc = false → opcodeValid s.cfg (s.codeWord s.pc) = false →
    ∃ t ret, s.runOne = .next t ∧ Entered s 2 .exc ret (s.issue false).lpCount t ∧
      (ret = s.resumeAddr (s.fallThrough false) ∨
        needsLimm (s.codeWord s.pc) = true ∧ ret = s.resumeAddr (s.fallThrough true))

/-! ### Conditions -/

/-- 30_encoding.md R120: the condition test of every code 0x00 to 0x0F. -/
def Obligations.ConditionTable : Prop :=
  ∀ s : State,
    s.cond (condOf 0x00) = true ∧ s.cond (condOf 0x01) = s.z ∧ s.cond (condOf 0x02) = !s.z ∧
    s.cond (condOf 0x03) = !s.n ∧ s.cond (condOf 0x04) = s.n ∧ s.cond (condOf 0x05) = s.c ∧
    s.cond (condOf 0x06) = !s.c ∧ s.cond (condOf 0x07) = s.v ∧ s.cond (condOf 0x08) = !s.v ∧
    s.cond (condOf 0x09) = ((s.n && s.v && !s.z) || (!s.n && !s.v && !s.z)) ∧
    s.cond (condOf 0x0A) = ((s.n && s.v) || (!s.n && !s.v)) ∧
    s.cond (condOf 0x0B) = ((s.n && !s.v) || (!s.n && s.v)) ∧
    s.cond (condOf 0x0C) = (s.z || (s.n && !s.v) || (!s.n && s.v)) ∧
    s.cond (condOf 0x0D) = (!s.c && !s.z) ∧ s.cond (condOf 0x0E) = (s.c || s.z) ∧
    s.cond (condOf 0x0F) = (!s.n && !s.z)

/-- 40_alu.md R153, last sentence, with 30_encoding.md R120: after SUB.F the condition names compare the operands,
unsigned and signed (the carry and overflow formulas are the spec's decision D32; log 32). -/
def Obligations.SubThenCompare : Prop :=
  ∀ (o : Dual) (s t : State), s.cond o.cc = true → o.f = true → exec (.sub o) s = .next t →
    let x := operand1 s o.src
    let y := operand2 s o.src
    t.cond .eq = (x == y) ∧ t.cond .ne = (x != y) ∧
    t.cond .cs = decide (x.toNat < y.toNat) ∧ t.cond .cc = decide (y.toNat ≤ x.toNat) ∧
    t.cond .hi = decide (y.toNat < x.toNat) ∧ t.cond .ls = decide (x.toNat ≤ y.toNat) ∧
    t.cond .gt = decide (y.toInt < x.toInt) ∧ t.cond .ge = decide (y.toInt ≤ x.toInt) ∧
    t.cond .lt = decide (x.toInt < y.toInt) ∧ t.cond .le = decide (x.toInt ≤ y.toInt)

/-- 30_encoding.md R114 and R121: an instruction whose condition is false, or is an extension condition, does
nothing but pass its words (the spec's own inference at R114), also where its destination is one of r57 to r59, which
is refused only when written (the model's reading of decision D39; log 16). -/
def Obligations.FalseConditionDoesNothing : Prop :=
  ∀ (i : Instr) (s : State) (q : Cond) (long : Bool), conditionOf i = some (q, long) → Available s.cfg i →
    (s.cond q = false ∨ ∃ k, q = .ext k) → DoneAs i s long (Same s)

/-! ### Operands -/

/-- 30_encoding.md R103, R110 and 10_state.md R20 to R25: what an operand is worth. Registers r0 to r31 hold their
value; LP_COUNT is read after the fetches' decrement, and for two instructions after a write of it as the current
value or one kept from before a write (70_reset_and_hazards.md R406; log 17); r57 to r59 are the three views of the
product (MMID's place: log 45); the long immediate is itself and the short one is sign-extended, in the operand pairs and in the fields
of LD register + offset, ST, LR and SR. -/
def Obligations.OperandValues : Prop :=
  ∀ (s : State) (b c : CoreReg) (v : Word) (d : BitVec 9) (long : Bool) (u : FreeUse),
    (∀ h : b.val < 32, (s.issue long).readReg u b = s.regs[b.val]) ∧
    ((∀ e ∈ s.countHist, 2 ≤ e.age) → (s.issue long).readReg u 60 = (s.issue long).lpCount.setWidth 32) ∧
    (∃ p : PAddr, (s.issue long).readReg u 60 = p.setWidth 32 ∧
      (p = (s.issue long).lpCount ∨ ∃ e ∈ (s.issue long).countHist, e.age ≤ 2 ∧ p = e.old)) ∧
    (s.cfg.hasMul = true → (s.issue long).readReg u 57 = s.mr.extractLsb' 0 32 ∧
      (s.issue long).readReg u 58 = s.mr.extractLsb' 16 32 ∧ (s.issue long).readReg u 59 = s.mr.extractLsb' 32 32) ∧
    operand1 s (.rr b c) = (s.issue false).readReg .operand1 b ∧
    operand2 s (.rr b c) = (s.issue false).readReg .operand2 c ∧
    operand1 s (.rl b v) = (s.issue true).readReg .operand1 b ∧ operand2 s (.rl b v) = v ∧
    operand1 s (.lr v c) = v ∧ operand2 s (.lr v c) = (s.issue true).readReg .operand2 c ∧
    operand1 s (.ll v) = v ∧ operand2 s (.ll v) = v ∧
    operand1 s (.rs b d) = (s.issue false).readReg .operand1 b ∧ (operand2 s (.rs b d)).toInt = d.toInt ∧
    (operand1 s (.sr d c)).toInt = d.toInt ∧ operand2 s (.sr d c) = (s.issue false).readReg .operand2 c ∧
    (operand1 s (.ss d)).toInt = d.toInt ∧ (operand2 s (.ss d)).toInt = d.toInt ∧
    operand s (.reg b) = (s.issue false).readReg .operand1 b ∧ operand s (.limm v) = v ∧
    (operand s (.short d)).toInt = d.toInt ∧
    fieldOperand s long u (.reg b) v d = (s.issue long).readReg u b ∧ fieldOperand s long u (.ind .long) v d = v ∧
    (fieldOperand s long u (.ind .shortFlags) v d).toInt = d.toInt ∧
    (fieldOperand s long u (.ind .shortQuiet) v d).toInt = d.toInt

/-! ### Arithmetic and logic (40_alu.md) -/

/-- 40_alu.md R150 to R153: ADD and ADC. The carry is the sum's bit 32, the overflow a signed sum out of range (the
spec's decision D32; log 32). -/
def Obligations.AddResult : Prop :=
  ∀ (o : Dual) (s : State), s.cond o.cc = true → Writable s o.dst →
    let x := operand1 s o.src
    let y := operand2 s o.src
    let k : Nat := if s.c then 1 else 0
    Completes (.add o) s o.src.isLong o.dst (x + y)
      (withFlags s o.f (x + y == 0) (x + y).msb (decide (2 ^ 32 ≤ x.toNat + y.toNat)) (overflows (x.toInt + y.toInt))) ∧
    Completes (.adc o) s o.src.isLong o.dst (x + y + BitVec.ofNat 32 k)
      (withFlags s o.f (x + y + BitVec.ofNat 32 k == 0) (x + y + BitVec.ofNat 32 k).msb
        (decide (2 ^ 32 ≤ x.toNat + y.toNat + k)) (overflows (x.toInt + y.toInt + k)))

/-- 40_alu.md R150, R153 to R155: SUB and SBC. The carry is the borrow; the overflow is the spec's decision D32 (log
32). -/
def Obligations.SubResult : Prop :=
  ∀ (o : Dual) (s : State), s.cond o.cc = true → Writable s o.dst →
    let x := operand1 s o.src
    let y := operand2 s o.src
    let k : Nat := if s.c then 1 else 0
    Completes (.sub o) s o.src.isLong o.dst (x - y)
      (withFlags s o.f (x - y == 0) (x - y).msb (decide (x.toNat < y.toNat)) (overflows (x.toInt - y.toInt))) ∧
    Completes (.sbc o) s o.src.isLong o.dst (x - y - BitVec.ofNat 32 k)
      (withFlags s o.f (x - y - BitVec.ofNat 32 k == 0) (x - y - BitVec.ofNat 32 k).msb
        (decide (x.toNat < y.toNat + k)) (overflows (x.toInt - y.toInt - k)))

/-- 40_alu.md R150, R157 to R160: AND, OR, BIC, XOR; C and V are unchanged. -/
def Obligations.LogicResult : Prop :=
  ∀ (o : Dual) (s : State), s.cond o.cc = true → Writable s o.dst →
    let x := operand1 s o.src
    let y := operand2 s o.src
    let done := fun (i : Instr) (w : Word) =>
      Completes i s o.src.isLong o.dst w (withFlags s o.f (w == 0) w.msb s.c s.v)
    done (.and o) (x &&& y) ∧ done (.or o) (x ||| y) ∧ done (.bic o) (x &&& ~~~y) ∧ done (.xor o) (x ^^^ y)

/-- 30_encoding.md R142; 40_alu.md R162; 41_single_operand.md R171, R180, R182, R183: NOP, MOV, ASL, RLC and the
first word of ROL. An unimplemented register's value is open (10_state.md R23); the two reads of one need not
agree. -/
def Obligations.SecondNames : Prop :=
  (∀ s : State, DoneAs .nop s false (Same s)) ∧
  (∀ (o : Single) (s : State), s.cond o.cc = true → Writable s o.dst →
    (∃ w, Completes (.mov o) s o.src.isLong o.dst w (withFlags s o.f (w == 0) w.msb s.c s.v) ∧
      ((∀ b, o.src = .reg b → Implemented s b) → w = operand s o.src)) ∧
    (∃ w c v, Completes (.asl o) s o.src.isLong o.dst w (withFlags s o.f (w == 0) w.msb c v) ∧
      ((∀ b, o.src = .reg b → Implemented s b) →
        w = (operand s o.src).extractLsb' 0 31 ++ 0#1 ∧ c = (operand s o.src).getLsbD 31 ∧
          v = ((operand s o.src).getLsbD 31 ^^ (operand s o.src).getLsbD 30))) ∧
    (∃ w c v, Completes (.rlc o) s o.src.isLong o.dst w (withFlags s o.f (w == 0) w.msb c v) ∧
      ((∀ b, o.src = .reg b → Implemented s b) →
        w = (operand s o.src).extractLsb' 0 31 ++ BitVec.ofBool s.c ∧ c = (operand s o.src).getLsbD 31 ∧
          v = ((operand s o.src).getLsbD 31 ^^ (operand s o.src).getLsbD 30)))) ∧
  ∀ (o : RolOp) (s : State), s.cond o.cc = true → Writable s (.reg o.dst) →
    ∃ w c v, Completes (.rol o) s o.src.isLong (.reg o.dst) w (withFlags s true (w == 0) w.msb c v) ∧
      ((∀ b, o.src = .reg b → Implemented s b) →
        w = (operand s o.src).extractLsb' 0 31 ++ 0#1 ∧ c = (operand s o.src).getLsbD 31 ∧
          v = ((operand s o.src).getLsbD 31 ^^ (operand s o.src).getLsbD 30))

/-- 10_state.md R24 (the spec's decision D39; log 16): a result for r57, r58 or r59 is refused where there is a
multiplier, whatever the instruction: those that compute, LR, the data of LD, and the write-back of LD and ST. -/
def Obligations.ReadOnlyDestination : Prop :=
  (∀ (i : Instr) (s : State) (d : RegField) (q : Cond), s.cfg.hasMul = true → resultOf i = some (d, q) →
    Available s.cfg i → s.cond q = true → MulField d → exec i s = .refused .readOnlyCore) ∧
  (∀ (o : LoadRR) (s : State), s.cfg.hasMul = true →
    let a := operand1 s o.src + operand2 s o.src
    memValid s.cfg a.toNat (Size.bytes o.size) .load = true → accessOk s.cfg a o.size = true →
    (MulField o.dst ∨ MulField (backTo o.awb (Src2.first o.src))) → exec (.ldRR o) s = .refused .readOnlyCore) ∧
  (∀ (o : LoadRO) (s : State), s.cfg.hasMul = true →
    let a := fieldOperand s o.base.isLong .operand1 o.base o.limm o.off + shortImm o.off
    memValid s.cfg a.toNat (Size.bytes o.size) .load = true → accessOk s.cfg a o.size = true →
    (MulField o.dst ∨ MulField (backTo o.awb o.base)) → exec (.ldRO o) s = .refused .readOnlyCore) ∧
  ∀ (o : StoreOp) (s : State), s.cfg.hasMul = true →
    let a := storeAddr o (s.issue (StoreOp.isLong o))
    memValid s.cfg a.toNat (Size.bytes o.size) .store = true → accessOk s.cfg a o.size = true →
    MulField (backTo o.awb o.base) → exec (.st o) s = .refused .readOnlyCore

/-! ### Single-operand instructions (41_single_operand.md) and the library (46_extensions.md) -/

/-- 41_single_operand.md R170, R176 to R179: the shifts by one. The carry of ASR and LSR is the spec's own
decision (D33; log 30). -/
def Obligations.ShiftByOne : Prop :=
  ∀ (o : Single) (s : State), s.cond o.cc = true → Writable s o.dst →
    let x := operand s o.src
    let done := fun (i : Instr) (top : Bool) =>
      let w := BitVec.ofBool top ++ x.extractLsb' 1 31
      Completes i s o.src.isLong o.dst w (withFlags s o.f (w == 0) top (x.getLsbD 0) s.v)
    done (.asr o) x.msb ∧ done (.lsr o) false ∧ done (.ror o) (x.getLsbD 0) ∧ done (.rrc o) s.c

/-- 41_single_operand.md R170, R172 to R175: sign and zero extension of a byte or a word. -/
def Obligations.ExtendResult : Prop :=
  ∀ (o : Single) (s : State), s.cond o.cc = true → Writable s o.dst →
    let x := operand s o.src
    let done := fun (i : Instr) (w : Word) =>
      Completes i s o.src.isLong o.dst w (withFlags s o.f (w == 0) w.msb s.c s.v)
    done (.sexb o) (BitVec.ofInt 32 (x.setWidth 8).toInt) ∧ done (.sexw o) (BitVec.ofInt 32 (x.setWidth 16).toInt) ∧
    done (.extb o) (BitVec.ofNat 32 (x.toNat % 2 ^ 8)) ∧ done (.extw o) (BitVec.ofNat 32 (x.toNat % 2 ^ 16))

/-- 46_extensions.md R306, R308: SWAP and NORM; NORM's formula is the spec's own inference at R306. -/
def Obligations.SwapNormResult : Prop :=
  ∀ (o : Single) (s : State), s.cond o.cc = true → Writable s o.dst →
    let x := operand s o.src
    let y := if x.msb then ~~~x else x
    let done := fun (i : Instr) (w : Word) =>
      Completes i s o.src.isLong o.dst w (withFlags s o.f (w == 0) w.msb s.c s.v)
    (s.cfg.hasSwap = true → done (.swap o) (x.setWidth 16 ++ (x >>> 16).setWidth 16)) ∧
    (s.cfg.hasNorm = true → ∃ w, done (.norm o) w ∧ (y = 0 → w = 31) ∧
      (y ≠ 0 → w.toNat ≤ 30 ∧ 2 ^ (30 - w.toNat) ≤ y.toNat ∧ y.toNat < 2 ^ (31 - w.toNat)))

/-- 46_extensions.md R299 to R303: the multiple shifts by 0 to 31 places. -/
def Obligations.BarrelResult : Prop :=
  ∀ (o : Dual) (s : State), s.cfg.hasBarrel = true → s.cond o.cc = true → Writable s o.dst →
    let x := operand1 s o.src
    let n := (operand2 s o.src).toNat
    let done := fun (i : Instr) (w : Word) =>
      Completes i s o.src.isLong o.dst w (withFlags s o.f (w == 0) w.msb s.c s.v)
    n < 32 →
      done (.aslm o) (BitVec.ofNat 32 (x.toNat * 2 ^ n)) ∧ done (.lsrm o) (BitVec.ofNat 32 (x.toNat / 2 ^ n)) ∧
      done (.asrm o) (BitVec.ofInt 32 (x.toInt / 2 ^ n)) ∧ done (.rorm o) (x >>> n ||| x <<< (32 - n))

/-- 46_extensions.md R299: with a count of 32 or more the multiple shifts still complete; the result, and Z and N if
set, are open (the spec's decision D13; log 33), C and V are unchanged. -/
def Obligations.BarrelOpenCounts : Prop :=
  ∀ (o : Dual) (s : State), s.cfg.hasBarrel = true → s.cond o.cc = true → Writable s o.dst →
    32 ≤ (operand2 s o.src).toNat →
    let done := fun (i : Instr) => ∃ w z n, Completes i s o.src.isLong o.dst w (withFlags s o.f z n s.c s.v)
    done (.aslm o) ∧ done (.lsrm o) ∧ done (.asrm o) ∧ done (.rorm o)

/-- 46_extensions.md R311 to R313: MAX and MIN, with the flags of the subtraction but for C; the overflow is the
spec's decision D32 (log 32). -/
def Obligations.MaxMinResult : Prop :=
  ∀ (o : Dual) (s : State), s.cfg.hasMinMax = true → s.cond o.cc = true → Writable s o.dst →
    let x := operand1 s o.src
    let y := operand2 s o.src
    let done := fun (i : Instr) (second : Bool) =>
      Completes i s o.src.isLong o.dst (if second then y else x)
        (withFlags s o.f (x == y) (x - y).msb second (overflows (x.toInt - y.toInt)))
    done (.max o) (decide (x.toInt ≤ y.toInt)) ∧ done (.min o) (decide (y.toInt ≤ x.toInt))

/-- 46_extensions.md R290 to R292: the products, signed and unsigned, go to MR; no register and no flag changes. The
product's upper half is kept while the multiply may be under way, for 4 or 10 instructions by the parameter MUL_FAST,
or until an instruction reads r57, r58 or r59 (70_reset_and_hazards.md R412); the count in instructions, and that such
an instruction with a false condition counts too, are the model's choices (log 22). An LD or ST that takes the memory
error has read its operands as well; a branch that a BRK in its slot holds has not. -/
def Obligations.MultiplyResult : Prop :=
  (∀ (o : MulOp) (s : State), s.cfg.hasMul = true → s.cond o.cc = true →
    let x := operand1 s o.src
    let y := operand2 s o.src
    let done := fun (i : Instr) (P : BitVec 64 → Prop) => DoneAs i s o.src.isLong fun t =>
      Same { s with mr := t.mr } t ∧ P t.mr ∧ t.mulHigh = t.mr.extractLsb' 32 32 ∧
        t.mulBusy = if s.cfg.mulFast then 4 else 10
    done (.mul64 o) (fun p => p.toInt = x.toInt * y.toInt) ∧ done (.mulu64 o) (fun p => p.toNat = x.toNat * y.toNat)) ∧
  (∀ (s : State) (long : Bool), (s.issue long).mulBusy = s.mulBusy - 1 ∧ (s.issue long).mulHigh = s.mulHigh) ∧
  ∀ (i : Instr) (s t : State) (r : CoreReg), s.cfg.hasMul = true → Available s.cfg i → r ∈ readsOf i →
    MulField (.reg r) → (isBranch i = true → s.slotWord (s.fallThrough false) ≠ .brk) → exec i s = .next t →
    t.mulBusy = 0

/-- 30_encoding.md R135, R136; 43_control.md R255: without its option a library opcode takes the instruction error;
SWAP and NORM without theirs, and the unassigned single-operand codes, complete with an open result and open flags
(the spec's decisions D41, D17; log 34, log 35). That a reserved bit set in such a code is refused is the model's
choice (log 34). -/
def Obligations.AbsentOption : Prop :=
  (∀ (o : Dual) (m : MulOp) (s : State),
    let traps := fun (i : Instr) (long : Bool) =>
      ∃ t ret, exec i s = .next t ∧ Entered s 2 .exc ret (s.issue false).lpCount t ∧
        (ret = s.resumeAddr (s.fallThrough false) ∨ long = true ∧ ret = s.resumeAddr (s.fallThrough true))
    (s.cfg.hasBarrel = false → traps (.aslm o) o.src.isLong ∧ traps (.lsrm o) o.src.isLong ∧
      traps (.asrm o) o.src.isLong ∧ traps (.rorm o) o.src.isLong) ∧
    (s.cfg.hasMul = false → traps (.mul64 m) m.src.isLong ∧ traps (.mulu64 m) m.src.isLong) ∧
    (s.cfg.hasMinMax = false → traps (.max o) o.src.isLong ∧ traps (.min o) o.src.isLong)) ∧
  (∀ (o : Single) (s : State), s.cond o.cc = true → Writable s o.dst →
    let done := fun (r : Result) =>
      ∃ w z n c v, Completed r s o.src.isLong o.dst w (withFlags s o.f z n c v)
    (s.cfg.hasSwap = false → done (exec (.swap o) s)) ∧ (s.cfg.hasNorm = false → done (exec (.norm o) s)) ∧
    (s.fetchInstr = .unassigned o → done s.runOne)) ∧
  ∀ w x : Word, opcodeOf w = 3 → 0x0B ≤ (fieldC w).toNat → w ≠ brkWord → w ≠ sleepWord → w ≠ swiWord →
    (∃ o, decode w x = .unassigned o) ∨ decode w x = .refused .reservedBits ∧ fieldR w ≠ 0

/-! ### Memory, LD and ST (20_memory.md, 44_load_store.md) -/

/-- 20_memory.md R70, R71: what an access of each size reads, in either byte order (the parameter of the spec's
decision D1), and that it reads what the same access wrote. Addresses wrap modulo 2^32 (log 46). -/
def Obligations.ByteOrder : Prop :=
  ∀ (m : Memory) (a v : Word) (e : Endian) (z : Size),
    memRead e m a .byte = (m.byte a.toNat).setWidth 32 ∧
    memRead .little m a .word = (m.byte (a + 1).toNat ++ m.byte a.toNat).setWidth 32 ∧
    memRead .big m a .word = (m.byte a.toNat ++ m.byte (a + 1).toNat).setWidth 32 ∧
    memRead .little m a .long =
      m.byte (a + 3).toNat ++ m.byte (a + 2).toNat ++ m.byte (a + 1).toNat ++ m.byte a.toNat ∧
    memRead .big m a .long =
      m.byte a.toNat ++ m.byte (a + 1).toNat ++ m.byte (a + 2).toNat ++ m.byte (a + 3).toNat ∧
    (m.wf → memRead e (memWrite e m a z v) a z = BitVec.ofNat 32 (v.toNat % 2 ^ (8 * Size.bytes z))) ∧
    (m.wf → memRead .little (memWrite .little m a .long 0x11223344) a .byte = 0x44 ∧
      memRead .big (memWrite .big m a .long 0x11223344) a .byte = 0x11)

/-- 44_load_store.md R264: the extension of loaded data; that `.X` on a long word does nothing is the spec's own
inference there. -/
def Obligations.LoadExtension : Prop :=
  ∀ (raw : Word) (x : Bool),
    extendLoad .long x raw = raw ∧
    extendLoad .word false raw = BitVec.ofNat 32 (raw.setWidth 16).toNat ∧
    extendLoad .word true raw = BitVec.ofInt 32 (raw.setWidth 16).toInt ∧
    extendLoad .byte false raw = BitVec.ofNat 32 (raw.setWidth 8).toNat ∧
    extendLoad .byte true raw = BitVec.ofInt 32 (raw.setWidth 8).toInt

/-- 44_load_store.md R261, R262, R264 to R266: both forms of LD. With the destination also the base of a
write-back, the loaded data stays. What LP_COUNT holds as a load's destination is open (R405 of 70_reset_and_hazards.md; log 21). A store buffered for
a byte of the access is performed (20_memory.md R82; log 49). -/
def Obligations.LoadResult : Prop :=
  (∀ (o : LoadRR) (s : State),
    let a := operand1 s o.src + operand2 s o.src
    let wb := backTo o.awb (Src2.first o.src)
    memValid s.cfg a.toNat (Size.bytes o.size) .load = true → accessOk s.cfg a o.size = true →
    Writable s o.dst → Writable s wb →
    Loads (.ldRR o) s o.src.isLong o.dst wb a (extendLoad o.size o.x (memRead s.cfg.endian s.mem a o.size))
      o.size) ∧
  ∀ (o : LoadRO) (s : State),
    let a := fieldOperand s o.base.isLong .operand1 o.base o.limm o.off + shortImm o.off
    let wb := backTo o.awb o.base
    memValid s.cfg a.toNat (Size.bytes o.size) .load = true → accessOk s.cfg a o.size = true →
    Writable s o.dst → Writable s wb →
    Loads (.ldRO o) s o.base.isLong o.dst wb a (extendLoad o.size o.x (memRead s.cfg.endian s.mem a o.size))
      o.size

/-- 44_load_store.md R265, R269: ST stores the low bytes of its data, read before any write-back (the spec's own
inference at R269), at the sum of base and offset, and every other byte of memory keeps its value. A word in which a
fetch may still miss a change by the host takes the store too (20_memory.md R72, R85 (c); log 29). The store comes into
the buffer with what memory held before it, and older stores with a byte in common are performed (R82; log 49). -/
def Obligations.StoreResult : Prop :=
  ∀ (o : StoreOp) (s : State),
    let long := StoreOp.isLong o
    let a := storeAddr o (s.issue long)
    let v := fieldOperand s long .operand2 o.data o.limm o.off
    let wb := backTo o.awb o.base
    s.mem.wf → memValid s.cfg a.toNat (Size.bytes o.size) .store = true → accessOk s.cfg a o.size = true →
    Writable s wb →
    a = fieldOperand s long .operand1 o.base o.limm o.off + shortImm o.off ∧
    ∃ t, exec (.st o) s = .next t ∧
      Same { s with
        mem := t.mem, buffer := t.buffer, stored := t.stored, oldCode := t.oldCode, regs := regsWith s wb a } t ∧
      t.oldCode = s.oldCode.map (OldCode.redo s.cfg.endian fun m => memWrite s.cfg.endian m a o.size v) ∧
      t.buffer = ⟨a, o.size, memRead s.cfg.endian s.mem a o.size, s.tick.draws⟩ ::
        s.buffer.filter (fun e => !overlap e.addr e.size a o.size) ∧
      memRead s.cfg.endian t.mem a o.size = BitVec.ofNat 32 (v.toNat % 2 ^ (8 * Size.bytes o.size)) ∧
      (∀ x, (∀ i < Size.bytes o.size, x ≠ (a + BitVec.ofNat 32 i).toNat) → t.mem.byte x = s.mem.byte x) ∧
      t.lpCount = (if wb = .reg 60 then a.setWidth 24 else (s.issue long).lpCount) ∧ Passed s long t

/-- 20_memory.md R73, R74 (the spec's decision D2; log 10): accesses aligned to their size are supported; one that is
not, and that the memory system does not support, stops. -/
def Obligations.Alignment : Prop :=
  (∀ (cfg : Config) (a : Word), accessOk cfg a .byte = true ∧ (a.toNat % 2 = 0 → accessOk cfg a .word = true) ∧
    (a.toNat % 4 = 0 → accessOk cfg a .long = true)) ∧
  (∀ (o : LoadRR) (s : State),
    let a := operand1 s o.src + operand2 s o.src
    memValid s.cfg a.toNat (Size.bytes o.size) .load = true → aligned a o.size = false →
    misalignedOk s.cfg a.toNat (Size.bytes o.size) = false → exec (.ldRR o) s = .fault .misaligned) ∧
  (∀ (o : LoadRO) (s : State),
    let a := fieldOperand s o.base.isLong .operand1 o.base o.limm o.off + shortImm o.off
    memValid s.cfg a.toNat (Size.bytes o.size) .load = true → aligned a o.size = false →
    misalignedOk s.cfg a.toNat (Size.bytes o.size) = false → exec (.ldRO o) s = .fault .misaligned) ∧
  ∀ (o : StoreOp) (s : State),
    let a := storeAddr o (s.issue (StoreOp.isLong o))
    memValid s.cfg a.toNat (Size.bytes o.size) .store = true → aligned a o.size = false →
    misalignedOk s.cfg a.toNat (Size.bytes o.size) = false → exec (.st o) s = .fault .misaligned

/-- 60_exceptions.md R326, R337; 20_memory.md R78: a load of either form, a store, and the fetch of an instruction
word or of a long immediate from invalid memory take vector 1. The saved address, the destination, whether the
base is written back and the bytes addressed are open; the rest is as before the instruction (the spec's decisions
D6, D7; log 11). The error comes before the stop of a misaligned access (log 10) and before the refusal of r57 to r59 as
a destination (log 16), and a form that is refused has its long immediate fetched first, so that the error of that
fetch comes before the refusal (log 35), and at a fetch the error comes before the stop at a long word the program has
stored to (log 12): the model's choices. A store that takes the error enters the buffer as any other, so that the host
may see its bytes as they were (20_memory.md R82; log 11). -/
def Obligations.MemoryErrorEntry : Prop :=
  (∀ (o : LoadRR) (s : State),
    let a := operand1 s o.src + operand2 s o.src
    memValid s.cfg a.toNat (Size.bytes o.size) .load = false →
    LoadFaults (.ldRR o) s o.dst (backTo o.awb (Src2.first o.src)) a) ∧
  (∀ (o : LoadRO) (s : State),
    let a := fieldOperand s o.base.isLong .operand1 o.base o.limm o.off + shortImm o.off
    memValid s.cfg a.toNat (Size.bytes o.size) .load = false →
    LoadFaults (.ldRO o) s o.dst (backTo o.awb o.base) a) ∧
  (∀ (o : StoreOp) (s : State),
    let a := storeAddr o (s.issue (StoreOp.isLong o))
    let wb := backTo o.awb o.base
    memValid s.cfg a.toNat (Size.bytes o.size) .store = false →
    ∃ t ret, ∃ back : Bool, exec (.st o) s = .next t ∧
      Entered { s with
        mem := t.mem
        buffer := t.buffer
        stored := t.stored
        oldCode := t.oldCode
        regs := if back then regsWith s wb a else s.regs } 1 .exc ret t.lpCount t ∧
      t.buffer = ⟨a, o.size, memRead s.cfg.endian s.mem a o.size, s.tick.draws⟩ ::
        s.buffer.filter (fun e => !overlap e.addr e.size a o.size) ∧
      (∀ x, (∀ i < Size.bytes o.size, x ≠ (a + BitVec.ofNat 32 i).toNat) → t.mem.byte x = s.mem.byte x) ∧
      (∃ data, t.oldCode =
        s.oldCode.map (OldCode.redo s.cfg.endian fun m => memWrite s.cfg.endian m a o.size data)) ∧
      t.lpCount = if wb = .reg 60 ∧ back = true then a.setWidth 24 else s.lpCount) ∧
  (∀ s : State, s.fetchValid s.pc = false → ∃ t ret, s.runOne = .next t ∧ Entered s 1 .exc ret s.lpCount t) ∧
  ∀ s : State, s.fetchValid s.pc = true → s.stale s.pc = false → opcodeValid s.cfg (s.codeWord s.pc) = true →
    needsLimm (s.codeWord s.pc) = true → s.fetchValid (s.fallThrough false) = false →
    ∃ t ret, s.runOne = .next t ∧ Entered s 1 .exc ret s.lpCount t

/-! ### Auxiliary registers (45_aux_access.md) -/

/-- 45_aux_access.md R281, R285: LR. The IDENTITY word's and the DEBUG bits' places are PRESUMED (log 8); DEBUG.LD
is open while a load may be outstanding, and 0 once the LR has waited for all of them (10_state.md R49;
44_load_store.md R272; log 23). That STATUS carries the fall-through address in an executed delay slot too, and not
the branch target, is the model's deduction, unsafe in that case (log 26). -/
def Obligations.LrResult : Prop :=
  ∀ (o : LrOp) (s : State), Writable s o.dst →
    let long := o.base.isLong
    let a := fieldOperand s long .operand1 o.base o.limm o.off
    ∃ w ld, Completes (.lr o) s long o.dst w { s with loads := if a = 5 ∧ ld = false then [] else s.loads } ∧
      ((∀ d ∈ s.loads, (∃ r, d = .reg r) ∧ (d = o.dst ∨ d = o.base)) → ld = false) ∧
      (a = 0 → w = s.statusWord (s.fallThrough long)) ∧
      (a = 1 → w = s.semArc) ∧
      (a = 2 → w = s.lpStart.setWidth 32) ∧
      (a = 3 → w = s.lpEnd.setWidth 32) ∧
      (a = 4 → w = identityWord s.cfg) ∧
      (a = 5 → w = s.debugWord ld) ∧
      (0x60 ≤ a.toNat → a.toNat ≤ 0x7F → w = (bcrAt s.cfg a.toNat).getD (identityWord s.cfg)) ∧
      (6 ≤ a.toNat → ¬(0x60 ≤ a.toNat ∧ a.toNat ≤ 0x7F) → (a ≠ 0x12 ∨ s.cfg.hasMul = false) →
        w = identityWord s.cfg)

/-- 45_aux_access.md R283, R286: SR; to STATUS, IDENTITY, DEBUG or a build configuration register it is refused
(decision D19). While a multiply may be under way the upper half of MR is either the written value or the
product's (70_reset_and_hazards.md R412; log 22). That SEMAPHORE bits from `N_SEM` on stay 0 is the spec's decision
D23 (log 47), and that a bit the host owns cannot be claimed is its own inference at 20_memory.md R91. The value a loop register had
before is kept for the comparisons of R404 (log 19). -/
def Obligations.SrResult : Prop :=
  ∀ (o : SrOp) (s : State),
    let long := SrOp.isLong o
    let a := fieldOperand s long .operand1 o.base o.limm o.off
    let v := fieldOperand s long .operand2 o.data o.limm o.off
    (a = 1 → DoneAs (.sr o) s long fun t => Same { s with semArc := t.semArc } t ∧
      ∀ k < 32, t.semArc.getLsbD k = (decide (k < s.cfg.nSem) && v.getLsbD k && !s.semHost.getLsbD k)) ∧
    (a = 2 → DoneAs (.sr o) s long fun t => Same { s with lpStart := v.setWidth 24 } t ∧
      t.startHist = ⟨s.lpStart, 0⟩ :: s.tick.startHist ∧ t.endHist = s.tick.endHist) ∧
    (a = 3 → DoneAs (.sr o) s long fun t => Same { s with lpEnd := v.setWidth 24 } t ∧
      t.endHist = ⟨s.lpEnd, 0⟩ :: s.tick.endHist ∧ t.startHist = s.tick.startHist) ∧
    (a = 0x12 → s.cfg.hasMul = true → DoneAs (.sr o) s long fun t => Same { s with mr := t.mr } t ∧
      t.mr.extractLsb' 0 32 = s.mr.extractLsb' 0 32 ∧
      (t.mr.extractLsb' 32 32 = v ∨ 1 < s.mulBusy ∧ t.mr.extractLsb' 32 32 = s.mulHigh)) ∧
    (6 ≤ a.toNat → ¬(0x60 ≤ a.toNat ∧ a.toNat ≤ 0x7F) → (a ≠ 0x12 ∨ s.cfg.hasMul = false) →
      DoneAs (.sr o) s long (Same s)) ∧
    ((a = 0 ∨ a = 4 ∨ a = 5 ∨ (0x60 ≤ a.toNat ∧ a.toNat ≤ 0x7F)) → exec (.sr o) s = .refused .readOnlyAux)

/-- 20_memory.md R91: a write of `v` to SEMAPHORE by the processor, and by the host, bit by bit. A bit the writer
or nobody owns becomes the writer's if `v` has it, and nobody's if not; a bit the other agent owns does not
change; and the other agent's ownership never changes (the last two clauses are the spec's own inference at R91). -/
def Obligations.SemaphoreWrite : Prop :=
  ∀ (s : State) (v : Word), Inv s →
    (∃ t, s.auxWrite 1 v = .next t ∧ t.semHost = s.semHost ∧ ∀ k < s.cfg.nSem, k < 32 →
      t.semArc.getLsbD k = if s.semHost.getLsbD k then s.semArc.getLsbD k else v.getLsbD k) ∧
    (∃ t, s.hostWriteAux 1 v = .next t ∧ t.semArc = s.semArc ∧ ∀ k < s.cfg.nSem, k < 32 →
      t.semHost.getLsbD k = if s.semArc.getLsbD k then s.semHost.getLsbD k else v.getLsbD k)

/-! ### FLAG, BRK, SLEEP, SWI (41_single_operand.md R190, 43_control.md) -/

/-- 41_single_operand.md R190, R192: FLAG in its proper form; with bit 8 set, with `B` = 61, or with a register in
`A`, it is refused (decision D38). At the halt the host sees the PC of one of the next three fetches (60_exceptions.md
R363, decision D21; the path is that of log 28). -/
def Obligations.FlagResult : Prop :=
  (∀ (o : Single) (s : State), (o.f = true ∨ ∃ r, o.dst = .reg r) → exec (.flag o) s = .refused .flagForm) ∧
  ∀ (o : Single) (s : State), o.f = false → (∀ r, o.dst ≠ .reg r) → s.cond o.cc = true →
    let x := operand s o.src
    (x.getLsbD 0 = false → DoneAs (.flag o) s o.src.isLong (Same { s with
      z := x.getLsbD 6, n := x.getLsbD 5, c := x.getLsbD 4, v := x.getLsbD 3
      e2 := x.getLsbD 2, e1 := x.getLsbD 1 })) ∧
    (x.getLsbD 0 = true → DoneAs (.flag o) s o.src.isLong fun t =>
      HaltedFrom s true s.bh t ∧ SeenOnPath (beforeHalt s t) t)

/-- 43_control.md R250: BRK halts at its own address, without the loop mechanism. That the delay-slot context is over
where it was `hold` is the model's choice (log 24). -/
def Obligations.BrkHalts : Prop :=
  ∀ s : State, ∃ t, exec .brk s = .next t ∧ HaltedFrom s s.sh true t ∧ t.hostPc = none ∧ t.pc = s.pc ∧
    t.slot = .none ∧ t.lpCount = s.lpCount

/-- 43_control.md R252, R253: SLEEP sets ZZ and passes; in a delay slot the pc is the branch target. -/
def Obligations.SleepResult : Prop :=
  ∀ s : State, DoneAs .sleep s false (Same { s with zz := true })

/-- 43_control.md R254; 60_exceptions.md R337: SWI enters vector 2; in a delay slot it saves the branch target (the
spec's decisions D8, D37). -/
def Obligations.SwiEntry : Prop :=
  ∀ s : State, ∃ t, exec .swi s = .next t ∧
    Entered s 2 .exc (s.resumeAddr (s.fallThrough false)) (s.issue false).lpCount t

/-! ### Branches, jumps and loops (42_jump_branch_loop.md) -/

/-- 42_jump_branch_loop.md R203, R210: Bcc. A slot that mode JD skips at a loop's end is followed by LP_START, LP_COUNT
staying (the spec's decision D42), and a killed slot in invalid memory raises nothing (the model's choice; log 11). -/
def Obligations.BccResult : Prop :=
  ∀ (o : BranchOp) (s : State), SlotOk s o.n →
    Branches (.bcc o) s o.n (s.cond o.cc) (s.fallThrough false + BitVec.ofInt 24 o.l.toInt) s

/-- 42_jump_branch_loop.md R203, R212, R213: BLcc; BLINK is written only when the branch is taken. The skip at a loop's
end is decision D42; a killed slot in invalid memory raises nothing (the model's choice; log 11). -/
def Obligations.BlccResult : Prop :=
  ∀ (o : BranchOp) (s : State), SlotOk s o.n →
    Branches (.blcc o) s o.n (s.cond o.cc) (s.fallThrough false + BitVec.ofInt 24 o.l.toInt)
      (if s.cond o.cc then { s with regs := regsWith s (.reg 31) (linkValue s o.n) } else s)

/-- 42_jump_branch_loop.md R203, R220, R221: LPcc branches when its condition is false, and otherwise sets the loop
registers; the comparison of the next fetch still uses the older bounds (R221; log 20). That mode JD with a true
condition skips the slot once although the loop is set up is the spec's decision D35 (R220). The skip at a loop's end is
decision D42; a killed slot in invalid memory raises nothing (the model's choice; log 11). -/
def Obligations.LpccResult : Prop :=
  ∀ (o : BranchOp) (s : State), SlotOk s o.n →
    let target := s.fallThrough false + BitVec.ofInt 24 o.l.toInt
    Branches (.lpcc o) s o.n (!s.cond o.cc) target
      (if s.cond o.cc then { s with lpStart := s.fallThrough false, lpEnd := target } else s) ∧
    (LoopSettled s → s.cond o.cc = true → o.n ≠ .jd →
      ∀ t, exec (.lpcc o) s = .next t → t.tick.loopBounds 0 = (s.lpStart, s.lpEnd) ∧
        (t.issue false).loopBounds 1 = (t.lpStart, t.lpEnd))

/-- 42_jump_branch_loop.md R203, R214: Jcc through a register and to an explicit address; with `F` it loads flags
and enables. The skip at a loop's end is decision D42; a killed slot in invalid memory raises nothing (the model's
choice; log 11). -/
def Obligations.JccResult : Prop :=
  ∀ (b : CoreReg) (w : Word) (f : Bool) (n : SlotMode) (q : Cond) (s : State),
    (SlotOk s n →
      Branches (.jcc ⟨.reg b, f, n, q⟩) s n (s.cond q) ((operand s (.reg b)).setWidth 24)
        (withStatus s (s.cond q && f) (operand s (.reg b)))) ∧
    ((∀ target, s.slot ≠ .run target) →
      Jumps (.jcc ⟨.limm w, f, n, q⟩) s (s.cond q) (w.setWidth 24) (withStatus s (s.cond q && f) w))

/-- 42_jump_branch_loop.md R203, R213, R216: JLcc; the link holds the flags as they were before the jump. To an
explicit address the mode D is refused. The skip at a loop's end is decision D42; a killed slot in invalid memory raises
nothing (the model's choice; log 11). -/
def Obligations.JlccResult : Prop :=
  ∀ (b : CoreReg) (w : Word) (f : Bool) (n : SlotMode) (q : Cond) (s : State),
    let linked := if s.cond q then { s with regs := regsWith s (.reg 31) (linkValue s n) } else s
    (SlotOk s n →
      Branches (.jlcc ⟨.reg b, f, n, q⟩) s n (s.cond q) ((operand s (.reg b)).setWidth 24)
        (withStatus linked (s.cond q && f) (operand s (.reg b)))) ∧
    ((∀ target, s.slot ≠ .run target) →
      (n ≠ .d → Jumps (.jlcc ⟨.limm w, f, n, q⟩) s (s.cond q) (w.setWidth 24)
        (withStatus linked (s.cond q && f) w)) ∧
      exec (.jlcc ⟨.limm w, f, .d, q⟩) s = .refused (.undecodable .jumpForm))

/-- 42_jump_branch_loop.md R205, R206 (decisions D42, D29): a branch in an executed delay slot is refused, and so
is a two-word instruction behind a branch of mode D or JD, as which a word of an absent opcode does not count (the
model's choice; log 37). -/
def Obligations.SlotContentsRefused : Prop :=
  (∀ (i : Instr) (s : State) (target : PAddr), isBranch i = true → s.slot = .run target →
    exec i s = .refused .branchInSlot) ∧
  ∀ (i : Instr) (s : State) (n : SlotMode), slottedMode i = some n → n ≠ .nd → (∀ target, s.slot ≠ .run target) →
    s.slotWord (s.fallThrough false) = .twoWords → exec i s = .refused .longInSlot

/-- 43_control.md R251 (a) (decision D43; log 38): a BRK in the delay slot halts the core before the branch. That the
delay-slot context is over where it was `hold` is the model's choice (log 24). -/
def Obligations.BrkInSlot : Prop :=
  ∀ (i : Instr) (s : State) (n : SlotMode), slottedMode i = some n → (∀ target, s.slot ≠ .run target) →
    s.slotWord (s.fallThrough false) = .brk →
    ∃ t, exec i s = .next t ∧ HaltedFrom s s.sh true t ∧ t.pc = s.pc ∧ t.slot = .none ∧ t.lpCount = s.lpCount

/-- 42_jump_branch_loop.md R230, R235; 00_scope.md R10: the loop rule at the fetch of an instruction word, and again
at the fetch of its long immediate: exactly, where no write of a loop register is recent, and otherwise with the
values that may be in force (70_reset_and_hazards.md R404, R407; logs 18, 19). An instruction's write of LP_COUNT
keeps the value before it for three instructions, and SR's of LP_START or LP_END for two, neither more nor less. -/
def Obligations.LoopNext : Prop :=
  (∀ s : State, LoopSettled s →
    let next := s.fallThrough false
    let count := (s.issue false).lpCount
    next = (if s.pc + 1 = s.lpEnd ∧ s.lpCount ≠ 1 then s.lpStart else s.pc + 1) ∧
    count = (if s.pc + 1 = s.lpEnd then s.lpCount - 1 else s.lpCount) ∧
    s.fallThrough true = (if next + 1 = s.lpEnd ∧ count ≠ 1 then s.lpStart else next + 1) ∧
    (s.issue true).lpCount = (if next + 1 = s.lpEnd then count - 1 else count)) ∧
  ∀ s : State,
    LoopFetched s.tick (s.issue false) s.pc (s.fallThrough false) ∧
    LoopFetched (s.issue false) (s.issue true) (s.fallThrough false) (s.fallThrough true) ∧
    s.tick.lpCount = s.lpCount ∧ s.tick.lpLag = s.lpLag ∧
    LaterBy1 2 s.startHist s.tick.startHist ∧ LaterBy1 2 s.endHist s.tick.endHist ∧
    LaterBy1 3 s.countHist s.tick.countHist ∧
    ∀ v, (s.setReg 60 v).lpCount = v.setWidth 24 ∧ (s.setReg 60 v).countHist = ⟨s.lpCount, 0⟩ :: s.countHist

/-! ### Exceptions, sleep, halt, reset (60_exceptions.md, 70_reset_and_hazards.md) -/

/-- 10_state.md R41: the STATUS layout, and that bit 24 of a written word is ignored (bit 24 is the spec's decision
D18; log 48). R47, R48: the layout of IDENTITY, with ARCVER 8, and of DEBUG, IS, FH, SS and every other bit reading 0,
for all places of the fields, and for the default ones, which are PRESUMED (decision D31; log 8). -/
def Obligations.StatusLayout : Prop :=
  ∀ (s : State) (p : PAddr) (w : Word),
    (s.statusWord p).getLsbD 31 = s.z ∧ (s.statusWord p).getLsbD 30 = s.n ∧ (s.statusWord p).getLsbD 29 = s.c ∧
    (s.statusWord p).getLsbD 28 = s.v ∧ (s.statusWord p).getLsbD 27 = s.e2 ∧ (s.statusWord p).getLsbD 26 = s.e1 ∧
    (s.statusWord p).getLsbD 25 = s.h ∧ (s.statusWord p).getLsbD 24 = s.cfg.statusR24 ∧
    (s.statusWord p).setWidth 24 = p ∧
    s.loadStatus (w ||| 0x01000000) = s.loadStatus w ∧ s.hostStatus (w ||| 0x01000000) = s.hostStatus w ∧
    (∀ k < 32, (identityWord s.cfg).getLsbD k =
      (placedBit s.cfg.mancode s.cfg.identityBits.mancode k || placedBit s.cfg.manver s.cfg.identityBits.manver k ||
        placedBit s.cfg.arcnum s.cfg.identityBits.arcnum k || placedBit 8 s.cfg.identityBits.arcver k)) ∧
    (s.cfg.identityBits = {} → identityWord s.cfg = s.cfg.mancode ++ s.cfg.manver ++ s.cfg.arcnum ++ 8#8) ∧
    ∀ ld : Bool,
      (∀ k < 32, (s.debugWord ld).getLsbD k = (ld && k == s.cfg.debugBits.ld || s.sh && k == s.cfg.debugBits.sh ||
        s.bh && k == s.cfg.debugBits.bh || s.zz && k == s.cfg.debugBits.zz)) ∧
      (s.cfg.debugBits = {} → s.debugWord ld = BitVec.ofBool ld ++ BitVec.ofBool s.sh ++ BitVec.ofBool s.bh ++ 0#5 ++
        BitVec.ofBool s.zz ++ 0#23)

/-- 60_exceptions.md R330 to R333, R371: an interrupt selected at a recognition point of a running or sleeping core is
entered, the saved address being that of the next instruction. That a masked request does not wake is the spec's
decision D26. -/
def Obligations.InterruptEntry : Prop :=
  ∀ (s : State) (irqs : List Nat) (l : List Input) (k : Nat) (lv : Level),
    s.inputs = .lines irqs :: l → s.h = false → s.slot = .none → s.selectIrq irqs = some (k, lv) →
    s.brkNext = false → ∃ t, step s = .next t ∧ Entered { s with inputs := l } k lv s.pc s.lpCount t

/-- 60_exceptions.md R323, R324: which interrupt is selected, the order within a level being the parameter of the
spec's decision D5. -/
def Obligations.InterruptPriority : Prop :=
  ∀ (s : State) (irqs : List Nat),
    (∀ k lv, s.selectIrq irqs = some (k, lv) →
      (lv = .l2 ∧ s.e2 = true ∧ FirstRequest s irqs .l2 k) ∨
      (lv = .l1 ∧ s.e1 = true ∧ FirstRequest s irqs .l1 k ∧
        (s.e2 = true → ∀ l ∈ s.cfg.irqLines, ¬ Requests s irqs .l2 l))) ∧
    (s.selectIrq irqs = none →
      (s.e2 = true → ∀ l ∈ s.cfg.irqLines, ¬ Requests s irqs .l2 l) ∧
      (s.e1 = true → ∀ l ∈ s.cfg.irqLines, ¬ Requests s irqs .l1 l))

/-- 43_control.md R251 (b); 60_exceptions.md R323, R333: a BRK outranks the interrupt; a masked request, and one
behind a branch that did not jump over its slot, lets the core run on (the model's choices of log 24 and log 39).
The core is behind such a branch between two steps only where its slot held another one. -/
def Obligations.InterruptHeldOff : Prop :=
  ∀ (s : State) (irqs : List Nat) (l : List Input), s.inputs = .lines irqs :: l → s.h = false →
    (∀ k lv, s.slot = .none → s.selectIrq irqs = some (k, lv) → s.brkNext = true →
      ∃ t, step s = .next t ∧ HaltedFrom { s with inputs := l } s.sh true t ∧ t.pc = s.pc ∧
        t.lpCount = s.lpCount) ∧
    (s.zz = false → (s.slot = .hold ∨ s.selectIrq irqs = none) → step s = (s.withInputs l).runUnit)

/-- 60_exceptions.md R339 (a killed slot in invalid memory raising nothing is log 11's choice): `JAL.F` through the link register of a level, after an entry of that level at `s`, gives
back the flags and enables that `s` had and goes to the address saved. -/
def Obligations.ReturnRestores : Prop :=
  ∀ (s t u : State) (k : Nat) (lv : Level) (ret count : PAddr), Entered s k lv ret count t → u.regs = t.regs →
    SlotOk u .nd →
    ∃ v, exec (.jcc ⟨.reg (linkReg lv), true, .nd, .al⟩) u = .next v ∧ v.pc = ret ∧ v.slot = .none ∧
      Same { u with z := s.z, n := s.n, c := s.c, v := s.v, e1 := s.e1, e2 := s.e2 } v

/-- 60_exceptions.md R356, R371: a halted core with no step ordered, and a sleeping one with no interrupt selected,
change nothing (a masked request does not wake the core by the spec's decision D26). -/
def Obligations.HaltedAndSleepingWait : Prop :=
  ∀ (s : State) (irqs : List Nat) (l : List Input),
    (s.h = true → s.ss = false → (s.inputs = [] → step s = .next s) ∧
      (s.inputs = .lines irqs :: l → step s = .next { s with inputs := l })) ∧
    (s.h = false → s.zz = true → (s.inputs = [] → step s = .next s) ∧
      (s.inputs = .lines irqs :: l → s.selectIrq irqs = none → step s = .next { s with inputs := l }))

/-- 60_exceptions.md R360, R361, R373: a step the host has ordered, `q` being the core restarted for it. An
instruction step completes one unit and halts again; a cycle step completes one or nothing (the spec's decision D21; log
28). The unit is an interrupt entry, a BRK's halt, or an instruction with its delay slot; where it stops, so does an
instruction step. -/
def Obligations.InstructionStep : Prop :=
  ∀ (s : State) (irqs : List Nat) (l : List Input), s.h = true → s.ss = true →
    (s.inputs = [] ∧ irqs = [] ∧ l = [] ∨ s.inputs = .lines irqs :: l) →
    let q := (s.withInputs l).restart.draw
    (∀ u, q.awake irqs = .next u → ∃ t, step s = .next t ∧
      (HaltedAfter u t ∨ s.is = false ∧ HaltedIdle { s with inputs := l } t)) ∧
    (∀ f, q.awake irqs = .fault f → step s = .fault f ∨
      s.is = false ∧ ∃ t, step s = .next t ∧ HaltedIdle { s with inputs := l } t) ∧
    (∀ r, q.awake irqs = .refused r → step s = .refused r ∨
      s.is = false ∧ ∃ t, step s = .next t ∧ HaltedIdle { s with inputs := l } t) ∧
    ((s.slot ≠ .none ∨ s.selectIrq irqs = none) → q.awake irqs = q.runUnit) ∧
    ∀ k lv, s.slot = .none → s.selectIrq irqs = some (k, lv) →
      (q.brkNext = true → q.awake irqs = exec .brk q) ∧
      (q.brkNext = false → ∃ u, q.awake irqs = .next u ∧ Entered q k lv s.pc s.lpCount u)

/-- 70_reset_and_hazards.md R380; 60_exceptions.md R325: the hard reset in any state. r0 to r31 and MR are open;
H, SH, BH, ZZ and memory are the spec's decision D11 (log 7, log 43): memory is not changed, but a store still
buffered is done or not done. No code counts as stored by the program (20_memory.md R85 (b)), and the PC the host sees is
the pc (log 28). -/
def Obligations.HardReset : Prop :=
  ∀ (s : State) (l : List Input), s.inputs = .reset :: l →
    ∃ t, step s = .next t ∧ t.pc = s.cfg.vectorBase ∧ t.z = false ∧ t.n = false ∧ t.c = false ∧ t.v = false ∧
      t.e1 = false ∧ t.e2 = false ∧ t.h = false ∧ t.lpCount = 0 ∧ t.lpStart = 0 ∧ t.lpEnd = 0 ∧
      t.semArc = 0 ∧ t.semHost = 0 ∧ t.loads = [] ∧ t.buffer = [] ∧ t.sh = false ∧ t.bh = false ∧ t.zz = false ∧ t.ss = false ∧
      t.is = false ∧ t.slot = .none ∧ t.stored = [] ∧ t.hostPc = none ∧ LoopSettled t ∧ t.mulBusy = 0 ∧ t.cfg = s.cfg ∧ t.inputs = l ∧
      (∀ a, (∀ b ∈ s.buffer, ∀ i < Size.bytes b.size, a ≠ (b.addr + BitVec.ofNat 32 i).toNat) →
        t.mem.byte a = s.mem.byte a) ∧
      (s.mem.wf → Apart s → ∀ b ∈ s.buffer,
        memRead s.cfg.endian t.mem b.addr b.size = memRead s.cfg.endian s.mem b.addr b.size ∨
        memRead s.cfg.endian t.mem b.addr b.size = BitVec.ofNat 32 (b.old.toNat % 2 ^ (8 * Size.bytes b.size)))

/-- 10_state.md R65: the values the spec gives the state after reset; H, SH, BH and ZZ by its decision D11 (log 7). -/
def Obligations.ResetValues : Prop :=
  let s := State.reset
  s.pc = s.cfg.vectorBase ∧ s.z = false ∧ s.n = false ∧ s.c = false ∧ s.v = false ∧ s.e1 = false ∧ s.e2 = false ∧
  s.h = false ∧ s.lpCount = 0 ∧ s.lpStart = 0 ∧ s.lpEnd = 0 ∧ s.semArc = 0 ∧ s.semHost = 0 ∧ s.loads = [] ∧ s.buffer = [] ∧
  s.sh = false ∧ s.bh = false ∧ s.zz = false ∧ s.ss = false ∧ s.is = false ∧ s.slot = .none ∧ LoopSettled s

/-! ### The host (60_exceptions.md R355 to R362) -/

/-- 60_exceptions.md R357 to R359, R364, R366: the host writes STATUS. Running, only H can change, and at the halt the
host sees `pc`, or one of the two fetches after it (the spec's decision D21). Halted, the flags, enables, PC and H
are written; writing back the PC the host reads while clearing H continues where the core stopped, loop and slot
context included, unless a BRK holds a branch (log 28). That a halt by any cause lets the whole word be written is the
spec's own inference at R357. The path of the fetches: by the loop rule, with what a branch, SWI, a BRK, an absent
opcode and invalid memory change of it, the last two and the words it passes over being the model's choices (log 28). -/
def Obligations.HostStatusWrite : Prop :=
  (∀ s : State, PathRule s) ∧ ∀ (s : State) (v : Word) (l : List Input), s.inputs = .host (.writeAux 0 v) :: l →
    (s.h = false → v.getLsbD 25 = false → ∃ t, step s = .next t ∧ Same { s with inputs := l } t ∧ t.pc = s.pc ∧
      t.slot = s.slot ∧ t.lpCount = s.lpCount) ∧
    (s.h = false → v.getLsbD 25 = true →
      ∃ t, step s = .next t ∧ HaltedFrom { s with inputs := l } s.sh s.bh t ∧ t.pc = s.pc ∧ t.slot = s.slot ∧
        t.lpCount = s.lpCount ∧ (s.zz = true → t.hostPc = none) ∧
        (s.zz = false → SeenOnPath { s with inputs := l, draws := s.draws + 1 } t)) ∧
    (s.h = true → ∃ t, step s = .next t ∧ t.lpCount = s.lpCount ∧
      (if v.getLsbD 25 = false ∧ v.setWidth 24 = s.hostPc.getD s.pc ∧ ¬(s.bh = true ∧ s.hostPc ≠ none) then
        t.pc = s.pc ∧ t.slot = s.slot ∧ t.lpLag = s.lpLag
      else t.pc = v.setWidth 24 ∧ t.slot = .none ∧ t.lpLag = none) ∧
      (v.getLsbD 25 = true → Same (withStatus { s with inputs := l, hostPc := none } true v) t) ∧
      (v.getLsbD 25 = false → Same (withStatus { s with
        inputs := l, hostPc := none, h := false, sh := false, bh := false, zz := false, ss := false
        is := false } true v) t))

/-- 60_exceptions.md R355, R358, R360 to R362; 10_state.md R42, R48, R50, R53; 20_memory.md R74, R75, R78, R82,
R85, R90, R91: the host's accesses. While the core runs the host reaches no core register and, of the auxiliary registers, only STATUS,
SEMAPHORE, IDENTITY and DEBUG, and no other access is possible (Table 18); while it is halted, all of them. What its
reads return, and what its writes do, STATUS's apart (HostStatusWrite): a store of the core that is still buffered may
be seen by a read or not (log 49), whole by the model's choice where it is misaligned (log 10), and comes after a write
(the model's choice, log 29); an access to invalid memory is refused (log 29), and one misaligned without support stops
(decision D2; log 10); the build configuration
registers and the unimplemented addresses read as R50 and R53 say, MULHI's value being open (log 36). The refusals of
the forbidden accesses are the model's (log 28), and so is what a write of FH does together with SS or IS (log 28). -/
def Obligations.HostAccessRunning : Prop :=
  (∀ (s : State) (r : CoreReg) (a v : Word) (l : List Input), s.h = false →
    (s.inputs = .host (.readCore r) :: l → step s = .refused .hostWhileRunning) ∧
    (s.inputs = .host (.writeCore r v) :: l → step s = .refused .hostWhileRunning) ∧
    ((a = 0 ∨ a = 1 ∨ a = 4 ∨ a = 5) → s.inputs = .host (.readAux a) :: l → ∃ t, step s = .next t) ∧
    (a ≠ 0 → a ≠ 1 → a ≠ 4 → a ≠ 5 →
      (s.inputs = .host (.readAux a) :: l → step s = .refused .hostWhileRunning) ∧
      (s.inputs = .host (.writeAux a v) :: l → step s = .refused .hostWhileRunning))) ∧
  (∀ s r, HostReadsCore s r ∧ ∀ v, HostWritesCore s r v) ∧ (∀ s a, HostReadsAux s a ∧ ∀ v, HostWritesAux s a v) ∧
  (∀ s v, HostWritesDebug s v ∧ HostWritesSemaphore s v) ∧ ∀ s a z, HostReadsMem s a z ∧ ∀ v, HostWritesMem s a z v

/-! ### The whole machine -/

/-- 00_scope.md R10; 60_exceptions.md R333: when the words at the pc of a running core are those of a well-formed
instruction, in valid memory the program has not written to, the step runs that instruction, and then, if it is a
branch that executes its delay slot, jumping or not, the instruction there. A branch in the slot of a branch that
did not jump has its own slot run only if it jumps: where the step ends then is the model's choice (log 24). -/
def Obligations.StepRunsDecoded : Prop :=
  ∀ (s : State) (i : Instr), s.h = false → s.zz = false → s.inputs = [] → i.wf = true →
    s.fetchValid s.pc = true → s.stale s.pc = false → opcodeValid s.cfg (s.codeWord s.pc) = true →
    (encode i).1 = s.codeWord s.pc →
    (∀ v, (encode i).2 = some v → s.fetchValid (s.fallThrough false) = true ∧ s.stale (s.fallThrough false) = false ∧
      s.codeWord (s.fallThrough false) = v) →
    step s = andThen (exec i s) fun t => match t.slot with
      | .run _ => t.runOne
      | .hold => andThen t.runOne fun u => match u.slot with
        | .run _ => u.runOne
        | _ => .next u
      | .none => .next t

/-- 20_memory.md R85 (b); 70_reset_and_hazards.md R418 (the spec's decision D10; log 12): the fetch of a long word the
program itself has stored to stops, be it an instruction word, a long immediate or the word in the slot of a branch;
and ST, of any size, makes the long words of its bytes such. That a ST which takes the memory error does so too is
the model's choice (log 11, log 12), and so is that a form which is refused stops so at its long immediate first (log
35), and that such a word in invalid memory takes the memory error (log 12). -/
def Obligations.StaleFetchStops : Prop :=
  (∀ s : State, s.h = false → s.zz = false → s.inputs = [] → s.fetchValid s.pc = true → s.stale s.pc = true →
    step s = .fault .staleFetch) ∧
  (∀ s : State, s.h = false → s.zz = false → s.inputs = [] → s.fetchValid s.pc = true →
    opcodeValid s.cfg (s.codeWord s.pc) = true → needsLimm (s.codeWord s.pc) = true →
    s.fetchValid (s.fallThrough false) = true → s.stale (s.fallThrough false) = true →
    step s = .fault .staleFetch) ∧
  (∀ (i : Instr) (s : State) (n : SlotMode), slottedMode i = some n → (∀ target, s.slot ≠ .run target) →
    s.fetchValid (s.fallThrough false) = true → s.stale (s.fallThrough false) = true →
    exec i s = .fault .staleFetch) ∧
  (∀ (s : State) (a v : Word) (z : Size) (p : PAddr),
    (s.store a z v).stale p = true ↔
      s.stale p = true ∨ ∃ i < Size.bytes z, (a + BitVec.ofNat 32 i).toNat / 4 = p.toNat) ∧
  ∀ (o : StoreOp) (s t : State), exec (.st o) s = .next t → ∀ p : PAddr,
    (t.stale p = true ↔ s.stale p = true ∨
      ∃ i < Size.bytes o.size, (storeAddr o (s.issue (StoreOp.isLong o)) + BitVec.ofNat 32 i).toNat / 4 = p.toNat)

/-- The invariant is kept by every step, from every state that has it: see `Inv`. -/
def Obligations.InvStep : Prop := ∀ s t : State, Inv s → step s = .next t → Inv t

/-- The invariant holds at reset. -/
def Obligations.InvReset : Prop := Inv State.reset

/-- Which instructions write what, over the whole instruction set: memory is written by ST only (44_load_store.md
R269), the semaphores by SR only (45_aux_access.md R286), LP_START and LP_END by SR and LPcc (42_jump_branch_loop.md
R220), MR by the multiplies and SR (46_extensions.md R291), H by FLAG, by BRK, and by a branch before a BRK
(60_exceptions.md R356), ZZ but by an exception by SLEEP (43_control.md R252), and the parameters, the host's
semaphores and the inputs by none. -/
def Obligations.StateWriters : Prop :=
  ∀ (i : Instr) (s t : State), exec i s = .next t →
    t.cfg = s.cfg ∧ t.semHost = s.semHost ∧ t.inputs = s.inputs ∧ t.hostData = s.hostData ∧ t.ss = s.ss ∧
    t.is = s.is ∧
    ((∀ o, i ≠ .st o) → ∀ a, t.mem.byte a = s.mem.byte a) ∧
    ((∀ o, i ≠ .sr o) → t.semArc = s.semArc) ∧
    ((∀ o, i ≠ .sr o) → (∀ o, i ≠ .lpcc o) → t.lpStart = s.lpStart ∧ t.lpEnd = s.lpEnd) ∧
    ((∀ o, i ≠ .sr o) → (∀ o, i ≠ .mul64 o) → (∀ o, i ≠ .mulu64 o) → t.mr = s.mr) ∧
    ((∀ o, i ≠ .flag o) → i ≠ .brk → isBranch i = false → t.h = s.h) ∧
    (i ≠ .sleep → t.zz = s.zz ∨ t.zz = false)

/-- 41_single_operand.md R191; 60_exceptions.md R324, R332: only FLAG, Jcc and JLcc write the interrupt enables; any
other instruction leaves them, or takes an exception, which clears both. -/
def Obligations.EnableWriters : Prop :=
  ∀ (i : Instr) (s t : State), exec i s = .next t → (∀ o, i ≠ .flag o) → (∀ o, i ≠ .jcc o) → (∀ o, i ≠ .jlcc o) →
    (t.e1 = s.e1 ∧ t.e2 = s.e2) ∨
    (t.e1 = false ∧ t.e2 = false ∧ (t.pc = vectorAddr s.cfg 1 ∨ t.pc = vectorAddr s.cfg 2))

end
end

