-- ==== Sys2Proof/Laws/Memory.lean ====
section
/-! SUPPORT. Memory: reading back what was written, leaving other bytes alone, keeping the canonical form. -/

namespace Sys2Proof.Machine

/-! ### One byte -/

theorem Memory.byte_of_lt {m : Memory} {a : Nat} (h : ∀ c ∈ m, a < c.1) : m.byte a = 0 := by
  induction m with
  | nil => rfl
  | cons x t ih =>
    obtain ⟨k, b⟩ := x
    have hk : a < k := h (k, b) (by simp)
    have hne : k ≠ a := by omega
    simp only [Memory.byte, if_neg hne]
    exact ih fun c hc => h c (by simp [hc])

/-- A write leaves every other byte alone, whatever form the memory has. -/
theorem Memory.byte_setByte_ne {m : Memory} {a a' : Nat} {b : Byte} (h : a' ≠ a) :
    (m.setByte a b).byte a' = m.byte a' := by
  induction m with
  | nil =>
    unfold Memory.setByte
    split
    · rfl
    · simp [Memory.byte, Ne.symm h]
  | cons x t ih =>
    obtain ⟨k, c⟩ := x
    simp only [Memory.setByte]
    split
    · simp only [Memory.byte, ih]
    · split
      · rename_i _ hk
        subst hk
        split <;> simp [Memory.byte, Ne.symm h]
      · split
        · rfl
        · simp [Memory.byte, Ne.symm h]

/-- A byte reads back as written. -/
theorem Memory.byte_setByte_self {m : Memory} (hm : m.wf) (a : Nat) (b : Byte) :
    (m.setByte a b).byte a = b := by
  induction m with
  | nil =>
    unfold Memory.setByte
    split
    · rename_i h; simp [Memory.byte, h]
    · simp [Memory.byte]
  | cons x t ih =>
    obtain ⟨k, c⟩ := x
    have ht : Memory.wf t := ⟨(List.pairwise_cons.1 hm.1).2, fun d hd => hm.2 d (by simp [hd])⟩
    have hlt : ∀ d ∈ t, k < d.1 := fun d hd => (List.pairwise_cons.1 hm.1).1 d hd
    simp only [Memory.setByte]
    split
    · rename_i h
      have hne : k ≠ a := by omega
      simp only [Memory.byte, if_neg hne, ih ht]
    · split
      · rename_i h hk
        subst hk
        split
        · rename_i hb; rw [Memory.byte_of_lt hlt, hb]
        · simp [Memory.byte]
      · rename_i h hk
        split
        · rename_i hb
          have : ∀ d ∈ ((k, c) :: t : Memory), a < d.1 := by
            intro d hd
            rcases List.mem_cons.1 hd with rfl | hd
            · change a < k; omega
            · have := hlt d hd; omega
          rw [Memory.byte_of_lt this, hb]
        · simp [Memory.byte]

/-- What can be listed after a write: what was, or the byte written. -/
theorem Memory.mem_setByte {m : Memory} {a : Nat} {b : Byte} {d : Host.Cell} (h : d ∈ m.setByte a b) :
    d ∈ m ∨ (d = (a, b) ∧ b ≠ 0) := by
  induction m with
  | nil =>
    unfold Memory.setByte at h
    split at h <;> simp_all
  | cons x t ih =>
    obtain ⟨k, c⟩ := x
    simp only [Memory.setByte] at h
    split at h
    · rcases List.mem_cons.1 h with rfl | h
      · simp
      · rcases ih h with h | h
        · simp [h]
        · exact .inr h
    · split at h
      · split at h
        · simp [h]
        · rcases List.mem_cons.1 h with rfl | h <;> simp_all
      · split at h
        · exact .inl h
        · rcases List.mem_cons.1 h with rfl | h <;> simp_all

/-- A write keeps the canonical form. -/
theorem Memory.setByte_wf {m : Memory} (hm : m.wf) {a : Nat} (ha : a < 2 ^ 32) (b : Byte) :
    (m.setByte a b).wf := by
  refine ⟨?_, fun d hd => ?_⟩
  · induction m with
    | nil =>
      unfold Memory.setByte
      split <;> simp
    | cons x t ih =>
      obtain ⟨k, c⟩ := x
      have ht : Memory.wf t := ⟨(List.pairwise_cons.1 hm.1).2, fun d hd => hm.2 d (by simp [hd])⟩
      have hlt : ∀ d ∈ t, k < d.1 := fun d hd => (List.pairwise_cons.1 hm.1).1 d hd
      simp only [Memory.setByte]
      split
      · rename_i h
        refine List.pairwise_cons.2 ⟨fun d hd => ?_, ih ht⟩
        rcases Memory.mem_setByte hd with hd | ⟨rfl, -⟩
        · exact hlt d hd
        · exact h
      · split
        · rename_i h hk
          subst hk
          split
          · exact ht.1
          · exact List.pairwise_cons.2 ⟨hlt, ht.1⟩
        · rename_i h hk
          split
          · exact hm.1
          · refine List.pairwise_cons.2 ⟨fun d hd => ?_, hm.1⟩
            rcases List.mem_cons.1 hd with rfl | hd
            · change a < k; omega
            · have := hlt d hd; change a < d.1; omega
  · rcases Memory.mem_setByte hd with hd | ⟨rfl, hb⟩
    · exact hm.2 d hd
    · exact ⟨hb, ha⟩

/-- Two canonical memories with the same bytes are the same list. -/
theorem Memory.ext_of_wf {m m' : Memory} (hm : m.wf) (hm' : m'.wf) (h : ∀ a, m.byte a = m'.byte a) : m = m' := by
  induction m generalizing m' with
  | nil =>
    cases m' with
    | nil => rfl
    | cons x t =>
      have := h x.1
      simp only [Memory.byte, if_true] at this
      exact absurd this.symm (hm'.2 x (by simp)).1
  | cons x t ih =>
    obtain ⟨k, c⟩ := x
    have ht : Memory.wf t := ⟨(List.pairwise_cons.1 hm.1).2, fun d hd => hm.2 d (by simp [hd])⟩
    have hlt : ∀ d ∈ t, k < d.1 := fun d hd => (List.pairwise_cons.1 hm.1).1 d hd
    have hc : c ≠ 0 := (hm.2 (k, c) (by simp)).1
    cases m' with
    | nil =>
      have := h k
      simp only [Memory.byte, if_true] at this
      exact absurd this hc
    | cons y t' =>
      obtain ⟨k', c'⟩ := y
      have ht' : Memory.wf t' := ⟨(List.pairwise_cons.1 hm'.1).2, fun d hd => hm'.2 d (by simp [hd])⟩
      have hlt' : ∀ d ∈ t', k' < d.1 := fun d hd => (List.pairwise_cons.1 hm'.1).1 d hd
      have hc' : c' ≠ 0 := (hm'.2 (k', c') (by simp)).1
      have hk : k = k' := by
        rcases Nat.lt_trichotomy k k' with hl | rfl | hl
        · have := h k
          rw [Memory.byte_of_lt (m := (k', c') :: t')] at this
          · simp only [Memory.byte, if_true] at this; exact absurd this hc
          · intro d hd
            rcases List.mem_cons.1 hd with rfl | hd
            · exact hl
            · have := hlt' d hd; omega
        · rfl
        · have := h k'
          rw [Memory.byte_of_lt (m := (k, c) :: t)] at this
          · simp only [Memory.byte, if_true] at this; exact absurd this.symm hc'
          · intro d hd
            rcases List.mem_cons.1 hd with rfl | hd
            · exact hl
            · have := hlt d hd; omega
      subst hk
      have hcc : c = c' := by have := h k; simpa [Memory.byte] using this
      subst hcc
      refine congrArg _ (ih ht ht' fun a => ?_)
      by_cases ha : k = a
      · subst ha
        rw [Memory.byte_of_lt hlt, Memory.byte_of_lt hlt']
      · have := h a
        simpa [Memory.byte, ha] using this

/-! ### Lists of bytes -/

theorem Memory.writeList_wf {m : Memory} (hm : m.wf) (a : Word) (l : List Byte) : (m.writeList a l).wf := by
  induction l generalizing m a with
  | nil => exact hm
  | cons b bs ih => exact ih (Memory.setByte_wf hm a.isLt b) _

theorem Memory.byte_writeList_ne {m : Memory} {a : Word} {l : List Byte} {x : Nat}
    (h : ∀ i < l.length, x ≠ (a + BitVec.ofNat 32 i).toNat) : (m.writeList a l).byte x = m.byte x := by
  induction l generalizing m a with
  | nil => rfl
  | cons b bs ih =>
    have h0 : x ≠ a.toNat := by simpa using h 0 (by simp)
    rw [Memory.writeList, ih, Memory.byte_setByte_ne h0]
    intro i hi
    have := h (i + 1) (by simp [hi])
    rwa [show a + BitVec.ofNat 32 (i + 1) = a + 1 + BitVec.ofNat 32 i by
      rw [BitVec.add_assoc, ← BitVec.ofNat_add_ofNat, BitVec.add_comm (BitVec.ofNat 32 i)]; rfl] at this

theorem Memory.readList_congr {m m' : Memory} {a : Word} {n : Nat}
    (h : ∀ i < n, m.byte (a + BitVec.ofNat 32 i).toNat = m'.byte (a + BitVec.ofNat 32 i).toNat) :
    m.readList a n = m'.readList a n := by
  induction n generalizing a with
  | zero => rfl
  | succ n ih =>
    have h0 : m.byte a.toNat = m'.byte a.toNat := by simpa using h 0 (by omega)
    simp only [Memory.readList, h0]
    rw [ih]
    intro i hi
    have := h (i + 1) (by omega)
    rwa [show a + BitVec.ofNat 32 (i + 1) = a + 1 + BitVec.ofNat 32 i by
      rw [BitVec.add_assoc, ← BitVec.ofNat_add_ofNat, BitVec.add_comm (BitVec.ofNat 32 i)]; rfl] at this

theorem Memory.readList_writeList {m : Memory} (hm : m.wf) (a : Word) (l : List Byte) (hl : l.length ≤ 2 ^ 32) :
    (m.writeList a l).readList a l.length = l := by
  induction l generalizing m a with
  | nil => rfl
  | cons b bs ih =>
    simp only [List.length_cons, Memory.readList, Memory.writeList]
    have hlen : bs.length < 2 ^ 32 := by simp only [List.length_cons] at hl; omega
    rw [ih (Memory.setByte_wf hm a.isLt b) (a + 1) (by omega), Memory.byte_writeList_ne,
      Memory.byte_setByte_self hm]
    intro i hi
    have ha := a.isLt
    have h1 : BitVec.toNat (1 : Word) = 1 := rfl
    simp only [BitVec.toNat_add, BitVec.toNat_ofNat, h1]
    omega

theorem Memory.length_readList (m : Memory) (a : Word) (n : Nat) : (m.readList a n).length = n := by
  induction n generalizing a with
  | zero => rfl
  | succ n ih => simp [Memory.readList, ih]

theorem length_splitBytes (n : Nat) (v : Word) : (splitBytes n v).length = n := by
  induction n generalizing v with
  | zero => rfl
  | succ n ih => simp [splitBytes, ih]

theorem length_byteOrder (e : Endian) (l : List Byte) : (byteOrder e l).length = l.length := by
  cases e <;> simp [byteOrder]

theorem byteOrder_byteOrder (e : Endian) (l : List Byte) : byteOrder e (byteOrder e l) = l := by
  cases e <;> simp [byteOrder]

theorem add_one_ofNat (a : Word) (i : Nat) : a + 1 + BitVec.ofNat 32 i = a + BitVec.ofNat 32 (i + 1) := by
  rw [BitVec.add_assoc, ← BitVec.ofNat_add_ofNat, BitVec.add_comm (BitVec.ofNat 32 i)]; rfl

/-- What a list of bytes read holds at each place. -/
theorem Memory.getElem_readList (m : Memory) (a : Word) (n : Nat) {i : Nat} (hi : i < (m.readList a n).length) :
    (m.readList a n)[i] = m.byte (a + BitVec.ofNat 32 i).toNat := by
  induction n generalizing a i with
  | zero => simp [Memory.readList] at hi
  | succ n ih =>
    cases i with
    | zero => simp [Memory.readList]
    | succ i => simp only [Memory.readList, List.getElem_cons_succ, ih, add_one_ofNat]

/-- The bytes of a value made from bytes. -/
theorem splitBytes_joinBytes (l : List Byte) (h : l.length ≤ 4) : splitBytes l.length (joinBytes l) = l := by
  match l, h with
  | [], _ => rfl
  | [a], _ | [a, b], _ | [a, b, c], _ | [a, b, c, d], _ =>
    simp only [List.length_cons, List.length_nil, splitBytes, joinBytes, List.cons.injEq, and_true]
    repeat' apply And.intro
    all_goals
      ext i hi
      simp only [BitVec.getElem_setWidth, BitVec.getLsbD_or, BitVec.getLsbD_shiftLeft, BitVec.getLsbD_ushiftRight,
        BitVec.getLsbD_setWidth]
      grind
  | _ :: _ :: _ :: _ :: _ :: _, h => simp at h; omega

/-- The bytes of a value put together again. -/
theorem joinBytes_splitBytes (z : Size) (v : Word) :
    joinBytes (splitBytes (Size.bytes z) v) = (v.setWidth (8 * Size.bytes z)).setWidth 32 := by
  cases z <;> simp only [Size.bytes, splitBytes, joinBytes] <;> ext i hi <;>
    simp only [BitVec.getElem_or, BitVec.getElem_shiftLeft, BitVec.getElem_setWidth, BitVec.getLsbD_setWidth,
      BitVec.getLsbD_ushiftRight] <;> grind

/-! ### Accesses -/

/-- A store keeps the canonical form. -/
theorem memWrite_wf {m : Memory} (hm : m.wf) (e : Endian) (a : Word) (z : Size) (v : Word) :
    (memWrite e m a z v).wf := Memory.writeList_wf hm a _

/-- A store leaves every byte outside it alone. -/
theorem byte_memWrite_ne {m : Memory} {e : Endian} {a : Word} {z : Size} {v : Word} {x : Nat}
    (h : ∀ i < Size.bytes z, x ≠ (a + BitVec.ofNat 32 i).toNat) : (memWrite e m a z v).byte x = m.byte x :=
  Memory.byte_writeList_ne (by rwa [length_byteOrder, length_splitBytes])

/-- An access reads what the last store of the same size at the same address wrote. -/
theorem memRead_memWrite {m : Memory} (hm : m.wf) (e : Endian) (a : Word) (z : Size) (v : Word) :
    memRead e (memWrite e m a z v) a z = (v.setWidth (8 * Size.bytes z)).setWidth 32 := by
  have hlen : (byteOrder e (splitBytes (Size.bytes z) v)).length = Size.bytes z := by
    rw [length_byteOrder, length_splitBytes]
  have hle : Size.bytes z ≤ 2 ^ 32 := by cases z <;> decide
  have := Memory.readList_writeList hm a _ (hlen.symm ▸ hle)
  rw [hlen] at this
  rw [memRead, memWrite, this, byteOrder_byteOrder, joinBytes_splitBytes]

/-- What is read of one memory, stored in another: its bytes. -/
theorem memWrite_memRead (e : Endian) (m m' : Memory) (a : Word) (z : Size) :
    memWrite e m a z (memRead e m' a z) = m.writeList a (m'.readList a (Size.bytes z)) := by
  have hl : (byteOrder e (m'.readList a (Size.bytes z))).length = Size.bytes z := by
    rw [length_byteOrder, Memory.length_readList]
  have h4 : Size.bytes z ≤ 4 := by cases z <;> decide
  have := splitBytes_joinBytes _ (hl.symm ▸ h4)
  rw [hl] at this
  rw [memWrite, memRead, this, byteOrder_byteOrder]

/-- A byte of an access copied from another memory is the byte there. -/
theorem byte_copy {e : Endian} {m m' : Memory} (hm : m.wf) (a : Word) (z : Size) {i : Nat} (hi : i < Size.bytes z) :
    (memWrite e m a z (memRead e m' a z)).byte (a + BitVec.ofNat 32 i).toNat =
      m'.byte (a + BitVec.ofNat 32 i).toNat := by
  have hl : (m'.readList a (Size.bytes z)).length = Size.bytes z := Memory.length_readList ..
  have hle : Size.bytes z ≤ 2 ^ 32 := by cases z <;> decide
  have h := Memory.readList_writeList hm a (m'.readList a (Size.bytes z)) (hl.symm ▸ hle)
  rw [hl] at h
  rw [memWrite_memRead, ← Memory.getElem_readList _ a (Size.bytes z) (by rwa [Memory.length_readList]),
    ← Memory.getElem_readList m' a (Size.bytes z) (by rwa [hl])]
  exact List.getElem_of_eq h _

end Sys2Proof.Machine
end

