-- ==== Sys2Proof/Laws/State.lean ====
section
/-! SUPPORT. What each state update does to each field: one lemma per field and update. -/

namespace Sys2Proof.Machine

-- One thread: a thousand small lemmas at once ask for more threads than a sandbox gives.
set_option Elab.async false

/-! ### tick -/

@[simp] theorem State.tick_cfg (s : State) : s.tick.cfg = s.cfg := rfl
@[simp] theorem State.tick_regs (s : State) : s.tick.regs = s.regs := rfl
@[simp] theorem State.tick_mr (s : State) : s.tick.mr = s.mr := rfl
@[simp] theorem State.tick_lpCount (s : State) : s.tick.lpCount = s.lpCount := rfl
@[simp] theorem State.tick_lpStart (s : State) : s.tick.lpStart = s.lpStart := rfl
@[simp] theorem State.tick_lpEnd (s : State) : s.tick.lpEnd = s.lpEnd := rfl
@[simp] theorem State.tick_pc (s : State) : s.tick.pc = s.pc := rfl
@[simp] theorem State.tick_z (s : State) : s.tick.z = s.z := rfl
@[simp] theorem State.tick_n (s : State) : s.tick.n = s.n := rfl
@[simp] theorem State.tick_c (s : State) : s.tick.c = s.c := rfl
@[simp] theorem State.tick_v (s : State) : s.tick.v = s.v := rfl
@[simp] theorem State.tick_e1 (s : State) : s.tick.e1 = s.e1 := rfl
@[simp] theorem State.tick_e2 (s : State) : s.tick.e2 = s.e2 := rfl
@[simp] theorem State.tick_h (s : State) : s.tick.h = s.h := rfl
@[simp] theorem State.tick_semArc (s : State) : s.tick.semArc = s.semArc := rfl
@[simp] theorem State.tick_semHost (s : State) : s.tick.semHost = s.semHost := rfl
@[simp] theorem State.tick_loads (s : State) : s.tick.loads = s.loads := rfl
@[simp] theorem State.tick_sh (s : State) : s.tick.sh = s.sh := rfl
@[simp] theorem State.tick_bh (s : State) : s.tick.bh = s.bh := rfl
@[simp] theorem State.tick_zz (s : State) : s.tick.zz = s.zz := rfl
@[simp] theorem State.tick_ss (s : State) : s.tick.ss = s.ss := rfl
@[simp] theorem State.tick_is (s : State) : s.tick.is = s.is := rfl
@[simp] theorem State.tick_mem (s : State) : s.tick.mem = s.mem := rfl
@[simp] theorem State.tick_buffer (s : State) : s.tick.buffer = s.buffer := rfl
@[simp] theorem State.tick_slot (s : State) : s.tick.slot = s.slot := rfl
@[simp] theorem State.tick_lpLag (s : State) : s.tick.lpLag = s.lpLag := rfl
@[simp] theorem State.tick_startHist (s : State) : s.tick.startHist = ageLags 2 s.startHist := rfl
@[simp] theorem State.tick_endHist (s : State) : s.tick.endHist = ageLags 2 s.endHist := rfl
@[simp] theorem State.tick_countHist (s : State) : s.tick.countHist = ageLags 3 s.countHist := rfl
@[simp] theorem State.tick_mulBusy (s : State) : s.tick.mulBusy = s.mulBusy - 1 := rfl
@[simp] theorem State.tick_mulHigh (s : State) : s.tick.mulHigh = s.mulHigh := rfl
@[simp] theorem State.tick_hostPc (s : State) : s.tick.hostPc = s.hostPc := rfl
@[simp] theorem State.tick_stored (s : State) : s.tick.stored = s.stored := rfl
@[simp] theorem State.tick_oldCode (s : State) : s.tick.oldCode = s.oldCode := rfl
@[simp] theorem State.tick_inputs (s : State) : s.tick.inputs = s.inputs := rfl
@[simp] theorem State.tick_hostData (s : State) : s.tick.hostData = s.hostData := rfl
@[simp] theorem State.tick_draws (s : State) : s.tick.draws = s.draws + 1 := rfl

/-! ### aged -/

@[simp] theorem State.aged_cfg (s : State) : s.aged.cfg = s.cfg := rfl
@[simp] theorem State.aged_regs (s : State) : s.aged.regs = s.regs := rfl
@[simp] theorem State.aged_mr (s : State) : s.aged.mr = s.mr := rfl
@[simp] theorem State.aged_lpCount (s : State) : s.aged.lpCount = s.lpCount := rfl
@[simp] theorem State.aged_lpStart (s : State) : s.aged.lpStart = s.lpStart := rfl
@[simp] theorem State.aged_lpEnd (s : State) : s.aged.lpEnd = s.lpEnd := rfl
@[simp] theorem State.aged_pc (s : State) : s.aged.pc = s.pc := rfl
@[simp] theorem State.aged_z (s : State) : s.aged.z = s.z := rfl
@[simp] theorem State.aged_n (s : State) : s.aged.n = s.n := rfl
@[simp] theorem State.aged_c (s : State) : s.aged.c = s.c := rfl
@[simp] theorem State.aged_v (s : State) : s.aged.v = s.v := rfl
@[simp] theorem State.aged_e1 (s : State) : s.aged.e1 = s.e1 := rfl
@[simp] theorem State.aged_e2 (s : State) : s.aged.e2 = s.e2 := rfl
@[simp] theorem State.aged_h (s : State) : s.aged.h = s.h := rfl
@[simp] theorem State.aged_semArc (s : State) : s.aged.semArc = s.semArc := rfl
@[simp] theorem State.aged_semHost (s : State) : s.aged.semHost = s.semHost := rfl
@[simp] theorem State.aged_loads (s : State) : s.aged.loads = s.loads := rfl
@[simp] theorem State.aged_sh (s : State) : s.aged.sh = s.sh := rfl
@[simp] theorem State.aged_bh (s : State) : s.aged.bh = s.bh := rfl
@[simp] theorem State.aged_zz (s : State) : s.aged.zz = s.zz := rfl
@[simp] theorem State.aged_ss (s : State) : s.aged.ss = s.ss := rfl
@[simp] theorem State.aged_is (s : State) : s.aged.is = s.is := rfl
@[simp] theorem State.aged_mem (s : State) : s.aged.mem = s.mem := rfl
@[simp] theorem State.aged_buffer (s : State) : s.aged.buffer = s.buffer := rfl
@[simp] theorem State.aged_slot (s : State) : s.aged.slot = s.slot := rfl
@[simp] theorem State.aged_lpLag (s : State) : s.aged.lpLag = s.lpLag := rfl
@[simp] theorem State.aged_startHist (s : State) : s.aged.startHist = ageLags 2 s.startHist := rfl
@[simp] theorem State.aged_endHist (s : State) : s.aged.endHist = ageLags 2 s.endHist := rfl
@[simp] theorem State.aged_countHist (s : State) : s.aged.countHist = ageLags 3 s.countHist := rfl
@[simp] theorem State.aged_mulBusy (s : State) : s.aged.mulBusy = s.mulBusy := rfl
@[simp] theorem State.aged_mulHigh (s : State) : s.aged.mulHigh = s.mulHigh := rfl
@[simp] theorem State.aged_hostPc (s : State) : s.aged.hostPc = s.hostPc := rfl
@[simp] theorem State.aged_stored (s : State) : s.aged.stored = s.stored := rfl
@[simp] theorem State.aged_oldCode (s : State) : s.aged.oldCode = s.oldCode := rfl
@[simp] theorem State.aged_inputs (s : State) : s.aged.inputs = s.inputs := rfl
@[simp] theorem State.aged_hostData (s : State) : s.aged.hostData = s.hostData := rfl
@[simp] theorem State.aged_draws (s : State) : s.aged.draws = s.draws := rfl

/-! ### dropLag -/

@[simp] theorem State.dropLag_cfg (s : State) : s.dropLag.cfg = s.cfg := rfl
@[simp] theorem State.dropLag_regs (s : State) : s.dropLag.regs = s.regs := rfl
@[simp] theorem State.dropLag_mr (s : State) : s.dropLag.mr = s.mr := rfl
@[simp] theorem State.dropLag_lpCount (s : State) : s.dropLag.lpCount = s.lpCount := rfl
@[simp] theorem State.dropLag_lpStart (s : State) : s.dropLag.lpStart = s.lpStart := rfl
@[simp] theorem State.dropLag_lpEnd (s : State) : s.dropLag.lpEnd = s.lpEnd := rfl
@[simp] theorem State.dropLag_pc (s : State) : s.dropLag.pc = s.pc := rfl
@[simp] theorem State.dropLag_z (s : State) : s.dropLag.z = s.z := rfl
@[simp] theorem State.dropLag_n (s : State) : s.dropLag.n = s.n := rfl
@[simp] theorem State.dropLag_c (s : State) : s.dropLag.c = s.c := rfl
@[simp] theorem State.dropLag_v (s : State) : s.dropLag.v = s.v := rfl
@[simp] theorem State.dropLag_e1 (s : State) : s.dropLag.e1 = s.e1 := rfl
@[simp] theorem State.dropLag_e2 (s : State) : s.dropLag.e2 = s.e2 := rfl
@[simp] theorem State.dropLag_h (s : State) : s.dropLag.h = s.h := rfl
@[simp] theorem State.dropLag_semArc (s : State) : s.dropLag.semArc = s.semArc := rfl
@[simp] theorem State.dropLag_semHost (s : State) : s.dropLag.semHost = s.semHost := rfl
@[simp] theorem State.dropLag_loads (s : State) : s.dropLag.loads = s.loads := rfl
@[simp] theorem State.dropLag_sh (s : State) : s.dropLag.sh = s.sh := rfl
@[simp] theorem State.dropLag_bh (s : State) : s.dropLag.bh = s.bh := rfl
@[simp] theorem State.dropLag_zz (s : State) : s.dropLag.zz = s.zz := rfl
@[simp] theorem State.dropLag_ss (s : State) : s.dropLag.ss = s.ss := rfl
@[simp] theorem State.dropLag_is (s : State) : s.dropLag.is = s.is := rfl
@[simp] theorem State.dropLag_mem (s : State) : s.dropLag.mem = s.mem := rfl
@[simp] theorem State.dropLag_buffer (s : State) : s.dropLag.buffer = s.buffer := rfl
@[simp] theorem State.dropLag_slot (s : State) : s.dropLag.slot = s.slot := rfl
@[simp] theorem State.dropLag_lpLag (s : State) : s.dropLag.lpLag = none := rfl
@[simp] theorem State.dropLag_startHist (s : State) : s.dropLag.startHist = s.startHist := rfl
@[simp] theorem State.dropLag_endHist (s : State) : s.dropLag.endHist = s.endHist := rfl
@[simp] theorem State.dropLag_countHist (s : State) : s.dropLag.countHist = s.countHist := rfl
@[simp] theorem State.dropLag_mulBusy (s : State) : s.dropLag.mulBusy = s.mulBusy := rfl
@[simp] theorem State.dropLag_mulHigh (s : State) : s.dropLag.mulHigh = s.mulHigh := rfl
@[simp] theorem State.dropLag_hostPc (s : State) : s.dropLag.hostPc = s.hostPc := rfl
@[simp] theorem State.dropLag_stored (s : State) : s.dropLag.stored = s.stored := rfl
@[simp] theorem State.dropLag_oldCode (s : State) : s.dropLag.oldCode = s.oldCode := rfl
@[simp] theorem State.dropLag_inputs (s : State) : s.dropLag.inputs = s.inputs := rfl
@[simp] theorem State.dropLag_hostData (s : State) : s.dropLag.hostData = s.hostData := rfl
@[simp] theorem State.dropLag_draws (s : State) : s.dropLag.draws = s.draws := rfl

/-! ### loopDecrement -/

@[simp] theorem State.loopDecrement_cfg (s : State) (k : Nat) : (s.loopDecrement k).cfg = s.cfg := by
  unfold State.loopDecrement; split <;> rfl
@[simp] theorem State.loopDecrement_regs (s : State) (k : Nat) : (s.loopDecrement k).regs = s.regs := by
  unfold State.loopDecrement; split <;> rfl
@[simp] theorem State.loopDecrement_mr (s : State) (k : Nat) : (s.loopDecrement k).mr = s.mr := by
  unfold State.loopDecrement; split <;> rfl
@[simp] theorem State.loopDecrement_lpStart (s : State) (k : Nat) : (s.loopDecrement k).lpStart = s.lpStart := by
  unfold State.loopDecrement; split <;> rfl
@[simp] theorem State.loopDecrement_lpEnd (s : State) (k : Nat) : (s.loopDecrement k).lpEnd = s.lpEnd := by
  unfold State.loopDecrement; split <;> rfl
@[simp] theorem State.loopDecrement_pc (s : State) (k : Nat) : (s.loopDecrement k).pc = s.pc := by
  unfold State.loopDecrement; split <;> rfl
@[simp] theorem State.loopDecrement_z (s : State) (k : Nat) : (s.loopDecrement k).z = s.z := by
  unfold State.loopDecrement; split <;> rfl
@[simp] theorem State.loopDecrement_n (s : State) (k : Nat) : (s.loopDecrement k).n = s.n := by
  unfold State.loopDecrement; split <;> rfl
@[simp] theorem State.loopDecrement_c (s : State) (k : Nat) : (s.loopDecrement k).c = s.c := by
  unfold State.loopDecrement; split <;> rfl
@[simp] theorem State.loopDecrement_v (s : State) (k : Nat) : (s.loopDecrement k).v = s.v := by
  unfold State.loopDecrement; split <;> rfl
@[simp] theorem State.loopDecrement_e1 (s : State) (k : Nat) : (s.loopDecrement k).e1 = s.e1 := by
  unfold State.loopDecrement; split <;> rfl
@[simp] theorem State.loopDecrement_e2 (s : State) (k : Nat) : (s.loopDecrement k).e2 = s.e2 := by
  unfold State.loopDecrement; split <;> rfl
@[simp] theorem State.loopDecrement_h (s : State) (k : Nat) : (s.loopDecrement k).h = s.h := by
  unfold State.loopDecrement; split <;> rfl
@[simp] theorem State.loopDecrement_semArc (s : State) (k : Nat) : (s.loopDecrement k).semArc = s.semArc := by
  unfold State.loopDecrement; split <;> rfl
@[simp] theorem State.loopDecrement_semHost (s : State) (k : Nat) : (s.loopDecrement k).semHost = s.semHost := by
  unfold State.loopDecrement; split <;> rfl
@[simp] theorem State.loopDecrement_loads (s : State) (k : Nat) : (s.loopDecrement k).loads = s.loads := by
  unfold State.loopDecrement; split <;> rfl
@[simp] theorem State.loopDecrement_sh (s : State) (k : Nat) : (s.loopDecrement k).sh = s.sh := by
  unfold State.loopDecrement; split <;> rfl
@[simp] theorem State.loopDecrement_bh (s : State) (k : Nat) : (s.loopDecrement k).bh = s.bh := by
  unfold State.loopDecrement; split <;> rfl
@[simp] theorem State.loopDecrement_zz (s : State) (k : Nat) : (s.loopDecrement k).zz = s.zz := by
  unfold State.loopDecrement; split <;> rfl
@[simp] theorem State.loopDecrement_ss (s : State) (k : Nat) : (s.loopDecrement k).ss = s.ss := by
  unfold State.loopDecrement; split <;> rfl
@[simp] theorem State.loopDecrement_is (s : State) (k : Nat) : (s.loopDecrement k).is = s.is := by
  unfold State.loopDecrement; split <;> rfl
@[simp] theorem State.loopDecrement_mem (s : State) (k : Nat) : (s.loopDecrement k).mem = s.mem := by
  unfold State.loopDecrement; split <;> rfl
@[simp] theorem State.loopDecrement_buffer (s : State) (k : Nat) : (s.loopDecrement k).buffer = s.buffer := by
  unfold State.loopDecrement; split <;> rfl
@[simp] theorem State.loopDecrement_slot (s : State) (k : Nat) : (s.loopDecrement k).slot = s.slot := by
  unfold State.loopDecrement; split <;> rfl
@[simp] theorem State.loopDecrement_lpLag (s : State) (k : Nat) : (s.loopDecrement k).lpLag = s.lpLag := by
  unfold State.loopDecrement; split <;> rfl
@[simp] theorem State.loopDecrement_startHist (s : State) (k : Nat) : (s.loopDecrement k).startHist = s.startHist := by
  unfold State.loopDecrement; split <;> rfl
@[simp] theorem State.loopDecrement_endHist (s : State) (k : Nat) : (s.loopDecrement k).endHist = s.endHist := by
  unfold State.loopDecrement; split <;> rfl
@[simp] theorem State.loopDecrement_mulBusy (s : State) (k : Nat) : (s.loopDecrement k).mulBusy = s.mulBusy := by
  unfold State.loopDecrement; split <;> rfl
@[simp] theorem State.loopDecrement_mulHigh (s : State) (k : Nat) : (s.loopDecrement k).mulHigh = s.mulHigh := by
  unfold State.loopDecrement; split <;> rfl
@[simp] theorem State.loopDecrement_hostPc (s : State) (k : Nat) : (s.loopDecrement k).hostPc = s.hostPc := by
  unfold State.loopDecrement; split <;> rfl
@[simp] theorem State.loopDecrement_stored (s : State) (k : Nat) : (s.loopDecrement k).stored = s.stored := by
  unfold State.loopDecrement; split <;> rfl
@[simp] theorem State.loopDecrement_oldCode (s : State) (k : Nat) : (s.loopDecrement k).oldCode = s.oldCode := by
  unfold State.loopDecrement; split <;> rfl
@[simp] theorem State.loopDecrement_inputs (s : State) (k : Nat) : (s.loopDecrement k).inputs = s.inputs := by
  unfold State.loopDecrement; split <;> rfl
@[simp] theorem State.loopDecrement_hostData (s : State) (k : Nat) : (s.loopDecrement k).hostData = s.hostData := by
  unfold State.loopDecrement; split <;> rfl
@[simp] theorem State.loopDecrement_draws (s : State) (k : Nat) : (s.loopDecrement k).draws = s.draws := by
  unfold State.loopDecrement; split <;> rfl

/-! ### loopFetch -/

@[simp] theorem State.loopFetch_cfg (s : State) (k : Nat) (a : PAddr) : (s.loopFetch k a).cfg = s.cfg := by
  unfold State.loopFetch; split <;> simp
@[simp] theorem State.loopFetch_regs (s : State) (k : Nat) (a : PAddr) : (s.loopFetch k a).regs = s.regs := by
  unfold State.loopFetch; split <;> simp
@[simp] theorem State.loopFetch_mr (s : State) (k : Nat) (a : PAddr) : (s.loopFetch k a).mr = s.mr := by
  unfold State.loopFetch; split <;> simp
@[simp] theorem State.loopFetch_lpStart (s : State) (k : Nat) (a : PAddr) : (s.loopFetch k a).lpStart = s.lpStart := by
  unfold State.loopFetch; split <;> simp
@[simp] theorem State.loopFetch_lpEnd (s : State) (k : Nat) (a : PAddr) : (s.loopFetch k a).lpEnd = s.lpEnd := by
  unfold State.loopFetch; split <;> simp
@[simp] theorem State.loopFetch_pc (s : State) (k : Nat) (a : PAddr) : (s.loopFetch k a).pc = s.pc := by
  unfold State.loopFetch; split <;> simp
@[simp] theorem State.loopFetch_z (s : State) (k : Nat) (a : PAddr) : (s.loopFetch k a).z = s.z := by
  unfold State.loopFetch; split <;> simp
@[simp] theorem State.loopFetch_n (s : State) (k : Nat) (a : PAddr) : (s.loopFetch k a).n = s.n := by
  unfold State.loopFetch; split <;> simp
@[simp] theorem State.loopFetch_c (s : State) (k : Nat) (a : PAddr) : (s.loopFetch k a).c = s.c := by
  unfold State.loopFetch; split <;> simp
@[simp] theorem State.loopFetch_v (s : State) (k : Nat) (a : PAddr) : (s.loopFetch k a).v = s.v := by
  unfold State.loopFetch; split <;> simp
@[simp] theorem State.loopFetch_e1 (s : State) (k : Nat) (a : PAddr) : (s.loopFetch k a).e1 = s.e1 := by
  unfold State.loopFetch; split <;> simp
@[simp] theorem State.loopFetch_e2 (s : State) (k : Nat) (a : PAddr) : (s.loopFetch k a).e2 = s.e2 := by
  unfold State.loopFetch; split <;> simp
@[simp] theorem State.loopFetch_h (s : State) (k : Nat) (a : PAddr) : (s.loopFetch k a).h = s.h := by
  unfold State.loopFetch; split <;> simp
@[simp] theorem State.loopFetch_semArc (s : State) (k : Nat) (a : PAddr) : (s.loopFetch k a).semArc = s.semArc := by
  unfold State.loopFetch; split <;> simp
@[simp] theorem State.loopFetch_semHost (s : State) (k : Nat) (a : PAddr) : (s.loopFetch k a).semHost = s.semHost := by
  unfold State.loopFetch; split <;> simp
@[simp] theorem State.loopFetch_loads (s : State) (k : Nat) (a : PAddr) : (s.loopFetch k a).loads = s.loads := by
  unfold State.loopFetch; split <;> simp
@[simp] theorem State.loopFetch_sh (s : State) (k : Nat) (a : PAddr) : (s.loopFetch k a).sh = s.sh := by
  unfold State.loopFetch; split <;> simp
@[simp] theorem State.loopFetch_bh (s : State) (k : Nat) (a : PAddr) : (s.loopFetch k a).bh = s.bh := by
  unfold State.loopFetch; split <;> simp
@[simp] theorem State.loopFetch_zz (s : State) (k : Nat) (a : PAddr) : (s.loopFetch k a).zz = s.zz := by
  unfold State.loopFetch; split <;> simp
@[simp] theorem State.loopFetch_ss (s : State) (k : Nat) (a : PAddr) : (s.loopFetch k a).ss = s.ss := by
  unfold State.loopFetch; split <;> simp
@[simp] theorem State.loopFetch_is (s : State) (k : Nat) (a : PAddr) : (s.loopFetch k a).is = s.is := by
  unfold State.loopFetch; split <;> simp
@[simp] theorem State.loopFetch_mem (s : State) (k : Nat) (a : PAddr) : (s.loopFetch k a).mem = s.mem := by
  unfold State.loopFetch; split <;> simp
@[simp] theorem State.loopFetch_buffer (s : State) (k : Nat) (a : PAddr) : (s.loopFetch k a).buffer = s.buffer := by
  unfold State.loopFetch; split <;> simp
@[simp] theorem State.loopFetch_slot (s : State) (k : Nat) (a : PAddr) : (s.loopFetch k a).slot = s.slot := by
  unfold State.loopFetch; split <;> simp
@[simp] theorem State.loopFetch_lpLag (s : State) (k : Nat) (a : PAddr) : (s.loopFetch k a).lpLag = none := by
  unfold State.loopFetch; split <;> simp
@[simp] theorem State.loopFetch_startHist (s : State) (k : Nat) (a : PAddr) : (s.loopFetch k a).startHist = s.startHist := by
  unfold State.loopFetch; split <;> simp
@[simp] theorem State.loopFetch_endHist (s : State) (k : Nat) (a : PAddr) : (s.loopFetch k a).endHist = s.endHist := by
  unfold State.loopFetch; split <;> simp
@[simp] theorem State.loopFetch_mulBusy (s : State) (k : Nat) (a : PAddr) : (s.loopFetch k a).mulBusy = s.mulBusy := by
  unfold State.loopFetch; split <;> simp
@[simp] theorem State.loopFetch_mulHigh (s : State) (k : Nat) (a : PAddr) : (s.loopFetch k a).mulHigh = s.mulHigh := by
  unfold State.loopFetch; split <;> simp
@[simp] theorem State.loopFetch_hostPc (s : State) (k : Nat) (a : PAddr) : (s.loopFetch k a).hostPc = s.hostPc := by
  unfold State.loopFetch; split <;> simp
@[simp] theorem State.loopFetch_stored (s : State) (k : Nat) (a : PAddr) : (s.loopFetch k a).stored = s.stored := by
  unfold State.loopFetch; split <;> simp
@[simp] theorem State.loopFetch_oldCode (s : State) (k : Nat) (a : PAddr) : (s.loopFetch k a).oldCode = s.oldCode := by
  unfold State.loopFetch; split <;> simp
@[simp] theorem State.loopFetch_inputs (s : State) (k : Nat) (a : PAddr) : (s.loopFetch k a).inputs = s.inputs := by
  unfold State.loopFetch; split <;> simp
@[simp] theorem State.loopFetch_hostData (s : State) (k : Nat) (a : PAddr) : (s.loopFetch k a).hostData = s.hostData := by
  unfold State.loopFetch; split <;> simp
@[simp] theorem State.loopFetch_draws (s : State) (k : Nat) (a : PAddr) : (s.loopFetch k a).draws = s.draws := by
  unfold State.loopFetch; split <;> simp

/-! ### fetched -/

@[simp] theorem State.fetched_cfg (s : State) (long : Bool) : (s.fetched long).cfg = s.cfg := by
  unfold State.fetched; split <;> simp
@[simp] theorem State.fetched_regs (s : State) (long : Bool) : (s.fetched long).regs = s.regs := by
  unfold State.fetched; split <;> simp
@[simp] theorem State.fetched_mr (s : State) (long : Bool) : (s.fetched long).mr = s.mr := by
  unfold State.fetched; split <;> simp
@[simp] theorem State.fetched_lpStart (s : State) (long : Bool) : (s.fetched long).lpStart = s.lpStart := by
  unfold State.fetched; split <;> simp
@[simp] theorem State.fetched_lpEnd (s : State) (long : Bool) : (s.fetched long).lpEnd = s.lpEnd := by
  unfold State.fetched; split <;> simp
@[simp] theorem State.fetched_pc (s : State) (long : Bool) : (s.fetched long).pc = s.pc := by
  unfold State.fetched; split <;> simp
@[simp] theorem State.fetched_z (s : State) (long : Bool) : (s.fetched long).z = s.z := by
  unfold State.fetched; split <;> simp
@[simp] theorem State.fetched_n (s : State) (long : Bool) : (s.fetched long).n = s.n := by
  unfold State.fetched; split <;> simp
@[simp] theorem State.fetched_c (s : State) (long : Bool) : (s.fetched long).c = s.c := by
  unfold State.fetched; split <;> simp
@[simp] theorem State.fetched_v (s : State) (long : Bool) : (s.fetched long).v = s.v := by
  unfold State.fetched; split <;> simp
@[simp] theorem State.fetched_e1 (s : State) (long : Bool) : (s.fetched long).e1 = s.e1 := by
  unfold State.fetched; split <;> simp
@[simp] theorem State.fetched_e2 (s : State) (long : Bool) : (s.fetched long).e2 = s.e2 := by
  unfold State.fetched; split <;> simp
@[simp] theorem State.fetched_h (s : State) (long : Bool) : (s.fetched long).h = s.h := by
  unfold State.fetched; split <;> simp
@[simp] theorem State.fetched_semArc (s : State) (long : Bool) : (s.fetched long).semArc = s.semArc := by
  unfold State.fetched; split <;> simp
@[simp] theorem State.fetched_semHost (s : State) (long : Bool) : (s.fetched long).semHost = s.semHost := by
  unfold State.fetched; split <;> simp
@[simp] theorem State.fetched_loads (s : State) (long : Bool) : (s.fetched long).loads = s.loads := by
  unfold State.fetched; split <;> simp
@[simp] theorem State.fetched_sh (s : State) (long : Bool) : (s.fetched long).sh = s.sh := by
  unfold State.fetched; split <;> simp
@[simp] theorem State.fetched_bh (s : State) (long : Bool) : (s.fetched long).bh = s.bh := by
  unfold State.fetched; split <;> simp
@[simp] theorem State.fetched_zz (s : State) (long : Bool) : (s.fetched long).zz = s.zz := by
  unfold State.fetched; split <;> simp
@[simp] theorem State.fetched_ss (s : State) (long : Bool) : (s.fetched long).ss = s.ss := by
  unfold State.fetched; split <;> simp
@[simp] theorem State.fetched_is (s : State) (long : Bool) : (s.fetched long).is = s.is := by
  unfold State.fetched; split <;> simp
@[simp] theorem State.fetched_mem (s : State) (long : Bool) : (s.fetched long).mem = s.mem := by
  unfold State.fetched; split <;> simp
@[simp] theorem State.fetched_buffer (s : State) (long : Bool) : (s.fetched long).buffer = s.buffer := by
  unfold State.fetched; split <;> simp
@[simp] theorem State.fetched_slot (s : State) (long : Bool) : (s.fetched long).slot = s.slot := by
  unfold State.fetched; split <;> simp
@[simp] theorem State.fetched_lpLag (s : State) (long : Bool) : (s.fetched long).lpLag = none := by
  unfold State.fetched; split <;> simp
@[simp] theorem State.fetched_startHist (s : State) (long : Bool) : (s.fetched long).startHist = s.startHist := by
  unfold State.fetched; split <;> simp
@[simp] theorem State.fetched_endHist (s : State) (long : Bool) : (s.fetched long).endHist = s.endHist := by
  unfold State.fetched; split <;> simp
@[simp] theorem State.fetched_mulBusy (s : State) (long : Bool) : (s.fetched long).mulBusy = s.mulBusy := by
  unfold State.fetched; split <;> simp
@[simp] theorem State.fetched_mulHigh (s : State) (long : Bool) : (s.fetched long).mulHigh = s.mulHigh := by
  unfold State.fetched; split <;> simp
@[simp] theorem State.fetched_hostPc (s : State) (long : Bool) : (s.fetched long).hostPc = s.hostPc := by
  unfold State.fetched; split <;> simp
@[simp] theorem State.fetched_stored (s : State) (long : Bool) : (s.fetched long).stored = s.stored := by
  unfold State.fetched; split <;> simp
@[simp] theorem State.fetched_oldCode (s : State) (long : Bool) : (s.fetched long).oldCode = s.oldCode := by
  unfold State.fetched; split <;> simp
@[simp] theorem State.fetched_inputs (s : State) (long : Bool) : (s.fetched long).inputs = s.inputs := by
  unfold State.fetched; split <;> simp
@[simp] theorem State.fetched_hostData (s : State) (long : Bool) : (s.fetched long).hostData = s.hostData := by
  unfold State.fetched; split <;> simp
@[simp] theorem State.fetched_draws (s : State) (long : Bool) : (s.fetched long).draws = s.draws := by
  unfold State.fetched; split <;> simp

/-! ### issue -/

@[simp] theorem State.issue_cfg (s : State) (long : Bool) : (s.issue long).cfg = s.cfg := by
  simp [State.issue]
@[simp] theorem State.issue_regs (s : State) (long : Bool) : (s.issue long).regs = s.regs := by
  simp [State.issue]
@[simp] theorem State.issue_mr (s : State) (long : Bool) : (s.issue long).mr = s.mr := by
  simp [State.issue]
@[simp] theorem State.issue_lpStart (s : State) (long : Bool) : (s.issue long).lpStart = s.lpStart := by
  simp [State.issue]
@[simp] theorem State.issue_lpEnd (s : State) (long : Bool) : (s.issue long).lpEnd = s.lpEnd := by
  simp [State.issue]
@[simp] theorem State.issue_pc (s : State) (long : Bool) : (s.issue long).pc = s.pc := by
  simp [State.issue]
@[simp] theorem State.issue_z (s : State) (long : Bool) : (s.issue long).z = s.z := by
  simp [State.issue]
@[simp] theorem State.issue_n (s : State) (long : Bool) : (s.issue long).n = s.n := by
  simp [State.issue]
@[simp] theorem State.issue_c (s : State) (long : Bool) : (s.issue long).c = s.c := by
  simp [State.issue]
@[simp] theorem State.issue_v (s : State) (long : Bool) : (s.issue long).v = s.v := by
  simp [State.issue]
@[simp] theorem State.issue_e1 (s : State) (long : Bool) : (s.issue long).e1 = s.e1 := by
  simp [State.issue]
@[simp] theorem State.issue_e2 (s : State) (long : Bool) : (s.issue long).e2 = s.e2 := by
  simp [State.issue]
@[simp] theorem State.issue_h (s : State) (long : Bool) : (s.issue long).h = s.h := by
  simp [State.issue]
@[simp] theorem State.issue_semArc (s : State) (long : Bool) : (s.issue long).semArc = s.semArc := by
  simp [State.issue]
@[simp] theorem State.issue_semHost (s : State) (long : Bool) : (s.issue long).semHost = s.semHost := by
  simp [State.issue]
@[simp] theorem State.issue_loads (s : State) (long : Bool) : (s.issue long).loads = s.loads := by
  simp [State.issue]
@[simp] theorem State.issue_sh (s : State) (long : Bool) : (s.issue long).sh = s.sh := by
  simp [State.issue]
@[simp] theorem State.issue_bh (s : State) (long : Bool) : (s.issue long).bh = s.bh := by
  simp [State.issue]
@[simp] theorem State.issue_zz (s : State) (long : Bool) : (s.issue long).zz = s.zz := by
  simp [State.issue]
@[simp] theorem State.issue_ss (s : State) (long : Bool) : (s.issue long).ss = s.ss := by
  simp [State.issue]
@[simp] theorem State.issue_is (s : State) (long : Bool) : (s.issue long).is = s.is := by
  simp [State.issue]
@[simp] theorem State.issue_mem (s : State) (long : Bool) : (s.issue long).mem = s.mem := by
  simp [State.issue]
@[simp] theorem State.issue_buffer (s : State) (long : Bool) : (s.issue long).buffer = s.buffer := by
  simp [State.issue]
@[simp] theorem State.issue_slot (s : State) (long : Bool) : (s.issue long).slot = s.slot := by
  simp [State.issue]
@[simp] theorem State.issue_lpLag (s : State) (long : Bool) : (s.issue long).lpLag = none := by
  simp [State.issue]
@[simp] theorem State.issue_startHist (s : State) (long : Bool) : (s.issue long).startHist = ageLags 2 s.startHist := by
  simp [State.issue]
@[simp] theorem State.issue_endHist (s : State) (long : Bool) : (s.issue long).endHist = ageLags 2 s.endHist := by
  simp [State.issue]
@[simp] theorem State.issue_mulBusy (s : State) (long : Bool) : (s.issue long).mulBusy = s.mulBusy - 1 := by
  simp [State.issue]
@[simp] theorem State.issue_mulHigh (s : State) (long : Bool) : (s.issue long).mulHigh = s.mulHigh := by
  simp [State.issue]
@[simp] theorem State.issue_hostPc (s : State) (long : Bool) : (s.issue long).hostPc = s.hostPc := by
  simp [State.issue]
@[simp] theorem State.issue_stored (s : State) (long : Bool) : (s.issue long).stored = s.stored := by
  simp [State.issue]
@[simp] theorem State.issue_oldCode (s : State) (long : Bool) : (s.issue long).oldCode = s.oldCode := by
  simp [State.issue]
@[simp] theorem State.issue_inputs (s : State) (long : Bool) : (s.issue long).inputs = s.inputs := by
  simp [State.issue]
@[simp] theorem State.issue_hostData (s : State) (long : Bool) : (s.issue long).hostData = s.hostData := by
  simp [State.issue]
@[simp] theorem State.issue_draws (s : State) (long : Bool) : (s.issue long).draws = s.draws + 1 := by
  simp [State.issue]

/-! ### retire -/

@[simp] theorem State.retire_cfg (s : State) (p : PAddr) : (s.retire p).cfg = s.cfg := rfl
@[simp] theorem State.retire_regs (s : State) (p : PAddr) : (s.retire p).regs = s.regs := rfl
@[simp] theorem State.retire_mr (s : State) (p : PAddr) : (s.retire p).mr = s.mr := rfl
@[simp] theorem State.retire_lpCount (s : State) (p : PAddr) : (s.retire p).lpCount = s.lpCount := rfl
@[simp] theorem State.retire_lpStart (s : State) (p : PAddr) : (s.retire p).lpStart = s.lpStart := rfl
@[simp] theorem State.retire_lpEnd (s : State) (p : PAddr) : (s.retire p).lpEnd = s.lpEnd := rfl
@[simp] theorem State.retire_pc (s : State) (p : PAddr) : (s.retire p).pc = s.resumeAddr p := rfl
@[simp] theorem State.retire_z (s : State) (p : PAddr) : (s.retire p).z = s.z := rfl
@[simp] theorem State.retire_n (s : State) (p : PAddr) : (s.retire p).n = s.n := rfl
@[simp] theorem State.retire_c (s : State) (p : PAddr) : (s.retire p).c = s.c := rfl
@[simp] theorem State.retire_v (s : State) (p : PAddr) : (s.retire p).v = s.v := rfl
@[simp] theorem State.retire_e1 (s : State) (p : PAddr) : (s.retire p).e1 = s.e1 := rfl
@[simp] theorem State.retire_e2 (s : State) (p : PAddr) : (s.retire p).e2 = s.e2 := rfl
@[simp] theorem State.retire_h (s : State) (p : PAddr) : (s.retire p).h = s.h := rfl
@[simp] theorem State.retire_semArc (s : State) (p : PAddr) : (s.retire p).semArc = s.semArc := rfl
@[simp] theorem State.retire_semHost (s : State) (p : PAddr) : (s.retire p).semHost = s.semHost := rfl
@[simp] theorem State.retire_loads (s : State) (p : PAddr) : (s.retire p).loads = s.loads := rfl
@[simp] theorem State.retire_sh (s : State) (p : PAddr) : (s.retire p).sh = s.sh := rfl
@[simp] theorem State.retire_bh (s : State) (p : PAddr) : (s.retire p).bh = s.bh := rfl
@[simp] theorem State.retire_zz (s : State) (p : PAddr) : (s.retire p).zz = s.zz := rfl
@[simp] theorem State.retire_ss (s : State) (p : PAddr) : (s.retire p).ss = s.ss := rfl
@[simp] theorem State.retire_is (s : State) (p : PAddr) : (s.retire p).is = s.is := rfl
@[simp] theorem State.retire_mem (s : State) (p : PAddr) : (s.retire p).mem = s.mem := rfl
@[simp] theorem State.retire_buffer (s : State) (p : PAddr) : (s.retire p).buffer = s.buffer := rfl
@[simp] theorem State.retire_slot (s : State) (p : PAddr) : (s.retire p).slot = .none := rfl
@[simp] theorem State.retire_lpLag (s : State) (p : PAddr) : (s.retire p).lpLag = s.lpLag := rfl
@[simp] theorem State.retire_startHist (s : State) (p : PAddr) : (s.retire p).startHist = s.startHist := rfl
@[simp] theorem State.retire_endHist (s : State) (p : PAddr) : (s.retire p).endHist = s.endHist := rfl
@[simp] theorem State.retire_countHist (s : State) (p : PAddr) : (s.retire p).countHist = s.countHist := rfl
@[simp] theorem State.retire_mulBusy (s : State) (p : PAddr) : (s.retire p).mulBusy = s.mulBusy := rfl
@[simp] theorem State.retire_mulHigh (s : State) (p : PAddr) : (s.retire p).mulHigh = s.mulHigh := rfl
@[simp] theorem State.retire_hostPc (s : State) (p : PAddr) : (s.retire p).hostPc = s.hostPc := rfl
@[simp] theorem State.retire_stored (s : State) (p : PAddr) : (s.retire p).stored = s.stored := rfl
@[simp] theorem State.retire_oldCode (s : State) (p : PAddr) : (s.retire p).oldCode = s.oldCode := rfl
@[simp] theorem State.retire_inputs (s : State) (p : PAddr) : (s.retire p).inputs = s.inputs := rfl
@[simp] theorem State.retire_hostData (s : State) (p : PAddr) : (s.retire p).hostData = s.hostData := rfl
@[simp] theorem State.retire_draws (s : State) (p : PAddr) : (s.retire p).draws = s.draws := rfl

/-! ### goTo -/

@[simp] theorem State.goTo_cfg (s : State) (p : PAddr) : (s.goTo p).cfg = s.cfg := rfl
@[simp] theorem State.goTo_regs (s : State) (p : PAddr) : (s.goTo p).regs = s.regs := rfl
@[simp] theorem State.goTo_mr (s : State) (p : PAddr) : (s.goTo p).mr = s.mr := rfl
@[simp] theorem State.goTo_lpCount (s : State) (p : PAddr) : (s.goTo p).lpCount = s.lpCount := rfl
@[simp] theorem State.goTo_lpStart (s : State) (p : PAddr) : (s.goTo p).lpStart = s.lpStart := rfl
@[simp] theorem State.goTo_lpEnd (s : State) (p : PAddr) : (s.goTo p).lpEnd = s.lpEnd := rfl
@[simp] theorem State.goTo_pc (s : State) (p : PAddr) : (s.goTo p).pc = p := rfl
@[simp] theorem State.goTo_z (s : State) (p : PAddr) : (s.goTo p).z = s.z := rfl
@[simp] theorem State.goTo_n (s : State) (p : PAddr) : (s.goTo p).n = s.n := rfl
@[simp] theorem State.goTo_c (s : State) (p : PAddr) : (s.goTo p).c = s.c := rfl
@[simp] theorem State.goTo_v (s : State) (p : PAddr) : (s.goTo p).v = s.v := rfl
@[simp] theorem State.goTo_e1 (s : State) (p : PAddr) : (s.goTo p).e1 = s.e1 := rfl
@[simp] theorem State.goTo_e2 (s : State) (p : PAddr) : (s.goTo p).e2 = s.e2 := rfl
@[simp] theorem State.goTo_h (s : State) (p : PAddr) : (s.goTo p).h = s.h := rfl
@[simp] theorem State.goTo_semArc (s : State) (p : PAddr) : (s.goTo p).semArc = s.semArc := rfl
@[simp] theorem State.goTo_semHost (s : State) (p : PAddr) : (s.goTo p).semHost = s.semHost := rfl
@[simp] theorem State.goTo_loads (s : State) (p : PAddr) : (s.goTo p).loads = s.loads := rfl
@[simp] theorem State.goTo_sh (s : State) (p : PAddr) : (s.goTo p).sh = s.sh := rfl
@[simp] theorem State.goTo_bh (s : State) (p : PAddr) : (s.goTo p).bh = s.bh := rfl
@[simp] theorem State.goTo_zz (s : State) (p : PAddr) : (s.goTo p).zz = s.zz := rfl
@[simp] theorem State.goTo_ss (s : State) (p : PAddr) : (s.goTo p).ss = s.ss := rfl
@[simp] theorem State.goTo_is (s : State) (p : PAddr) : (s.goTo p).is = s.is := rfl
@[simp] theorem State.goTo_mem (s : State) (p : PAddr) : (s.goTo p).mem = s.mem := rfl
@[simp] theorem State.goTo_buffer (s : State) (p : PAddr) : (s.goTo p).buffer = s.buffer := rfl
@[simp] theorem State.goTo_slot (s : State) (p : PAddr) : (s.goTo p).slot = .none := rfl
@[simp] theorem State.goTo_lpLag (s : State) (p : PAddr) : (s.goTo p).lpLag = s.lpLag := rfl
@[simp] theorem State.goTo_startHist (s : State) (p : PAddr) : (s.goTo p).startHist = s.startHist := rfl
@[simp] theorem State.goTo_endHist (s : State) (p : PAddr) : (s.goTo p).endHist = s.endHist := rfl
@[simp] theorem State.goTo_countHist (s : State) (p : PAddr) : (s.goTo p).countHist = s.countHist := rfl
@[simp] theorem State.goTo_mulBusy (s : State) (p : PAddr) : (s.goTo p).mulBusy = s.mulBusy := rfl
@[simp] theorem State.goTo_mulHigh (s : State) (p : PAddr) : (s.goTo p).mulHigh = s.mulHigh := rfl
@[simp] theorem State.goTo_hostPc (s : State) (p : PAddr) : (s.goTo p).hostPc = s.hostPc := rfl
@[simp] theorem State.goTo_stored (s : State) (p : PAddr) : (s.goTo p).stored = s.stored := rfl
@[simp] theorem State.goTo_oldCode (s : State) (p : PAddr) : (s.goTo p).oldCode = s.oldCode := rfl
@[simp] theorem State.goTo_inputs (s : State) (p : PAddr) : (s.goTo p).inputs = s.inputs := rfl
@[simp] theorem State.goTo_hostData (s : State) (p : PAddr) : (s.goTo p).hostData = s.hostData := rfl
@[simp] theorem State.goTo_draws (s : State) (p : PAddr) : (s.goTo p).draws = s.draws := rfl

/-! ### setCount -/

@[simp] theorem State.setCount_cfg (s : State) (x : PAddr) : (s.setCount x).cfg = s.cfg := rfl
@[simp] theorem State.setCount_regs (s : State) (x : PAddr) : (s.setCount x).regs = s.regs := rfl
@[simp] theorem State.setCount_mr (s : State) (x : PAddr) : (s.setCount x).mr = s.mr := rfl
@[simp] theorem State.setCount_lpCount (s : State) (x : PAddr) : (s.setCount x).lpCount = x := rfl
@[simp] theorem State.setCount_lpStart (s : State) (x : PAddr) : (s.setCount x).lpStart = s.lpStart := rfl
@[simp] theorem State.setCount_lpEnd (s : State) (x : PAddr) : (s.setCount x).lpEnd = s.lpEnd := rfl
@[simp] theorem State.setCount_pc (s : State) (x : PAddr) : (s.setCount x).pc = s.pc := rfl
@[simp] theorem State.setCount_z (s : State) (x : PAddr) : (s.setCount x).z = s.z := rfl
@[simp] theorem State.setCount_n (s : State) (x : PAddr) : (s.setCount x).n = s.n := rfl
@[simp] theorem State.setCount_c (s : State) (x : PAddr) : (s.setCount x).c = s.c := rfl
@[simp] theorem State.setCount_v (s : State) (x : PAddr) : (s.setCount x).v = s.v := rfl
@[simp] theorem State.setCount_e1 (s : State) (x : PAddr) : (s.setCount x).e1 = s.e1 := rfl
@[simp] theorem State.setCount_e2 (s : State) (x : PAddr) : (s.setCount x).e2 = s.e2 := rfl
@[simp] theorem State.setCount_h (s : State) (x : PAddr) : (s.setCount x).h = s.h := rfl
@[simp] theorem State.setCount_semArc (s : State) (x : PAddr) : (s.setCount x).semArc = s.semArc := rfl
@[simp] theorem State.setCount_semHost (s : State) (x : PAddr) : (s.setCount x).semHost = s.semHost := rfl
@[simp] theorem State.setCount_loads (s : State) (x : PAddr) : (s.setCount x).loads = s.loads := rfl
@[simp] theorem State.setCount_sh (s : State) (x : PAddr) : (s.setCount x).sh = s.sh := rfl
@[simp] theorem State.setCount_bh (s : State) (x : PAddr) : (s.setCount x).bh = s.bh := rfl
@[simp] theorem State.setCount_zz (s : State) (x : PAddr) : (s.setCount x).zz = s.zz := rfl
@[simp] theorem State.setCount_ss (s : State) (x : PAddr) : (s.setCount x).ss = s.ss := rfl
@[simp] theorem State.setCount_is (s : State) (x : PAddr) : (s.setCount x).is = s.is := rfl
@[simp] theorem State.setCount_mem (s : State) (x : PAddr) : (s.setCount x).mem = s.mem := rfl
@[simp] theorem State.setCount_buffer (s : State) (x : PAddr) : (s.setCount x).buffer = s.buffer := rfl
@[simp] theorem State.setCount_slot (s : State) (x : PAddr) : (s.setCount x).slot = s.slot := rfl
@[simp] theorem State.setCount_lpLag (s : State) (x : PAddr) : (s.setCount x).lpLag = s.lpLag := rfl
@[simp] theorem State.setCount_startHist (s : State) (x : PAddr) : (s.setCount x).startHist = s.startHist := rfl
@[simp] theorem State.setCount_endHist (s : State) (x : PAddr) : (s.setCount x).endHist = s.endHist := rfl
@[simp] theorem State.setCount_countHist (s : State) (x : PAddr) : (s.setCount x).countHist = ⟨s.lpCount, 0⟩ :: s.countHist := rfl
@[simp] theorem State.setCount_mulBusy (s : State) (x : PAddr) : (s.setCount x).mulBusy = s.mulBusy := rfl
@[simp] theorem State.setCount_mulHigh (s : State) (x : PAddr) : (s.setCount x).mulHigh = s.mulHigh := rfl
@[simp] theorem State.setCount_hostPc (s : State) (x : PAddr) : (s.setCount x).hostPc = s.hostPc := rfl
@[simp] theorem State.setCount_stored (s : State) (x : PAddr) : (s.setCount x).stored = s.stored := rfl
@[simp] theorem State.setCount_oldCode (s : State) (x : PAddr) : (s.setCount x).oldCode = s.oldCode := rfl
@[simp] theorem State.setCount_inputs (s : State) (x : PAddr) : (s.setCount x).inputs = s.inputs := rfl
@[simp] theorem State.setCount_hostData (s : State) (x : PAddr) : (s.setCount x).hostData = s.hostData := rfl
@[simp] theorem State.setCount_draws (s : State) (x : PAddr) : (s.setCount x).draws = s.draws := rfl

/-! ### arrive -/

@[simp] theorem State.arrive_cfg (s : State) (r : CoreReg) : (s.arrive r).cfg = s.cfg := rfl
@[simp] theorem State.arrive_regs (s : State) (r : CoreReg) : (s.arrive r).regs = s.regs := rfl
@[simp] theorem State.arrive_mr (s : State) (r : CoreReg) : (s.arrive r).mr = s.mr := rfl
@[simp] theorem State.arrive_lpCount (s : State) (r : CoreReg) : (s.arrive r).lpCount = s.lpCount := rfl
@[simp] theorem State.arrive_lpStart (s : State) (r : CoreReg) : (s.arrive r).lpStart = s.lpStart := rfl
@[simp] theorem State.arrive_lpEnd (s : State) (r : CoreReg) : (s.arrive r).lpEnd = s.lpEnd := rfl
@[simp] theorem State.arrive_pc (s : State) (r : CoreReg) : (s.arrive r).pc = s.pc := rfl
@[simp] theorem State.arrive_z (s : State) (r : CoreReg) : (s.arrive r).z = s.z := rfl
@[simp] theorem State.arrive_n (s : State) (r : CoreReg) : (s.arrive r).n = s.n := rfl
@[simp] theorem State.arrive_c (s : State) (r : CoreReg) : (s.arrive r).c = s.c := rfl
@[simp] theorem State.arrive_v (s : State) (r : CoreReg) : (s.arrive r).v = s.v := rfl
@[simp] theorem State.arrive_e1 (s : State) (r : CoreReg) : (s.arrive r).e1 = s.e1 := rfl
@[simp] theorem State.arrive_e2 (s : State) (r : CoreReg) : (s.arrive r).e2 = s.e2 := rfl
@[simp] theorem State.arrive_h (s : State) (r : CoreReg) : (s.arrive r).h = s.h := rfl
@[simp] theorem State.arrive_semArc (s : State) (r : CoreReg) : (s.arrive r).semArc = s.semArc := rfl
@[simp] theorem State.arrive_semHost (s : State) (r : CoreReg) : (s.arrive r).semHost = s.semHost := rfl
@[simp] theorem State.arrive_loads (s : State) (r : CoreReg) : (s.arrive r).loads = s.loads.filter fun d => d != .reg r := rfl
@[simp] theorem State.arrive_sh (s : State) (r : CoreReg) : (s.arrive r).sh = s.sh := rfl
@[simp] theorem State.arrive_bh (s : State) (r : CoreReg) : (s.arrive r).bh = s.bh := rfl
@[simp] theorem State.arrive_zz (s : State) (r : CoreReg) : (s.arrive r).zz = s.zz := rfl
@[simp] theorem State.arrive_ss (s : State) (r : CoreReg) : (s.arrive r).ss = s.ss := rfl
@[simp] theorem State.arrive_is (s : State) (r : CoreReg) : (s.arrive r).is = s.is := rfl
@[simp] theorem State.arrive_mem (s : State) (r : CoreReg) : (s.arrive r).mem = s.mem := rfl
@[simp] theorem State.arrive_buffer (s : State) (r : CoreReg) : (s.arrive r).buffer = s.buffer := rfl
@[simp] theorem State.arrive_slot (s : State) (r : CoreReg) : (s.arrive r).slot = s.slot := rfl
@[simp] theorem State.arrive_lpLag (s : State) (r : CoreReg) : (s.arrive r).lpLag = s.lpLag := rfl
@[simp] theorem State.arrive_startHist (s : State) (r : CoreReg) : (s.arrive r).startHist = s.startHist := rfl
@[simp] theorem State.arrive_endHist (s : State) (r : CoreReg) : (s.arrive r).endHist = s.endHist := rfl
@[simp] theorem State.arrive_countHist (s : State) (r : CoreReg) : (s.arrive r).countHist = s.countHist := rfl
@[simp] theorem State.arrive_mulBusy (s : State) (r : CoreReg) : (s.arrive r).mulBusy = s.mulBusy := rfl
@[simp] theorem State.arrive_mulHigh (s : State) (r : CoreReg) : (s.arrive r).mulHigh = s.mulHigh := rfl
@[simp] theorem State.arrive_hostPc (s : State) (r : CoreReg) : (s.arrive r).hostPc = s.hostPc := rfl
@[simp] theorem State.arrive_stored (s : State) (r : CoreReg) : (s.arrive r).stored = s.stored := rfl
@[simp] theorem State.arrive_oldCode (s : State) (r : CoreReg) : (s.arrive r).oldCode = s.oldCode := rfl
@[simp] theorem State.arrive_inputs (s : State) (r : CoreReg) : (s.arrive r).inputs = s.inputs := rfl
@[simp] theorem State.arrive_hostData (s : State) (r : CoreReg) : (s.arrive r).hostData = s.hostData := rfl
@[simp] theorem State.arrive_draws (s : State) (r : CoreReg) : (s.arrive r).draws = s.draws := rfl

/-! ### awaitDst -/

@[simp] theorem State.awaitDst_cfg (s : State) (d : RegField) : (s.awaitDst d).cfg = s.cfg := by
  cases d <;> rfl
@[simp] theorem State.awaitDst_regs (s : State) (d : RegField) : (s.awaitDst d).regs = s.regs := by
  cases d <;> rfl
@[simp] theorem State.awaitDst_mr (s : State) (d : RegField) : (s.awaitDst d).mr = s.mr := by
  cases d <;> rfl
@[simp] theorem State.awaitDst_lpCount (s : State) (d : RegField) : (s.awaitDst d).lpCount = s.lpCount := by
  cases d <;> rfl
@[simp] theorem State.awaitDst_lpStart (s : State) (d : RegField) : (s.awaitDst d).lpStart = s.lpStart := by
  cases d <;> rfl
@[simp] theorem State.awaitDst_lpEnd (s : State) (d : RegField) : (s.awaitDst d).lpEnd = s.lpEnd := by
  cases d <;> rfl
@[simp] theorem State.awaitDst_pc (s : State) (d : RegField) : (s.awaitDst d).pc = s.pc := by
  cases d <;> rfl
@[simp] theorem State.awaitDst_z (s : State) (d : RegField) : (s.awaitDst d).z = s.z := by
  cases d <;> rfl
@[simp] theorem State.awaitDst_n (s : State) (d : RegField) : (s.awaitDst d).n = s.n := by
  cases d <;> rfl
@[simp] theorem State.awaitDst_c (s : State) (d : RegField) : (s.awaitDst d).c = s.c := by
  cases d <;> rfl
@[simp] theorem State.awaitDst_v (s : State) (d : RegField) : (s.awaitDst d).v = s.v := by
  cases d <;> rfl
@[simp] theorem State.awaitDst_e1 (s : State) (d : RegField) : (s.awaitDst d).e1 = s.e1 := by
  cases d <;> rfl
@[simp] theorem State.awaitDst_e2 (s : State) (d : RegField) : (s.awaitDst d).e2 = s.e2 := by
  cases d <;> rfl
@[simp] theorem State.awaitDst_h (s : State) (d : RegField) : (s.awaitDst d).h = s.h := by
  cases d <;> rfl
@[simp] theorem State.awaitDst_semArc (s : State) (d : RegField) : (s.awaitDst d).semArc = s.semArc := by
  cases d <;> rfl
@[simp] theorem State.awaitDst_semHost (s : State) (d : RegField) : (s.awaitDst d).semHost = s.semHost := by
  cases d <;> rfl
@[simp] theorem State.awaitDst_sh (s : State) (d : RegField) : (s.awaitDst d).sh = s.sh := by
  cases d <;> rfl
@[simp] theorem State.awaitDst_bh (s : State) (d : RegField) : (s.awaitDst d).bh = s.bh := by
  cases d <;> rfl
@[simp] theorem State.awaitDst_zz (s : State) (d : RegField) : (s.awaitDst d).zz = s.zz := by
  cases d <;> rfl
@[simp] theorem State.awaitDst_ss (s : State) (d : RegField) : (s.awaitDst d).ss = s.ss := by
  cases d <;> rfl
@[simp] theorem State.awaitDst_is (s : State) (d : RegField) : (s.awaitDst d).is = s.is := by
  cases d <;> rfl
@[simp] theorem State.awaitDst_mem (s : State) (d : RegField) : (s.awaitDst d).mem = s.mem := by
  cases d <;> rfl
@[simp] theorem State.awaitDst_buffer (s : State) (d : RegField) : (s.awaitDst d).buffer = s.buffer := by
  cases d <;> rfl
@[simp] theorem State.awaitDst_slot (s : State) (d : RegField) : (s.awaitDst d).slot = s.slot := by
  cases d <;> rfl
@[simp] theorem State.awaitDst_lpLag (s : State) (d : RegField) : (s.awaitDst d).lpLag = s.lpLag := by
  cases d <;> rfl
@[simp] theorem State.awaitDst_startHist (s : State) (d : RegField) : (s.awaitDst d).startHist = s.startHist := by
  cases d <;> rfl
@[simp] theorem State.awaitDst_endHist (s : State) (d : RegField) : (s.awaitDst d).endHist = s.endHist := by
  cases d <;> rfl
@[simp] theorem State.awaitDst_countHist (s : State) (d : RegField) : (s.awaitDst d).countHist = s.countHist := by
  cases d <;> rfl
@[simp] theorem State.awaitDst_mulBusy (s : State) (d : RegField) : (s.awaitDst d).mulBusy = s.mulBusy := by
  cases d <;> rfl
@[simp] theorem State.awaitDst_mulHigh (s : State) (d : RegField) : (s.awaitDst d).mulHigh = s.mulHigh := by
  cases d <;> rfl
@[simp] theorem State.awaitDst_hostPc (s : State) (d : RegField) : (s.awaitDst d).hostPc = s.hostPc := by
  cases d <;> rfl
@[simp] theorem State.awaitDst_stored (s : State) (d : RegField) : (s.awaitDst d).stored = s.stored := by
  cases d <;> rfl
@[simp] theorem State.awaitDst_oldCode (s : State) (d : RegField) : (s.awaitDst d).oldCode = s.oldCode := by
  cases d <;> rfl
@[simp] theorem State.awaitDst_inputs (s : State) (d : RegField) : (s.awaitDst d).inputs = s.inputs := by
  cases d <;> rfl
@[simp] theorem State.awaitDst_hostData (s : State) (d : RegField) : (s.awaitDst d).hostData = s.hostData := by
  cases d <;> rfl
@[simp] theorem State.awaitDst_draws (s : State) (d : RegField) : (s.awaitDst d).draws = s.draws := by
  cases d <;> rfl

/-! ### perform -/

@[simp] theorem State.perform_cfg (s : State) (a : Word) (sz : Size) : (s.perform a sz).cfg = s.cfg := rfl
@[simp] theorem State.perform_regs (s : State) (a : Word) (sz : Size) : (s.perform a sz).regs = s.regs := rfl
@[simp] theorem State.perform_mr (s : State) (a : Word) (sz : Size) : (s.perform a sz).mr = s.mr := rfl
@[simp] theorem State.perform_lpCount (s : State) (a : Word) (sz : Size) : (s.perform a sz).lpCount = s.lpCount := rfl
@[simp] theorem State.perform_lpStart (s : State) (a : Word) (sz : Size) : (s.perform a sz).lpStart = s.lpStart := rfl
@[simp] theorem State.perform_lpEnd (s : State) (a : Word) (sz : Size) : (s.perform a sz).lpEnd = s.lpEnd := rfl
@[simp] theorem State.perform_pc (s : State) (a : Word) (sz : Size) : (s.perform a sz).pc = s.pc := rfl
@[simp] theorem State.perform_z (s : State) (a : Word) (sz : Size) : (s.perform a sz).z = s.z := rfl
@[simp] theorem State.perform_n (s : State) (a : Word) (sz : Size) : (s.perform a sz).n = s.n := rfl
@[simp] theorem State.perform_c (s : State) (a : Word) (sz : Size) : (s.perform a sz).c = s.c := rfl
@[simp] theorem State.perform_v (s : State) (a : Word) (sz : Size) : (s.perform a sz).v = s.v := rfl
@[simp] theorem State.perform_e1 (s : State) (a : Word) (sz : Size) : (s.perform a sz).e1 = s.e1 := rfl
@[simp] theorem State.perform_e2 (s : State) (a : Word) (sz : Size) : (s.perform a sz).e2 = s.e2 := rfl
@[simp] theorem State.perform_h (s : State) (a : Word) (sz : Size) : (s.perform a sz).h = s.h := rfl
@[simp] theorem State.perform_semArc (s : State) (a : Word) (sz : Size) : (s.perform a sz).semArc = s.semArc := rfl
@[simp] theorem State.perform_semHost (s : State) (a : Word) (sz : Size) : (s.perform a sz).semHost = s.semHost := rfl
@[simp] theorem State.perform_loads (s : State) (a : Word) (sz : Size) : (s.perform a sz).loads = s.loads := rfl
@[simp] theorem State.perform_sh (s : State) (a : Word) (sz : Size) : (s.perform a sz).sh = s.sh := rfl
@[simp] theorem State.perform_bh (s : State) (a : Word) (sz : Size) : (s.perform a sz).bh = s.bh := rfl
@[simp] theorem State.perform_zz (s : State) (a : Word) (sz : Size) : (s.perform a sz).zz = s.zz := rfl
@[simp] theorem State.perform_ss (s : State) (a : Word) (sz : Size) : (s.perform a sz).ss = s.ss := rfl
@[simp] theorem State.perform_is (s : State) (a : Word) (sz : Size) : (s.perform a sz).is = s.is := rfl
@[simp] theorem State.perform_mem (s : State) (a : Word) (sz : Size) : (s.perform a sz).mem = s.mem := rfl
@[simp] theorem State.perform_buffer (s : State) (a : Word) (sz : Size) : (s.perform a sz).buffer = s.buffer.filter fun e => !overlap e.addr e.size a sz := rfl
@[simp] theorem State.perform_slot (s : State) (a : Word) (sz : Size) : (s.perform a sz).slot = s.slot := rfl
@[simp] theorem State.perform_lpLag (s : State) (a : Word) (sz : Size) : (s.perform a sz).lpLag = s.lpLag := rfl
@[simp] theorem State.perform_startHist (s : State) (a : Word) (sz : Size) : (s.perform a sz).startHist = s.startHist := rfl
@[simp] theorem State.perform_endHist (s : State) (a : Word) (sz : Size) : (s.perform a sz).endHist = s.endHist := rfl
@[simp] theorem State.perform_countHist (s : State) (a : Word) (sz : Size) : (s.perform a sz).countHist = s.countHist := rfl
@[simp] theorem State.perform_mulBusy (s : State) (a : Word) (sz : Size) : (s.perform a sz).mulBusy = s.mulBusy := rfl
@[simp] theorem State.perform_mulHigh (s : State) (a : Word) (sz : Size) : (s.perform a sz).mulHigh = s.mulHigh := rfl
@[simp] theorem State.perform_hostPc (s : State) (a : Word) (sz : Size) : (s.perform a sz).hostPc = s.hostPc := rfl
@[simp] theorem State.perform_stored (s : State) (a : Word) (sz : Size) : (s.perform a sz).stored = s.stored := rfl
@[simp] theorem State.perform_oldCode (s : State) (a : Word) (sz : Size) : (s.perform a sz).oldCode = s.oldCode := rfl
@[simp] theorem State.perform_inputs (s : State) (a : Word) (sz : Size) : (s.perform a sz).inputs = s.inputs := rfl
@[simp] theorem State.perform_hostData (s : State) (a : Word) (sz : Size) : (s.perform a sz).hostData = s.hostData := rfl
@[simp] theorem State.perform_draws (s : State) (a : Word) (sz : Size) : (s.perform a sz).draws = s.draws := rfl

/-! ### settle -/

@[simp] theorem State.settle_cfg (s : State) : s.settle.cfg = s.cfg := rfl
@[simp] theorem State.settle_regs (s : State) : s.settle.regs = s.regs := rfl
@[simp] theorem State.settle_mr (s : State) : s.settle.mr = s.mr := rfl
@[simp] theorem State.settle_lpCount (s : State) : s.settle.lpCount = s.lpCount := rfl
@[simp] theorem State.settle_lpStart (s : State) : s.settle.lpStart = s.lpStart := rfl
@[simp] theorem State.settle_lpEnd (s : State) : s.settle.lpEnd = s.lpEnd := rfl
@[simp] theorem State.settle_pc (s : State) : s.settle.pc = s.pc := rfl
@[simp] theorem State.settle_z (s : State) : s.settle.z = s.z := rfl
@[simp] theorem State.settle_n (s : State) : s.settle.n = s.n := rfl
@[simp] theorem State.settle_c (s : State) : s.settle.c = s.c := rfl
@[simp] theorem State.settle_v (s : State) : s.settle.v = s.v := rfl
@[simp] theorem State.settle_e1 (s : State) : s.settle.e1 = s.e1 := rfl
@[simp] theorem State.settle_e2 (s : State) : s.settle.e2 = s.e2 := rfl
@[simp] theorem State.settle_h (s : State) : s.settle.h = s.h := rfl
@[simp] theorem State.settle_semArc (s : State) : s.settle.semArc = s.semArc := rfl
@[simp] theorem State.settle_semHost (s : State) : s.settle.semHost = s.semHost := rfl
@[simp] theorem State.settle_loads (s : State) : s.settle.loads = s.loads := rfl
@[simp] theorem State.settle_sh (s : State) : s.settle.sh = s.sh := rfl
@[simp] theorem State.settle_bh (s : State) : s.settle.bh = s.bh := rfl
@[simp] theorem State.settle_zz (s : State) : s.settle.zz = s.zz := rfl
@[simp] theorem State.settle_ss (s : State) : s.settle.ss = s.ss := rfl
@[simp] theorem State.settle_is (s : State) : s.settle.is = s.is := rfl
@[simp] theorem State.settle_mem (s : State) : s.settle.mem = s.mem := rfl
@[simp] theorem State.settle_buffer (s : State) : s.settle.buffer = s.buffer.filter fun e => !s.performed e := rfl
@[simp] theorem State.settle_slot (s : State) : s.settle.slot = s.slot := rfl
@[simp] theorem State.settle_lpLag (s : State) : s.settle.lpLag = s.lpLag := rfl
@[simp] theorem State.settle_startHist (s : State) : s.settle.startHist = s.startHist := rfl
@[simp] theorem State.settle_endHist (s : State) : s.settle.endHist = s.endHist := rfl
@[simp] theorem State.settle_countHist (s : State) : s.settle.countHist = s.countHist := rfl
@[simp] theorem State.settle_mulBusy (s : State) : s.settle.mulBusy = s.mulBusy := rfl
@[simp] theorem State.settle_mulHigh (s : State) : s.settle.mulHigh = s.mulHigh := rfl
@[simp] theorem State.settle_hostPc (s : State) : s.settle.hostPc = s.hostPc := rfl
@[simp] theorem State.settle_stored (s : State) : s.settle.stored = s.stored := rfl
@[simp] theorem State.settle_oldCode (s : State) : s.settle.oldCode = s.oldCode := rfl
@[simp] theorem State.settle_inputs (s : State) : s.settle.inputs = s.inputs := rfl
@[simp] theorem State.settle_hostData (s : State) : s.settle.hostData = s.hostData := rfl
@[simp] theorem State.settle_draws (s : State) : s.settle.draws = s.draws := rfl

/-! ### setReg -/

@[simp] theorem State.setReg_cfg (s : State) (r : CoreReg) (x : Word) : (s.setReg r x).cfg = s.cfg := by
  unfold State.setReg; split
  · rfl
  · split <;> rfl
@[simp] theorem State.setReg_mr (s : State) (r : CoreReg) (x : Word) : (s.setReg r x).mr = s.mr := by
  unfold State.setReg; split
  · rfl
  · split <;> rfl
@[simp] theorem State.setReg_lpStart (s : State) (r : CoreReg) (x : Word) : (s.setReg r x).lpStart = s.lpStart := by
  unfold State.setReg; split
  · rfl
  · split <;> rfl
@[simp] theorem State.setReg_lpEnd (s : State) (r : CoreReg) (x : Word) : (s.setReg r x).lpEnd = s.lpEnd := by
  unfold State.setReg; split
  · rfl
  · split <;> rfl
@[simp] theorem State.setReg_pc (s : State) (r : CoreReg) (x : Word) : (s.setReg r x).pc = s.pc := by
  unfold State.setReg; split
  · rfl
  · split <;> rfl
@[simp] theorem State.setReg_z (s : State) (r : CoreReg) (x : Word) : (s.setReg r x).z = s.z := by
  unfold State.setReg; split
  · rfl
  · split <;> rfl
@[simp] theorem State.setReg_n (s : State) (r : CoreReg) (x : Word) : (s.setReg r x).n = s.n := by
  unfold State.setReg; split
  · rfl
  · split <;> rfl
@[simp] theorem State.setReg_c (s : State) (r : CoreReg) (x : Word) : (s.setReg r x).c = s.c := by
  unfold State.setReg; split
  · rfl
  · split <;> rfl
@[simp] theorem State.setReg_v (s : State) (r : CoreReg) (x : Word) : (s.setReg r x).v = s.v := by
  unfold State.setReg; split
  · rfl
  · split <;> rfl
@[simp] theorem State.setReg_e1 (s : State) (r : CoreReg) (x : Word) : (s.setReg r x).e1 = s.e1 := by
  unfold State.setReg; split
  · rfl
  · split <;> rfl
@[simp] theorem State.setReg_e2 (s : State) (r : CoreReg) (x : Word) : (s.setReg r x).e2 = s.e2 := by
  unfold State.setReg; split
  · rfl
  · split <;> rfl
@[simp] theorem State.setReg_h (s : State) (r : CoreReg) (x : Word) : (s.setReg r x).h = s.h := by
  unfold State.setReg; split
  · rfl
  · split <;> rfl
@[simp] theorem State.setReg_semArc (s : State) (r : CoreReg) (x : Word) : (s.setReg r x).semArc = s.semArc := by
  unfold State.setReg; split
  · rfl
  · split <;> rfl
@[simp] theorem State.setReg_semHost (s : State) (r : CoreReg) (x : Word) : (s.setReg r x).semHost = s.semHost := by
  unfold State.setReg; split
  · rfl
  · split <;> rfl
@[simp] theorem State.setReg_loads (s : State) (r : CoreReg) (x : Word) : (s.setReg r x).loads = s.loads.filter fun d => d != .reg r := by
  unfold State.setReg; split
  · rfl
  · split <;> rfl
@[simp] theorem State.setReg_sh (s : State) (r : CoreReg) (x : Word) : (s.setReg r x).sh = s.sh := by
  unfold State.setReg; split
  · rfl
  · split <;> rfl
@[simp] theorem State.setReg_bh (s : State) (r : CoreReg) (x : Word) : (s.setReg r x).bh = s.bh := by
  unfold State.setReg; split
  · rfl
  · split <;> rfl
@[simp] theorem State.setReg_zz (s : State) (r : CoreReg) (x : Word) : (s.setReg r x).zz = s.zz := by
  unfold State.setReg; split
  · rfl
  · split <;> rfl
@[simp] theorem State.setReg_ss (s : State) (r : CoreReg) (x : Word) : (s.setReg r x).ss = s.ss := by
  unfold State.setReg; split
  · rfl
  · split <;> rfl
@[simp] theorem State.setReg_is (s : State) (r : CoreReg) (x : Word) : (s.setReg r x).is = s.is := by
  unfold State.setReg; split
  · rfl
  · split <;> rfl
@[simp] theorem State.setReg_mem (s : State) (r : CoreReg) (x : Word) : (s.setReg r x).mem = s.mem := by
  unfold State.setReg; split
  · rfl
  · split <;> rfl
@[simp] theorem State.setReg_buffer (s : State) (r : CoreReg) (x : Word) : (s.setReg r x).buffer = s.buffer := by
  unfold State.setReg; split
  · rfl
  · split <;> rfl
@[simp] theorem State.setReg_slot (s : State) (r : CoreReg) (x : Word) : (s.setReg r x).slot = s.slot := by
  unfold State.setReg; split
  · rfl
  · split <;> rfl
@[simp] theorem State.setReg_lpLag (s : State) (r : CoreReg) (x : Word) : (s.setReg r x).lpLag = s.lpLag := by
  unfold State.setReg; split
  · rfl
  · split <;> rfl
@[simp] theorem State.setReg_startHist (s : State) (r : CoreReg) (x : Word) : (s.setReg r x).startHist = s.startHist := by
  unfold State.setReg; split
  · rfl
  · split <;> rfl
@[simp] theorem State.setReg_endHist (s : State) (r : CoreReg) (x : Word) : (s.setReg r x).endHist = s.endHist := by
  unfold State.setReg; split
  · rfl
  · split <;> rfl
@[simp] theorem State.setReg_mulBusy (s : State) (r : CoreReg) (x : Word) : (s.setReg r x).mulBusy = s.mulBusy := by
  unfold State.setReg; split
  · rfl
  · split <;> rfl
@[simp] theorem State.setReg_mulHigh (s : State) (r : CoreReg) (x : Word) : (s.setReg r x).mulHigh = s.mulHigh := by
  unfold State.setReg; split
  · rfl
  · split <;> rfl
@[simp] theorem State.setReg_hostPc (s : State) (r : CoreReg) (x : Word) : (s.setReg r x).hostPc = s.hostPc := by
  unfold State.setReg; split
  · rfl
  · split <;> rfl
@[simp] theorem State.setReg_stored (s : State) (r : CoreReg) (x : Word) : (s.setReg r x).stored = s.stored := by
  unfold State.setReg; split
  · rfl
  · split <;> rfl
@[simp] theorem State.setReg_oldCode (s : State) (r : CoreReg) (x : Word) : (s.setReg r x).oldCode = s.oldCode := by
  unfold State.setReg; split
  · rfl
  · split <;> rfl
@[simp] theorem State.setReg_inputs (s : State) (r : CoreReg) (x : Word) : (s.setReg r x).inputs = s.inputs := by
  unfold State.setReg; split
  · rfl
  · split <;> rfl
@[simp] theorem State.setReg_hostData (s : State) (r : CoreReg) (x : Word) : (s.setReg r x).hostData = s.hostData := by
  unfold State.setReg; split
  · rfl
  · split <;> rfl
@[simp] theorem State.setReg_draws (s : State) (r : CoreReg) (x : Word) : (s.setReg r x).draws = s.draws := by
  unfold State.setReg; split
  · rfl
  · split <;> rfl

/-! ### touch -/

@[simp] theorem State.touch_cfg (s : State) (r : CoreReg) : (s.touch r).cfg = s.cfg := by
  unfold State.touch; split <;> rfl
@[simp] theorem State.touch_regs (s : State) (r : CoreReg) : (s.touch r).regs = s.regs := by
  unfold State.touch; split <;> rfl
@[simp] theorem State.touch_mr (s : State) (r : CoreReg) : (s.touch r).mr = s.mr := by
  unfold State.touch; split <;> rfl
@[simp] theorem State.touch_lpCount (s : State) (r : CoreReg) : (s.touch r).lpCount = s.lpCount := by
  unfold State.touch; split <;> rfl
@[simp] theorem State.touch_lpStart (s : State) (r : CoreReg) : (s.touch r).lpStart = s.lpStart := by
  unfold State.touch; split <;> rfl
@[simp] theorem State.touch_lpEnd (s : State) (r : CoreReg) : (s.touch r).lpEnd = s.lpEnd := by
  unfold State.touch; split <;> rfl
@[simp] theorem State.touch_pc (s : State) (r : CoreReg) : (s.touch r).pc = s.pc := by
  unfold State.touch; split <;> rfl
@[simp] theorem State.touch_z (s : State) (r : CoreReg) : (s.touch r).z = s.z := by
  unfold State.touch; split <;> rfl
@[simp] theorem State.touch_n (s : State) (r : CoreReg) : (s.touch r).n = s.n := by
  unfold State.touch; split <;> rfl
@[simp] theorem State.touch_c (s : State) (r : CoreReg) : (s.touch r).c = s.c := by
  unfold State.touch; split <;> rfl
@[simp] theorem State.touch_v (s : State) (r : CoreReg) : (s.touch r).v = s.v := by
  unfold State.touch; split <;> rfl
@[simp] theorem State.touch_e1 (s : State) (r : CoreReg) : (s.touch r).e1 = s.e1 := by
  unfold State.touch; split <;> rfl
@[simp] theorem State.touch_e2 (s : State) (r : CoreReg) : (s.touch r).e2 = s.e2 := by
  unfold State.touch; split <;> rfl
@[simp] theorem State.touch_h (s : State) (r : CoreReg) : (s.touch r).h = s.h := by
  unfold State.touch; split <;> rfl
@[simp] theorem State.touch_semArc (s : State) (r : CoreReg) : (s.touch r).semArc = s.semArc := by
  unfold State.touch; split <;> rfl
@[simp] theorem State.touch_semHost (s : State) (r : CoreReg) : (s.touch r).semHost = s.semHost := by
  unfold State.touch; split <;> rfl
@[simp] theorem State.touch_loads (s : State) (r : CoreReg) : (s.touch r).loads = s.loads.filter fun d => d != .reg r := by
  unfold State.touch; split <;> rfl
@[simp] theorem State.touch_sh (s : State) (r : CoreReg) : (s.touch r).sh = s.sh := by
  unfold State.touch; split <;> rfl
@[simp] theorem State.touch_bh (s : State) (r : CoreReg) : (s.touch r).bh = s.bh := by
  unfold State.touch; split <;> rfl
@[simp] theorem State.touch_zz (s : State) (r : CoreReg) : (s.touch r).zz = s.zz := by
  unfold State.touch; split <;> rfl
@[simp] theorem State.touch_ss (s : State) (r : CoreReg) : (s.touch r).ss = s.ss := by
  unfold State.touch; split <;> rfl
@[simp] theorem State.touch_is (s : State) (r : CoreReg) : (s.touch r).is = s.is := by
  unfold State.touch; split <;> rfl
@[simp] theorem State.touch_mem (s : State) (r : CoreReg) : (s.touch r).mem = s.mem := by
  unfold State.touch; split <;> rfl
@[simp] theorem State.touch_buffer (s : State) (r : CoreReg) : (s.touch r).buffer = s.buffer := by
  unfold State.touch; split <;> rfl
@[simp] theorem State.touch_slot (s : State) (r : CoreReg) : (s.touch r).slot = s.slot := by
  unfold State.touch; split <;> rfl
@[simp] theorem State.touch_lpLag (s : State) (r : CoreReg) : (s.touch r).lpLag = s.lpLag := by
  unfold State.touch; split <;> rfl
@[simp] theorem State.touch_startHist (s : State) (r : CoreReg) : (s.touch r).startHist = s.startHist := by
  unfold State.touch; split <;> rfl
@[simp] theorem State.touch_endHist (s : State) (r : CoreReg) : (s.touch r).endHist = s.endHist := by
  unfold State.touch; split <;> rfl
@[simp] theorem State.touch_countHist (s : State) (r : CoreReg) : (s.touch r).countHist = s.countHist := by
  unfold State.touch; split <;> rfl
@[simp] theorem State.touch_mulHigh (s : State) (r : CoreReg) : (s.touch r).mulHigh = s.mulHigh := by
  unfold State.touch; split <;> rfl
@[simp] theorem State.touch_hostPc (s : State) (r : CoreReg) : (s.touch r).hostPc = s.hostPc := by
  unfold State.touch; split <;> rfl
@[simp] theorem State.touch_stored (s : State) (r : CoreReg) : (s.touch r).stored = s.stored := by
  unfold State.touch; split <;> rfl
@[simp] theorem State.touch_oldCode (s : State) (r : CoreReg) : (s.touch r).oldCode = s.oldCode := by
  unfold State.touch; split <;> rfl
@[simp] theorem State.touch_inputs (s : State) (r : CoreReg) : (s.touch r).inputs = s.inputs := by
  unfold State.touch; split <;> rfl
@[simp] theorem State.touch_hostData (s : State) (r : CoreReg) : (s.touch r).hostData = s.hostData := by
  unfold State.touch; split <;> rfl
@[simp] theorem State.touch_draws (s : State) (r : CoreReg) : (s.touch r).draws = s.draws := by
  unfold State.touch; split <;> rfl

/-! ### touch1 -/

@[simp] theorem State.touch1_cfg (s : State) (o : Src1) : (s.touch1 o).cfg = s.cfg := by
  unfold State.touch1; split <;> simp
@[simp] theorem State.touch1_regs (s : State) (o : Src1) : (s.touch1 o).regs = s.regs := by
  unfold State.touch1; split <;> simp
@[simp] theorem State.touch1_mr (s : State) (o : Src1) : (s.touch1 o).mr = s.mr := by
  unfold State.touch1; split <;> simp
@[simp] theorem State.touch1_lpCount (s : State) (o : Src1) : (s.touch1 o).lpCount = s.lpCount := by
  unfold State.touch1; split <;> simp
@[simp] theorem State.touch1_lpStart (s : State) (o : Src1) : (s.touch1 o).lpStart = s.lpStart := by
  unfold State.touch1; split <;> simp
@[simp] theorem State.touch1_lpEnd (s : State) (o : Src1) : (s.touch1 o).lpEnd = s.lpEnd := by
  unfold State.touch1; split <;> simp
@[simp] theorem State.touch1_pc (s : State) (o : Src1) : (s.touch1 o).pc = s.pc := by
  unfold State.touch1; split <;> simp
@[simp] theorem State.touch1_z (s : State) (o : Src1) : (s.touch1 o).z = s.z := by
  unfold State.touch1; split <;> simp
@[simp] theorem State.touch1_n (s : State) (o : Src1) : (s.touch1 o).n = s.n := by
  unfold State.touch1; split <;> simp
@[simp] theorem State.touch1_c (s : State) (o : Src1) : (s.touch1 o).c = s.c := by
  unfold State.touch1; split <;> simp
@[simp] theorem State.touch1_v (s : State) (o : Src1) : (s.touch1 o).v = s.v := by
  unfold State.touch1; split <;> simp
@[simp] theorem State.touch1_e1 (s : State) (o : Src1) : (s.touch1 o).e1 = s.e1 := by
  unfold State.touch1; split <;> simp
@[simp] theorem State.touch1_e2 (s : State) (o : Src1) : (s.touch1 o).e2 = s.e2 := by
  unfold State.touch1; split <;> simp
@[simp] theorem State.touch1_h (s : State) (o : Src1) : (s.touch1 o).h = s.h := by
  unfold State.touch1; split <;> simp
@[simp] theorem State.touch1_semArc (s : State) (o : Src1) : (s.touch1 o).semArc = s.semArc := by
  unfold State.touch1; split <;> simp
@[simp] theorem State.touch1_semHost (s : State) (o : Src1) : (s.touch1 o).semHost = s.semHost := by
  unfold State.touch1; split <;> simp
@[simp] theorem State.touch1_sh (s : State) (o : Src1) : (s.touch1 o).sh = s.sh := by
  unfold State.touch1; split <;> simp
@[simp] theorem State.touch1_bh (s : State) (o : Src1) : (s.touch1 o).bh = s.bh := by
  unfold State.touch1; split <;> simp
@[simp] theorem State.touch1_zz (s : State) (o : Src1) : (s.touch1 o).zz = s.zz := by
  unfold State.touch1; split <;> simp
@[simp] theorem State.touch1_ss (s : State) (o : Src1) : (s.touch1 o).ss = s.ss := by
  unfold State.touch1; split <;> simp
@[simp] theorem State.touch1_is (s : State) (o : Src1) : (s.touch1 o).is = s.is := by
  unfold State.touch1; split <;> simp
@[simp] theorem State.touch1_mem (s : State) (o : Src1) : (s.touch1 o).mem = s.mem := by
  unfold State.touch1; split <;> simp
@[simp] theorem State.touch1_buffer (s : State) (o : Src1) : (s.touch1 o).buffer = s.buffer := by
  unfold State.touch1; split <;> simp
@[simp] theorem State.touch1_slot (s : State) (o : Src1) : (s.touch1 o).slot = s.slot := by
  unfold State.touch1; split <;> simp
@[simp] theorem State.touch1_lpLag (s : State) (o : Src1) : (s.touch1 o).lpLag = s.lpLag := by
  unfold State.touch1; split <;> simp
@[simp] theorem State.touch1_startHist (s : State) (o : Src1) : (s.touch1 o).startHist = s.startHist := by
  unfold State.touch1; split <;> simp
@[simp] theorem State.touch1_endHist (s : State) (o : Src1) : (s.touch1 o).endHist = s.endHist := by
  unfold State.touch1; split <;> simp
@[simp] theorem State.touch1_countHist (s : State) (o : Src1) : (s.touch1 o).countHist = s.countHist := by
  unfold State.touch1; split <;> simp
@[simp] theorem State.touch1_mulHigh (s : State) (o : Src1) : (s.touch1 o).mulHigh = s.mulHigh := by
  unfold State.touch1; split <;> simp
@[simp] theorem State.touch1_hostPc (s : State) (o : Src1) : (s.touch1 o).hostPc = s.hostPc := by
  unfold State.touch1; split <;> simp
@[simp] theorem State.touch1_stored (s : State) (o : Src1) : (s.touch1 o).stored = s.stored := by
  unfold State.touch1; split <;> simp
@[simp] theorem State.touch1_oldCode (s : State) (o : Src1) : (s.touch1 o).oldCode = s.oldCode := by
  unfold State.touch1; split <;> simp
@[simp] theorem State.touch1_inputs (s : State) (o : Src1) : (s.touch1 o).inputs = s.inputs := by
  unfold State.touch1; split <;> simp
@[simp] theorem State.touch1_hostData (s : State) (o : Src1) : (s.touch1 o).hostData = s.hostData := by
  unfold State.touch1; split <;> simp
@[simp] theorem State.touch1_draws (s : State) (o : Src1) : (s.touch1 o).draws = s.draws := by
  unfold State.touch1; split <;> simp

/-! ### touch2 -/

@[simp] theorem State.touch2_cfg (s : State) (o : Src2) : (s.touch2 o).cfg = s.cfg := by
  unfold State.touch2; split <;> simp
@[simp] theorem State.touch2_regs (s : State) (o : Src2) : (s.touch2 o).regs = s.regs := by
  unfold State.touch2; split <;> simp
@[simp] theorem State.touch2_mr (s : State) (o : Src2) : (s.touch2 o).mr = s.mr := by
  unfold State.touch2; split <;> simp
@[simp] theorem State.touch2_lpCount (s : State) (o : Src2) : (s.touch2 o).lpCount = s.lpCount := by
  unfold State.touch2; split <;> simp
@[simp] theorem State.touch2_lpStart (s : State) (o : Src2) : (s.touch2 o).lpStart = s.lpStart := by
  unfold State.touch2; split <;> simp
@[simp] theorem State.touch2_lpEnd (s : State) (o : Src2) : (s.touch2 o).lpEnd = s.lpEnd := by
  unfold State.touch2; split <;> simp
@[simp] theorem State.touch2_pc (s : State) (o : Src2) : (s.touch2 o).pc = s.pc := by
  unfold State.touch2; split <;> simp
@[simp] theorem State.touch2_z (s : State) (o : Src2) : (s.touch2 o).z = s.z := by
  unfold State.touch2; split <;> simp
@[simp] theorem State.touch2_n (s : State) (o : Src2) : (s.touch2 o).n = s.n := by
  unfold State.touch2; split <;> simp
@[simp] theorem State.touch2_c (s : State) (o : Src2) : (s.touch2 o).c = s.c := by
  unfold State.touch2; split <;> simp
@[simp] theorem State.touch2_v (s : State) (o : Src2) : (s.touch2 o).v = s.v := by
  unfold State.touch2; split <;> simp
@[simp] theorem State.touch2_e1 (s : State) (o : Src2) : (s.touch2 o).e1 = s.e1 := by
  unfold State.touch2; split <;> simp
@[simp] theorem State.touch2_e2 (s : State) (o : Src2) : (s.touch2 o).e2 = s.e2 := by
  unfold State.touch2; split <;> simp
@[simp] theorem State.touch2_h (s : State) (o : Src2) : (s.touch2 o).h = s.h := by
  unfold State.touch2; split <;> simp
@[simp] theorem State.touch2_semArc (s : State) (o : Src2) : (s.touch2 o).semArc = s.semArc := by
  unfold State.touch2; split <;> simp
@[simp] theorem State.touch2_semHost (s : State) (o : Src2) : (s.touch2 o).semHost = s.semHost := by
  unfold State.touch2; split <;> simp
@[simp] theorem State.touch2_sh (s : State) (o : Src2) : (s.touch2 o).sh = s.sh := by
  unfold State.touch2; split <;> simp
@[simp] theorem State.touch2_bh (s : State) (o : Src2) : (s.touch2 o).bh = s.bh := by
  unfold State.touch2; split <;> simp
@[simp] theorem State.touch2_zz (s : State) (o : Src2) : (s.touch2 o).zz = s.zz := by
  unfold State.touch2; split <;> simp
@[simp] theorem State.touch2_ss (s : State) (o : Src2) : (s.touch2 o).ss = s.ss := by
  unfold State.touch2; split <;> simp
@[simp] theorem State.touch2_is (s : State) (o : Src2) : (s.touch2 o).is = s.is := by
  unfold State.touch2; split <;> simp
@[simp] theorem State.touch2_mem (s : State) (o : Src2) : (s.touch2 o).mem = s.mem := by
  unfold State.touch2; split <;> simp
@[simp] theorem State.touch2_buffer (s : State) (o : Src2) : (s.touch2 o).buffer = s.buffer := by
  unfold State.touch2; split <;> simp
@[simp] theorem State.touch2_slot (s : State) (o : Src2) : (s.touch2 o).slot = s.slot := by
  unfold State.touch2; split <;> simp
@[simp] theorem State.touch2_lpLag (s : State) (o : Src2) : (s.touch2 o).lpLag = s.lpLag := by
  unfold State.touch2; split <;> simp
@[simp] theorem State.touch2_startHist (s : State) (o : Src2) : (s.touch2 o).startHist = s.startHist := by
  unfold State.touch2; split <;> simp
@[simp] theorem State.touch2_endHist (s : State) (o : Src2) : (s.touch2 o).endHist = s.endHist := by
  unfold State.touch2; split <;> simp
@[simp] theorem State.touch2_countHist (s : State) (o : Src2) : (s.touch2 o).countHist = s.countHist := by
  unfold State.touch2; split <;> simp
@[simp] theorem State.touch2_mulHigh (s : State) (o : Src2) : (s.touch2 o).mulHigh = s.mulHigh := by
  unfold State.touch2; split <;> simp
@[simp] theorem State.touch2_hostPc (s : State) (o : Src2) : (s.touch2 o).hostPc = s.hostPc := by
  unfold State.touch2; split <;> simp
@[simp] theorem State.touch2_stored (s : State) (o : Src2) : (s.touch2 o).stored = s.stored := by
  unfold State.touch2; split <;> simp
@[simp] theorem State.touch2_oldCode (s : State) (o : Src2) : (s.touch2 o).oldCode = s.oldCode := by
  unfold State.touch2; split <;> simp
@[simp] theorem State.touch2_inputs (s : State) (o : Src2) : (s.touch2 o).inputs = s.inputs := by
  unfold State.touch2; split <;> simp
@[simp] theorem State.touch2_hostData (s : State) (o : Src2) : (s.touch2 o).hostData = s.hostData := by
  unfold State.touch2; split <;> simp
@[simp] theorem State.touch2_draws (s : State) (o : Src2) : (s.touch2 o).draws = s.draws := by
  unfold State.touch2; split <;> simp

/-! ### touchField -/

@[simp] theorem State.touchField_cfg (s : State) (d : RegField) : (s.touchField d).cfg = s.cfg := by
  unfold State.touchField; split <;> simp
@[simp] theorem State.touchField_regs (s : State) (d : RegField) : (s.touchField d).regs = s.regs := by
  unfold State.touchField; split <;> simp
@[simp] theorem State.touchField_mr (s : State) (d : RegField) : (s.touchField d).mr = s.mr := by
  unfold State.touchField; split <;> simp
@[simp] theorem State.touchField_lpCount (s : State) (d : RegField) : (s.touchField d).lpCount = s.lpCount := by
  unfold State.touchField; split <;> simp
@[simp] theorem State.touchField_lpStart (s : State) (d : RegField) : (s.touchField d).lpStart = s.lpStart := by
  unfold State.touchField; split <;> simp
@[simp] theorem State.touchField_lpEnd (s : State) (d : RegField) : (s.touchField d).lpEnd = s.lpEnd := by
  unfold State.touchField; split <;> simp
@[simp] theorem State.touchField_pc (s : State) (d : RegField) : (s.touchField d).pc = s.pc := by
  unfold State.touchField; split <;> simp
@[simp] theorem State.touchField_z (s : State) (d : RegField) : (s.touchField d).z = s.z := by
  unfold State.touchField; split <;> simp
@[simp] theorem State.touchField_n (s : State) (d : RegField) : (s.touchField d).n = s.n := by
  unfold State.touchField; split <;> simp
@[simp] theorem State.touchField_c (s : State) (d : RegField) : (s.touchField d).c = s.c := by
  unfold State.touchField; split <;> simp
@[simp] theorem State.touchField_v (s : State) (d : RegField) : (s.touchField d).v = s.v := by
  unfold State.touchField; split <;> simp
@[simp] theorem State.touchField_e1 (s : State) (d : RegField) : (s.touchField d).e1 = s.e1 := by
  unfold State.touchField; split <;> simp
@[simp] theorem State.touchField_e2 (s : State) (d : RegField) : (s.touchField d).e2 = s.e2 := by
  unfold State.touchField; split <;> simp
@[simp] theorem State.touchField_h (s : State) (d : RegField) : (s.touchField d).h = s.h := by
  unfold State.touchField; split <;> simp
@[simp] theorem State.touchField_semArc (s : State) (d : RegField) : (s.touchField d).semArc = s.semArc := by
  unfold State.touchField; split <;> simp
@[simp] theorem State.touchField_semHost (s : State) (d : RegField) : (s.touchField d).semHost = s.semHost := by
  unfold State.touchField; split <;> simp
@[simp] theorem State.touchField_sh (s : State) (d : RegField) : (s.touchField d).sh = s.sh := by
  unfold State.touchField; split <;> simp
@[simp] theorem State.touchField_bh (s : State) (d : RegField) : (s.touchField d).bh = s.bh := by
  unfold State.touchField; split <;> simp
@[simp] theorem State.touchField_zz (s : State) (d : RegField) : (s.touchField d).zz = s.zz := by
  unfold State.touchField; split <;> simp
@[simp] theorem State.touchField_ss (s : State) (d : RegField) : (s.touchField d).ss = s.ss := by
  unfold State.touchField; split <;> simp
@[simp] theorem State.touchField_is (s : State) (d : RegField) : (s.touchField d).is = s.is := by
  unfold State.touchField; split <;> simp
@[simp] theorem State.touchField_mem (s : State) (d : RegField) : (s.touchField d).mem = s.mem := by
  unfold State.touchField; split <;> simp
@[simp] theorem State.touchField_buffer (s : State) (d : RegField) : (s.touchField d).buffer = s.buffer := by
  unfold State.touchField; split <;> simp
@[simp] theorem State.touchField_slot (s : State) (d : RegField) : (s.touchField d).slot = s.slot := by
  unfold State.touchField; split <;> simp
@[simp] theorem State.touchField_lpLag (s : State) (d : RegField) : (s.touchField d).lpLag = s.lpLag := by
  unfold State.touchField; split <;> simp
@[simp] theorem State.touchField_startHist (s : State) (d : RegField) : (s.touchField d).startHist = s.startHist := by
  unfold State.touchField; split <;> simp
@[simp] theorem State.touchField_endHist (s : State) (d : RegField) : (s.touchField d).endHist = s.endHist := by
  unfold State.touchField; split <;> simp
@[simp] theorem State.touchField_countHist (s : State) (d : RegField) : (s.touchField d).countHist = s.countHist := by
  unfold State.touchField; split <;> simp
@[simp] theorem State.touchField_mulHigh (s : State) (d : RegField) : (s.touchField d).mulHigh = s.mulHigh := by
  unfold State.touchField; split <;> simp
@[simp] theorem State.touchField_hostPc (s : State) (d : RegField) : (s.touchField d).hostPc = s.hostPc := by
  unfold State.touchField; split <;> simp
@[simp] theorem State.touchField_stored (s : State) (d : RegField) : (s.touchField d).stored = s.stored := by
  unfold State.touchField; split <;> simp
@[simp] theorem State.touchField_oldCode (s : State) (d : RegField) : (s.touchField d).oldCode = s.oldCode := by
  unfold State.touchField; split <;> simp
@[simp] theorem State.touchField_inputs (s : State) (d : RegField) : (s.touchField d).inputs = s.inputs := by
  unfold State.touchField; split <;> simp
@[simp] theorem State.touchField_hostData (s : State) (d : RegField) : (s.touchField d).hostData = s.hostData := by
  unfold State.touchField; split <;> simp
@[simp] theorem State.touchField_draws (s : State) (d : RegField) : (s.touchField d).draws = s.draws := by
  unfold State.touchField; split <;> simp

/-! ### setFlags -/

@[simp] theorem State.setFlags_cfg (s : State) (f : Bool) (o : AluOut) : (s.setFlags f o).cfg = s.cfg := by
  unfold State.setFlags; split <;> rfl
@[simp] theorem State.setFlags_regs (s : State) (f : Bool) (o : AluOut) : (s.setFlags f o).regs = s.regs := by
  unfold State.setFlags; split <;> rfl
@[simp] theorem State.setFlags_mr (s : State) (f : Bool) (o : AluOut) : (s.setFlags f o).mr = s.mr := by
  unfold State.setFlags; split <;> rfl
@[simp] theorem State.setFlags_lpCount (s : State) (f : Bool) (o : AluOut) : (s.setFlags f o).lpCount = s.lpCount := by
  unfold State.setFlags; split <;> rfl
@[simp] theorem State.setFlags_lpStart (s : State) (f : Bool) (o : AluOut) : (s.setFlags f o).lpStart = s.lpStart := by
  unfold State.setFlags; split <;> rfl
@[simp] theorem State.setFlags_lpEnd (s : State) (f : Bool) (o : AluOut) : (s.setFlags f o).lpEnd = s.lpEnd := by
  unfold State.setFlags; split <;> rfl
@[simp] theorem State.setFlags_pc (s : State) (f : Bool) (o : AluOut) : (s.setFlags f o).pc = s.pc := by
  unfold State.setFlags; split <;> rfl
@[simp] theorem State.setFlags_e1 (s : State) (f : Bool) (o : AluOut) : (s.setFlags f o).e1 = s.e1 := by
  unfold State.setFlags; split <;> rfl
@[simp] theorem State.setFlags_e2 (s : State) (f : Bool) (o : AluOut) : (s.setFlags f o).e2 = s.e2 := by
  unfold State.setFlags; split <;> rfl
@[simp] theorem State.setFlags_h (s : State) (f : Bool) (o : AluOut) : (s.setFlags f o).h = s.h := by
  unfold State.setFlags; split <;> rfl
@[simp] theorem State.setFlags_semArc (s : State) (f : Bool) (o : AluOut) : (s.setFlags f o).semArc = s.semArc := by
  unfold State.setFlags; split <;> rfl
@[simp] theorem State.setFlags_semHost (s : State) (f : Bool) (o : AluOut) : (s.setFlags f o).semHost = s.semHost := by
  unfold State.setFlags; split <;> rfl
@[simp] theorem State.setFlags_loads (s : State) (f : Bool) (o : AluOut) : (s.setFlags f o).loads = s.loads := by
  unfold State.setFlags; split <;> rfl
@[simp] theorem State.setFlags_sh (s : State) (f : Bool) (o : AluOut) : (s.setFlags f o).sh = s.sh := by
  unfold State.setFlags; split <;> rfl
@[simp] theorem State.setFlags_bh (s : State) (f : Bool) (o : AluOut) : (s.setFlags f o).bh = s.bh := by
  unfold State.setFlags; split <;> rfl
@[simp] theorem State.setFlags_zz (s : State) (f : Bool) (o : AluOut) : (s.setFlags f o).zz = s.zz := by
  unfold State.setFlags; split <;> rfl
@[simp] theorem State.setFlags_ss (s : State) (f : Bool) (o : AluOut) : (s.setFlags f o).ss = s.ss := by
  unfold State.setFlags; split <;> rfl
@[simp] theorem State.setFlags_is (s : State) (f : Bool) (o : AluOut) : (s.setFlags f o).is = s.is := by
  unfold State.setFlags; split <;> rfl
@[simp] theorem State.setFlags_mem (s : State) (f : Bool) (o : AluOut) : (s.setFlags f o).mem = s.mem := by
  unfold State.setFlags; split <;> rfl
@[simp] theorem State.setFlags_buffer (s : State) (f : Bool) (o : AluOut) : (s.setFlags f o).buffer = s.buffer := by
  unfold State.setFlags; split <;> rfl
@[simp] theorem State.setFlags_slot (s : State) (f : Bool) (o : AluOut) : (s.setFlags f o).slot = s.slot := by
  unfold State.setFlags; split <;> rfl
@[simp] theorem State.setFlags_lpLag (s : State) (f : Bool) (o : AluOut) : (s.setFlags f o).lpLag = s.lpLag := by
  unfold State.setFlags; split <;> rfl
@[simp] theorem State.setFlags_startHist (s : State) (f : Bool) (o : AluOut) : (s.setFlags f o).startHist = s.startHist := by
  unfold State.setFlags; split <;> rfl
@[simp] theorem State.setFlags_endHist (s : State) (f : Bool) (o : AluOut) : (s.setFlags f o).endHist = s.endHist := by
  unfold State.setFlags; split <;> rfl
@[simp] theorem State.setFlags_countHist (s : State) (f : Bool) (o : AluOut) : (s.setFlags f o).countHist = s.countHist := by
  unfold State.setFlags; split <;> rfl
@[simp] theorem State.setFlags_mulBusy (s : State) (f : Bool) (o : AluOut) : (s.setFlags f o).mulBusy = s.mulBusy := by
  unfold State.setFlags; split <;> rfl
@[simp] theorem State.setFlags_mulHigh (s : State) (f : Bool) (o : AluOut) : (s.setFlags f o).mulHigh = s.mulHigh := by
  unfold State.setFlags; split <;> rfl
@[simp] theorem State.setFlags_hostPc (s : State) (f : Bool) (o : AluOut) : (s.setFlags f o).hostPc = s.hostPc := by
  unfold State.setFlags; split <;> rfl
@[simp] theorem State.setFlags_stored (s : State) (f : Bool) (o : AluOut) : (s.setFlags f o).stored = s.stored := by
  unfold State.setFlags; split <;> rfl
@[simp] theorem State.setFlags_oldCode (s : State) (f : Bool) (o : AluOut) : (s.setFlags f o).oldCode = s.oldCode := by
  unfold State.setFlags; split <;> rfl
@[simp] theorem State.setFlags_inputs (s : State) (f : Bool) (o : AluOut) : (s.setFlags f o).inputs = s.inputs := by
  unfold State.setFlags; split <;> rfl
@[simp] theorem State.setFlags_hostData (s : State) (f : Bool) (o : AluOut) : (s.setFlags f o).hostData = s.hostData := by
  unfold State.setFlags; split <;> rfl
@[simp] theorem State.setFlags_draws (s : State) (f : Bool) (o : AluOut) : (s.setFlags f o).draws = s.draws := by
  unfold State.setFlags; split <;> rfl

/-! ### loadStatus -/

@[simp] theorem State.loadStatus_cfg (s : State) (w : Word) : (s.loadStatus w).cfg = s.cfg := rfl
@[simp] theorem State.loadStatus_regs (s : State) (w : Word) : (s.loadStatus w).regs = s.regs := rfl
@[simp] theorem State.loadStatus_mr (s : State) (w : Word) : (s.loadStatus w).mr = s.mr := rfl
@[simp] theorem State.loadStatus_lpCount (s : State) (w : Word) : (s.loadStatus w).lpCount = s.lpCount := rfl
@[simp] theorem State.loadStatus_lpStart (s : State) (w : Word) : (s.loadStatus w).lpStart = s.lpStart := rfl
@[simp] theorem State.loadStatus_lpEnd (s : State) (w : Word) : (s.loadStatus w).lpEnd = s.lpEnd := rfl
@[simp] theorem State.loadStatus_pc (s : State) (w : Word) : (s.loadStatus w).pc = s.pc := rfl
@[simp] theorem State.loadStatus_z (s : State) (w : Word) : (s.loadStatus w).z = w.getLsbD 31 := rfl
@[simp] theorem State.loadStatus_n (s : State) (w : Word) : (s.loadStatus w).n = w.getLsbD 30 := rfl
@[simp] theorem State.loadStatus_c (s : State) (w : Word) : (s.loadStatus w).c = w.getLsbD 29 := rfl
@[simp] theorem State.loadStatus_v (s : State) (w : Word) : (s.loadStatus w).v = w.getLsbD 28 := rfl
@[simp] theorem State.loadStatus_e1 (s : State) (w : Word) : (s.loadStatus w).e1 = w.getLsbD 26 := rfl
@[simp] theorem State.loadStatus_e2 (s : State) (w : Word) : (s.loadStatus w).e2 = w.getLsbD 27 := rfl
@[simp] theorem State.loadStatus_h (s : State) (w : Word) : (s.loadStatus w).h = s.h := rfl
@[simp] theorem State.loadStatus_semArc (s : State) (w : Word) : (s.loadStatus w).semArc = s.semArc := rfl
@[simp] theorem State.loadStatus_semHost (s : State) (w : Word) : (s.loadStatus w).semHost = s.semHost := rfl
@[simp] theorem State.loadStatus_loads (s : State) (w : Word) : (s.loadStatus w).loads = s.loads := rfl
@[simp] theorem State.loadStatus_sh (s : State) (w : Word) : (s.loadStatus w).sh = s.sh := rfl
@[simp] theorem State.loadStatus_bh (s : State) (w : Word) : (s.loadStatus w).bh = s.bh := rfl
@[simp] theorem State.loadStatus_zz (s : State) (w : Word) : (s.loadStatus w).zz = s.zz := rfl
@[simp] theorem State.loadStatus_ss (s : State) (w : Word) : (s.loadStatus w).ss = s.ss := rfl
@[simp] theorem State.loadStatus_is (s : State) (w : Word) : (s.loadStatus w).is = s.is := rfl
@[simp] theorem State.loadStatus_mem (s : State) (w : Word) : (s.loadStatus w).mem = s.mem := rfl
@[simp] theorem State.loadStatus_buffer (s : State) (w : Word) : (s.loadStatus w).buffer = s.buffer := rfl
@[simp] theorem State.loadStatus_slot (s : State) (w : Word) : (s.loadStatus w).slot = s.slot := rfl
@[simp] theorem State.loadStatus_lpLag (s : State) (w : Word) : (s.loadStatus w).lpLag = s.lpLag := rfl
@[simp] theorem State.loadStatus_startHist (s : State) (w : Word) : (s.loadStatus w).startHist = s.startHist := rfl
@[simp] theorem State.loadStatus_endHist (s : State) (w : Word) : (s.loadStatus w).endHist = s.endHist := rfl
@[simp] theorem State.loadStatus_countHist (s : State) (w : Word) : (s.loadStatus w).countHist = s.countHist := rfl
@[simp] theorem State.loadStatus_mulBusy (s : State) (w : Word) : (s.loadStatus w).mulBusy = s.mulBusy := rfl
@[simp] theorem State.loadStatus_mulHigh (s : State) (w : Word) : (s.loadStatus w).mulHigh = s.mulHigh := rfl
@[simp] theorem State.loadStatus_hostPc (s : State) (w : Word) : (s.loadStatus w).hostPc = s.hostPc := rfl
@[simp] theorem State.loadStatus_stored (s : State) (w : Word) : (s.loadStatus w).stored = s.stored := rfl
@[simp] theorem State.loadStatus_oldCode (s : State) (w : Word) : (s.loadStatus w).oldCode = s.oldCode := rfl
@[simp] theorem State.loadStatus_inputs (s : State) (w : Word) : (s.loadStatus w).inputs = s.inputs := rfl
@[simp] theorem State.loadStatus_hostData (s : State) (w : Word) : (s.loadStatus w).hostData = s.hostData := rfl
@[simp] theorem State.loadStatus_draws (s : State) (w : Word) : (s.loadStatus w).draws = s.draws := rfl

/-! ### flagBits -/

@[simp] theorem State.flagBits_cfg (s : State) (w : Word) : (s.flagBits w).cfg = s.cfg := rfl
@[simp] theorem State.flagBits_regs (s : State) (w : Word) : (s.flagBits w).regs = s.regs := rfl
@[simp] theorem State.flagBits_mr (s : State) (w : Word) : (s.flagBits w).mr = s.mr := rfl
@[simp] theorem State.flagBits_lpCount (s : State) (w : Word) : (s.flagBits w).lpCount = s.lpCount := rfl
@[simp] theorem State.flagBits_lpStart (s : State) (w : Word) : (s.flagBits w).lpStart = s.lpStart := rfl
@[simp] theorem State.flagBits_lpEnd (s : State) (w : Word) : (s.flagBits w).lpEnd = s.lpEnd := rfl
@[simp] theorem State.flagBits_pc (s : State) (w : Word) : (s.flagBits w).pc = s.pc := rfl
@[simp] theorem State.flagBits_z (s : State) (w : Word) : (s.flagBits w).z = w.getLsbD 6 := rfl
@[simp] theorem State.flagBits_n (s : State) (w : Word) : (s.flagBits w).n = w.getLsbD 5 := rfl
@[simp] theorem State.flagBits_c (s : State) (w : Word) : (s.flagBits w).c = w.getLsbD 4 := rfl
@[simp] theorem State.flagBits_v (s : State) (w : Word) : (s.flagBits w).v = w.getLsbD 3 := rfl
@[simp] theorem State.flagBits_e1 (s : State) (w : Word) : (s.flagBits w).e1 = w.getLsbD 1 := rfl
@[simp] theorem State.flagBits_e2 (s : State) (w : Word) : (s.flagBits w).e2 = w.getLsbD 2 := rfl
@[simp] theorem State.flagBits_h (s : State) (w : Word) : (s.flagBits w).h = s.h := rfl
@[simp] theorem State.flagBits_semArc (s : State) (w : Word) : (s.flagBits w).semArc = s.semArc := rfl
@[simp] theorem State.flagBits_semHost (s : State) (w : Word) : (s.flagBits w).semHost = s.semHost := rfl
@[simp] theorem State.flagBits_loads (s : State) (w : Word) : (s.flagBits w).loads = s.loads := rfl
@[simp] theorem State.flagBits_sh (s : State) (w : Word) : (s.flagBits w).sh = s.sh := rfl
@[simp] theorem State.flagBits_bh (s : State) (w : Word) : (s.flagBits w).bh = s.bh := rfl
@[simp] theorem State.flagBits_zz (s : State) (w : Word) : (s.flagBits w).zz = s.zz := rfl
@[simp] theorem State.flagBits_ss (s : State) (w : Word) : (s.flagBits w).ss = s.ss := rfl
@[simp] theorem State.flagBits_is (s : State) (w : Word) : (s.flagBits w).is = s.is := rfl
@[simp] theorem State.flagBits_mem (s : State) (w : Word) : (s.flagBits w).mem = s.mem := rfl
@[simp] theorem State.flagBits_buffer (s : State) (w : Word) : (s.flagBits w).buffer = s.buffer := rfl
@[simp] theorem State.flagBits_slot (s : State) (w : Word) : (s.flagBits w).slot = s.slot := rfl
@[simp] theorem State.flagBits_lpLag (s : State) (w : Word) : (s.flagBits w).lpLag = s.lpLag := rfl
@[simp] theorem State.flagBits_startHist (s : State) (w : Word) : (s.flagBits w).startHist = s.startHist := rfl
@[simp] theorem State.flagBits_endHist (s : State) (w : Word) : (s.flagBits w).endHist = s.endHist := rfl
@[simp] theorem State.flagBits_countHist (s : State) (w : Word) : (s.flagBits w).countHist = s.countHist := rfl
@[simp] theorem State.flagBits_mulBusy (s : State) (w : Word) : (s.flagBits w).mulBusy = s.mulBusy := rfl
@[simp] theorem State.flagBits_mulHigh (s : State) (w : Word) : (s.flagBits w).mulHigh = s.mulHigh := rfl
@[simp] theorem State.flagBits_hostPc (s : State) (w : Word) : (s.flagBits w).hostPc = s.hostPc := rfl
@[simp] theorem State.flagBits_stored (s : State) (w : Word) : (s.flagBits w).stored = s.stored := rfl
@[simp] theorem State.flagBits_oldCode (s : State) (w : Word) : (s.flagBits w).oldCode = s.oldCode := rfl
@[simp] theorem State.flagBits_inputs (s : State) (w : Word) : (s.flagBits w).inputs = s.inputs := rfl
@[simp] theorem State.flagBits_hostData (s : State) (w : Word) : (s.flagBits w).hostData = s.hostData := rfl
@[simp] theorem State.flagBits_draws (s : State) (w : Word) : (s.flagBits w).draws = s.draws := rfl

/-! ### flagsFrom -/

@[simp] theorem State.flagsFrom_cfg (s : State) (f : Bool) (w : Word) : (s.flagsFrom f w).cfg = s.cfg := by
  unfold State.flagsFrom; split <;> rfl
@[simp] theorem State.flagsFrom_regs (s : State) (f : Bool) (w : Word) : (s.flagsFrom f w).regs = s.regs := by
  unfold State.flagsFrom; split <;> rfl
@[simp] theorem State.flagsFrom_mr (s : State) (f : Bool) (w : Word) : (s.flagsFrom f w).mr = s.mr := by
  unfold State.flagsFrom; split <;> rfl
@[simp] theorem State.flagsFrom_lpCount (s : State) (f : Bool) (w : Word) : (s.flagsFrom f w).lpCount = s.lpCount := by
  unfold State.flagsFrom; split <;> rfl
@[simp] theorem State.flagsFrom_lpStart (s : State) (f : Bool) (w : Word) : (s.flagsFrom f w).lpStart = s.lpStart := by
  unfold State.flagsFrom; split <;> rfl
@[simp] theorem State.flagsFrom_lpEnd (s : State) (f : Bool) (w : Word) : (s.flagsFrom f w).lpEnd = s.lpEnd := by
  unfold State.flagsFrom; split <;> rfl
@[simp] theorem State.flagsFrom_pc (s : State) (f : Bool) (w : Word) : (s.flagsFrom f w).pc = s.pc := by
  unfold State.flagsFrom; split <;> rfl
@[simp] theorem State.flagsFrom_h (s : State) (f : Bool) (w : Word) : (s.flagsFrom f w).h = s.h := by
  unfold State.flagsFrom; split <;> rfl
@[simp] theorem State.flagsFrom_semArc (s : State) (f : Bool) (w : Word) : (s.flagsFrom f w).semArc = s.semArc := by
  unfold State.flagsFrom; split <;> rfl
@[simp] theorem State.flagsFrom_semHost (s : State) (f : Bool) (w : Word) : (s.flagsFrom f w).semHost = s.semHost := by
  unfold State.flagsFrom; split <;> rfl
@[simp] theorem State.flagsFrom_loads (s : State) (f : Bool) (w : Word) : (s.flagsFrom f w).loads = s.loads := by
  unfold State.flagsFrom; split <;> rfl
@[simp] theorem State.flagsFrom_sh (s : State) (f : Bool) (w : Word) : (s.flagsFrom f w).sh = s.sh := by
  unfold State.flagsFrom; split <;> rfl
@[simp] theorem State.flagsFrom_bh (s : State) (f : Bool) (w : Word) : (s.flagsFrom f w).bh = s.bh := by
  unfold State.flagsFrom; split <;> rfl
@[simp] theorem State.flagsFrom_zz (s : State) (f : Bool) (w : Word) : (s.flagsFrom f w).zz = s.zz := by
  unfold State.flagsFrom; split <;> rfl
@[simp] theorem State.flagsFrom_ss (s : State) (f : Bool) (w : Word) : (s.flagsFrom f w).ss = s.ss := by
  unfold State.flagsFrom; split <;> rfl
@[simp] theorem State.flagsFrom_is (s : State) (f : Bool) (w : Word) : (s.flagsFrom f w).is = s.is := by
  unfold State.flagsFrom; split <;> rfl
@[simp] theorem State.flagsFrom_mem (s : State) (f : Bool) (w : Word) : (s.flagsFrom f w).mem = s.mem := by
  unfold State.flagsFrom; split <;> rfl
@[simp] theorem State.flagsFrom_buffer (s : State) (f : Bool) (w : Word) : (s.flagsFrom f w).buffer = s.buffer := by
  unfold State.flagsFrom; split <;> rfl
@[simp] theorem State.flagsFrom_slot (s : State) (f : Bool) (w : Word) : (s.flagsFrom f w).slot = s.slot := by
  unfold State.flagsFrom; split <;> rfl
@[simp] theorem State.flagsFrom_lpLag (s : State) (f : Bool) (w : Word) : (s.flagsFrom f w).lpLag = s.lpLag := by
  unfold State.flagsFrom; split <;> rfl
@[simp] theorem State.flagsFrom_startHist (s : State) (f : Bool) (w : Word) : (s.flagsFrom f w).startHist = s.startHist := by
  unfold State.flagsFrom; split <;> rfl
@[simp] theorem State.flagsFrom_endHist (s : State) (f : Bool) (w : Word) : (s.flagsFrom f w).endHist = s.endHist := by
  unfold State.flagsFrom; split <;> rfl
@[simp] theorem State.flagsFrom_countHist (s : State) (f : Bool) (w : Word) : (s.flagsFrom f w).countHist = s.countHist := by
  unfold State.flagsFrom; split <;> rfl
@[simp] theorem State.flagsFrom_mulBusy (s : State) (f : Bool) (w : Word) : (s.flagsFrom f w).mulBusy = s.mulBusy := by
  unfold State.flagsFrom; split <;> rfl
@[simp] theorem State.flagsFrom_mulHigh (s : State) (f : Bool) (w : Word) : (s.flagsFrom f w).mulHigh = s.mulHigh := by
  unfold State.flagsFrom; split <;> rfl
@[simp] theorem State.flagsFrom_hostPc (s : State) (f : Bool) (w : Word) : (s.flagsFrom f w).hostPc = s.hostPc := by
  unfold State.flagsFrom; split <;> rfl
@[simp] theorem State.flagsFrom_stored (s : State) (f : Bool) (w : Word) : (s.flagsFrom f w).stored = s.stored := by
  unfold State.flagsFrom; split <;> rfl
@[simp] theorem State.flagsFrom_oldCode (s : State) (f : Bool) (w : Word) : (s.flagsFrom f w).oldCode = s.oldCode := by
  unfold State.flagsFrom; split <;> rfl
@[simp] theorem State.flagsFrom_inputs (s : State) (f : Bool) (w : Word) : (s.flagsFrom f w).inputs = s.inputs := by
  unfold State.flagsFrom; split <;> rfl
@[simp] theorem State.flagsFrom_hostData (s : State) (f : Bool) (w : Word) : (s.flagsFrom f w).hostData = s.hostData := by
  unfold State.flagsFrom; split <;> rfl
@[simp] theorem State.flagsFrom_draws (s : State) (f : Bool) (w : Word) : (s.flagsFrom f w).draws = s.draws := by
  unfold State.flagsFrom; split <;> rfl

/-! ### halt -/

@[simp] theorem State.halt_cfg (s : State) (p : Option PAddr) : (s.halt p).cfg = s.cfg := rfl
@[simp] theorem State.halt_regs (s : State) (p : Option PAddr) : (s.halt p).regs = s.regs := rfl
@[simp] theorem State.halt_mr (s : State) (p : Option PAddr) : (s.halt p).mr = s.mr := rfl
@[simp] theorem State.halt_lpCount (s : State) (p : Option PAddr) : (s.halt p).lpCount = s.lpCount := rfl
@[simp] theorem State.halt_lpStart (s : State) (p : Option PAddr) : (s.halt p).lpStart = s.lpStart := rfl
@[simp] theorem State.halt_lpEnd (s : State) (p : Option PAddr) : (s.halt p).lpEnd = s.lpEnd := rfl
@[simp] theorem State.halt_pc (s : State) (p : Option PAddr) : (s.halt p).pc = s.pc := rfl
@[simp] theorem State.halt_z (s : State) (p : Option PAddr) : (s.halt p).z = s.z := rfl
@[simp] theorem State.halt_n (s : State) (p : Option PAddr) : (s.halt p).n = s.n := rfl
@[simp] theorem State.halt_c (s : State) (p : Option PAddr) : (s.halt p).c = s.c := rfl
@[simp] theorem State.halt_v (s : State) (p : Option PAddr) : (s.halt p).v = s.v := rfl
@[simp] theorem State.halt_e1 (s : State) (p : Option PAddr) : (s.halt p).e1 = s.e1 := rfl
@[simp] theorem State.halt_e2 (s : State) (p : Option PAddr) : (s.halt p).e2 = s.e2 := rfl
@[simp] theorem State.halt_h (s : State) (p : Option PAddr) : (s.halt p).h = true := rfl
@[simp] theorem State.halt_semArc (s : State) (p : Option PAddr) : (s.halt p).semArc = s.semArc := rfl
@[simp] theorem State.halt_semHost (s : State) (p : Option PAddr) : (s.halt p).semHost = s.semHost := rfl
@[simp] theorem State.halt_loads (s : State) (p : Option PAddr) : (s.halt p).loads = s.loads := rfl
@[simp] theorem State.halt_sh (s : State) (p : Option PAddr) : (s.halt p).sh = s.sh := rfl
@[simp] theorem State.halt_bh (s : State) (p : Option PAddr) : (s.halt p).bh = s.bh := rfl
@[simp] theorem State.halt_zz (s : State) (p : Option PAddr) : (s.halt p).zz = s.zz := rfl
@[simp] theorem State.halt_ss (s : State) (p : Option PAddr) : (s.halt p).ss = s.ss := rfl
@[simp] theorem State.halt_is (s : State) (p : Option PAddr) : (s.halt p).is = s.is := rfl
@[simp] theorem State.halt_mem (s : State) (p : Option PAddr) : (s.halt p).mem = s.mem := rfl
@[simp] theorem State.halt_buffer (s : State) (p : Option PAddr) : (s.halt p).buffer = s.buffer := rfl
@[simp] theorem State.halt_slot (s : State) (p : Option PAddr) : (s.halt p).slot = s.slot := rfl
@[simp] theorem State.halt_lpLag (s : State) (p : Option PAddr) : (s.halt p).lpLag = s.lpLag := rfl
@[simp] theorem State.halt_startHist (s : State) (p : Option PAddr) : (s.halt p).startHist = s.startHist := rfl
@[simp] theorem State.halt_endHist (s : State) (p : Option PAddr) : (s.halt p).endHist = s.endHist := rfl
@[simp] theorem State.halt_countHist (s : State) (p : Option PAddr) : (s.halt p).countHist = s.countHist := rfl
@[simp] theorem State.halt_mulBusy (s : State) (p : Option PAddr) : (s.halt p).mulBusy = s.mulBusy := rfl
@[simp] theorem State.halt_mulHigh (s : State) (p : Option PAddr) : (s.halt p).mulHigh = s.mulHigh := rfl
@[simp] theorem State.halt_hostPc (s : State) (p : Option PAddr) : (s.halt p).hostPc = p := rfl
@[simp] theorem State.halt_stored (s : State) (p : Option PAddr) : (s.halt p).stored = [] := rfl
@[simp] theorem State.halt_oldCode (s : State) (p : Option PAddr) : (s.halt p).oldCode = s.oldCode := rfl
@[simp] theorem State.halt_inputs (s : State) (p : Option PAddr) : (s.halt p).inputs = s.inputs := rfl
@[simp] theorem State.halt_hostData (s : State) (p : Option PAddr) : (s.halt p).hostData = s.hostData := rfl
@[simp] theorem State.halt_draws (s : State) (p : Option PAddr) : (s.halt p).draws = s.draws := rfl

/-! ### toVector -/

@[simp] theorem State.toVector_cfg (s : State) (k : Nat) (lv : Level) : (s.toVector k lv).cfg = s.cfg := rfl
@[simp] theorem State.toVector_regs (s : State) (k : Nat) (lv : Level) : (s.toVector k lv).regs = s.regs := rfl
@[simp] theorem State.toVector_mr (s : State) (k : Nat) (lv : Level) : (s.toVector k lv).mr = s.mr := rfl
@[simp] theorem State.toVector_lpCount (s : State) (k : Nat) (lv : Level) : (s.toVector k lv).lpCount = s.lpCount := rfl
@[simp] theorem State.toVector_lpStart (s : State) (k : Nat) (lv : Level) : (s.toVector k lv).lpStart = s.lpStart := rfl
@[simp] theorem State.toVector_lpEnd (s : State) (k : Nat) (lv : Level) : (s.toVector k lv).lpEnd = s.lpEnd := rfl
@[simp] theorem State.toVector_pc (s : State) (k : Nat) (lv : Level) : (s.toVector k lv).pc = vectorAddr s.cfg k := rfl
@[simp] theorem State.toVector_z (s : State) (k : Nat) (lv : Level) : (s.toVector k lv).z = s.z := rfl
@[simp] theorem State.toVector_n (s : State) (k : Nat) (lv : Level) : (s.toVector k lv).n = s.n := rfl
@[simp] theorem State.toVector_c (s : State) (k : Nat) (lv : Level) : (s.toVector k lv).c = s.c := rfl
@[simp] theorem State.toVector_v (s : State) (k : Nat) (lv : Level) : (s.toVector k lv).v = s.v := rfl
@[simp] theorem State.toVector_e1 (s : State) (k : Nat) (lv : Level) : (s.toVector k lv).e1 = false := rfl
@[simp] theorem State.toVector_h (s : State) (k : Nat) (lv : Level) : (s.toVector k lv).h = s.h := rfl
@[simp] theorem State.toVector_semArc (s : State) (k : Nat) (lv : Level) : (s.toVector k lv).semArc = s.semArc := rfl
@[simp] theorem State.toVector_semHost (s : State) (k : Nat) (lv : Level) : (s.toVector k lv).semHost = s.semHost := rfl
@[simp] theorem State.toVector_loads (s : State) (k : Nat) (lv : Level) : (s.toVector k lv).loads = s.loads := rfl
@[simp] theorem State.toVector_sh (s : State) (k : Nat) (lv : Level) : (s.toVector k lv).sh = s.sh := rfl
@[simp] theorem State.toVector_bh (s : State) (k : Nat) (lv : Level) : (s.toVector k lv).bh = s.bh := rfl
@[simp] theorem State.toVector_zz (s : State) (k : Nat) (lv : Level) : (s.toVector k lv).zz = false := rfl
@[simp] theorem State.toVector_ss (s : State) (k : Nat) (lv : Level) : (s.toVector k lv).ss = s.ss := rfl
@[simp] theorem State.toVector_is (s : State) (k : Nat) (lv : Level) : (s.toVector k lv).is = s.is := rfl
@[simp] theorem State.toVector_mem (s : State) (k : Nat) (lv : Level) : (s.toVector k lv).mem = s.mem := rfl
@[simp] theorem State.toVector_buffer (s : State) (k : Nat) (lv : Level) : (s.toVector k lv).buffer = s.buffer := rfl
@[simp] theorem State.toVector_slot (s : State) (k : Nat) (lv : Level) : (s.toVector k lv).slot = .none := rfl
@[simp] theorem State.toVector_lpLag (s : State) (k : Nat) (lv : Level) : (s.toVector k lv).lpLag = none := rfl
@[simp] theorem State.toVector_startHist (s : State) (k : Nat) (lv : Level) : (s.toVector k lv).startHist = s.startHist := rfl
@[simp] theorem State.toVector_endHist (s : State) (k : Nat) (lv : Level) : (s.toVector k lv).endHist = s.endHist := rfl
@[simp] theorem State.toVector_countHist (s : State) (k : Nat) (lv : Level) : (s.toVector k lv).countHist = s.countHist := rfl
@[simp] theorem State.toVector_mulBusy (s : State) (k : Nat) (lv : Level) : (s.toVector k lv).mulBusy = s.mulBusy := rfl
@[simp] theorem State.toVector_mulHigh (s : State) (k : Nat) (lv : Level) : (s.toVector k lv).mulHigh = s.mulHigh := rfl
@[simp] theorem State.toVector_hostPc (s : State) (k : Nat) (lv : Level) : (s.toVector k lv).hostPc = s.hostPc := rfl
@[simp] theorem State.toVector_stored (s : State) (k : Nat) (lv : Level) : (s.toVector k lv).stored = s.stored := rfl
@[simp] theorem State.toVector_oldCode (s : State) (k : Nat) (lv : Level) : (s.toVector k lv).oldCode = s.oldCode := rfl
@[simp] theorem State.toVector_inputs (s : State) (k : Nat) (lv : Level) : (s.toVector k lv).inputs = s.inputs := rfl
@[simp] theorem State.toVector_hostData (s : State) (k : Nat) (lv : Level) : (s.toVector k lv).hostData = s.hostData := rfl
@[simp] theorem State.toVector_draws (s : State) (k : Nat) (lv : Level) : (s.toVector k lv).draws = s.draws := rfl

/-! ### enter -/

@[simp] theorem State.enter_cfg (s : State) (k : Nat) (lv : Level) (p : PAddr) : (s.enter k lv p).cfg = s.cfg := by
  simp [State.enter]
@[simp] theorem State.enter_mr (s : State) (k : Nat) (lv : Level) (p : PAddr) : (s.enter k lv p).mr = s.mr := by
  simp [State.enter]
@[simp] theorem State.enter_lpStart (s : State) (k : Nat) (lv : Level) (p : PAddr) : (s.enter k lv p).lpStart = s.lpStart := by
  simp [State.enter]
@[simp] theorem State.enter_lpEnd (s : State) (k : Nat) (lv : Level) (p : PAddr) : (s.enter k lv p).lpEnd = s.lpEnd := by
  simp [State.enter]
@[simp] theorem State.enter_pc (s : State) (k : Nat) (lv : Level) (p : PAddr) : (s.enter k lv p).pc = vectorAddr s.cfg k := by
  simp [State.enter]
@[simp] theorem State.enter_z (s : State) (k : Nat) (lv : Level) (p : PAddr) : (s.enter k lv p).z = s.z := by
  simp [State.enter]
@[simp] theorem State.enter_n (s : State) (k : Nat) (lv : Level) (p : PAddr) : (s.enter k lv p).n = s.n := by
  simp [State.enter]
@[simp] theorem State.enter_c (s : State) (k : Nat) (lv : Level) (p : PAddr) : (s.enter k lv p).c = s.c := by
  simp [State.enter]
@[simp] theorem State.enter_v (s : State) (k : Nat) (lv : Level) (p : PAddr) : (s.enter k lv p).v = s.v := by
  simp [State.enter]
@[simp] theorem State.enter_e1 (s : State) (k : Nat) (lv : Level) (p : PAddr) : (s.enter k lv p).e1 = false := by
  simp [State.enter]
@[simp] theorem State.enter_h (s : State) (k : Nat) (lv : Level) (p : PAddr) : (s.enter k lv p).h = s.h := by
  simp [State.enter]
@[simp] theorem State.enter_semArc (s : State) (k : Nat) (lv : Level) (p : PAddr) : (s.enter k lv p).semArc = s.semArc := by
  simp [State.enter]
@[simp] theorem State.enter_semHost (s : State) (k : Nat) (lv : Level) (p : PAddr) : (s.enter k lv p).semHost = s.semHost := by
  simp [State.enter]
@[simp] theorem State.enter_loads (s : State) (k : Nat) (lv : Level) (p : PAddr) : (s.enter k lv p).loads = s.loads.filter fun d => d != .reg (linkReg lv) := by
  simp [State.enter]
@[simp] theorem State.enter_sh (s : State) (k : Nat) (lv : Level) (p : PAddr) : (s.enter k lv p).sh = s.sh := by
  simp [State.enter]
@[simp] theorem State.enter_bh (s : State) (k : Nat) (lv : Level) (p : PAddr) : (s.enter k lv p).bh = s.bh := by
  simp [State.enter]
@[simp] theorem State.enter_zz (s : State) (k : Nat) (lv : Level) (p : PAddr) : (s.enter k lv p).zz = false := by
  simp [State.enter]
@[simp] theorem State.enter_ss (s : State) (k : Nat) (lv : Level) (p : PAddr) : (s.enter k lv p).ss = s.ss := by
  simp [State.enter]
@[simp] theorem State.enter_is (s : State) (k : Nat) (lv : Level) (p : PAddr) : (s.enter k lv p).is = s.is := by
  simp [State.enter]
@[simp] theorem State.enter_mem (s : State) (k : Nat) (lv : Level) (p : PAddr) : (s.enter k lv p).mem = s.mem := by
  simp [State.enter]
@[simp] theorem State.enter_buffer (s : State) (k : Nat) (lv : Level) (p : PAddr) : (s.enter k lv p).buffer = s.buffer := by
  simp [State.enter]
@[simp] theorem State.enter_slot (s : State) (k : Nat) (lv : Level) (p : PAddr) : (s.enter k lv p).slot = .none := by
  simp [State.enter]
@[simp] theorem State.enter_lpLag (s : State) (k : Nat) (lv : Level) (p : PAddr) : (s.enter k lv p).lpLag = none := by
  simp [State.enter]
@[simp] theorem State.enter_startHist (s : State) (k : Nat) (lv : Level) (p : PAddr) : (s.enter k lv p).startHist = s.startHist := by
  simp [State.enter]
@[simp] theorem State.enter_endHist (s : State) (k : Nat) (lv : Level) (p : PAddr) : (s.enter k lv p).endHist = s.endHist := by
  simp [State.enter]
@[simp] theorem State.enter_mulBusy (s : State) (k : Nat) (lv : Level) (p : PAddr) : (s.enter k lv p).mulBusy = s.mulBusy := by
  simp [State.enter]
@[simp] theorem State.enter_mulHigh (s : State) (k : Nat) (lv : Level) (p : PAddr) : (s.enter k lv p).mulHigh = s.mulHigh := by
  simp [State.enter]
@[simp] theorem State.enter_hostPc (s : State) (k : Nat) (lv : Level) (p : PAddr) : (s.enter k lv p).hostPc = s.hostPc := by
  simp [State.enter]
@[simp] theorem State.enter_stored (s : State) (k : Nat) (lv : Level) (p : PAddr) : (s.enter k lv p).stored = s.stored := by
  simp [State.enter]
@[simp] theorem State.enter_oldCode (s : State) (k : Nat) (lv : Level) (p : PAddr) : (s.enter k lv p).oldCode = s.oldCode := by
  simp [State.enter]
@[simp] theorem State.enter_inputs (s : State) (k : Nat) (lv : Level) (p : PAddr) : (s.enter k lv p).inputs = s.inputs := by
  simp [State.enter]
@[simp] theorem State.enter_hostData (s : State) (k : Nat) (lv : Level) (p : PAddr) : (s.enter k lv p).hostData = s.hostData := by
  simp [State.enter]
@[simp] theorem State.enter_draws (s : State) (k : Nat) (lv : Level) (p : PAddr) : (s.enter k lv p).draws = s.draws := by
  simp [State.enter]

/-! ### noteLoad -/

@[simp] theorem State.noteLoad_cfg (s : State) (d : RegField) : (s.noteLoad d).cfg = s.cfg := rfl
@[simp] theorem State.noteLoad_regs (s : State) (d : RegField) : (s.noteLoad d).regs = s.regs := rfl
@[simp] theorem State.noteLoad_mr (s : State) (d : RegField) : (s.noteLoad d).mr = s.mr := rfl
@[simp] theorem State.noteLoad_lpCount (s : State) (d : RegField) : (s.noteLoad d).lpCount = s.lpCount := rfl
@[simp] theorem State.noteLoad_lpStart (s : State) (d : RegField) : (s.noteLoad d).lpStart = s.lpStart := rfl
@[simp] theorem State.noteLoad_lpEnd (s : State) (d : RegField) : (s.noteLoad d).lpEnd = s.lpEnd := rfl
@[simp] theorem State.noteLoad_pc (s : State) (d : RegField) : (s.noteLoad d).pc = s.pc := rfl
@[simp] theorem State.noteLoad_z (s : State) (d : RegField) : (s.noteLoad d).z = s.z := rfl
@[simp] theorem State.noteLoad_n (s : State) (d : RegField) : (s.noteLoad d).n = s.n := rfl
@[simp] theorem State.noteLoad_c (s : State) (d : RegField) : (s.noteLoad d).c = s.c := rfl
@[simp] theorem State.noteLoad_v (s : State) (d : RegField) : (s.noteLoad d).v = s.v := rfl
@[simp] theorem State.noteLoad_e1 (s : State) (d : RegField) : (s.noteLoad d).e1 = s.e1 := rfl
@[simp] theorem State.noteLoad_e2 (s : State) (d : RegField) : (s.noteLoad d).e2 = s.e2 := rfl
@[simp] theorem State.noteLoad_h (s : State) (d : RegField) : (s.noteLoad d).h = s.h := rfl
@[simp] theorem State.noteLoad_semArc (s : State) (d : RegField) : (s.noteLoad d).semArc = s.semArc := rfl
@[simp] theorem State.noteLoad_semHost (s : State) (d : RegField) : (s.noteLoad d).semHost = s.semHost := rfl
@[simp] theorem State.noteLoad_loads (s : State) (d : RegField) : (s.noteLoad d).loads = d :: s.loads := rfl
@[simp] theorem State.noteLoad_sh (s : State) (d : RegField) : (s.noteLoad d).sh = s.sh := rfl
@[simp] theorem State.noteLoad_bh (s : State) (d : RegField) : (s.noteLoad d).bh = s.bh := rfl
@[simp] theorem State.noteLoad_zz (s : State) (d : RegField) : (s.noteLoad d).zz = s.zz := rfl
@[simp] theorem State.noteLoad_ss (s : State) (d : RegField) : (s.noteLoad d).ss = s.ss := rfl
@[simp] theorem State.noteLoad_is (s : State) (d : RegField) : (s.noteLoad d).is = s.is := rfl
@[simp] theorem State.noteLoad_mem (s : State) (d : RegField) : (s.noteLoad d).mem = s.mem := rfl
@[simp] theorem State.noteLoad_buffer (s : State) (d : RegField) : (s.noteLoad d).buffer = s.buffer := rfl
@[simp] theorem State.noteLoad_slot (s : State) (d : RegField) : (s.noteLoad d).slot = s.slot := rfl
@[simp] theorem State.noteLoad_lpLag (s : State) (d : RegField) : (s.noteLoad d).lpLag = s.lpLag := rfl
@[simp] theorem State.noteLoad_startHist (s : State) (d : RegField) : (s.noteLoad d).startHist = s.startHist := rfl
@[simp] theorem State.noteLoad_endHist (s : State) (d : RegField) : (s.noteLoad d).endHist = s.endHist := rfl
@[simp] theorem State.noteLoad_countHist (s : State) (d : RegField) : (s.noteLoad d).countHist = s.countHist := rfl
@[simp] theorem State.noteLoad_mulBusy (s : State) (d : RegField) : (s.noteLoad d).mulBusy = s.mulBusy := rfl
@[simp] theorem State.noteLoad_mulHigh (s : State) (d : RegField) : (s.noteLoad d).mulHigh = s.mulHigh := rfl
@[simp] theorem State.noteLoad_hostPc (s : State) (d : RegField) : (s.noteLoad d).hostPc = s.hostPc := rfl
@[simp] theorem State.noteLoad_stored (s : State) (d : RegField) : (s.noteLoad d).stored = s.stored := rfl
@[simp] theorem State.noteLoad_oldCode (s : State) (d : RegField) : (s.noteLoad d).oldCode = s.oldCode := rfl
@[simp] theorem State.noteLoad_inputs (s : State) (d : RegField) : (s.noteLoad d).inputs = s.inputs := rfl
@[simp] theorem State.noteLoad_hostData (s : State) (d : RegField) : (s.noteLoad d).hostData = s.hostData := rfl
@[simp] theorem State.noteLoad_draws (s : State) (d : RegField) : (s.noteLoad d).draws = s.draws := rfl

/-! ### store -/

@[simp] theorem State.store_cfg (s : State) (a : Word) (sz : Size) (x : Word) : (s.store a sz x).cfg = s.cfg := rfl
@[simp] theorem State.store_regs (s : State) (a : Word) (sz : Size) (x : Word) : (s.store a sz x).regs = s.regs := rfl
@[simp] theorem State.store_mr (s : State) (a : Word) (sz : Size) (x : Word) : (s.store a sz x).mr = s.mr := rfl
@[simp] theorem State.store_lpCount (s : State) (a : Word) (sz : Size) (x : Word) : (s.store a sz x).lpCount = s.lpCount := rfl
@[simp] theorem State.store_lpStart (s : State) (a : Word) (sz : Size) (x : Word) : (s.store a sz x).lpStart = s.lpStart := rfl
@[simp] theorem State.store_lpEnd (s : State) (a : Word) (sz : Size) (x : Word) : (s.store a sz x).lpEnd = s.lpEnd := rfl
@[simp] theorem State.store_pc (s : State) (a : Word) (sz : Size) (x : Word) : (s.store a sz x).pc = s.pc := rfl
@[simp] theorem State.store_z (s : State) (a : Word) (sz : Size) (x : Word) : (s.store a sz x).z = s.z := rfl
@[simp] theorem State.store_n (s : State) (a : Word) (sz : Size) (x : Word) : (s.store a sz x).n = s.n := rfl
@[simp] theorem State.store_c (s : State) (a : Word) (sz : Size) (x : Word) : (s.store a sz x).c = s.c := rfl
@[simp] theorem State.store_v (s : State) (a : Word) (sz : Size) (x : Word) : (s.store a sz x).v = s.v := rfl
@[simp] theorem State.store_e1 (s : State) (a : Word) (sz : Size) (x : Word) : (s.store a sz x).e1 = s.e1 := rfl
@[simp] theorem State.store_e2 (s : State) (a : Word) (sz : Size) (x : Word) : (s.store a sz x).e2 = s.e2 := rfl
@[simp] theorem State.store_h (s : State) (a : Word) (sz : Size) (x : Word) : (s.store a sz x).h = s.h := rfl
@[simp] theorem State.store_semArc (s : State) (a : Word) (sz : Size) (x : Word) : (s.store a sz x).semArc = s.semArc := rfl
@[simp] theorem State.store_semHost (s : State) (a : Word) (sz : Size) (x : Word) : (s.store a sz x).semHost = s.semHost := rfl
@[simp] theorem State.store_loads (s : State) (a : Word) (sz : Size) (x : Word) : (s.store a sz x).loads = s.loads := rfl
@[simp] theorem State.store_sh (s : State) (a : Word) (sz : Size) (x : Word) : (s.store a sz x).sh = s.sh := rfl
@[simp] theorem State.store_bh (s : State) (a : Word) (sz : Size) (x : Word) : (s.store a sz x).bh = s.bh := rfl
@[simp] theorem State.store_zz (s : State) (a : Word) (sz : Size) (x : Word) : (s.store a sz x).zz = s.zz := rfl
@[simp] theorem State.store_ss (s : State) (a : Word) (sz : Size) (x : Word) : (s.store a sz x).ss = s.ss := rfl
@[simp] theorem State.store_is (s : State) (a : Word) (sz : Size) (x : Word) : (s.store a sz x).is = s.is := rfl
@[simp] theorem State.store_mem (s : State) (a : Word) (sz : Size) (x : Word) : (s.store a sz x).mem = memWrite s.cfg.endian s.mem a sz x := rfl
@[simp] theorem State.store_buffer (s : State) (a : Word) (sz : Size) (x : Word) : (s.store a sz x).buffer = ⟨a, sz, memRead s.cfg.endian s.mem a sz, s.draws⟩ :: (s.perform a sz).buffer := rfl
@[simp] theorem State.store_slot (s : State) (a : Word) (sz : Size) (x : Word) : (s.store a sz x).slot = s.slot := rfl
@[simp] theorem State.store_lpLag (s : State) (a : Word) (sz : Size) (x : Word) : (s.store a sz x).lpLag = s.lpLag := rfl
@[simp] theorem State.store_startHist (s : State) (a : Word) (sz : Size) (x : Word) : (s.store a sz x).startHist = s.startHist := rfl
@[simp] theorem State.store_endHist (s : State) (a : Word) (sz : Size) (x : Word) : (s.store a sz x).endHist = s.endHist := rfl
@[simp] theorem State.store_countHist (s : State) (a : Word) (sz : Size) (x : Word) : (s.store a sz x).countHist = s.countHist := rfl
@[simp] theorem State.store_mulBusy (s : State) (a : Word) (sz : Size) (x : Word) : (s.store a sz x).mulBusy = s.mulBusy := rfl
@[simp] theorem State.store_mulHigh (s : State) (a : Word) (sz : Size) (x : Word) : (s.store a sz x).mulHigh = s.mulHigh := rfl
@[simp] theorem State.store_hostPc (s : State) (a : Word) (sz : Size) (x : Word) : (s.store a sz x).hostPc = s.hostPc := rfl
@[simp] theorem State.store_stored (s : State) (a : Word) (sz : Size) (x : Word) : (s.store a sz x).stored = noteStored a (Size.bytes sz) s.stored := rfl
@[simp] theorem State.store_oldCode (s : State) (a : Word) (sz : Size) (x : Word) : (s.store a sz x).oldCode = s.oldCode.map (OldCode.redo s.cfg.endian fun m => memWrite s.cfg.endian m a sz x) := rfl
@[simp] theorem State.store_inputs (s : State) (a : Word) (sz : Size) (x : Word) : (s.store a sz x).inputs = s.inputs := rfl
@[simp] theorem State.store_hostData (s : State) (a : Word) (sz : Size) (x : Word) : (s.store a sz x).hostData = s.hostData := rfl
@[simp] theorem State.store_draws (s : State) (a : Word) (sz : Size) (x : Word) : (s.store a sz x).draws = s.draws := rfl

/-! ### setProduct -/

@[simp] theorem State.setProduct_cfg (s : State) (p : BitVec 64) : (s.setProduct p).cfg = s.cfg := rfl
@[simp] theorem State.setProduct_regs (s : State) (p : BitVec 64) : (s.setProduct p).regs = s.regs := rfl
@[simp] theorem State.setProduct_mr (s : State) (p : BitVec 64) : (s.setProduct p).mr = p := rfl
@[simp] theorem State.setProduct_lpCount (s : State) (p : BitVec 64) : (s.setProduct p).lpCount = s.lpCount := rfl
@[simp] theorem State.setProduct_lpStart (s : State) (p : BitVec 64) : (s.setProduct p).lpStart = s.lpStart := rfl
@[simp] theorem State.setProduct_lpEnd (s : State) (p : BitVec 64) : (s.setProduct p).lpEnd = s.lpEnd := rfl
@[simp] theorem State.setProduct_pc (s : State) (p : BitVec 64) : (s.setProduct p).pc = s.pc := rfl
@[simp] theorem State.setProduct_z (s : State) (p : BitVec 64) : (s.setProduct p).z = s.z := rfl
@[simp] theorem State.setProduct_n (s : State) (p : BitVec 64) : (s.setProduct p).n = s.n := rfl
@[simp] theorem State.setProduct_c (s : State) (p : BitVec 64) : (s.setProduct p).c = s.c := rfl
@[simp] theorem State.setProduct_v (s : State) (p : BitVec 64) : (s.setProduct p).v = s.v := rfl
@[simp] theorem State.setProduct_e1 (s : State) (p : BitVec 64) : (s.setProduct p).e1 = s.e1 := rfl
@[simp] theorem State.setProduct_e2 (s : State) (p : BitVec 64) : (s.setProduct p).e2 = s.e2 := rfl
@[simp] theorem State.setProduct_h (s : State) (p : BitVec 64) : (s.setProduct p).h = s.h := rfl
@[simp] theorem State.setProduct_semArc (s : State) (p : BitVec 64) : (s.setProduct p).semArc = s.semArc := rfl
@[simp] theorem State.setProduct_semHost (s : State) (p : BitVec 64) : (s.setProduct p).semHost = s.semHost := rfl
@[simp] theorem State.setProduct_loads (s : State) (p : BitVec 64) : (s.setProduct p).loads = s.loads := rfl
@[simp] theorem State.setProduct_sh (s : State) (p : BitVec 64) : (s.setProduct p).sh = s.sh := rfl
@[simp] theorem State.setProduct_bh (s : State) (p : BitVec 64) : (s.setProduct p).bh = s.bh := rfl
@[simp] theorem State.setProduct_zz (s : State) (p : BitVec 64) : (s.setProduct p).zz = s.zz := rfl
@[simp] theorem State.setProduct_ss (s : State) (p : BitVec 64) : (s.setProduct p).ss = s.ss := rfl
@[simp] theorem State.setProduct_is (s : State) (p : BitVec 64) : (s.setProduct p).is = s.is := rfl
@[simp] theorem State.setProduct_mem (s : State) (p : BitVec 64) : (s.setProduct p).mem = s.mem := rfl
@[simp] theorem State.setProduct_buffer (s : State) (p : BitVec 64) : (s.setProduct p).buffer = s.buffer := rfl
@[simp] theorem State.setProduct_slot (s : State) (p : BitVec 64) : (s.setProduct p).slot = s.slot := rfl
@[simp] theorem State.setProduct_lpLag (s : State) (p : BitVec 64) : (s.setProduct p).lpLag = s.lpLag := rfl
@[simp] theorem State.setProduct_startHist (s : State) (p : BitVec 64) : (s.setProduct p).startHist = s.startHist := rfl
@[simp] theorem State.setProduct_endHist (s : State) (p : BitVec 64) : (s.setProduct p).endHist = s.endHist := rfl
@[simp] theorem State.setProduct_countHist (s : State) (p : BitVec 64) : (s.setProduct p).countHist = s.countHist := rfl
@[simp] theorem State.setProduct_mulBusy (s : State) (p : BitVec 64) : (s.setProduct p).mulBusy = mulCycles s.cfg := rfl
@[simp] theorem State.setProduct_mulHigh (s : State) (p : BitVec 64) : (s.setProduct p).mulHigh = p.extractLsb' 32 32 := rfl
@[simp] theorem State.setProduct_hostPc (s : State) (p : BitVec 64) : (s.setProduct p).hostPc = s.hostPc := rfl
@[simp] theorem State.setProduct_stored (s : State) (p : BitVec 64) : (s.setProduct p).stored = s.stored := rfl
@[simp] theorem State.setProduct_oldCode (s : State) (p : BitVec 64) : (s.setProduct p).oldCode = s.oldCode := rfl
@[simp] theorem State.setProduct_inputs (s : State) (p : BitVec 64) : (s.setProduct p).inputs = s.inputs := rfl
@[simp] theorem State.setProduct_hostData (s : State) (p : BitVec 64) : (s.setProduct p).hostData = s.hostData := rfl
@[simp] theorem State.setProduct_draws (s : State) (p : BitVec 64) : (s.setProduct p).draws = s.draws := rfl

/-! ### auxSeen -/

@[simp] theorem State.auxSeen_cfg (s : State) (a : Word) : (s.auxSeen a).cfg = s.cfg := by
  unfold State.auxSeen; split <;> rfl
@[simp] theorem State.auxSeen_regs (s : State) (a : Word) : (s.auxSeen a).regs = s.regs := by
  unfold State.auxSeen; split <;> rfl
@[simp] theorem State.auxSeen_mr (s : State) (a : Word) : (s.auxSeen a).mr = s.mr := by
  unfold State.auxSeen; split <;> rfl
@[simp] theorem State.auxSeen_lpCount (s : State) (a : Word) : (s.auxSeen a).lpCount = s.lpCount := by
  unfold State.auxSeen; split <;> rfl
@[simp] theorem State.auxSeen_lpStart (s : State) (a : Word) : (s.auxSeen a).lpStart = s.lpStart := by
  unfold State.auxSeen; split <;> rfl
@[simp] theorem State.auxSeen_lpEnd (s : State) (a : Word) : (s.auxSeen a).lpEnd = s.lpEnd := by
  unfold State.auxSeen; split <;> rfl
@[simp] theorem State.auxSeen_pc (s : State) (a : Word) : (s.auxSeen a).pc = s.pc := by
  unfold State.auxSeen; split <;> rfl
@[simp] theorem State.auxSeen_z (s : State) (a : Word) : (s.auxSeen a).z = s.z := by
  unfold State.auxSeen; split <;> rfl
@[simp] theorem State.auxSeen_n (s : State) (a : Word) : (s.auxSeen a).n = s.n := by
  unfold State.auxSeen; split <;> rfl
@[simp] theorem State.auxSeen_c (s : State) (a : Word) : (s.auxSeen a).c = s.c := by
  unfold State.auxSeen; split <;> rfl
@[simp] theorem State.auxSeen_v (s : State) (a : Word) : (s.auxSeen a).v = s.v := by
  unfold State.auxSeen; split <;> rfl
@[simp] theorem State.auxSeen_e1 (s : State) (a : Word) : (s.auxSeen a).e1 = s.e1 := by
  unfold State.auxSeen; split <;> rfl
@[simp] theorem State.auxSeen_e2 (s : State) (a : Word) : (s.auxSeen a).e2 = s.e2 := by
  unfold State.auxSeen; split <;> rfl
@[simp] theorem State.auxSeen_h (s : State) (a : Word) : (s.auxSeen a).h = s.h := by
  unfold State.auxSeen; split <;> rfl
@[simp] theorem State.auxSeen_semArc (s : State) (a : Word) : (s.auxSeen a).semArc = s.semArc := by
  unfold State.auxSeen; split <;> rfl
@[simp] theorem State.auxSeen_semHost (s : State) (a : Word) : (s.auxSeen a).semHost = s.semHost := by
  unfold State.auxSeen; split <;> rfl
@[simp] theorem State.auxSeen_sh (s : State) (a : Word) : (s.auxSeen a).sh = s.sh := by
  unfold State.auxSeen; split <;> rfl
@[simp] theorem State.auxSeen_bh (s : State) (a : Word) : (s.auxSeen a).bh = s.bh := by
  unfold State.auxSeen; split <;> rfl
@[simp] theorem State.auxSeen_zz (s : State) (a : Word) : (s.auxSeen a).zz = s.zz := by
  unfold State.auxSeen; split <;> rfl
@[simp] theorem State.auxSeen_ss (s : State) (a : Word) : (s.auxSeen a).ss = s.ss := by
  unfold State.auxSeen; split <;> rfl
@[simp] theorem State.auxSeen_is (s : State) (a : Word) : (s.auxSeen a).is = s.is := by
  unfold State.auxSeen; split <;> rfl
@[simp] theorem State.auxSeen_mem (s : State) (a : Word) : (s.auxSeen a).mem = s.mem := by
  unfold State.auxSeen; split <;> rfl
@[simp] theorem State.auxSeen_buffer (s : State) (a : Word) : (s.auxSeen a).buffer = s.buffer := by
  unfold State.auxSeen; split <;> rfl
@[simp] theorem State.auxSeen_slot (s : State) (a : Word) : (s.auxSeen a).slot = s.slot := by
  unfold State.auxSeen; split <;> rfl
@[simp] theorem State.auxSeen_lpLag (s : State) (a : Word) : (s.auxSeen a).lpLag = s.lpLag := by
  unfold State.auxSeen; split <;> rfl
@[simp] theorem State.auxSeen_startHist (s : State) (a : Word) : (s.auxSeen a).startHist = s.startHist := by
  unfold State.auxSeen; split <;> rfl
@[simp] theorem State.auxSeen_endHist (s : State) (a : Word) : (s.auxSeen a).endHist = s.endHist := by
  unfold State.auxSeen; split <;> rfl
@[simp] theorem State.auxSeen_countHist (s : State) (a : Word) : (s.auxSeen a).countHist = s.countHist := by
  unfold State.auxSeen; split <;> rfl
@[simp] theorem State.auxSeen_mulBusy (s : State) (a : Word) : (s.auxSeen a).mulBusy = s.mulBusy := by
  unfold State.auxSeen; split <;> rfl
@[simp] theorem State.auxSeen_mulHigh (s : State) (a : Word) : (s.auxSeen a).mulHigh = s.mulHigh := by
  unfold State.auxSeen; split <;> rfl
@[simp] theorem State.auxSeen_hostPc (s : State) (a : Word) : (s.auxSeen a).hostPc = s.hostPc := by
  unfold State.auxSeen; split <;> rfl
@[simp] theorem State.auxSeen_stored (s : State) (a : Word) : (s.auxSeen a).stored = s.stored := by
  unfold State.auxSeen; split <;> rfl
@[simp] theorem State.auxSeen_oldCode (s : State) (a : Word) : (s.auxSeen a).oldCode = s.oldCode := by
  unfold State.auxSeen; split <;> rfl
@[simp] theorem State.auxSeen_inputs (s : State) (a : Word) : (s.auxSeen a).inputs = s.inputs := by
  unfold State.auxSeen; split <;> rfl
@[simp] theorem State.auxSeen_hostData (s : State) (a : Word) : (s.auxSeen a).hostData = s.hostData := by
  unfold State.auxSeen; split <;> rfl
@[simp] theorem State.auxSeen_draws (s : State) (a : Word) : (s.auxSeen a).draws = s.draws := by
  unfold State.auxSeen; split <;> rfl

/-! ### writeMulHi -/

@[simp] theorem State.writeMulHi_cfg (s : State) (x : Word) : (s.writeMulHi x).cfg = s.cfg := rfl
@[simp] theorem State.writeMulHi_regs (s : State) (x : Word) : (s.writeMulHi x).regs = s.regs := rfl
@[simp] theorem State.writeMulHi_mr (s : State) (x : Word) : (s.writeMulHi x).mr = s.mulHiAfter x ++ s.mr.extractLsb' 0 32 := rfl
@[simp] theorem State.writeMulHi_lpCount (s : State) (x : Word) : (s.writeMulHi x).lpCount = s.lpCount := rfl
@[simp] theorem State.writeMulHi_lpStart (s : State) (x : Word) : (s.writeMulHi x).lpStart = s.lpStart := rfl
@[simp] theorem State.writeMulHi_lpEnd (s : State) (x : Word) : (s.writeMulHi x).lpEnd = s.lpEnd := rfl
@[simp] theorem State.writeMulHi_pc (s : State) (x : Word) : (s.writeMulHi x).pc = s.pc := rfl
@[simp] theorem State.writeMulHi_z (s : State) (x : Word) : (s.writeMulHi x).z = s.z := rfl
@[simp] theorem State.writeMulHi_n (s : State) (x : Word) : (s.writeMulHi x).n = s.n := rfl
@[simp] theorem State.writeMulHi_c (s : State) (x : Word) : (s.writeMulHi x).c = s.c := rfl
@[simp] theorem State.writeMulHi_v (s : State) (x : Word) : (s.writeMulHi x).v = s.v := rfl
@[simp] theorem State.writeMulHi_e1 (s : State) (x : Word) : (s.writeMulHi x).e1 = s.e1 := rfl
@[simp] theorem State.writeMulHi_e2 (s : State) (x : Word) : (s.writeMulHi x).e2 = s.e2 := rfl
@[simp] theorem State.writeMulHi_h (s : State) (x : Word) : (s.writeMulHi x).h = s.h := rfl
@[simp] theorem State.writeMulHi_semArc (s : State) (x : Word) : (s.writeMulHi x).semArc = s.semArc := rfl
@[simp] theorem State.writeMulHi_semHost (s : State) (x : Word) : (s.writeMulHi x).semHost = s.semHost := rfl
@[simp] theorem State.writeMulHi_loads (s : State) (x : Word) : (s.writeMulHi x).loads = s.loads := rfl
@[simp] theorem State.writeMulHi_sh (s : State) (x : Word) : (s.writeMulHi x).sh = s.sh := rfl
@[simp] theorem State.writeMulHi_bh (s : State) (x : Word) : (s.writeMulHi x).bh = s.bh := rfl
@[simp] theorem State.writeMulHi_zz (s : State) (x : Word) : (s.writeMulHi x).zz = s.zz := rfl
@[simp] theorem State.writeMulHi_ss (s : State) (x : Word) : (s.writeMulHi x).ss = s.ss := rfl
@[simp] theorem State.writeMulHi_is (s : State) (x : Word) : (s.writeMulHi x).is = s.is := rfl
@[simp] theorem State.writeMulHi_mem (s : State) (x : Word) : (s.writeMulHi x).mem = s.mem := rfl
@[simp] theorem State.writeMulHi_buffer (s : State) (x : Word) : (s.writeMulHi x).buffer = s.buffer := rfl
@[simp] theorem State.writeMulHi_slot (s : State) (x : Word) : (s.writeMulHi x).slot = s.slot := rfl
@[simp] theorem State.writeMulHi_lpLag (s : State) (x : Word) : (s.writeMulHi x).lpLag = s.lpLag := rfl
@[simp] theorem State.writeMulHi_startHist (s : State) (x : Word) : (s.writeMulHi x).startHist = s.startHist := rfl
@[simp] theorem State.writeMulHi_endHist (s : State) (x : Word) : (s.writeMulHi x).endHist = s.endHist := rfl
@[simp] theorem State.writeMulHi_countHist (s : State) (x : Word) : (s.writeMulHi x).countHist = s.countHist := rfl
@[simp] theorem State.writeMulHi_mulBusy (s : State) (x : Word) : (s.writeMulHi x).mulBusy = s.mulBusy := rfl
@[simp] theorem State.writeMulHi_mulHigh (s : State) (x : Word) : (s.writeMulHi x).mulHigh = s.mulHigh := rfl
@[simp] theorem State.writeMulHi_hostPc (s : State) (x : Word) : (s.writeMulHi x).hostPc = s.hostPc := rfl
@[simp] theorem State.writeMulHi_stored (s : State) (x : Word) : (s.writeMulHi x).stored = s.stored := rfl
@[simp] theorem State.writeMulHi_oldCode (s : State) (x : Word) : (s.writeMulHi x).oldCode = s.oldCode := rfl
@[simp] theorem State.writeMulHi_inputs (s : State) (x : Word) : (s.writeMulHi x).inputs = s.inputs := rfl
@[simp] theorem State.writeMulHi_hostData (s : State) (x : Word) : (s.writeMulHi x).hostData = s.hostData := rfl
@[simp] theorem State.writeMulHi_draws (s : State) (x : Word) : (s.writeMulHi x).draws = s.draws := rfl

/-! ### spoilDst -/

@[simp] theorem State.spoilDst_cfg (s : State) (d : RegField) : (s.spoilDst d).cfg = s.cfg := by
  unfold State.spoilDst; split <;> simp
@[simp] theorem State.spoilDst_mr (s : State) (d : RegField) : (s.spoilDst d).mr = s.mr := by
  unfold State.spoilDst; split <;> simp
@[simp] theorem State.spoilDst_lpStart (s : State) (d : RegField) : (s.spoilDst d).lpStart = s.lpStart := by
  unfold State.spoilDst; split <;> simp
@[simp] theorem State.spoilDst_lpEnd (s : State) (d : RegField) : (s.spoilDst d).lpEnd = s.lpEnd := by
  unfold State.spoilDst; split <;> simp
@[simp] theorem State.spoilDst_pc (s : State) (d : RegField) : (s.spoilDst d).pc = s.pc := by
  unfold State.spoilDst; split <;> simp
@[simp] theorem State.spoilDst_z (s : State) (d : RegField) : (s.spoilDst d).z = s.z := by
  unfold State.spoilDst; split <;> simp
@[simp] theorem State.spoilDst_n (s : State) (d : RegField) : (s.spoilDst d).n = s.n := by
  unfold State.spoilDst; split <;> simp
@[simp] theorem State.spoilDst_c (s : State) (d : RegField) : (s.spoilDst d).c = s.c := by
  unfold State.spoilDst; split <;> simp
@[simp] theorem State.spoilDst_v (s : State) (d : RegField) : (s.spoilDst d).v = s.v := by
  unfold State.spoilDst; split <;> simp
@[simp] theorem State.spoilDst_e1 (s : State) (d : RegField) : (s.spoilDst d).e1 = s.e1 := by
  unfold State.spoilDst; split <;> simp
@[simp] theorem State.spoilDst_e2 (s : State) (d : RegField) : (s.spoilDst d).e2 = s.e2 := by
  unfold State.spoilDst; split <;> simp
@[simp] theorem State.spoilDst_h (s : State) (d : RegField) : (s.spoilDst d).h = s.h := by
  unfold State.spoilDst; split <;> simp
@[simp] theorem State.spoilDst_semArc (s : State) (d : RegField) : (s.spoilDst d).semArc = s.semArc := by
  unfold State.spoilDst; split <;> simp
@[simp] theorem State.spoilDst_semHost (s : State) (d : RegField) : (s.spoilDst d).semHost = s.semHost := by
  unfold State.spoilDst; split <;> simp
@[simp] theorem State.spoilDst_sh (s : State) (d : RegField) : (s.spoilDst d).sh = s.sh := by
  unfold State.spoilDst; split <;> simp
@[simp] theorem State.spoilDst_bh (s : State) (d : RegField) : (s.spoilDst d).bh = s.bh := by
  unfold State.spoilDst; split <;> simp
@[simp] theorem State.spoilDst_zz (s : State) (d : RegField) : (s.spoilDst d).zz = s.zz := by
  unfold State.spoilDst; split <;> simp
@[simp] theorem State.spoilDst_ss (s : State) (d : RegField) : (s.spoilDst d).ss = s.ss := by
  unfold State.spoilDst; split <;> simp
@[simp] theorem State.spoilDst_is (s : State) (d : RegField) : (s.spoilDst d).is = s.is := by
  unfold State.spoilDst; split <;> simp
@[simp] theorem State.spoilDst_mem (s : State) (d : RegField) : (s.spoilDst d).mem = s.mem := by
  unfold State.spoilDst; split <;> simp
@[simp] theorem State.spoilDst_buffer (s : State) (d : RegField) : (s.spoilDst d).buffer = s.buffer := by
  unfold State.spoilDst; split <;> simp
@[simp] theorem State.spoilDst_slot (s : State) (d : RegField) : (s.spoilDst d).slot = s.slot := by
  unfold State.spoilDst; split <;> simp
@[simp] theorem State.spoilDst_lpLag (s : State) (d : RegField) : (s.spoilDst d).lpLag = s.lpLag := by
  unfold State.spoilDst; split <;> simp
@[simp] theorem State.spoilDst_startHist (s : State) (d : RegField) : (s.spoilDst d).startHist = s.startHist := by
  unfold State.spoilDst; split <;> simp
@[simp] theorem State.spoilDst_endHist (s : State) (d : RegField) : (s.spoilDst d).endHist = s.endHist := by
  unfold State.spoilDst; split <;> simp
@[simp] theorem State.spoilDst_mulBusy (s : State) (d : RegField) : (s.spoilDst d).mulBusy = s.mulBusy := by
  unfold State.spoilDst; split <;> simp
@[simp] theorem State.spoilDst_mulHigh (s : State) (d : RegField) : (s.spoilDst d).mulHigh = s.mulHigh := by
  unfold State.spoilDst; split <;> simp
@[simp] theorem State.spoilDst_hostPc (s : State) (d : RegField) : (s.spoilDst d).hostPc = s.hostPc := by
  unfold State.spoilDst; split <;> simp
@[simp] theorem State.spoilDst_stored (s : State) (d : RegField) : (s.spoilDst d).stored = s.stored := by
  unfold State.spoilDst; split <;> simp
@[simp] theorem State.spoilDst_oldCode (s : State) (d : RegField) : (s.spoilDst d).oldCode = s.oldCode := by
  unfold State.spoilDst; split <;> simp
@[simp] theorem State.spoilDst_inputs (s : State) (d : RegField) : (s.spoilDst d).inputs = s.inputs := by
  unfold State.spoilDst; split <;> simp
@[simp] theorem State.spoilDst_hostData (s : State) (d : RegField) : (s.spoilDst d).hostData = s.hostData := by
  unfold State.spoilDst; split <;> simp
@[simp] theorem State.spoilDst_draws (s : State) (d : RegField) : (s.spoilDst d).draws = s.draws := by
  unfold State.spoilDst; split <;> simp

/-! ### spoilBase -/

@[simp] theorem State.spoilBase_cfg (s : State) (b : Option CoreReg) (a : Word) : (s.spoilBase b a).cfg = s.cfg := by
  unfold State.spoilBase; split
  · split <;> simp
  · rfl
@[simp] theorem State.spoilBase_mr (s : State) (b : Option CoreReg) (a : Word) : (s.spoilBase b a).mr = s.mr := by
  unfold State.spoilBase; split
  · split <;> simp
  · rfl
@[simp] theorem State.spoilBase_lpStart (s : State) (b : Option CoreReg) (a : Word) : (s.spoilBase b a).lpStart = s.lpStart := by
  unfold State.spoilBase; split
  · split <;> simp
  · rfl
@[simp] theorem State.spoilBase_lpEnd (s : State) (b : Option CoreReg) (a : Word) : (s.spoilBase b a).lpEnd = s.lpEnd := by
  unfold State.spoilBase; split
  · split <;> simp
  · rfl
@[simp] theorem State.spoilBase_pc (s : State) (b : Option CoreReg) (a : Word) : (s.spoilBase b a).pc = s.pc := by
  unfold State.spoilBase; split
  · split <;> simp
  · rfl
@[simp] theorem State.spoilBase_z (s : State) (b : Option CoreReg) (a : Word) : (s.spoilBase b a).z = s.z := by
  unfold State.spoilBase; split
  · split <;> simp
  · rfl
@[simp] theorem State.spoilBase_n (s : State) (b : Option CoreReg) (a : Word) : (s.spoilBase b a).n = s.n := by
  unfold State.spoilBase; split
  · split <;> simp
  · rfl
@[simp] theorem State.spoilBase_c (s : State) (b : Option CoreReg) (a : Word) : (s.spoilBase b a).c = s.c := by
  unfold State.spoilBase; split
  · split <;> simp
  · rfl
@[simp] theorem State.spoilBase_v (s : State) (b : Option CoreReg) (a : Word) : (s.spoilBase b a).v = s.v := by
  unfold State.spoilBase; split
  · split <;> simp
  · rfl
@[simp] theorem State.spoilBase_e1 (s : State) (b : Option CoreReg) (a : Word) : (s.spoilBase b a).e1 = s.e1 := by
  unfold State.spoilBase; split
  · split <;> simp
  · rfl
@[simp] theorem State.spoilBase_e2 (s : State) (b : Option CoreReg) (a : Word) : (s.spoilBase b a).e2 = s.e2 := by
  unfold State.spoilBase; split
  · split <;> simp
  · rfl
@[simp] theorem State.spoilBase_h (s : State) (b : Option CoreReg) (a : Word) : (s.spoilBase b a).h = s.h := by
  unfold State.spoilBase; split
  · split <;> simp
  · rfl
@[simp] theorem State.spoilBase_semArc (s : State) (b : Option CoreReg) (a : Word) : (s.spoilBase b a).semArc = s.semArc := by
  unfold State.spoilBase; split
  · split <;> simp
  · rfl
@[simp] theorem State.spoilBase_semHost (s : State) (b : Option CoreReg) (a : Word) : (s.spoilBase b a).semHost = s.semHost := by
  unfold State.spoilBase; split
  · split <;> simp
  · rfl
@[simp] theorem State.spoilBase_sh (s : State) (b : Option CoreReg) (a : Word) : (s.spoilBase b a).sh = s.sh := by
  unfold State.spoilBase; split
  · split <;> simp
  · rfl
@[simp] theorem State.spoilBase_bh (s : State) (b : Option CoreReg) (a : Word) : (s.spoilBase b a).bh = s.bh := by
  unfold State.spoilBase; split
  · split <;> simp
  · rfl
@[simp] theorem State.spoilBase_zz (s : State) (b : Option CoreReg) (a : Word) : (s.spoilBase b a).zz = s.zz := by
  unfold State.spoilBase; split
  · split <;> simp
  · rfl
@[simp] theorem State.spoilBase_ss (s : State) (b : Option CoreReg) (a : Word) : (s.spoilBase b a).ss = s.ss := by
  unfold State.spoilBase; split
  · split <;> simp
  · rfl
@[simp] theorem State.spoilBase_is (s : State) (b : Option CoreReg) (a : Word) : (s.spoilBase b a).is = s.is := by
  unfold State.spoilBase; split
  · split <;> simp
  · rfl
@[simp] theorem State.spoilBase_mem (s : State) (b : Option CoreReg) (a : Word) : (s.spoilBase b a).mem = s.mem := by
  unfold State.spoilBase; split
  · split <;> simp
  · rfl
@[simp] theorem State.spoilBase_buffer (s : State) (b : Option CoreReg) (a : Word) : (s.spoilBase b a).buffer = s.buffer := by
  unfold State.spoilBase; split
  · split <;> simp
  · rfl
@[simp] theorem State.spoilBase_slot (s : State) (b : Option CoreReg) (a : Word) : (s.spoilBase b a).slot = s.slot := by
  unfold State.spoilBase; split
  · split <;> simp
  · rfl
@[simp] theorem State.spoilBase_lpLag (s : State) (b : Option CoreReg) (a : Word) : (s.spoilBase b a).lpLag = s.lpLag := by
  unfold State.spoilBase; split
  · split <;> simp
  · rfl
@[simp] theorem State.spoilBase_startHist (s : State) (b : Option CoreReg) (a : Word) : (s.spoilBase b a).startHist = s.startHist := by
  unfold State.spoilBase; split
  · split <;> simp
  · rfl
@[simp] theorem State.spoilBase_endHist (s : State) (b : Option CoreReg) (a : Word) : (s.spoilBase b a).endHist = s.endHist := by
  unfold State.spoilBase; split
  · split <;> simp
  · rfl
@[simp] theorem State.spoilBase_mulBusy (s : State) (b : Option CoreReg) (a : Word) : (s.spoilBase b a).mulBusy = s.mulBusy := by
  unfold State.spoilBase; split
  · split <;> simp
  · rfl
@[simp] theorem State.spoilBase_mulHigh (s : State) (b : Option CoreReg) (a : Word) : (s.spoilBase b a).mulHigh = s.mulHigh := by
  unfold State.spoilBase; split
  · split <;> simp
  · rfl
@[simp] theorem State.spoilBase_hostPc (s : State) (b : Option CoreReg) (a : Word) : (s.spoilBase b a).hostPc = s.hostPc := by
  unfold State.spoilBase; split
  · split <;> simp
  · rfl
@[simp] theorem State.spoilBase_stored (s : State) (b : Option CoreReg) (a : Word) : (s.spoilBase b a).stored = s.stored := by
  unfold State.spoilBase; split
  · split <;> simp
  · rfl
@[simp] theorem State.spoilBase_oldCode (s : State) (b : Option CoreReg) (a : Word) : (s.spoilBase b a).oldCode = s.oldCode := by
  unfold State.spoilBase; split
  · split <;> simp
  · rfl
@[simp] theorem State.spoilBase_inputs (s : State) (b : Option CoreReg) (a : Word) : (s.spoilBase b a).inputs = s.inputs := by
  unfold State.spoilBase; split
  · split <;> simp
  · rfl
@[simp] theorem State.spoilBase_hostData (s : State) (b : Option CoreReg) (a : Word) : (s.spoilBase b a).hostData = s.hostData := by
  unfold State.spoilBase; split
  · split <;> simp
  · rfl
@[simp] theorem State.spoilBase_draws (s : State) (b : Option CoreReg) (a : Word) : (s.spoilBase b a).draws = s.draws := by
  unfold State.spoilBase; split
  · split <;> simp
  · rfl

/-! ### link -/

@[simp] theorem State.link_cfg (s : State) (m : SlotMode) (p : PAddr) : (s.link m p).cfg = s.cfg := by
  simp [State.link]
@[simp] theorem State.link_mr (s : State) (m : SlotMode) (p : PAddr) : (s.link m p).mr = s.mr := by
  simp [State.link]
@[simp] theorem State.link_lpStart (s : State) (m : SlotMode) (p : PAddr) : (s.link m p).lpStart = s.lpStart := by
  simp [State.link]
@[simp] theorem State.link_lpEnd (s : State) (m : SlotMode) (p : PAddr) : (s.link m p).lpEnd = s.lpEnd := by
  simp [State.link]
@[simp] theorem State.link_pc (s : State) (m : SlotMode) (p : PAddr) : (s.link m p).pc = s.pc := by
  simp [State.link]
@[simp] theorem State.link_z (s : State) (m : SlotMode) (p : PAddr) : (s.link m p).z = s.z := by
  simp [State.link]
@[simp] theorem State.link_n (s : State) (m : SlotMode) (p : PAddr) : (s.link m p).n = s.n := by
  simp [State.link]
@[simp] theorem State.link_c (s : State) (m : SlotMode) (p : PAddr) : (s.link m p).c = s.c := by
  simp [State.link]
@[simp] theorem State.link_v (s : State) (m : SlotMode) (p : PAddr) : (s.link m p).v = s.v := by
  simp [State.link]
@[simp] theorem State.link_e1 (s : State) (m : SlotMode) (p : PAddr) : (s.link m p).e1 = s.e1 := by
  simp [State.link]
@[simp] theorem State.link_e2 (s : State) (m : SlotMode) (p : PAddr) : (s.link m p).e2 = s.e2 := by
  simp [State.link]
@[simp] theorem State.link_h (s : State) (m : SlotMode) (p : PAddr) : (s.link m p).h = s.h := by
  simp [State.link]
@[simp] theorem State.link_semArc (s : State) (m : SlotMode) (p : PAddr) : (s.link m p).semArc = s.semArc := by
  simp [State.link]
@[simp] theorem State.link_semHost (s : State) (m : SlotMode) (p : PAddr) : (s.link m p).semHost = s.semHost := by
  simp [State.link]
@[simp] theorem State.link_loads (s : State) (m : SlotMode) (p : PAddr) : (s.link m p).loads = s.loads.filter fun d => d != .reg 31 := by
  simp [State.link]
@[simp] theorem State.link_sh (s : State) (m : SlotMode) (p : PAddr) : (s.link m p).sh = s.sh := by
  simp [State.link]
@[simp] theorem State.link_bh (s : State) (m : SlotMode) (p : PAddr) : (s.link m p).bh = s.bh := by
  simp [State.link]
@[simp] theorem State.link_zz (s : State) (m : SlotMode) (p : PAddr) : (s.link m p).zz = s.zz := by
  simp [State.link]
@[simp] theorem State.link_ss (s : State) (m : SlotMode) (p : PAddr) : (s.link m p).ss = s.ss := by
  simp [State.link]
@[simp] theorem State.link_is (s : State) (m : SlotMode) (p : PAddr) : (s.link m p).is = s.is := by
  simp [State.link]
@[simp] theorem State.link_mem (s : State) (m : SlotMode) (p : PAddr) : (s.link m p).mem = s.mem := by
  simp [State.link]
@[simp] theorem State.link_buffer (s : State) (m : SlotMode) (p : PAddr) : (s.link m p).buffer = s.buffer := by
  simp [State.link]
@[simp] theorem State.link_slot (s : State) (m : SlotMode) (p : PAddr) : (s.link m p).slot = s.slot := by
  simp [State.link]
@[simp] theorem State.link_lpLag (s : State) (m : SlotMode) (p : PAddr) : (s.link m p).lpLag = s.lpLag := by
  simp [State.link]
@[simp] theorem State.link_startHist (s : State) (m : SlotMode) (p : PAddr) : (s.link m p).startHist = s.startHist := by
  simp [State.link]
@[simp] theorem State.link_endHist (s : State) (m : SlotMode) (p : PAddr) : (s.link m p).endHist = s.endHist := by
  simp [State.link]
@[simp] theorem State.link_mulBusy (s : State) (m : SlotMode) (p : PAddr) : (s.link m p).mulBusy = s.mulBusy := by
  simp [State.link]
@[simp] theorem State.link_mulHigh (s : State) (m : SlotMode) (p : PAddr) : (s.link m p).mulHigh = s.mulHigh := by
  simp [State.link]
@[simp] theorem State.link_hostPc (s : State) (m : SlotMode) (p : PAddr) : (s.link m p).hostPc = s.hostPc := by
  simp [State.link]
@[simp] theorem State.link_stored (s : State) (m : SlotMode) (p : PAddr) : (s.link m p).stored = s.stored := by
  simp [State.link]
@[simp] theorem State.link_oldCode (s : State) (m : SlotMode) (p : PAddr) : (s.link m p).oldCode = s.oldCode := by
  simp [State.link]
@[simp] theorem State.link_inputs (s : State) (m : SlotMode) (p : PAddr) : (s.link m p).inputs = s.inputs := by
  simp [State.link]
@[simp] theorem State.link_hostData (s : State) (m : SlotMode) (p : PAddr) : (s.link m p).hostData = s.hostData := by
  simp [State.link]
@[simp] theorem State.link_draws (s : State) (m : SlotMode) (p : PAddr) : (s.link m p).draws = s.draws := by
  simp [State.link]

/-! ### setLoop -/

@[simp] theorem State.setLoop_cfg (s : State) (p q : PAddr) : (s.setLoop p q).cfg = s.cfg := rfl
@[simp] theorem State.setLoop_regs (s : State) (p q : PAddr) : (s.setLoop p q).regs = s.regs := rfl
@[simp] theorem State.setLoop_mr (s : State) (p q : PAddr) : (s.setLoop p q).mr = s.mr := rfl
@[simp] theorem State.setLoop_lpCount (s : State) (p q : PAddr) : (s.setLoop p q).lpCount = s.lpCount := rfl
@[simp] theorem State.setLoop_lpStart (s : State) (p q : PAddr) : (s.setLoop p q).lpStart = p := rfl
@[simp] theorem State.setLoop_lpEnd (s : State) (p q : PAddr) : (s.setLoop p q).lpEnd = q := rfl
@[simp] theorem State.setLoop_pc (s : State) (p q : PAddr) : (s.setLoop p q).pc = s.pc := rfl
@[simp] theorem State.setLoop_z (s : State) (p q : PAddr) : (s.setLoop p q).z = s.z := rfl
@[simp] theorem State.setLoop_n (s : State) (p q : PAddr) : (s.setLoop p q).n = s.n := rfl
@[simp] theorem State.setLoop_c (s : State) (p q : PAddr) : (s.setLoop p q).c = s.c := rfl
@[simp] theorem State.setLoop_v (s : State) (p q : PAddr) : (s.setLoop p q).v = s.v := rfl
@[simp] theorem State.setLoop_e1 (s : State) (p q : PAddr) : (s.setLoop p q).e1 = s.e1 := rfl
@[simp] theorem State.setLoop_e2 (s : State) (p q : PAddr) : (s.setLoop p q).e2 = s.e2 := rfl
@[simp] theorem State.setLoop_h (s : State) (p q : PAddr) : (s.setLoop p q).h = s.h := rfl
@[simp] theorem State.setLoop_semArc (s : State) (p q : PAddr) : (s.setLoop p q).semArc = s.semArc := rfl
@[simp] theorem State.setLoop_semHost (s : State) (p q : PAddr) : (s.setLoop p q).semHost = s.semHost := rfl
@[simp] theorem State.setLoop_loads (s : State) (p q : PAddr) : (s.setLoop p q).loads = s.loads := rfl
@[simp] theorem State.setLoop_sh (s : State) (p q : PAddr) : (s.setLoop p q).sh = s.sh := rfl
@[simp] theorem State.setLoop_bh (s : State) (p q : PAddr) : (s.setLoop p q).bh = s.bh := rfl
@[simp] theorem State.setLoop_zz (s : State) (p q : PAddr) : (s.setLoop p q).zz = s.zz := rfl
@[simp] theorem State.setLoop_ss (s : State) (p q : PAddr) : (s.setLoop p q).ss = s.ss := rfl
@[simp] theorem State.setLoop_is (s : State) (p q : PAddr) : (s.setLoop p q).is = s.is := rfl
@[simp] theorem State.setLoop_mem (s : State) (p q : PAddr) : (s.setLoop p q).mem = s.mem := rfl
@[simp] theorem State.setLoop_buffer (s : State) (p q : PAddr) : (s.setLoop p q).buffer = s.buffer := rfl
@[simp] theorem State.setLoop_slot (s : State) (p q : PAddr) : (s.setLoop p q).slot = s.slot := rfl
@[simp] theorem State.setLoop_lpLag (s : State) (p q : PAddr) : (s.setLoop p q).lpLag = some (s.aged.loopBounds 1) := rfl
@[simp] theorem State.setLoop_startHist (s : State) (p q : PAddr) : (s.setLoop p q).startHist = [] := rfl
@[simp] theorem State.setLoop_endHist (s : State) (p q : PAddr) : (s.setLoop p q).endHist = [] := rfl
@[simp] theorem State.setLoop_countHist (s : State) (p q : PAddr) : (s.setLoop p q).countHist = s.countHist := rfl
@[simp] theorem State.setLoop_mulBusy (s : State) (p q : PAddr) : (s.setLoop p q).mulBusy = s.mulBusy := rfl
@[simp] theorem State.setLoop_mulHigh (s : State) (p q : PAddr) : (s.setLoop p q).mulHigh = s.mulHigh := rfl
@[simp] theorem State.setLoop_hostPc (s : State) (p q : PAddr) : (s.setLoop p q).hostPc = s.hostPc := rfl
@[simp] theorem State.setLoop_stored (s : State) (p q : PAddr) : (s.setLoop p q).stored = s.stored := rfl
@[simp] theorem State.setLoop_oldCode (s : State) (p q : PAddr) : (s.setLoop p q).oldCode = s.oldCode := rfl
@[simp] theorem State.setLoop_inputs (s : State) (p q : PAddr) : (s.setLoop p q).inputs = s.inputs := rfl
@[simp] theorem State.setLoop_hostData (s : State) (p q : PAddr) : (s.setLoop p q).hostData = s.hostData := rfl
@[simp] theorem State.setLoop_draws (s : State) (p q : PAddr) : (s.setLoop p q).draws = s.draws := rfl

/-! ### transfer -/

@[simp] theorem State.transfer_cfg (s : State) (m : SlotMode) (j : Bool) (p q : PAddr) : (s.transfer m j p q).cfg = s.cfg := by
  cases j <;> cases m <;> rfl
@[simp] theorem State.transfer_regs (s : State) (m : SlotMode) (j : Bool) (p q : PAddr) : (s.transfer m j p q).regs = s.regs := by
  cases j <;> cases m <;> rfl
@[simp] theorem State.transfer_mr (s : State) (m : SlotMode) (j : Bool) (p q : PAddr) : (s.transfer m j p q).mr = s.mr := by
  cases j <;> cases m <;> rfl
@[simp] theorem State.transfer_lpCount (s : State) (m : SlotMode) (j : Bool) (p q : PAddr) : (s.transfer m j p q).lpCount = s.lpCount := by
  cases j <;> cases m <;> rfl
@[simp] theorem State.transfer_lpStart (s : State) (m : SlotMode) (j : Bool) (p q : PAddr) : (s.transfer m j p q).lpStart = s.lpStart := by
  cases j <;> cases m <;> rfl
@[simp] theorem State.transfer_lpEnd (s : State) (m : SlotMode) (j : Bool) (p q : PAddr) : (s.transfer m j p q).lpEnd = s.lpEnd := by
  cases j <;> cases m <;> rfl
@[simp] theorem State.transfer_z (s : State) (m : SlotMode) (j : Bool) (p q : PAddr) : (s.transfer m j p q).z = s.z := by
  cases j <;> cases m <;> rfl
@[simp] theorem State.transfer_n (s : State) (m : SlotMode) (j : Bool) (p q : PAddr) : (s.transfer m j p q).n = s.n := by
  cases j <;> cases m <;> rfl
@[simp] theorem State.transfer_c (s : State) (m : SlotMode) (j : Bool) (p q : PAddr) : (s.transfer m j p q).c = s.c := by
  cases j <;> cases m <;> rfl
@[simp] theorem State.transfer_v (s : State) (m : SlotMode) (j : Bool) (p q : PAddr) : (s.transfer m j p q).v = s.v := by
  cases j <;> cases m <;> rfl
@[simp] theorem State.transfer_e1 (s : State) (m : SlotMode) (j : Bool) (p q : PAddr) : (s.transfer m j p q).e1 = s.e1 := by
  cases j <;> cases m <;> rfl
@[simp] theorem State.transfer_e2 (s : State) (m : SlotMode) (j : Bool) (p q : PAddr) : (s.transfer m j p q).e2 = s.e2 := by
  cases j <;> cases m <;> rfl
@[simp] theorem State.transfer_h (s : State) (m : SlotMode) (j : Bool) (p q : PAddr) : (s.transfer m j p q).h = s.h := by
  cases j <;> cases m <;> rfl
@[simp] theorem State.transfer_semArc (s : State) (m : SlotMode) (j : Bool) (p q : PAddr) : (s.transfer m j p q).semArc = s.semArc := by
  cases j <;> cases m <;> rfl
@[simp] theorem State.transfer_semHost (s : State) (m : SlotMode) (j : Bool) (p q : PAddr) : (s.transfer m j p q).semHost = s.semHost := by
  cases j <;> cases m <;> rfl
@[simp] theorem State.transfer_loads (s : State) (m : SlotMode) (j : Bool) (p q : PAddr) : (s.transfer m j p q).loads = s.loads := by
  cases j <;> cases m <;> rfl
@[simp] theorem State.transfer_sh (s : State) (m : SlotMode) (j : Bool) (p q : PAddr) : (s.transfer m j p q).sh = s.sh := by
  cases j <;> cases m <;> rfl
@[simp] theorem State.transfer_bh (s : State) (m : SlotMode) (j : Bool) (p q : PAddr) : (s.transfer m j p q).bh = s.bh := by
  cases j <;> cases m <;> rfl
@[simp] theorem State.transfer_zz (s : State) (m : SlotMode) (j : Bool) (p q : PAddr) : (s.transfer m j p q).zz = s.zz := by
  cases j <;> cases m <;> rfl
@[simp] theorem State.transfer_ss (s : State) (m : SlotMode) (j : Bool) (p q : PAddr) : (s.transfer m j p q).ss = s.ss := by
  cases j <;> cases m <;> rfl
@[simp] theorem State.transfer_is (s : State) (m : SlotMode) (j : Bool) (p q : PAddr) : (s.transfer m j p q).is = s.is := by
  cases j <;> cases m <;> rfl
@[simp] theorem State.transfer_mem (s : State) (m : SlotMode) (j : Bool) (p q : PAddr) : (s.transfer m j p q).mem = s.mem := by
  cases j <;> cases m <;> rfl
@[simp] theorem State.transfer_buffer (s : State) (m : SlotMode) (j : Bool) (p q : PAddr) : (s.transfer m j p q).buffer = s.buffer := by
  cases j <;> cases m <;> rfl
@[simp] theorem State.transfer_startHist (s : State) (m : SlotMode) (j : Bool) (p q : PAddr) : (s.transfer m j p q).startHist = s.startHist := by
  cases j <;> cases m <;> rfl
@[simp] theorem State.transfer_endHist (s : State) (m : SlotMode) (j : Bool) (p q : PAddr) : (s.transfer m j p q).endHist = s.endHist := by
  cases j <;> cases m <;> rfl
@[simp] theorem State.transfer_countHist (s : State) (m : SlotMode) (j : Bool) (p q : PAddr) : (s.transfer m j p q).countHist = s.countHist := by
  cases j <;> cases m <;> rfl
@[simp] theorem State.transfer_mulBusy (s : State) (m : SlotMode) (j : Bool) (p q : PAddr) : (s.transfer m j p q).mulBusy = s.mulBusy := by
  cases j <;> cases m <;> rfl
@[simp] theorem State.transfer_mulHigh (s : State) (m : SlotMode) (j : Bool) (p q : PAddr) : (s.transfer m j p q).mulHigh = s.mulHigh := by
  cases j <;> cases m <;> rfl
@[simp] theorem State.transfer_hostPc (s : State) (m : SlotMode) (j : Bool) (p q : PAddr) : (s.transfer m j p q).hostPc = s.hostPc := by
  cases j <;> cases m <;> rfl
@[simp] theorem State.transfer_stored (s : State) (m : SlotMode) (j : Bool) (p q : PAddr) : (s.transfer m j p q).stored = s.stored := by
  cases j <;> cases m <;> rfl
@[simp] theorem State.transfer_oldCode (s : State) (m : SlotMode) (j : Bool) (p q : PAddr) : (s.transfer m j p q).oldCode = s.oldCode := by
  cases j <;> cases m <;> rfl
@[simp] theorem State.transfer_inputs (s : State) (m : SlotMode) (j : Bool) (p q : PAddr) : (s.transfer m j p q).inputs = s.inputs := by
  cases j <;> cases m <;> rfl
@[simp] theorem State.transfer_hostData (s : State) (m : SlotMode) (j : Bool) (p q : PAddr) : (s.transfer m j p q).hostData = s.hostData := by
  cases j <;> cases m <;> rfl
@[simp] theorem State.transfer_draws (s : State) (m : SlotMode) (j : Bool) (p q : PAddr) : (s.transfer m j p q).draws = s.draws := by
  cases j <;> cases m <;> rfl

/-! ### restart -/

@[simp] theorem State.restart_cfg (s : State) : s.restart.cfg = s.cfg := rfl
@[simp] theorem State.restart_regs (s : State) : s.restart.regs = s.regs := rfl
@[simp] theorem State.restart_mr (s : State) : s.restart.mr = s.mr := rfl
@[simp] theorem State.restart_lpCount (s : State) : s.restart.lpCount = s.lpCount := rfl
@[simp] theorem State.restart_lpStart (s : State) : s.restart.lpStart = s.lpStart := rfl
@[simp] theorem State.restart_lpEnd (s : State) : s.restart.lpEnd = s.lpEnd := rfl
@[simp] theorem State.restart_pc (s : State) : s.restart.pc = s.pc := rfl
@[simp] theorem State.restart_z (s : State) : s.restart.z = s.z := rfl
@[simp] theorem State.restart_n (s : State) : s.restart.n = s.n := rfl
@[simp] theorem State.restart_c (s : State) : s.restart.c = s.c := rfl
@[simp] theorem State.restart_v (s : State) : s.restart.v = s.v := rfl
@[simp] theorem State.restart_e1 (s : State) : s.restart.e1 = s.e1 := rfl
@[simp] theorem State.restart_e2 (s : State) : s.restart.e2 = s.e2 := rfl
@[simp] theorem State.restart_h (s : State) : s.restart.h = false := rfl
@[simp] theorem State.restart_semArc (s : State) : s.restart.semArc = s.semArc := rfl
@[simp] theorem State.restart_semHost (s : State) : s.restart.semHost = s.semHost := rfl
@[simp] theorem State.restart_loads (s : State) : s.restart.loads = s.loads := rfl
@[simp] theorem State.restart_sh (s : State) : s.restart.sh = false := rfl
@[simp] theorem State.restart_bh (s : State) : s.restart.bh = false := rfl
@[simp] theorem State.restart_zz (s : State) : s.restart.zz = false := rfl
@[simp] theorem State.restart_ss (s : State) : s.restart.ss = false := rfl
@[simp] theorem State.restart_is (s : State) : s.restart.is = false := rfl
@[simp] theorem State.restart_mem (s : State) : s.restart.mem = s.mem := rfl
@[simp] theorem State.restart_buffer (s : State) : s.restart.buffer = s.settle.buffer := rfl
@[simp] theorem State.restart_slot (s : State) : s.restart.slot = s.slot := rfl
@[simp] theorem State.restart_lpLag (s : State) : s.restart.lpLag = s.lpLag := rfl
@[simp] theorem State.restart_startHist (s : State) : s.restart.startHist = s.startHist := rfl
@[simp] theorem State.restart_endHist (s : State) : s.restart.endHist = s.endHist := rfl
@[simp] theorem State.restart_countHist (s : State) : s.restart.countHist = s.countHist := rfl
@[simp] theorem State.restart_mulBusy (s : State) : s.restart.mulBusy = s.mulBusy := rfl
@[simp] theorem State.restart_mulHigh (s : State) : s.restart.mulHigh = s.mulHigh := rfl
@[simp] theorem State.restart_hostPc (s : State) : s.restart.hostPc = none := rfl
@[simp] theorem State.restart_stored (s : State) : s.restart.stored = s.stored := rfl
@[simp] theorem State.restart_oldCode (s : State) : s.restart.oldCode = s.oldCode := rfl
@[simp] theorem State.restart_inputs (s : State) : s.restart.inputs = s.inputs := rfl
@[simp] theorem State.restart_hostData (s : State) : s.restart.hostData = s.hostData := rfl
@[simp] theorem State.restart_draws (s : State) : s.restart.draws = s.draws := rfl

/-! ### draw -/

@[simp] theorem State.draw_cfg (s : State) : s.draw.cfg = s.cfg := rfl
@[simp] theorem State.draw_regs (s : State) : s.draw.regs = s.regs := rfl
@[simp] theorem State.draw_mr (s : State) : s.draw.mr = s.mr := rfl
@[simp] theorem State.draw_lpCount (s : State) : s.draw.lpCount = s.lpCount := rfl
@[simp] theorem State.draw_lpStart (s : State) : s.draw.lpStart = s.lpStart := rfl
@[simp] theorem State.draw_lpEnd (s : State) : s.draw.lpEnd = s.lpEnd := rfl
@[simp] theorem State.draw_pc (s : State) : s.draw.pc = s.pc := rfl
@[simp] theorem State.draw_z (s : State) : s.draw.z = s.z := rfl
@[simp] theorem State.draw_n (s : State) : s.draw.n = s.n := rfl
@[simp] theorem State.draw_c (s : State) : s.draw.c = s.c := rfl
@[simp] theorem State.draw_v (s : State) : s.draw.v = s.v := rfl
@[simp] theorem State.draw_e1 (s : State) : s.draw.e1 = s.e1 := rfl
@[simp] theorem State.draw_e2 (s : State) : s.draw.e2 = s.e2 := rfl
@[simp] theorem State.draw_h (s : State) : s.draw.h = s.h := rfl
@[simp] theorem State.draw_semArc (s : State) : s.draw.semArc = s.semArc := rfl
@[simp] theorem State.draw_semHost (s : State) : s.draw.semHost = s.semHost := rfl
@[simp] theorem State.draw_loads (s : State) : s.draw.loads = s.loads := rfl
@[simp] theorem State.draw_sh (s : State) : s.draw.sh = s.sh := rfl
@[simp] theorem State.draw_bh (s : State) : s.draw.bh = s.bh := rfl
@[simp] theorem State.draw_zz (s : State) : s.draw.zz = s.zz := rfl
@[simp] theorem State.draw_ss (s : State) : s.draw.ss = s.ss := rfl
@[simp] theorem State.draw_is (s : State) : s.draw.is = s.is := rfl
@[simp] theorem State.draw_mem (s : State) : s.draw.mem = s.mem := rfl
@[simp] theorem State.draw_buffer (s : State) : s.draw.buffer = s.buffer := rfl
@[simp] theorem State.draw_slot (s : State) : s.draw.slot = s.slot := rfl
@[simp] theorem State.draw_lpLag (s : State) : s.draw.lpLag = s.lpLag := rfl
@[simp] theorem State.draw_startHist (s : State) : s.draw.startHist = s.startHist := rfl
@[simp] theorem State.draw_endHist (s : State) : s.draw.endHist = s.endHist := rfl
@[simp] theorem State.draw_countHist (s : State) : s.draw.countHist = s.countHist := rfl
@[simp] theorem State.draw_mulBusy (s : State) : s.draw.mulBusy = s.mulBusy := rfl
@[simp] theorem State.draw_mulHigh (s : State) : s.draw.mulHigh = s.mulHigh := rfl
@[simp] theorem State.draw_hostPc (s : State) : s.draw.hostPc = s.hostPc := rfl
@[simp] theorem State.draw_stored (s : State) : s.draw.stored = s.stored := rfl
@[simp] theorem State.draw_oldCode (s : State) : s.draw.oldCode = s.oldCode := rfl
@[simp] theorem State.draw_inputs (s : State) : s.draw.inputs = s.inputs := rfl
@[simp] theorem State.draw_hostData (s : State) : s.draw.hostData = s.hostData := rfl
@[simp] theorem State.draw_draws (s : State) : s.draw.draws = s.draws + 1 := rfl

/-! ### endStep -/

@[simp] theorem State.endStep_cfg (s : State) (b : Bool) : (s.endStep b).cfg = s.cfg := rfl
@[simp] theorem State.endStep_regs (s : State) (b : Bool) : (s.endStep b).regs = s.regs := rfl
@[simp] theorem State.endStep_mr (s : State) (b : Bool) : (s.endStep b).mr = s.mr := rfl
@[simp] theorem State.endStep_lpCount (s : State) (b : Bool) : (s.endStep b).lpCount = s.lpCount := rfl
@[simp] theorem State.endStep_lpStart (s : State) (b : Bool) : (s.endStep b).lpStart = s.lpStart := rfl
@[simp] theorem State.endStep_lpEnd (s : State) (b : Bool) : (s.endStep b).lpEnd = s.lpEnd := rfl
@[simp] theorem State.endStep_pc (s : State) (b : Bool) : (s.endStep b).pc = s.pc := rfl
@[simp] theorem State.endStep_z (s : State) (b : Bool) : (s.endStep b).z = s.z := rfl
@[simp] theorem State.endStep_n (s : State) (b : Bool) : (s.endStep b).n = s.n := rfl
@[simp] theorem State.endStep_c (s : State) (b : Bool) : (s.endStep b).c = s.c := rfl
@[simp] theorem State.endStep_v (s : State) (b : Bool) : (s.endStep b).v = s.v := rfl
@[simp] theorem State.endStep_e1 (s : State) (b : Bool) : (s.endStep b).e1 = s.e1 := rfl
@[simp] theorem State.endStep_e2 (s : State) (b : Bool) : (s.endStep b).e2 = s.e2 := rfl
@[simp] theorem State.endStep_h (s : State) (b : Bool) : (s.endStep b).h = true := rfl
@[simp] theorem State.endStep_semArc (s : State) (b : Bool) : (s.endStep b).semArc = s.semArc := rfl
@[simp] theorem State.endStep_semHost (s : State) (b : Bool) : (s.endStep b).semHost = s.semHost := rfl
@[simp] theorem State.endStep_loads (s : State) (b : Bool) : (s.endStep b).loads = s.loads := rfl
@[simp] theorem State.endStep_sh (s : State) (b : Bool) : (s.endStep b).sh = s.sh := rfl
@[simp] theorem State.endStep_bh (s : State) (b : Bool) : (s.endStep b).bh = s.bh := rfl
@[simp] theorem State.endStep_zz (s : State) (b : Bool) : (s.endStep b).zz = (s.zz && b) := rfl
@[simp] theorem State.endStep_ss (s : State) (b : Bool) : (s.endStep b).ss = s.ss := rfl
@[simp] theorem State.endStep_is (s : State) (b : Bool) : (s.endStep b).is = s.is := rfl
@[simp] theorem State.endStep_mem (s : State) (b : Bool) : (s.endStep b).mem = s.mem := rfl
@[simp] theorem State.endStep_buffer (s : State) (b : Bool) : (s.endStep b).buffer = s.buffer := rfl
@[simp] theorem State.endStep_slot (s : State) (b : Bool) : (s.endStep b).slot = s.slot := rfl
@[simp] theorem State.endStep_lpLag (s : State) (b : Bool) : (s.endStep b).lpLag = s.lpLag := rfl
@[simp] theorem State.endStep_startHist (s : State) (b : Bool) : (s.endStep b).startHist = s.startHist := rfl
@[simp] theorem State.endStep_endHist (s : State) (b : Bool) : (s.endStep b).endHist = s.endHist := rfl
@[simp] theorem State.endStep_countHist (s : State) (b : Bool) : (s.endStep b).countHist = s.countHist := rfl
@[simp] theorem State.endStep_mulBusy (s : State) (b : Bool) : (s.endStep b).mulBusy = s.mulBusy := rfl
@[simp] theorem State.endStep_mulHigh (s : State) (b : Bool) : (s.endStep b).mulHigh = s.mulHigh := rfl
@[simp] theorem State.endStep_hostPc (s : State) (b : Bool) : (s.endStep b).hostPc = s.hostPc := rfl
@[simp] theorem State.endStep_stored (s : State) (b : Bool) : (s.endStep b).stored = [] := rfl
@[simp] theorem State.endStep_oldCode (s : State) (b : Bool) : (s.endStep b).oldCode = s.oldCode := rfl
@[simp] theorem State.endStep_inputs (s : State) (b : Bool) : (s.endStep b).inputs = s.inputs := rfl
@[simp] theorem State.endStep_hostData (s : State) (b : Bool) : (s.endStep b).hostData = s.hostData := rfl
@[simp] theorem State.endStep_draws (s : State) (b : Bool) : (s.endStep b).draws = s.draws := rfl

/-! ### answer -/

@[simp] theorem State.answer_cfg (s : State) (x : Word) : (s.answer x).cfg = s.cfg := rfl
@[simp] theorem State.answer_regs (s : State) (x : Word) : (s.answer x).regs = s.regs := rfl
@[simp] theorem State.answer_mr (s : State) (x : Word) : (s.answer x).mr = s.mr := rfl
@[simp] theorem State.answer_lpCount (s : State) (x : Word) : (s.answer x).lpCount = s.lpCount := rfl
@[simp] theorem State.answer_lpStart (s : State) (x : Word) : (s.answer x).lpStart = s.lpStart := rfl
@[simp] theorem State.answer_lpEnd (s : State) (x : Word) : (s.answer x).lpEnd = s.lpEnd := rfl
@[simp] theorem State.answer_pc (s : State) (x : Word) : (s.answer x).pc = s.pc := rfl
@[simp] theorem State.answer_z (s : State) (x : Word) : (s.answer x).z = s.z := rfl
@[simp] theorem State.answer_n (s : State) (x : Word) : (s.answer x).n = s.n := rfl
@[simp] theorem State.answer_c (s : State) (x : Word) : (s.answer x).c = s.c := rfl
@[simp] theorem State.answer_v (s : State) (x : Word) : (s.answer x).v = s.v := rfl
@[simp] theorem State.answer_e1 (s : State) (x : Word) : (s.answer x).e1 = s.e1 := rfl
@[simp] theorem State.answer_e2 (s : State) (x : Word) : (s.answer x).e2 = s.e2 := rfl
@[simp] theorem State.answer_h (s : State) (x : Word) : (s.answer x).h = s.h := rfl
@[simp] theorem State.answer_semArc (s : State) (x : Word) : (s.answer x).semArc = s.semArc := rfl
@[simp] theorem State.answer_semHost (s : State) (x : Word) : (s.answer x).semHost = s.semHost := rfl
@[simp] theorem State.answer_loads (s : State) (x : Word) : (s.answer x).loads = s.loads := rfl
@[simp] theorem State.answer_sh (s : State) (x : Word) : (s.answer x).sh = s.sh := rfl
@[simp] theorem State.answer_bh (s : State) (x : Word) : (s.answer x).bh = s.bh := rfl
@[simp] theorem State.answer_zz (s : State) (x : Word) : (s.answer x).zz = s.zz := rfl
@[simp] theorem State.answer_ss (s : State) (x : Word) : (s.answer x).ss = s.ss := rfl
@[simp] theorem State.answer_is (s : State) (x : Word) : (s.answer x).is = s.is := rfl
@[simp] theorem State.answer_mem (s : State) (x : Word) : (s.answer x).mem = s.mem := rfl
@[simp] theorem State.answer_buffer (s : State) (x : Word) : (s.answer x).buffer = s.buffer := rfl
@[simp] theorem State.answer_slot (s : State) (x : Word) : (s.answer x).slot = s.slot := rfl
@[simp] theorem State.answer_lpLag (s : State) (x : Word) : (s.answer x).lpLag = s.lpLag := rfl
@[simp] theorem State.answer_startHist (s : State) (x : Word) : (s.answer x).startHist = s.startHist := rfl
@[simp] theorem State.answer_endHist (s : State) (x : Word) : (s.answer x).endHist = s.endHist := rfl
@[simp] theorem State.answer_countHist (s : State) (x : Word) : (s.answer x).countHist = s.countHist := rfl
@[simp] theorem State.answer_mulBusy (s : State) (x : Word) : (s.answer x).mulBusy = s.mulBusy := rfl
@[simp] theorem State.answer_mulHigh (s : State) (x : Word) : (s.answer x).mulHigh = s.mulHigh := rfl
@[simp] theorem State.answer_hostPc (s : State) (x : Word) : (s.answer x).hostPc = s.hostPc := rfl
@[simp] theorem State.answer_stored (s : State) (x : Word) : (s.answer x).stored = s.stored := rfl
@[simp] theorem State.answer_oldCode (s : State) (x : Word) : (s.answer x).oldCode = s.oldCode := rfl
@[simp] theorem State.answer_inputs (s : State) (x : Word) : (s.answer x).inputs = s.inputs := rfl
@[simp] theorem State.answer_hostData (s : State) (x : Word) : (s.answer x).hostData = x := rfl
@[simp] theorem State.answer_draws (s : State) (x : Word) : (s.answer x).draws = s.draws := rfl

/-! ### withInputs -/

@[simp] theorem State.withInputs_cfg (s : State) (l : List Input) : (s.withInputs l).cfg = s.cfg := rfl
@[simp] theorem State.withInputs_regs (s : State) (l : List Input) : (s.withInputs l).regs = s.regs := rfl
@[simp] theorem State.withInputs_mr (s : State) (l : List Input) : (s.withInputs l).mr = s.mr := rfl
@[simp] theorem State.withInputs_lpCount (s : State) (l : List Input) : (s.withInputs l).lpCount = s.lpCount := rfl
@[simp] theorem State.withInputs_lpStart (s : State) (l : List Input) : (s.withInputs l).lpStart = s.lpStart := rfl
@[simp] theorem State.withInputs_lpEnd (s : State) (l : List Input) : (s.withInputs l).lpEnd = s.lpEnd := rfl
@[simp] theorem State.withInputs_pc (s : State) (l : List Input) : (s.withInputs l).pc = s.pc := rfl
@[simp] theorem State.withInputs_z (s : State) (l : List Input) : (s.withInputs l).z = s.z := rfl
@[simp] theorem State.withInputs_n (s : State) (l : List Input) : (s.withInputs l).n = s.n := rfl
@[simp] theorem State.withInputs_c (s : State) (l : List Input) : (s.withInputs l).c = s.c := rfl
@[simp] theorem State.withInputs_v (s : State) (l : List Input) : (s.withInputs l).v = s.v := rfl
@[simp] theorem State.withInputs_e1 (s : State) (l : List Input) : (s.withInputs l).e1 = s.e1 := rfl
@[simp] theorem State.withInputs_e2 (s : State) (l : List Input) : (s.withInputs l).e2 = s.e2 := rfl
@[simp] theorem State.withInputs_h (s : State) (l : List Input) : (s.withInputs l).h = s.h := rfl
@[simp] theorem State.withInputs_semArc (s : State) (l : List Input) : (s.withInputs l).semArc = s.semArc := rfl
@[simp] theorem State.withInputs_semHost (s : State) (l : List Input) : (s.withInputs l).semHost = s.semHost := rfl
@[simp] theorem State.withInputs_loads (s : State) (l : List Input) : (s.withInputs l).loads = s.loads := rfl
@[simp] theorem State.withInputs_sh (s : State) (l : List Input) : (s.withInputs l).sh = s.sh := rfl
@[simp] theorem State.withInputs_bh (s : State) (l : List Input) : (s.withInputs l).bh = s.bh := rfl
@[simp] theorem State.withInputs_zz (s : State) (l : List Input) : (s.withInputs l).zz = s.zz := rfl
@[simp] theorem State.withInputs_ss (s : State) (l : List Input) : (s.withInputs l).ss = s.ss := rfl
@[simp] theorem State.withInputs_is (s : State) (l : List Input) : (s.withInputs l).is = s.is := rfl
@[simp] theorem State.withInputs_mem (s : State) (l : List Input) : (s.withInputs l).mem = s.mem := rfl
@[simp] theorem State.withInputs_buffer (s : State) (l : List Input) : (s.withInputs l).buffer = s.buffer := rfl
@[simp] theorem State.withInputs_slot (s : State) (l : List Input) : (s.withInputs l).slot = s.slot := rfl
@[simp] theorem State.withInputs_lpLag (s : State) (l : List Input) : (s.withInputs l).lpLag = s.lpLag := rfl
@[simp] theorem State.withInputs_startHist (s : State) (l : List Input) : (s.withInputs l).startHist = s.startHist := rfl
@[simp] theorem State.withInputs_endHist (s : State) (l : List Input) : (s.withInputs l).endHist = s.endHist := rfl
@[simp] theorem State.withInputs_countHist (s : State) (l : List Input) : (s.withInputs l).countHist = s.countHist := rfl
@[simp] theorem State.withInputs_mulBusy (s : State) (l : List Input) : (s.withInputs l).mulBusy = s.mulBusy := rfl
@[simp] theorem State.withInputs_mulHigh (s : State) (l : List Input) : (s.withInputs l).mulHigh = s.mulHigh := rfl
@[simp] theorem State.withInputs_hostPc (s : State) (l : List Input) : (s.withInputs l).hostPc = s.hostPc := rfl
@[simp] theorem State.withInputs_stored (s : State) (l : List Input) : (s.withInputs l).stored = s.stored := rfl
@[simp] theorem State.withInputs_oldCode (s : State) (l : List Input) : (s.withInputs l).oldCode = s.oldCode := rfl
@[simp] theorem State.withInputs_inputs (s : State) (l : List Input) : (s.withInputs l).inputs = l := rfl
@[simp] theorem State.withInputs_hostData (s : State) (l : List Input) : (s.withInputs l).hostData = s.hostData := rfl
@[simp] theorem State.withInputs_draws (s : State) (l : List Input) : (s.withInputs l).draws = s.draws := rfl

/-! ### hostHalt -/

@[simp] theorem State.hostHalt_cfg (s : State) : s.hostHalt.cfg = s.cfg := rfl
@[simp] theorem State.hostHalt_regs (s : State) : s.hostHalt.regs = s.regs := rfl
@[simp] theorem State.hostHalt_mr (s : State) : s.hostHalt.mr = s.mr := rfl
@[simp] theorem State.hostHalt_lpCount (s : State) : s.hostHalt.lpCount = s.lpCount := rfl
@[simp] theorem State.hostHalt_lpStart (s : State) : s.hostHalt.lpStart = s.lpStart := rfl
@[simp] theorem State.hostHalt_lpEnd (s : State) : s.hostHalt.lpEnd = s.lpEnd := rfl
@[simp] theorem State.hostHalt_pc (s : State) : s.hostHalt.pc = s.pc := rfl
@[simp] theorem State.hostHalt_z (s : State) : s.hostHalt.z = s.z := rfl
@[simp] theorem State.hostHalt_n (s : State) : s.hostHalt.n = s.n := rfl
@[simp] theorem State.hostHalt_c (s : State) : s.hostHalt.c = s.c := rfl
@[simp] theorem State.hostHalt_v (s : State) : s.hostHalt.v = s.v := rfl
@[simp] theorem State.hostHalt_e1 (s : State) : s.hostHalt.e1 = s.e1 := rfl
@[simp] theorem State.hostHalt_e2 (s : State) : s.hostHalt.e2 = s.e2 := rfl
@[simp] theorem State.hostHalt_h (s : State) : s.hostHalt.h = true := rfl
@[simp] theorem State.hostHalt_semArc (s : State) : s.hostHalt.semArc = s.semArc := rfl
@[simp] theorem State.hostHalt_semHost (s : State) : s.hostHalt.semHost = s.semHost := rfl
@[simp] theorem State.hostHalt_loads (s : State) : s.hostHalt.loads = s.loads := rfl
@[simp] theorem State.hostHalt_sh (s : State) : s.hostHalt.sh = s.sh := rfl
@[simp] theorem State.hostHalt_bh (s : State) : s.hostHalt.bh = s.bh := rfl
@[simp] theorem State.hostHalt_zz (s : State) : s.hostHalt.zz = s.zz := rfl
@[simp] theorem State.hostHalt_ss (s : State) : s.hostHalt.ss = s.ss := rfl
@[simp] theorem State.hostHalt_is (s : State) : s.hostHalt.is = s.is := rfl
@[simp] theorem State.hostHalt_mem (s : State) : s.hostHalt.mem = s.mem := rfl
@[simp] theorem State.hostHalt_buffer (s : State) : s.hostHalt.buffer = s.buffer := rfl
@[simp] theorem State.hostHalt_slot (s : State) : s.hostHalt.slot = s.slot := rfl
@[simp] theorem State.hostHalt_lpLag (s : State) : s.hostHalt.lpLag = s.lpLag := rfl
@[simp] theorem State.hostHalt_startHist (s : State) : s.hostHalt.startHist = s.startHist := rfl
@[simp] theorem State.hostHalt_endHist (s : State) : s.hostHalt.endHist = s.endHist := rfl
@[simp] theorem State.hostHalt_countHist (s : State) : s.hostHalt.countHist = s.countHist := rfl
@[simp] theorem State.hostHalt_mulBusy (s : State) : s.hostHalt.mulBusy = s.mulBusy := rfl
@[simp] theorem State.hostHalt_mulHigh (s : State) : s.hostHalt.mulHigh = s.mulHigh := rfl
@[simp] theorem State.hostHalt_stored (s : State) : s.hostHalt.stored = [] := rfl
@[simp] theorem State.hostHalt_oldCode (s : State) : s.hostHalt.oldCode = s.oldCode := rfl
@[simp] theorem State.hostHalt_inputs (s : State) : s.hostHalt.inputs = s.inputs := rfl
@[simp] theorem State.hostHalt_hostData (s : State) : s.hostHalt.hostData = s.hostData := rfl
@[simp] theorem State.hostHalt_draws (s : State) : s.hostHalt.draws = s.draws := rfl

/-! ### placeWord -/

@[simp] theorem State.placeWord_cfg (s : State) (p : PAddr) (w : Word) : (s.placeWord p w).cfg = s.cfg := rfl
@[simp] theorem State.placeWord_regs (s : State) (p : PAddr) (w : Word) : (s.placeWord p w).regs = s.regs := rfl
@[simp] theorem State.placeWord_mr (s : State) (p : PAddr) (w : Word) : (s.placeWord p w).mr = s.mr := rfl
@[simp] theorem State.placeWord_lpCount (s : State) (p : PAddr) (w : Word) : (s.placeWord p w).lpCount = s.lpCount := rfl
@[simp] theorem State.placeWord_lpStart (s : State) (p : PAddr) (w : Word) : (s.placeWord p w).lpStart = s.lpStart := rfl
@[simp] theorem State.placeWord_lpEnd (s : State) (p : PAddr) (w : Word) : (s.placeWord p w).lpEnd = s.lpEnd := rfl
@[simp] theorem State.placeWord_pc (s : State) (p : PAddr) (w : Word) : (s.placeWord p w).pc = s.pc := rfl
@[simp] theorem State.placeWord_z (s : State) (p : PAddr) (w : Word) : (s.placeWord p w).z = s.z := rfl
@[simp] theorem State.placeWord_n (s : State) (p : PAddr) (w : Word) : (s.placeWord p w).n = s.n := rfl
@[simp] theorem State.placeWord_c (s : State) (p : PAddr) (w : Word) : (s.placeWord p w).c = s.c := rfl
@[simp] theorem State.placeWord_v (s : State) (p : PAddr) (w : Word) : (s.placeWord p w).v = s.v := rfl
@[simp] theorem State.placeWord_e1 (s : State) (p : PAddr) (w : Word) : (s.placeWord p w).e1 = s.e1 := rfl
@[simp] theorem State.placeWord_e2 (s : State) (p : PAddr) (w : Word) : (s.placeWord p w).e2 = s.e2 := rfl
@[simp] theorem State.placeWord_h (s : State) (p : PAddr) (w : Word) : (s.placeWord p w).h = s.h := rfl
@[simp] theorem State.placeWord_semArc (s : State) (p : PAddr) (w : Word) : (s.placeWord p w).semArc = s.semArc := rfl
@[simp] theorem State.placeWord_semHost (s : State) (p : PAddr) (w : Word) : (s.placeWord p w).semHost = s.semHost := rfl
@[simp] theorem State.placeWord_loads (s : State) (p : PAddr) (w : Word) : (s.placeWord p w).loads = s.loads := rfl
@[simp] theorem State.placeWord_sh (s : State) (p : PAddr) (w : Word) : (s.placeWord p w).sh = s.sh := rfl
@[simp] theorem State.placeWord_bh (s : State) (p : PAddr) (w : Word) : (s.placeWord p w).bh = s.bh := rfl
@[simp] theorem State.placeWord_zz (s : State) (p : PAddr) (w : Word) : (s.placeWord p w).zz = s.zz := rfl
@[simp] theorem State.placeWord_ss (s : State) (p : PAddr) (w : Word) : (s.placeWord p w).ss = s.ss := rfl
@[simp] theorem State.placeWord_is (s : State) (p : PAddr) (w : Word) : (s.placeWord p w).is = s.is := rfl
@[simp] theorem State.placeWord_mem (s : State) (p : PAddr) (w : Word) : (s.placeWord p w).mem = memWrite s.cfg.endian s.mem (codeAddr p) .long w := rfl
@[simp] theorem State.placeWord_buffer (s : State) (p : PAddr) (w : Word) : (s.placeWord p w).buffer = s.buffer := rfl
@[simp] theorem State.placeWord_slot (s : State) (p : PAddr) (w : Word) : (s.placeWord p w).slot = s.slot := rfl
@[simp] theorem State.placeWord_lpLag (s : State) (p : PAddr) (w : Word) : (s.placeWord p w).lpLag = s.lpLag := rfl
@[simp] theorem State.placeWord_startHist (s : State) (p : PAddr) (w : Word) : (s.placeWord p w).startHist = s.startHist := rfl
@[simp] theorem State.placeWord_endHist (s : State) (p : PAddr) (w : Word) : (s.placeWord p w).endHist = s.endHist := rfl
@[simp] theorem State.placeWord_countHist (s : State) (p : PAddr) (w : Word) : (s.placeWord p w).countHist = s.countHist := rfl
@[simp] theorem State.placeWord_mulBusy (s : State) (p : PAddr) (w : Word) : (s.placeWord p w).mulBusy = s.mulBusy := rfl
@[simp] theorem State.placeWord_mulHigh (s : State) (p : PAddr) (w : Word) : (s.placeWord p w).mulHigh = s.mulHigh := rfl
@[simp] theorem State.placeWord_hostPc (s : State) (p : PAddr) (w : Word) : (s.placeWord p w).hostPc = s.hostPc := rfl
@[simp] theorem State.placeWord_inputs (s : State) (p : PAddr) (w : Word) : (s.placeWord p w).inputs = s.inputs := rfl
@[simp] theorem State.placeWord_hostData (s : State) (p : PAddr) (w : Word) : (s.placeWord p w).hostData = s.hostData := rfl
@[simp] theorem State.placeWord_draws (s : State) (p : PAddr) (w : Word) : (s.placeWord p w).draws = s.draws := rfl

/-! ### noteCode -/

@[simp] theorem State.noteCode_cfg (s : State) (a : Word) (sz : Size) : (s.noteCode a sz).cfg = s.cfg := rfl
@[simp] theorem State.noteCode_regs (s : State) (a : Word) (sz : Size) : (s.noteCode a sz).regs = s.regs := rfl
@[simp] theorem State.noteCode_mr (s : State) (a : Word) (sz : Size) : (s.noteCode a sz).mr = s.mr := rfl
@[simp] theorem State.noteCode_lpCount (s : State) (a : Word) (sz : Size) : (s.noteCode a sz).lpCount = s.lpCount := rfl
@[simp] theorem State.noteCode_lpStart (s : State) (a : Word) (sz : Size) : (s.noteCode a sz).lpStart = s.lpStart := rfl
@[simp] theorem State.noteCode_lpEnd (s : State) (a : Word) (sz : Size) : (s.noteCode a sz).lpEnd = s.lpEnd := rfl
@[simp] theorem State.noteCode_pc (s : State) (a : Word) (sz : Size) : (s.noteCode a sz).pc = s.pc := rfl
@[simp] theorem State.noteCode_z (s : State) (a : Word) (sz : Size) : (s.noteCode a sz).z = s.z := rfl
@[simp] theorem State.noteCode_n (s : State) (a : Word) (sz : Size) : (s.noteCode a sz).n = s.n := rfl
@[simp] theorem State.noteCode_c (s : State) (a : Word) (sz : Size) : (s.noteCode a sz).c = s.c := rfl
@[simp] theorem State.noteCode_v (s : State) (a : Word) (sz : Size) : (s.noteCode a sz).v = s.v := rfl
@[simp] theorem State.noteCode_e1 (s : State) (a : Word) (sz : Size) : (s.noteCode a sz).e1 = s.e1 := rfl
@[simp] theorem State.noteCode_e2 (s : State) (a : Word) (sz : Size) : (s.noteCode a sz).e2 = s.e2 := rfl
@[simp] theorem State.noteCode_h (s : State) (a : Word) (sz : Size) : (s.noteCode a sz).h = s.h := rfl
@[simp] theorem State.noteCode_semArc (s : State) (a : Word) (sz : Size) : (s.noteCode a sz).semArc = s.semArc := rfl
@[simp] theorem State.noteCode_semHost (s : State) (a : Word) (sz : Size) : (s.noteCode a sz).semHost = s.semHost := rfl
@[simp] theorem State.noteCode_loads (s : State) (a : Word) (sz : Size) : (s.noteCode a sz).loads = s.loads := rfl
@[simp] theorem State.noteCode_sh (s : State) (a : Word) (sz : Size) : (s.noteCode a sz).sh = s.sh := rfl
@[simp] theorem State.noteCode_bh (s : State) (a : Word) (sz : Size) : (s.noteCode a sz).bh = s.bh := rfl
@[simp] theorem State.noteCode_zz (s : State) (a : Word) (sz : Size) : (s.noteCode a sz).zz = s.zz := rfl
@[simp] theorem State.noteCode_ss (s : State) (a : Word) (sz : Size) : (s.noteCode a sz).ss = s.ss := rfl
@[simp] theorem State.noteCode_is (s : State) (a : Word) (sz : Size) : (s.noteCode a sz).is = s.is := rfl
@[simp] theorem State.noteCode_mem (s : State) (a : Word) (sz : Size) : (s.noteCode a sz).mem = s.mem := rfl
@[simp] theorem State.noteCode_buffer (s : State) (a : Word) (sz : Size) : (s.noteCode a sz).buffer = s.buffer := rfl
@[simp] theorem State.noteCode_slot (s : State) (a : Word) (sz : Size) : (s.noteCode a sz).slot = s.slot := rfl
@[simp] theorem State.noteCode_lpLag (s : State) (a : Word) (sz : Size) : (s.noteCode a sz).lpLag = s.lpLag := rfl
@[simp] theorem State.noteCode_startHist (s : State) (a : Word) (sz : Size) : (s.noteCode a sz).startHist = s.startHist := rfl
@[simp] theorem State.noteCode_endHist (s : State) (a : Word) (sz : Size) : (s.noteCode a sz).endHist = s.endHist := rfl
@[simp] theorem State.noteCode_countHist (s : State) (a : Word) (sz : Size) : (s.noteCode a sz).countHist = s.countHist := rfl
@[simp] theorem State.noteCode_mulBusy (s : State) (a : Word) (sz : Size) : (s.noteCode a sz).mulBusy = s.mulBusy := rfl
@[simp] theorem State.noteCode_mulHigh (s : State) (a : Word) (sz : Size) : (s.noteCode a sz).mulHigh = s.mulHigh := rfl
@[simp] theorem State.noteCode_hostPc (s : State) (a : Word) (sz : Size) : (s.noteCode a sz).hostPc = s.hostPc := rfl
@[simp] theorem State.noteCode_stored (s : State) (a : Word) (sz : Size) : (s.noteCode a sz).stored = s.stored := rfl
@[simp] theorem State.noteCode_inputs (s : State) (a : Word) (sz : Size) : (s.noteCode a sz).inputs = s.inputs := rfl
@[simp] theorem State.noteCode_hostData (s : State) (a : Word) (sz : Size) : (s.noteCode a sz).hostData = s.hostData := rfl
@[simp] theorem State.noteCode_draws (s : State) (a : Word) (sz : Size) : (s.noteCode a sz).draws = s.draws := rfl

/-! ### hostPutMem -/

@[simp] theorem State.hostPutMem_cfg (s : State) (a : Word) (sz : Size) (x : Word) : (s.hostPutMem a sz x).cfg = s.cfg := rfl
@[simp] theorem State.hostPutMem_regs (s : State) (a : Word) (sz : Size) (x : Word) : (s.hostPutMem a sz x).regs = s.regs := rfl
@[simp] theorem State.hostPutMem_mr (s : State) (a : Word) (sz : Size) (x : Word) : (s.hostPutMem a sz x).mr = s.mr := rfl
@[simp] theorem State.hostPutMem_lpCount (s : State) (a : Word) (sz : Size) (x : Word) : (s.hostPutMem a sz x).lpCount = s.lpCount := rfl
@[simp] theorem State.hostPutMem_lpStart (s : State) (a : Word) (sz : Size) (x : Word) : (s.hostPutMem a sz x).lpStart = s.lpStart := rfl
@[simp] theorem State.hostPutMem_lpEnd (s : State) (a : Word) (sz : Size) (x : Word) : (s.hostPutMem a sz x).lpEnd = s.lpEnd := rfl
@[simp] theorem State.hostPutMem_pc (s : State) (a : Word) (sz : Size) (x : Word) : (s.hostPutMem a sz x).pc = s.pc := rfl
@[simp] theorem State.hostPutMem_z (s : State) (a : Word) (sz : Size) (x : Word) : (s.hostPutMem a sz x).z = s.z := rfl
@[simp] theorem State.hostPutMem_n (s : State) (a : Word) (sz : Size) (x : Word) : (s.hostPutMem a sz x).n = s.n := rfl
@[simp] theorem State.hostPutMem_c (s : State) (a : Word) (sz : Size) (x : Word) : (s.hostPutMem a sz x).c = s.c := rfl
@[simp] theorem State.hostPutMem_v (s : State) (a : Word) (sz : Size) (x : Word) : (s.hostPutMem a sz x).v = s.v := rfl
@[simp] theorem State.hostPutMem_e1 (s : State) (a : Word) (sz : Size) (x : Word) : (s.hostPutMem a sz x).e1 = s.e1 := rfl
@[simp] theorem State.hostPutMem_e2 (s : State) (a : Word) (sz : Size) (x : Word) : (s.hostPutMem a sz x).e2 = s.e2 := rfl
@[simp] theorem State.hostPutMem_h (s : State) (a : Word) (sz : Size) (x : Word) : (s.hostPutMem a sz x).h = s.h := rfl
@[simp] theorem State.hostPutMem_semArc (s : State) (a : Word) (sz : Size) (x : Word) : (s.hostPutMem a sz x).semArc = s.semArc := rfl
@[simp] theorem State.hostPutMem_semHost (s : State) (a : Word) (sz : Size) (x : Word) : (s.hostPutMem a sz x).semHost = s.semHost := rfl
@[simp] theorem State.hostPutMem_loads (s : State) (a : Word) (sz : Size) (x : Word) : (s.hostPutMem a sz x).loads = s.loads := rfl
@[simp] theorem State.hostPutMem_sh (s : State) (a : Word) (sz : Size) (x : Word) : (s.hostPutMem a sz x).sh = s.sh := rfl
@[simp] theorem State.hostPutMem_bh (s : State) (a : Word) (sz : Size) (x : Word) : (s.hostPutMem a sz x).bh = s.bh := rfl
@[simp] theorem State.hostPutMem_zz (s : State) (a : Word) (sz : Size) (x : Word) : (s.hostPutMem a sz x).zz = s.zz := rfl
@[simp] theorem State.hostPutMem_ss (s : State) (a : Word) (sz : Size) (x : Word) : (s.hostPutMem a sz x).ss = s.ss := rfl
@[simp] theorem State.hostPutMem_is (s : State) (a : Word) (sz : Size) (x : Word) : (s.hostPutMem a sz x).is = s.is := rfl
@[simp] theorem State.hostPutMem_slot (s : State) (a : Word) (sz : Size) (x : Word) : (s.hostPutMem a sz x).slot = s.slot := rfl
@[simp] theorem State.hostPutMem_lpLag (s : State) (a : Word) (sz : Size) (x : Word) : (s.hostPutMem a sz x).lpLag = s.lpLag := rfl
@[simp] theorem State.hostPutMem_startHist (s : State) (a : Word) (sz : Size) (x : Word) : (s.hostPutMem a sz x).startHist = s.startHist := rfl
@[simp] theorem State.hostPutMem_endHist (s : State) (a : Word) (sz : Size) (x : Word) : (s.hostPutMem a sz x).endHist = s.endHist := rfl
@[simp] theorem State.hostPutMem_countHist (s : State) (a : Word) (sz : Size) (x : Word) : (s.hostPutMem a sz x).countHist = s.countHist := rfl
@[simp] theorem State.hostPutMem_mulBusy (s : State) (a : Word) (sz : Size) (x : Word) : (s.hostPutMem a sz x).mulBusy = s.mulBusy := rfl
@[simp] theorem State.hostPutMem_mulHigh (s : State) (a : Word) (sz : Size) (x : Word) : (s.hostPutMem a sz x).mulHigh = s.mulHigh := rfl
@[simp] theorem State.hostPutMem_hostPc (s : State) (a : Word) (sz : Size) (x : Word) : (s.hostPutMem a sz x).hostPc = s.hostPc := rfl
@[simp] theorem State.hostPutMem_stored (s : State) (a : Word) (sz : Size) (x : Word) : (s.hostPutMem a sz x).stored = s.stored := rfl
@[simp] theorem State.hostPutMem_oldCode (s : State) (a : Word) (sz : Size) (x : Word) : (s.hostPutMem a sz x).oldCode = s.oldCode := rfl
@[simp] theorem State.hostPutMem_inputs (s : State) (a : Word) (sz : Size) (x : Word) : (s.hostPutMem a sz x).inputs = s.inputs := rfl
@[simp] theorem State.hostPutMem_hostData (s : State) (a : Word) (sz : Size) (x : Word) : (s.hostPutMem a sz x).hostData = s.hostData := rfl
@[simp] theorem State.hostPutMem_draws (s : State) (a : Word) (sz : Size) (x : Word) : (s.hostPutMem a sz x).draws = s.draws := rfl

/-! ### running -/

@[simp] theorem State.running_cfg (s : State) : s.running.cfg = s.cfg := rfl
@[simp] theorem State.running_regs (s : State) : s.running.regs = s.regs := rfl
@[simp] theorem State.running_mr (s : State) : s.running.mr = s.mr := rfl
@[simp] theorem State.running_lpCount (s : State) : s.running.lpCount = s.lpCount := rfl
@[simp] theorem State.running_lpStart (s : State) : s.running.lpStart = s.lpStart := rfl
@[simp] theorem State.running_lpEnd (s : State) : s.running.lpEnd = s.lpEnd := rfl
@[simp] theorem State.running_pc (s : State) : s.running.pc = s.pc := rfl
@[simp] theorem State.running_z (s : State) : s.running.z = s.z := rfl
@[simp] theorem State.running_n (s : State) : s.running.n = s.n := rfl
@[simp] theorem State.running_c (s : State) : s.running.c = s.c := rfl
@[simp] theorem State.running_v (s : State) : s.running.v = s.v := rfl
@[simp] theorem State.running_e1 (s : State) : s.running.e1 = s.e1 := rfl
@[simp] theorem State.running_e2 (s : State) : s.running.e2 = s.e2 := rfl
@[simp] theorem State.running_h (s : State) : s.running.h = false := rfl
@[simp] theorem State.running_semArc (s : State) : s.running.semArc = s.semArc := rfl
@[simp] theorem State.running_semHost (s : State) : s.running.semHost = s.semHost := rfl
@[simp] theorem State.running_loads (s : State) : s.running.loads = s.loads := rfl
@[simp] theorem State.running_sh (s : State) : s.running.sh = s.sh := rfl
@[simp] theorem State.running_bh (s : State) : s.running.bh = s.bh := rfl
@[simp] theorem State.running_zz (s : State) : s.running.zz = false := rfl
@[simp] theorem State.running_ss (s : State) : s.running.ss = s.ss := rfl
@[simp] theorem State.running_is (s : State) : s.running.is = s.is := rfl
@[simp] theorem State.running_mem (s : State) : s.running.mem = s.mem := rfl
@[simp] theorem State.running_buffer (s : State) : s.running.buffer = s.buffer := rfl
@[simp] theorem State.running_slot (s : State) : s.running.slot = s.slot := rfl
@[simp] theorem State.running_lpLag (s : State) : s.running.lpLag = s.lpLag := rfl
@[simp] theorem State.running_startHist (s : State) : s.running.startHist = s.startHist := rfl
@[simp] theorem State.running_endHist (s : State) : s.running.endHist = s.endHist := rfl
@[simp] theorem State.running_countHist (s : State) : s.running.countHist = s.countHist := rfl
@[simp] theorem State.running_mulBusy (s : State) : s.running.mulBusy = s.mulBusy := rfl
@[simp] theorem State.running_mulHigh (s : State) : s.running.mulHigh = s.mulHigh := rfl
@[simp] theorem State.running_hostPc (s : State) : s.running.hostPc = s.hostPc := rfl
@[simp] theorem State.running_stored (s : State) : s.running.stored = s.stored := rfl
@[simp] theorem State.running_oldCode (s : State) : s.running.oldCode = s.oldCode := rfl
@[simp] theorem State.running_inputs (s : State) : s.running.inputs = [] := rfl
@[simp] theorem State.running_hostData (s : State) : s.running.hostData = s.hostData := rfl
@[simp] theorem State.running_draws (s : State) : s.running.draws = s.draws := rfl

end Sys2Proof.Machine
end

