-- ==== Sys2Proof/Laws/Frames.lean ====
section
/-! SUPPORT. What the shared operations can do, once each: registers written, results completed, exceptions
entered, and the frames of the statements. -/

namespace Sys2Proof

open Machine

/-! ### Outcomes -/

/-- Going on ends in a next state exactly when both parts do. -/
theorem andThen_eq_next {r : Result} {k : State → Result} {t : State} :
    andThen r k = .next t ↔ ∃ u, r = .next u ∧ k u = .next t := by
  unfold andThen; split <;> simp_all

/-! ### Frames -/

theorem Same.refl (s : State) : Same s s := ⟨rfl, rfl, rfl, ⟨rfl, rfl⟩, ⟨rfl, rfl, rfl, rfl⟩, ⟨rfl, rfl⟩,
  ⟨rfl, rfl, rfl⟩, ⟨rfl, rfl, rfl⟩, fun _ h => h, ⟨rfl, rfl⟩, fun _ => rfl, fun _ h => h, ⟨rfl, rfl⟩,
  ⟨rfl, rfl, rfl⟩⟩

theorem Same.trans {s t u : State} (h : Same s t) (k : Same t u) : Same s u := by
  obtain ⟨a1, a2, a3, ⟨a4, a5⟩, ⟨a6, a7, a8, a9⟩, ⟨b1, b2⟩, ⟨b3, b4, b5⟩, ⟨b6, b7, b8⟩, b9, ⟨c1, c2⟩, c3, c8, ⟨c4, c9⟩,
    ⟨c5, c6, c7⟩⟩ := h
  obtain ⟨d1, d2, d3, ⟨d4, d5⟩, ⟨d6, d7, d8, d9⟩, ⟨e1, e2⟩, ⟨e3, e4, e5⟩, ⟨e6, e7, e8⟩, e9, ⟨f1, f2⟩, f3, f8, ⟨f4, f9⟩,
    ⟨f5, f6, f7⟩⟩ := k
  exact ⟨d1.trans a1, d2.trans a2, d3.trans a3, ⟨d4.trans a4, d5.trans a5⟩,
    ⟨d6.trans a6, d7.trans a7, d8.trans a8, d9.trans a9⟩, ⟨e1.trans b1, e2.trans b2⟩,
    ⟨e3.trans b3, e4.trans b4, e5.trans b5⟩, ⟨e6.trans b6, e7.trans b7, e8.trans b8⟩, fun d h => b9 d (e9 d h),
    ⟨f1.trans c1, f2.trans c2⟩, fun x => (f3 x).trans (c3 x), fun e h => c8 e (f8 e h), ⟨f4.trans c4, f9.trans c9⟩,
    ⟨f5.trans c5, f6.trans c6, f7.trans c7⟩⟩

/-- The fetch of an instruction changes none of the framed state. -/
theorem same_issue (s : State) (long : Bool) : Same s (s.issue long) := by
  constructor <;> simp

theorem same_arrive (s : State) (r : CoreReg) : Same s (s.arrive r) := by
  constructor <;> simp +contextual

theorem same_awaitDst (s : State) (d : RegField) : Same s (s.awaitDst d) := by
  cases d
  · exact same_arrive s _
  · exact Same.refl s

/-- An access of the core only takes stores out of the buffer. -/
theorem same_perform (s : State) (a : Word) (z : Size) : Same s (s.perform a z) := by
  constructor <;> simp +contextual

theorem same_touch (s : State) (r : CoreReg) : Same s (s.touch r) := by constructor <;> simp +contextual
theorem same_touch1 (s : State) (o : Src1) : Same s (s.touch1 o) := by
  cases o <;> first | exact same_touch s _ | exact Same.refl s

theorem same_touch2 (s : State) (o : Src2) : Same s (s.touch2 o) := by
  cases o <;>
    first | exact (same_touch s _).trans (same_touch _ _) | exact same_touch s _ | exact Same.refl s

theorem same_touchField (s : State) (d : RegField) : Same s (s.touchField d) := by
  cases d
  · exact same_touch s _
  · exact Same.refl s

/-! ### What depends on framed state only -/

@[simp] theorem State.issue_cond (s : State) (long : Bool) (q : Cond) : (s.issue long).cond q = s.cond q := by
  cases q <;> simp [State.cond]

@[simp] theorem State.touch1_cond (s : State) (o : Src1) (q : Cond) : (s.touch1 o).cond q = s.cond q := by
  cases q <;> simp [State.cond]

@[simp] theorem State.touch2_cond (s : State) (o : Src2) (q : Cond) : (s.touch2 o).cond q = s.cond q := by
  cases q <;> simp [State.cond]

@[simp] theorem State.awaitDst_cond (s : State) (d : RegField) (q : Cond) : (s.awaitDst d).cond q = s.cond q := by
  cases q <;> simp [State.cond]

theorem statusWord_congr {s t : State} (h : Same s t) (p : PAddr) : t.statusWord p = s.statusWord p := by
  simp only [State.statusWord, h.cfg, h.flags, h.enables, h.halt]

theorem Cond.ext_false (s : State) (k : BitVec 4) : s.cond (.ext k) = false := rfl

/-! ### Registers -/

theorem regsWith_ind (s : State) (k : Indicator) (w : Word) : regsWith s (.ind k) w = s.regs := by
  ext i hi; simp [regsWith]

theorem regsWith_get (s : State) (d : RegField) (w : Word) (i : Nat) (hi : i < 32) :
    (regsWith s d w)[i] = if d = .reg ⟨i, by omega⟩ then w else s.regs[i] := by
  simp [regsWith]

theorem regsWith_congr {s t : State} (h : t.regs = s.regs) (d : RegField) (w : Word) :
    regsWith t d w = regsWith s d w := by
  simp only [regsWith, h]

/-- A register written: r0 to r31 as `regsWith` says. -/
theorem State.setReg_regs (s : State) (r : CoreReg) (w : Word) : (s.setReg r w).regs = regsWith s (.reg r) w := by
  ext i hi
  rw [regsWith_get]
  unfold State.setReg
  split
  · rename_i h
    simp only [Vector.getElem_set, RegField.reg.injEq, Fin.ext_iff]
  · rename_i h
    have hne : ¬ RegField.reg r = .reg ⟨i, by omega⟩ := by
      simp only [RegField.reg.injEq, Fin.ext_iff]; omega
    rw [if_neg hne]
    split <;> rfl

/-- A register written: LP_COUNT keeps 24 bits. -/
theorem State.setReg_lpCount (s : State) (r : CoreReg) (w : Word) :
    (s.setReg r w).lpCount = if r = 60 then w.setWidth 24 else s.lpCount := by
  have h60 : r = 60 ↔ r.val = 60 := Fin.ext_iff
  unfold State.setReg
  split
  · rw [if_neg (by rw [h60]; omega)]; rfl
  · split
    · rw [if_pos (h60.2 ‹_›)]; rfl
    · rw [if_neg (by rw [h60]; omega)]; rfl

/-- A register written changes nothing else. -/
theorem same_setReg (s : State) (r : CoreReg) (w : Word) :
    Same { s with regs := regsWith s (.reg r) w } (s.setReg r w) := by
  constructor <;> simp +contextual [State.setReg_regs]

/-- A result written to a destination field. -/
def putDst (s : State) (d : RegField) (w : Word) : State :=
  match d with
  | .reg r => s.setReg r w
  | .ind _ => s

theorem writeDst_eq (s : State) (d : RegField) (w : Word) (h : Writable s d) :
    s.writeDst d w = .next (putDst s d w) := by
  cases d with
  | reg r => simp [State.writeDst, State.writeReg, putDst, h r rfl]
  | ind k => rfl

theorem writeDst_cases {s t : State} {d : RegField} {w : Word} (h : s.writeDst d w = .next t) :
    Writable s d ∧ t = putDst s d w := by
  cases d with
  | reg r =>
    simp only [State.writeDst, State.writeReg] at h
    split at h
    · cases h
    · rename_i hm
      refine ⟨fun r' hr => ?_, by cases h; rfl⟩
      cases hr; exact Bool.eq_false_iff.2 hm
  | ind k => cases h; exact ⟨fun r hr => (by cases hr), rfl⟩

theorem same_putDst (s : State) (d : RegField) (w : Word) : Same { s with regs := regsWith s d w } (putDst s d w) := by
  cases d with
  | reg r => exact same_setReg s r w
  | ind k =>
    have := Same.refl s
    simp only [regsWith_ind]; exact this

theorem putDst_lpCount (s : State) (d : RegField) (w : Word) :
    (putDst s d w).lpCount = if d = .reg 60 then w.setWidth 24 else s.lpCount := by
  cases d with
  | reg r => simp [putDst, State.setReg_lpCount]
  | ind k => simp [putDst]

/-- A frame carried through a write of a destination. -/
theorem Same.putDst {e u : State} (h : Same e u) (d : RegField) (w : Word) :
    Same { e with regs := regsWith e d w } (putDst u d w) := by
  refine Same.trans ?_ (same_putDst u d w)
  rw [regsWith_congr h.regs]
  obtain ⟨d1, d2, d3, ⟨d4, d5⟩, ⟨d6, d7, d8, d9⟩, ⟨e1, e2⟩, ⟨e3, e4, e5⟩, ⟨e6, e7, e8⟩, e9, ⟨f1, f2⟩, f3, f8, ⟨f4, f9⟩,
    ⟨f5, f6, f7⟩⟩ := h
  constructor <;> simp_all

/-- A frame carried through the end of an instruction. -/
theorem Same.retire {e u : State} (h : Same e u) (p : PAddr) : Same e (u.retire p) :=
  h.trans (by constructor <;> simp)

/-- A frame carried through the note of a load. -/
theorem Same.noteLoad {e u : State} (h : Same e u) (d : RegField) :
    Same { e with loads := d :: e.loads } (u.noteLoad d) := by
  obtain ⟨d1, d2, d3, ⟨d4, d5⟩, ⟨d6, d7, d8, d9⟩, ⟨e1, e2⟩, ⟨e3, e4, e5⟩, ⟨e6, e7, e8⟩, e9, ⟨f1, f2⟩, f3, f8, ⟨f4, f9⟩,
    ⟨f5, f6, f7⟩⟩ := h
  constructor <;> simp_all

/-- A frame carried through a store: memory, the note of stored code and the words kept for the host's changes are
those of the store. -/
theorem Same.store {e u : State} (h : Same e u) (a : Word) (z : Size) (v : Word) :
    Same { e with
      mem := (u.store a z v).mem
      buffer := (u.store a z v).buffer
      stored := (u.store a z v).stored
      oldCode := (u.store a z v).oldCode } (u.store a z v) := by
  obtain ⟨d1, d2, d3, ⟨d4, d5⟩, ⟨d6, d7, d8, d9⟩, ⟨e1, e2⟩, ⟨e3, e4, e5⟩, ⟨e6, e7, e8⟩, e9, ⟨f1, f2⟩, f3, f8, ⟨f4, f9⟩,
    ⟨f5, f6, f7⟩⟩ := h
  constructor <;> simp_all

@[simp] theorem putDst_mem (s : State) (d : RegField) (w : Word) : (Sys2Proof.putDst s d w).mem = s.mem := by
  cases d <;> simp [Sys2Proof.putDst]

@[simp] theorem putDst_buffer (s : State) (d : RegField) (w : Word) :
    (Sys2Proof.putDst s d w).buffer = s.buffer := by
  cases d <;> simp [Sys2Proof.putDst]

@[simp] theorem putDst_stored (s : State) (d : RegField) (w : Word) :
    (Sys2Proof.putDst s d w).stored = s.stored := by
  cases d <;> simp [Sys2Proof.putDst]

@[simp] theorem putDst_oldCode (s : State) (d : RegField) (w : Word) :
    (Sys2Proof.putDst s d w).oldCode = s.oldCode := by
  cases d <;> simp [Sys2Proof.putDst]

@[simp] theorem putDst_slot (s : State) (d : RegField) (w : Word) : (putDst s d w).slot = s.slot := by
  cases d <;> simp [putDst]

theorem Writable.congr {s t : State} {d : RegField} (h : Writable s d) (hc : t.cfg = s.cfg) : Writable t d := by
  intro r hr; rw [hc]; exact h r hr

/-! ### Completing -/

/-- The state with an ALU result's flags, in the statements' words. -/
def withOut (s : State) (f : Bool) (o : AluOut) : State :=
  withFlags s f o.z o.n (o.c.getD s.c) (o.v.getD s.v)

/-- A result completed: the destination, the flags, the pc, and nothing else. -/
theorem complete_next {s u : State} {long : Bool} {d : RegField} {f : Bool} {o : AluOut} (hu : Same s u)
    (hc : u.lpCount = (s.issue long).lpCount) (hs : u.slot = s.slot) (hd : Writable s d) :
    ∃ t, u.complete d f o (s.fallThrough long) = .next t ∧
      Same { withOut s f o with regs := regsWith s d o.result } t ∧
      t.lpCount = (if d = .reg 60 then o.result.setWidth 24 else (s.issue long).lpCount) ∧ Passed s long t := by
  refine ⟨_, by rw [State.complete, writeDst_eq _ _ _ (hd.congr hu.cfg)]; rfl, ?_, ?_, ?_, ?_⟩
  · have hp := same_putDst u d o.result
    have hr : regsWith u d o.result = regsWith s d o.result := regsWith_congr hu.regs _ _
    obtain ⟨a1, a2, a3, ⟨a4, a5⟩, ⟨a6, a7, a8, a9⟩, ⟨b1, b2⟩, ⟨b3, b4, b5⟩, ⟨b6, b7, b8⟩, b9, ⟨c1, c2⟩, c3, c8, ⟨c4, c9⟩,
      ⟨c5, c6, c7⟩⟩ := hp
    obtain ⟨d1, d2, d3, ⟨d4, d5⟩, ⟨d6, d7, d8, d9⟩, ⟨e1, e2⟩, ⟨e3, e4, e5⟩, ⟨e6, e7, e8⟩, e9, ⟨f1, f2⟩, f3, f8, ⟨f4, f9⟩,
      ⟨f5, f6, f7⟩⟩ := hu
    rw [hr] at a2
    cases f <;> constructor <;> simp_all [withOut, withFlags, State.setFlags]
  · rw [← hc]
    have := putDst_lpCount u d o.result
    cases f <;> simpa [State.setFlags] using this
  · cases f <;> simp [State.setFlags, State.resumeAddr, hs]
  · simp

/-- An instruction that does nothing. -/
theorem retire_next {s u : State} {long : Bool} (hu : Same s u) (hc : u.lpCount = (s.issue long).lpCount)
    (hs : u.slot = s.slot) :
    Same s (u.retire (s.fallThrough long)) ∧
      (u.retire (s.fallThrough long)).lpCount = (s.issue long).lpCount ∧
      Passed s long (u.retire (s.fallThrough long)) := by
  refine ⟨hu.trans ?_, by simpa using hc, ?_, by simp⟩
  · constructor <;> simp
  · simp [State.resumeAddr, hs]

/-- The dual-operand template, condition true. -/
theorem dualOp_next (fn : Word → Word → Bool → AluOut) (o : Dual) (s : State) (hc : s.cond o.cc = true)
    (hd : Writable s o.dst) :
    ∃ t, dualOp fn o s = .next t ∧
      Same { withOut s o.f (fn (operand1 s o.src) (operand2 s o.src) s.c) with
        regs := regsWith s o.dst (fn (operand1 s o.src) (operand2 s o.src) s.c).result } t ∧
      t.lpCount = (if o.dst = .reg 60 then (fn (operand1 s o.src) (operand2 s o.src) s.c).result.setWidth 24
        else (s.issue o.src.isLong).lpCount) ∧ Passed s o.src.isLong t := by
  simp only [dualOp, State.issue_cond, hc, if_true, State.issue_c]
  exact complete_next ((same_issue s _).trans (same_touch2 _ _) |>.trans (same_awaitDst _ _)) (by simp) (by simp) hd

/-- The dual-operand template, condition false. -/
theorem dualOp_skip (fn : Word → Word → Bool → AluOut) (o : Dual) (s : State) (hc : s.cond o.cc = false)
    (i : Instr) (hi : exec i s = dualOp fn o s) : DoneAs i s o.src.isLong (Same s) := by
  refine ⟨_, by rw [hi]; simp only [dualOp, State.issue_cond, hc]; rfl, ?_⟩
  exact retire_next ((same_issue s _).trans ((same_touch2 _ _).trans (same_awaitDst _ _))) (by simp) (by simp)

/-- The single-operand template, condition true. -/
theorem singleOp_next (fn : Word → Bool → AluOut) (o : Single) (s : State) (hc : s.cond o.cc = true)
    (hd : Writable s o.dst) :
    ∃ t, singleOp fn o s = .next t ∧
      Same { withOut s o.f (fn (operand s o.src) s.c) with
        regs := regsWith s o.dst (fn (operand s o.src) s.c).result } t ∧
      t.lpCount = (if o.dst = .reg 60 then (fn (operand s o.src) s.c).result.setWidth 24
        else (s.issue o.src.isLong).lpCount) ∧ Passed s o.src.isLong t := by
  simp only [singleOp, State.issue_cond, hc, if_true, State.issue_c]
  exact complete_next ((same_issue s _).trans (same_touch1 _ _) |>.trans (same_awaitDst _ _)) (by simp) (by simp) hd

/-- The single-operand template, condition false. -/
theorem singleOp_skip (fn : Word → Bool → AluOut) (o : Single) (s : State) (hc : s.cond o.cc = false)
    (i : Instr) (hi : exec i s = singleOp fn o s) : DoneAs i s o.src.isLong (Same s) := by
  refine ⟨_, by rw [hi]; simp only [singleOp, State.issue_cond, hc]; rfl, ?_⟩
  exact retire_next ((same_issue s _).trans ((same_touch1 _ _).trans (same_awaitDst _ _))) (by simp) (by simp)

/-- The multiply template, condition true. -/
theorem mulOp_next (fn : Word → Word → BitVec 64) (o : MulOp) (s : State) (hc : s.cond o.cc = true) (i : Instr)
    (hi : exec i s = mulOp fn o s) :
    DoneAs i s o.src.isLong fun t => Same { s with mr := t.mr } t ∧
      t.mr = fn (operand1 s o.src) (operand2 s o.src) := by
  refine ⟨_, by rw [hi]; simp only [mulOp, State.issue_cond, hc]; rfl, ⟨?_, by simp; rfl⟩, by simp, ?_, by simp⟩
  · have := (same_touch2 (s.issue o.src.isLong) o.src).loads
    constructor <;> simp_all
  · simp [State.resumeAddr]

/-- The multiply template, condition false. -/
theorem mulOp_skip (fn : Word → Word → BitVec 64) (o : MulOp) (s : State) (hc : s.cond o.cc = false) (i : Instr)
    (hi : exec i s = mulOp fn o s) : DoneAs i s o.src.isLong (Same s) := by
  refine ⟨_, by rw [hi]; simp only [mulOp, State.issue_cond, hc]; rfl, ?_⟩
  exact retire_next ((same_issue s _).trans (same_touch2 _ _)) (by simp) (by simp)

/-! ### Exceptions -/

/-- Entry to a vector: the statements' `Entered`. -/
theorem enter_entered (s : State) (k : Nat) (lv : Level) (ret : PAddr) :
    Entered s k lv ret s.lpCount (s.enter k lv ret) := by
  refine ⟨?_, by simp [vectorAddr], by simp, ?_⟩
  · constructor <;> simp +contextual [State.enter, State.setReg_regs, State.toVector]
    · cases lv <;> rfl
  · have : (s.enter k lv ret).lpCount = (s.setReg (linkReg lv) (s.statusWord ret)).lpCount := rfl
    rw [this, State.setReg_lpCount, if_neg (by cases lv <;> decide)]

/-- An entry after a fetch, seen from before it. -/
theorem Entered.of_same {s u t : State} {k : Nat} {lv : Level} {ret count : PAddr} (h : Same s u)
    (ht : Entered u k lv ret count t) : Entered s k lv ret count t := by
  obtain ⟨hs, hp, hl, hc⟩ := ht
  refine ⟨Same.trans ?_ hs, by rw [hp, h.cfg], hl, hc⟩
  have hr : regsWith u (.reg (linkReg lv)) (u.statusWord ret) = regsWith s (.reg (linkReg lv)) (s.statusWord ret) := by
    rw [regsWith_congr h.regs, statusWord_congr h]
  obtain ⟨d1, d2, d3, ⟨d4, d5⟩, ⟨d6, d7, d8, d9⟩, ⟨e1, e2⟩, ⟨e3, e4, e5⟩, ⟨e6, e7, e8⟩, e9, ⟨f1, f2⟩, f3, f8, ⟨f4, f9⟩,
    ⟨f5, f6, f7⟩⟩ := h
  rw [hr]
  constructor <;> simp_all

end Sys2Proof
end

