-- ==== Sys2Proof/Laws/Access.lean ====
section
/-! SUPPORT. What LD, ST, LR, SR and the branches can do: each shared operation said once. -/

namespace Sys2Proof

open Machine

/-! ### LD and ST -/

/-- The base register as a field: what `State.writeBack` and `State.spoilBase` write. -/
theorem writeBack_eq (s : State) (awb : Bool) (b : RegField) (a : Word) :
    s.writeBack (wbReg awb b) a = s.writeDst (backTo awb b) a := by
  cases b <;> cases awb <;> rfl

/-- A load that completes. -/
theorem load_next {s u e : State} {long : Bool} {d b : RegField} {awb : Bool} {a : Word} {z : Size} {x : Bool}
    (hu : Same s u) (hc : u.lpCount = (s.issue long).lpCount) (hs : u.slot = s.slot) (hm : u.mem = s.mem)
    (hv : memValid s.cfg a.toNat (Size.bytes z) .load = true) (ha : accessOk s.cfg a z = true)
    (hd : Writable s d) (hw : Writable s (backTo awb b)) :
    ∃ t, u.load e d (wbReg awb b) a z x (s.fallThrough long) = .next t ∧
      Same { s with
        loads := d :: s.loads
        regs := regsWith { s with regs := regsWith s (backTo awb b) a } d
          (extendLoad z x (memRead s.cfg.endian s.mem a z)) } t ∧
      t.loads.head? = some d ∧ t.buffer = (u.perform a z).buffer ∧
      (d ≠ .reg 60 → t.lpCount = if backTo awb b = .reg 60 then a.setWidth 24 else (s.issue long).lpCount) ∧
      Passed s long t := by
  have hcu : u.cfg = s.cfg := hu.cfg
  have hp : Same s (u.perform a z) := hu.trans (same_perform u a z)
  have hpc : (u.perform a z).lpCount = (s.issue long).lpCount := by simpa using hc
  have hps : (u.perform a z).slot = s.slot := by simpa using hs
  generalize hpu : u.perform a z = v at hp hpc hps
  have hb : v.writeBack (wbReg awb b) a = .next (putDst v (backTo awb b) a) := by
    rw [writeBack_eq, writeDst_eq _ _ _ (hw.congr hp.cfg)]
  have hcfg : (putDst v (backTo awb b) a).cfg = s.cfg := ((same_putDst v _ a).cfg).trans hp.cfg
  generalize hval : extendLoad z x (memRead s.cfg.endian s.mem a z) = val
  obtain ⟨y, hy⟩ : ∃ y, (putDst v (backTo awb b) a).writeLoaded d val =
      .next (putDst (putDst v (backTo awb b) a) d y) ∧
      (d ≠ .reg 60 → y = val) := by
    unfold State.writeLoaded
    split
    · rename_i h; subst h; exact ⟨_, rfl, fun h => absurd rfl h⟩
    · exact ⟨val, writeDst_eq _ _ _ (hd.congr hcfg), fun _ => rfl⟩
  have hload : u.load e d (wbReg awb b) a z x (s.fallThrough long) =
      .next (((putDst (putDst v (backTo awb b) a) d y).noteLoad d).retire (s.fallThrough long)) := by
    simp only [State.load, hcu, hv, ha, Bool.not_true, Bool.false_eq_true, if_false, hpu, hb, hm, hval, andThen, hy.1]
  have h60 : ∀ (e : State), regsWith e d y = regsWith e d val := by
    intro e
    by_cases h60 : d = .reg 60
    · subst h60
      ext i hi
      have hne : ¬ RegField.reg 60 = .reg ⟨i, by omega⟩ := by
        simp only [RegField.reg.injEq, Fin.ext_iff]; show ¬ 60 = i; omega
      rw [regsWith_get, regsWith_get, if_neg hne, if_neg hne]
    · rw [hy.2 h60]
  refine ⟨_, hload, ?_, by simp, by simp, ?_, ?_, by simp⟩
  · have h1 := (((hp.putDst (backTo awb b) a).putDst d y).noteLoad d).retire (s.fallThrough long)
    rw [h60] at h1
    exact h1
  · intro h60
    simp only [State.retire_lpCount, State.noteLoad_lpCount, putDst_lpCount, if_neg h60, hpc]
  · simp [State.resumeAddr, hps]

/-- A store that completes. -/
theorem storeTo_next {s u e : State} {long : Bool} {b : RegField} {awb : Bool} {a v : Word} {z : Size}
    (hu : Same s u) (hc : u.lpCount = (s.issue long).lpCount) (hs : u.slot = s.slot) (hm : u.mem = s.mem)
    (hv : memValid s.cfg a.toNat (Size.bytes z) .store = true) (ha : accessOk s.cfg a z = true)
    (hw : Writable s (backTo awb b)) :
    ∃ t, u.storeTo e (wbReg awb b) a z v (s.fallThrough long) = .next t ∧
      Same { s with
        mem := t.mem, buffer := t.buffer, stored := t.stored, oldCode := t.oldCode
        regs := regsWith s (backTo awb b) a } t ∧
      t.mem = memWrite s.cfg.endian s.mem a z v ∧
      t.oldCode = s.oldCode.map (OldCode.redo s.cfg.endian fun m => memWrite s.cfg.endian m a z v) ∧
      t.buffer = (u.store a z v).buffer ∧
      t.lpCount = (if backTo awb b = .reg 60 then a.setWidth 24 else (s.issue long).lpCount) ∧ Passed s long t := by
  have hb : (u.store a z v).writeBack (wbReg awb b) a = .next (putDst (u.store a z v) (backTo awb b) a) := by
    rw [writeBack_eq, writeDst_eq _ _ _ (hw.congr (by simp [hu.cfg]))]
  have hst : u.storeTo e (wbReg awb b) a z v (s.fallThrough long) =
      .next ((putDst (u.store a z v) (backTo awb b) a).retire (s.fallThrough long)) := by
    simp only [State.storeTo, hu.cfg, hv, ha, Bool.not_true, Bool.false_eq_true, if_false, hb, andThen]
  refine ⟨_, hst, ?_, ?_, ?_, by simp, ?_, ?_, by simp⟩
  · have h1 := ((hu.store a z v).putDst (backTo awb b) a).retire (s.fallThrough long)
    simpa [regsWith] using h1
  · simp [hm, hu.cfg]
  · simp [hu.cfg, hu.stored.2]
  · simp only [State.retire_lpCount, putDst_lpCount, State.store_lpCount, hc]
  · simp [State.resumeAddr, hs]

/-! ### The hazard windows (70_reset_and_hazards.md R404 to R407) -/

/-- A register that may lag shows its current value or one of the history. -/
theorem pickLag_cases (l : List Lag) (i : Nat) (c : PAddr) : pickLag l i c = c ∨ ∃ e ∈ l, pickLag l i c = e.old := by
  induction l generalizing i with
  | nil => exact .inl rfl
  | cons e l ih =>
    cases i with
    | zero => exact .inr ⟨e, List.mem_cons_self, rfl⟩
    | succ i => exact (ih i).elim .inl fun ⟨d, hd, h⟩ => .inr ⟨d, List.mem_cons_of_mem _ hd, h⟩

/-! ### Branches -/

/-- The slot's word allows the branch to run. -/
theorem slotted_next {n : SlotMode} {effect : State → PAddr → State} {s : State} (h : SlotOk s n) :
    slotted n effect s = .next (effect (s.issue false) (s.fallThrough false)) := by
  obtain ⟨h1, h0, h2, h3⟩ := h
  unfold slotted
  split
  · exact absurd ‹_› (h1 _)
  · dsimp only
    split
    · exact absurd ‹_› h0
    · exact absurd ‹_› h2
    · exact absurd ‹_› (h3 (by simp))
    · exact absurd ‹_› (h3 (by simp))
    · rfl

/-- Everything a branch can do. -/
theorem slotted_cases {n : SlotMode} {effect : State → PAddr → State} {s t : State} (h : slotted n effect s = .next t) :
    (∀ target, s.slot ≠ .run target) ∧
      (t = s.holdAtBrk ∨ t = effect (s.issue false) (s.fallThrough false)) := by
  unfold slotted at h
  split at h
  · cases h
  · rename_i hs
    refine ⟨hs, ?_⟩
    dsimp only at h
    split at h <;> cases h <;> simp

/-- The bounds a fetch compares with are in force. -/
theorem loopBounds_inForce (s : State) (k : Nat) : InForce s (s.loopBounds k).1 (s.loopBounds k).2 := by
  unfold InForce State.loopBounds
  cases s.lpLag
  · exact ⟨pickLag_cases .., pickLag_cases ..⟩
  · rfl

/-- Where the loop mechanism sends the fetch after the one at `a`. -/
theorem loopAddr_inForce (s : State) (k : Nat) (a : PAddr) :
    ∃ start stop count, InForce s start stop ∧ (count = s.lpCount ∨ ∃ e ∈ s.countHist, count = e.old) ∧
      s.loopAddr k a = if a + 1 = stop ∧ count ≠ 1 then start else a + 1 :=
  ⟨_, _, s.testCount k, loopBounds_inForce s k, pickLag_cases .., by simp [State.loopAddr, State.loopHit]⟩

/-- The fetch of a word keeps the loop registers settled. -/
theorem settled_loopFetch {s : State} (h : LoopSettled s) (k : Nat) (a : PAddr) : LoopSettled (s.loopFetch k a) := by
  obtain ⟨-, h2, h3, h4⟩ := h
  unfold LoopSettled State.loopFetch State.loopDecrement
  rw [h4]
  split <;> simp [decLag, h2, h3, h4]

/-- The loop registers stay settled from one fetch to the next. -/
theorem settled_issue {s : State} (h : LoopSettled s) : LoopSettled (s.issue false).aged := by
  have aged : ∀ {t : State}, LoopSettled t → LoopSettled t.aged := fun ⟨h1, h2, h3, h4⟩ =>
    ⟨h1, by simp [h2, ageLags], by simp [h3, ageLags], by simp [h4, ageLags]⟩
  exact aged (settled_loopFetch (show LoopSettled s.tick from aged h) 0 s.pc)

/-- The loop rule where no write of a loop register is recent. -/
theorem loopAddr_settled {s : State} (h : LoopSettled s) (k : Nat) (a : PAddr) :
    s.loopAddr k a = if a + 1 = s.lpEnd ∧ s.lpCount ≠ 1 then s.lpStart else a + 1 := by
  obtain ⟨h1, h2, h3, h4⟩ := h
  simp [State.loopAddr, State.loopHit, State.loopBounds, State.testCount, h1, h2, h3, h4, pickLag]

/-- The skip of a slot, as the statements say it. -/
theorem skips (s : State) : Skips s ((s.issue false).aged.loopAddr 1 (s.fallThrough false)) :=
  ⟨loopAddr_inForce .., fun h => by simp [loopAddr_settled (settled_issue h)]⟩

/-- The execution scheme of R203, as the statements say it. -/
theorem transfer_went (s u : State) (n : SlotMode) (j : Bool) (target : PAddr)
    (hl : u.aged.loopAddr 1 (s.fallThrough false) = (s.issue false).aged.loopAddr 1 (s.fallThrough false)) :
    Went s n j target (u.transfer n j (s.fallThrough false) target) := by
  cases j <;> cases n <;> simp [Went, State.transfer, hl, skips]

theorem same_transfer (s : State) (n : SlotMode) (j : Bool) (ds target : PAddr) :
    Same s (s.transfer n j ds target) := by
  constructor <;> simp

/-- A branch refused in a delay slot, and what a BRK in its slot does. -/
theorem same_holdAtBrk (s : State) : HaltedFrom s s.sh true s.holdAtBrk := by
  unfold HaltedFrom; constructor <;> simp [State.holdAtBrk]

/-! ### SR -/

/-- Everything an SR can do. -/
theorem auxWrite_cases {s t : State} {a v : Word} (h : s.auxWrite a v = .next t) :
    (a = 1 ∧ t = { s with semArc := semClaim (semMask s.cfg) s.semHost v }) ∨
    (a = 2 ∧ t = { s with lpStart := v.setWidth 24, startHist := ⟨s.lpStart, 0⟩ :: s.startHist }) ∨
    (a = 3 ∧ t = { s with lpEnd := v.setWidth 24, endHist := ⟨s.lpEnd, 0⟩ :: s.endHist }) ∨
    (a = 0x12 ∧ s.cfg.hasMul = true ∧ t = s.writeMulHi v) ∨ t = s := by
  unfold State.auxWrite at h
  repeat' split at h
  all_goals first | cases h; done | skip
  all_goals (cases h; simp_all)

end Sys2Proof
end

