-- ==== Sys2Proof/Laws/Keeps.lean ====
section
/-! SUPPORT. What any instruction leaves of the state the invariant speaks of. -/

namespace Sys2Proof

open Machine

/-- What every instruction does to parameters, memory, semaphores and the halt state. -/
structure Keeps (s t : State) : Prop where
  cfg : t.cfg = s.cfg
  mem : t.mem = s.mem ∨ ∃ e a z v, t.mem = memWrite e s.mem a z v
  semHost : t.semHost = s.semHost
  semArc : t.semArc = s.semArc ∨ ∃ v, t.semArc = semClaim (semMask s.cfg) s.semHost v
  halt : t.h = true ∨ (t.h = s.h ∧ t.sh = s.sh ∧ t.bh = s.bh ∧ t.hostPc = s.hostPc)
  step : t.ss = s.ss ∧ t.is = s.is
  host : t.inputs = s.inputs ∧ t.hostData = s.hostData
  apart : Apart s → Apart t

/-- A state that agrees on all of that. -/
theorem Keeps.of_eq {s t : State} (h1 : t.cfg = s.cfg) (h2 : t.mem = s.mem) (h3 : t.semHost = s.semHost)
    (h4 : t.semArc = s.semArc) (h5 : t.h = s.h ∧ t.sh = s.sh ∧ t.bh = s.bh ∧ t.hostPc = s.hostPc)
    (h6 : t.ss = s.ss ∧ t.is = s.is) (h7 : t.inputs = s.inputs ∧ t.hostData = s.hostData)
    (h8 : t.buffer = s.buffer) : Keeps s t :=
  ⟨h1, .inl h2, h3, .inl h4, .inr h5, h6, h7, fun h => by unfold Apart; rw [h8]; exact h⟩

/-- After an update that touches none of it, only the last update counts. -/
theorem Keeps.of_left {s u t : State} (h : Keeps u t) (h1 : u.cfg = s.cfg) (h2 : u.mem = s.mem)
    (h3 : u.semHost = s.semHost) (h4 : u.semArc = s.semArc)
    (h5 : u.h = s.h ∧ u.sh = s.sh ∧ u.bh = s.bh ∧ u.hostPc = s.hostPc) (h6 : u.ss = s.ss ∧ u.is = s.is)
    (h7 : u.inputs = s.inputs ∧ u.hostData = s.hostData) (h8 : u.buffer = s.buffer) : Keeps s t := by
  obtain ⟨k1, k2, k3, k4, k5, k6, k7, k8⟩ := h
  simp only [Apart, h8] at k8
  rw [h1, h2] at *
  rw [h3, h4, h5.1, h5.2.1, h5.2.2.1, h5.2.2.2, h6.1, h6.2, h7.1, h7.2] at *
  exact ⟨k1, k2, k3, k4, k5, k6, k7, k8⟩

theorem keeps_putDst (s : State) (d : RegField) (w : Word) : Keeps s (putDst s d w) := by
  cases d
  · exact .of_eq (by simp [putDst]) (by simp [putDst]) (by simp [putDst]) (by simp [putDst]) (by simp [putDst])
      (by simp [putDst]) (by simp [putDst]) (by simp [putDst])
  · exact .of_eq rfl rfl rfl rfl ⟨rfl, rfl, rfl, rfl⟩ ⟨rfl, rfl⟩ ⟨rfl, rfl⟩ rfl

/-- An update after the last one that touches none of it. -/
theorem Keeps.of_right {s u t : State} (h : Keeps s u) (h1 : t.cfg = u.cfg) (h2 : t.mem = u.mem)
    (h3 : t.semHost = u.semHost) (h4 : t.semArc = u.semArc)
    (h5 : t.h = u.h ∧ t.sh = u.sh ∧ t.bh = u.bh ∧ t.hostPc = u.hostPc) (h6 : t.ss = u.ss ∧ t.is = u.is)
    (h7 : t.inputs = u.inputs ∧ t.hostData = u.hostData) (h8 : t.buffer = u.buffer) : Keeps s t := by
  obtain ⟨k1, k2, k3, k4, k5, k6, k7, k8⟩ := h
  refine ⟨h1.trans k1, by rwa [h2], h3.trans k3, by rwa [h4], ?_, by rwa [h6.1, h6.2], by rwa [h7.1, h7.2],
    fun h => by unfold Apart; rw [h8]; exact k8 h⟩
  rwa [h5.1, h5.2.1, h5.2.2.1, h5.2.2.2]

/-- An access of the core takes stores out of the buffer. -/
theorem keeps_perform (s : State) (a : Word) (z : Size) : Keeps s (s.perform a z) :=
  ⟨rfl, .inl rfl, rfl, .inl rfl, .inr ⟨rfl, rfl, rfl, rfl⟩, ⟨rfl, rfl⟩, ⟨rfl, rfl⟩,
    fun h => List.Pairwise.sublist List.filter_sublist h⟩

theorem overlap_comm (a : Word) (z : Size) (b : Word) (y : Size) : overlap a z b y = overlap b y a z :=
  Bool.or_comm _ _

/-- A store takes out the stores it meets and comes into the buffer itself. -/
theorem apart_store {s : State} (h : Apart s) (a : Word) (z : Size) (v : Word) : Apart (s.store a z v) := by
  simp only [Apart, State.store_buffer, List.pairwise_cons]
  refine ⟨fun e he => ?_, (keeps_perform s a z).apart h⟩
  simp only [State.perform, List.mem_filter] at he
  rw [overlap_comm]
  simpa using he.2

/-- Everything a completion can do. -/
theorem complete_cases {s t : State} {d : RegField} {f : Bool} {o : AluOut} {p : PAddr}
    (h : s.complete d f o p = .next t) : Writable s d ∧ t = ((putDst s d o.result).setFlags f o).retire p := by
  unfold State.complete andThen at h
  split at h <;> cases h
  rename_i u hu
  obtain ⟨hw, rfl⟩ := writeDst_cases hu
  exact ⟨hw, rfl⟩

theorem keeps_complete {s t : State} {d : RegField} {f : Bool} {o : AluOut} {p : PAddr}
    (h : s.complete d f o p = .next t) : Keeps s t ∧ t.slot = .none := by
  obtain ⟨-, rfl⟩ := complete_cases h
  exact ⟨(keeps_putDst s d o.result).of_right (by simp) (by simp) (by simp) (by simp) (by simp) (by simp) (by simp)
    (by simp), by simp⟩

theorem keeps_dualOp {fn : Word → Word → Bool → AluOut} {o : Dual} {s t : State} (h : dualOp fn o s = .next t) :
    Keeps s t ∧ t.slot = .none := by
  unfold dualOp at h
  dsimp only at h
  split at h
  · obtain ⟨k, hs⟩ := keeps_complete h
    exact ⟨k.of_left (by simp) (by simp) (by simp) (by simp) (by simp) (by simp) (by simp) (by simp), hs⟩
  · cases h
    exact ⟨.of_eq (by simp) (by simp) (by simp) (by simp) (by simp) (by simp) (by simp) (by simp), by simp⟩

theorem keeps_singleOp {fn : Word → Bool → AluOut} {o : Single} {s t : State} (h : singleOp fn o s = .next t) :
    Keeps s t ∧ t.slot = .none := by
  unfold singleOp at h
  dsimp only at h
  split at h
  · obtain ⟨k, hs⟩ := keeps_complete h
    exact ⟨k.of_left (by simp) (by simp) (by simp) (by simp) (by simp) (by simp) (by simp) (by simp), hs⟩
  · cases h
    exact ⟨.of_eq (by simp) (by simp) (by simp) (by simp) (by simp) (by simp) (by simp) (by simp), by simp⟩

theorem keeps_mulOp {fn : Word → Word → BitVec 64} {o : MulOp} {s t : State} (h : mulOp fn o s = .next t) :
    Keeps s t ∧ t.slot = .none := by
  unfold mulOp at h
  dsimp only at h
  split at h <;> cases h <;>
    exact ⟨.of_eq (by simp) (by simp) (by simp) (by simp) (by simp) (by simp) (by simp) (by simp), by simp⟩

theorem keeps_enter (s : State) (k : Nat) (lv : Level) (ret : PAddr) : Keeps s (s.enter k lv ret) :=
  .of_eq (by simp) (by simp) (by simp) (by simp) (by simp) (by simp) (by simp) (by simp)

theorem keeps_instructionError (s : State) (long : Bool) :
    Keeps s (s.instructionError long) ∧ (s.instructionError long).slot = .none :=
  ⟨.of_eq (by simp [State.instructionError]) (by simp [State.instructionError]) (by simp [State.instructionError])
    (by simp [State.instructionError]) (by simp [State.instructionError]) (by simp [State.instructionError])
    (by simp [State.instructionError]) (by simp [State.instructionError]), by simp [State.instructionError]⟩

/-- Everything a load can do: the memory error, or the write-back and the data. -/
theorem load_cases {s e t : State} {d b : RegField} {awb : Bool} {a : Word} {z : Size} {x : Bool} {p : PAddr}
    (h : s.load e d (wbReg awb b) a z x p = .next t) :
    t = ((e.spoilBase (wbReg awb b) a).spoilDst d).memoryError ∨
    ∃ w, t = (((putDst (putDst (s.perform a z) (backTo awb b) a) d w).noteLoad d).retire p) := by
  unfold State.load at h
  split at h
  · cases h; exact .inl rfl
  · split at h
    · cases h
    · rw [writeBack_eq, andThen_eq_next] at h
      obtain ⟨u, hu, h⟩ := h
      obtain ⟨-, rfl⟩ := writeDst_cases hu
      rw [andThen_eq_next] at h
      obtain ⟨u, hu, h⟩ := h
      cases h
      refine .inr ?_
      unfold State.writeLoaded at hu
      split at hu
      · rename_i h60; subst h60; cases hu; exact ⟨_, rfl⟩
      · obtain ⟨-, rfl⟩ := writeDst_cases hu; exact ⟨_, rfl⟩

/-- What is kept is kept by a second update. -/
theorem Keeps.putDst {s u : State} (h : Keeps s u) (d : RegField) (w : Word) : Keeps s (putDst u d w) := by
  cases d
  · exact h.of_right (by simp [Sys2Proof.putDst]) (by simp [Sys2Proof.putDst]) (by simp [Sys2Proof.putDst])
      (by simp [Sys2Proof.putDst]) (by simp [Sys2Proof.putDst]) (by simp [Sys2Proof.putDst])
      (by simp [Sys2Proof.putDst]) (by simp [Sys2Proof.putDst])
  · exact h

theorem keeps_load {s e t : State} {d b : RegField} {awb : Bool} {a : Word} {z : Size} {x : Bool} {p : PAddr}
    (h : s.load e d (wbReg awb b) a z x p = .next t) : (Keeps e t ∨ Keeps s t) ∧ t.slot = .none := by
  rcases load_cases h with rfl | ⟨w, rfl⟩
  · exact ⟨.inl (.of_eq (by simp [State.memoryError]) (by simp [State.memoryError]) (by simp [State.memoryError])
      (by simp [State.memoryError]) (by simp [State.memoryError]) (by simp [State.memoryError])
      (by simp [State.memoryError]) (by simp [State.memoryError])), by simp [State.memoryError]⟩
  · exact ⟨.inr ((((keeps_perform s a z).putDst (backTo awb b) a).putDst d w).of_right (by simp) (by simp) (by simp) (by simp)
      (by simp) (by simp) (by simp) (by simp)), by simp⟩

/-- Everything a store can do: the memory error, or the store and the write-back. -/
theorem storeTo_cases {s e t : State} {b : RegField} {awb : Bool} {a v : Word} {z : Size} {p : PAddr}
    (h : s.storeTo e (wbReg awb b) a z v p = .next t) :
    t = ((e.spoilBase (wbReg awb b) a).store a z (e.freeWord .stored)).memoryError ∨
    t = (putDst (s.store a z v) (backTo awb b) a).retire p := by
  unfold State.storeTo at h
  split at h
  · cases h; exact .inl rfl
  · split at h
    · cases h
    · rw [writeBack_eq, andThen_eq_next] at h
      obtain ⟨u, hu, h⟩ := h
      obtain ⟨-, rfl⟩ := writeDst_cases hu
      cases h
      exact .inr rfl

theorem keeps_store (s : State) (a : Word) (z : Size) (v : Word) : Keeps s (s.store a z v) :=
  ⟨rfl, .inr ⟨s.cfg.endian, a, z, v, rfl⟩, rfl, .inl rfl, .inr ⟨rfl, rfl, rfl, rfl⟩, ⟨rfl, rfl⟩, ⟨rfl, rfl⟩,
    fun h => apart_store h a z v⟩

theorem keeps_storeTo {s e t : State} {b : RegField} {awb : Bool} {a v : Word} {z : Size} {p : PAddr}
    (h : s.storeTo e (wbReg awb b) a z v p = .next t) : (Keeps e t ∨ Keeps s t) ∧ t.slot = .none := by
  rcases storeTo_cases h with rfl | rfl
  · have k := (keeps_store (e.spoilBase (wbReg awb b) a) a z (e.freeWord .stored)).of_left (s := e) (by simp)
      (by simp) (by simp) (by simp) (by simp) (by simp) (by simp) (by simp)
    exact ⟨.inl (k.of_right (by simp [State.memoryError]) (by simp [State.memoryError]) (by simp [State.memoryError])
      (by simp [State.memoryError]) (by simp [State.memoryError]) (by simp [State.memoryError])
      (by simp [State.memoryError]) (by simp [State.memoryError])), by simp [State.memoryError]⟩
  · exact ⟨.inr (((keeps_store s a z v).putDst (backTo awb b) a).of_right (by simp) (by simp) (by simp) (by simp) (by simp)
      (by simp) (by simp) (by simp)), by simp⟩

theorem keeps_transfer (s : State) (n : SlotMode) (j : Bool) (ds target : PAddr) :
    Keeps s (s.transfer n j ds target) :=
  .of_eq (by simp) (by simp) (by simp) (by simp) (by simp) (by simp) (by simp) (by simp)

theorem keeps_holdAtBrk (s : State) : Keeps s s.holdAtBrk ∧ s.holdAtBrk.slot = .none :=
  ⟨⟨rfl, .inl rfl, rfl, .inl rfl, .inl rfl, ⟨rfl, rfl⟩, ⟨rfl, rfl⟩, fun h => h⟩, rfl⟩

/-- A branch whose own effects keep everything. -/
theorem keeps_slotted {n : SlotMode} {effect : State → PAddr → State} {s t : State} (h : slotted n effect s = .next t)
    (he : Keeps (s.issue false) (effect (s.issue false) (s.fallThrough false))) : Keeps s t := by
  obtain ⟨-, rfl | rfl⟩ := slotted_cases h
  · exact (keeps_holdAtBrk s).1
  · exact he.of_left (by simp) (by simp) (by simp) (by simp) (by simp) (by simp) (by simp) (by simp)

/-- Everything LR can do. -/
theorem keeps_execLr {o : LrOp} {s t : State} (h : execLr o s = .next t) : Keeps s t ∧ t.slot = .none := by
  unfold execLr at h
  dsimp only at h
  rw [andThen_eq_next] at h
  obtain ⟨u, hu, h⟩ := h
  obtain ⟨-, rfl⟩ := writeDst_cases hu
  cases h
  generalize hv : (State.auxRead _ _ _ _) = v
  have k := (keeps_putDst ((((s.issue o.base.isLong).touchField o.base).awaitDst o.dst).auxSeen
    ((s.issue o.base.isLong).fieldVal .operand1 o.base o.limm o.off)) o.dst v).of_left (s := s) (by simp) (by simp)
    (by simp) (by simp) (by simp) (by simp) (by simp) (by simp)
  exact ⟨k.of_right (by simp) (by simp) (by simp) (by simp) (by simp) (by simp) (by simp) (by simp), by simp⟩

/-- Everything SR can do. -/
theorem keeps_execSr {o : SrOp} {s t : State} (h : execSr o s = .next t) : Keeps s t ∧ t.slot = .none := by
  unfold execSr at h
  dsimp only at h
  rw [andThen_eq_next] at h
  obtain ⟨w, hw, h⟩ := h
  cases h
  refine ⟨?_, by simp⟩
  rcases auxWrite_cases hw with ⟨-, rfl⟩ | ⟨-, rfl⟩ | ⟨-, rfl⟩ | ⟨-, -, rfl⟩ | rfl
  · exact ⟨by simp, .inl (by simp), by simp,
      .inr ⟨(s.issue (SrOp.isLong o)).fieldVal .operand2 o.data o.limm o.off, by simp⟩, .inr (by simp), by simp,
      by simp, by simp [Apart]⟩
  all_goals exact .of_eq (by simp) (by simp) (by simp) (by simp) (by simp) (by simp) (by simp) (by simp)

theorem keeps_execFlag {o : Single} {s t : State} (h : execFlag o s = .next t) : Keeps s t ∧ t.slot = .none := by
  unfold execFlag at h
  dsimp only at h
  split at h
  · cases h
  · split at h
    · split at h
      · cases h
        exact ⟨⟨by simp [State.selfHalt], .inl (by simp [State.selfHalt]), by simp [State.selfHalt],
          .inl (by simp [State.selfHalt]), .inl (by simp [State.selfHalt]), by simp [State.selfHalt],
          by simp [State.selfHalt], by simp [State.selfHalt, Apart]⟩, by simp [State.selfHalt]⟩
      · cases h
        exact ⟨.of_eq (by simp) (by simp) (by simp) (by simp) (by simp) (by simp) (by simp) (by simp), by simp⟩
    · cases h
      exact ⟨.of_eq (by simp) (by simp) (by simp) (by simp) (by simp) (by simp) (by simp) (by simp), by simp⟩

/-! ### Every instruction -/

theorem keeps_execSwi {s t : State} (h : execSwi s = .next t) : Keeps s t ∧ t.slot = .none := by
  cases h
  exact ⟨(keeps_enter (s.issue false) 2 .exc _).of_left (s := s) (by simp) (by simp) (by simp) (by simp) (by simp)
    (by simp) (by simp) (by simp), by simp⟩

theorem keeps_link (s : State) (n : SlotMode) (ds : PAddr) : Keeps s (s.link n ds) :=
  .of_eq (by simp) (by simp) (by simp) (by simp) (by simp) (by simp) (by simp) (by simp)


/-- What `exec` leaves: see `Keeps`; only a branch outside a delay slot leaves one pending. -/
def KeepsSlot (i : Instr) (s t : State) : Prop :=
  Keeps s t ∧ (t.slot = .none ∨ isBranch i = true ∧ ∀ target, s.slot ≠ .run target)

theorem KeepsSlot.of {i : Instr} {s t : State} (h : Keeps s t ∧ t.slot = .none) : KeepsSlot i s t := ⟨h.1, .inl h.2⟩

theorem keeps_ldRR {o : LoadRR} {s t : State} (h : execLdRR o s = .next t) : KeepsSlot (.ldRR o) s t := by
  exact .of (by
      refine ⟨(keeps_load h).1.elim (fun k => ?_) fun k => ?_, (keeps_load h).2⟩ <;>
        exact k.of_left (by simp) (by simp) (by simp) (by simp) (by simp) (by simp) (by simp) (by simp))

theorem keeps_ldRO {o : LoadRO} {s t : State} (h : execLdRO o s = .next t) : KeepsSlot (.ldRO o) s t := by
  exact .of (by
      refine ⟨(keeps_load h).1.elim (fun k => ?_) fun k => ?_, (keeps_load h).2⟩ <;>
        exact k.of_left (by simp) (by simp) (by simp) (by simp) (by simp) (by simp) (by simp) (by simp))

theorem keeps_lr {o : LrOp} {s t : State} (h : execLr o s = .next t) : KeepsSlot (.lr o) s t := by
  exact .of (keeps_execLr h)

theorem keeps_st {o : StoreOp} {s t : State} (h : execSt o s = .next t) : KeepsSlot (.st o) s t := by
  exact .of (by
      refine ⟨(keeps_storeTo h).1.elim (fun k => ?_) fun k => ?_, (keeps_storeTo h).2⟩ <;>
        exact k.of_left (by simp) (by simp) (by simp) (by simp) (by simp) (by simp) (by simp) (by simp))

theorem keeps_sr {o : SrOp} {s t : State} (h : execSr o s = .next t) : KeepsSlot (.sr o) s t := by
  exact .of (keeps_execSr h)

theorem keeps_flag {o : Single} {s t : State} (h : execFlag o s = .next t) : KeepsSlot (.flag o) s t := by
  exact .of (keeps_execFlag h)

theorem keeps_asr {o : Single} {s t : State} (h : execAsr o s = .next t) : KeepsSlot (.asr o) s t := by
  exact .of (keeps_singleOp h)

theorem keeps_lsr {o : Single} {s t : State} (h : execLsr o s = .next t) : KeepsSlot (.lsr o) s t := by
  exact .of (keeps_singleOp h)

theorem keeps_ror {o : Single} {s t : State} (h : execRor o s = .next t) : KeepsSlot (.ror o) s t := by
  exact .of (keeps_singleOp h)

theorem keeps_rrc {o : Single} {s t : State} (h : execRrc o s = .next t) : KeepsSlot (.rrc o) s t := by
  exact .of (keeps_singleOp h)

theorem keeps_sexb {o : Single} {s t : State} (h : execSexb o s = .next t) : KeepsSlot (.sexb o) s t := by
  exact .of (keeps_singleOp h)

theorem keeps_sexw {o : Single} {s t : State} (h : execSexw o s = .next t) : KeepsSlot (.sexw o) s t := by
  exact .of (keeps_singleOp h)

theorem keeps_extb {o : Single} {s t : State} (h : execExtb o s = .next t) : KeepsSlot (.extb o) s t := by
  exact .of (keeps_singleOp h)

theorem keeps_extw {o : Single} {s t : State} (h : execExtw o s = .next t) : KeepsSlot (.extw o) s t := by
  exact .of (keeps_singleOp h)

theorem keeps_swap {o : Single} {s t : State} (h : execSwap o s = .next t) : KeepsSlot (.swap o) s t := by
  simp only [execSwap] at h
  split at h
  · exact .of (keeps_singleOp h)
  · unfold unassignedOp at h; exact .of (keeps_singleOp h)

theorem keeps_norm {o : Single} {s t : State} (h : execNorm o s = .next t) : KeepsSlot (.norm o) s t := by
  simp only [execNorm] at h
  split at h
  · exact .of (keeps_singleOp h)
  · unfold unassignedOp at h; exact .of (keeps_singleOp h)

theorem keeps_brk {s t : State} (h : execBrk s = .next t) : KeepsSlot .brk s t := by
  cases h
  exact ⟨⟨rfl, .inl rfl, rfl, .inl rfl, .inl rfl, ⟨rfl, rfl⟩, ⟨rfl, rfl⟩, fun h => h⟩, .inl rfl⟩

theorem keeps_sleep {s t : State} (h : execSleep s = .next t) : KeepsSlot .sleep s t := by
  cases h; exact .of ⟨.of_eq (by simp) (by simp) (by simp) (by simp) (by simp) (by simp) (by simp) (by simp), by simp⟩

theorem keeps_swi {s t : State} (h : execSwi s = .next t) : KeepsSlot .swi s t := by
  exact .of (keeps_execSwi h)

theorem keeps_add {o : Dual} {s t : State} (h : execAdd o s = .next t) : KeepsSlot (.add o) s t := by
  exact .of (keeps_dualOp h)

theorem keeps_adc {o : Dual} {s t : State} (h : execAdc o s = .next t) : KeepsSlot (.adc o) s t := by
  exact .of (keeps_dualOp h)

theorem keeps_sub {o : Dual} {s t : State} (h : execSub o s = .next t) : KeepsSlot (.sub o) s t := by
  exact .of (keeps_dualOp h)

theorem keeps_sbc {o : Dual} {s t : State} (h : execSbc o s = .next t) : KeepsSlot (.sbc o) s t := by
  exact .of (keeps_dualOp h)

theorem keeps_and {o : Dual} {s t : State} (h : execAnd o s = .next t) : KeepsSlot (.and o) s t := by
  exact .of (keeps_dualOp h)

theorem keeps_or {o : Dual} {s t : State} (h : execOr o s = .next t) : KeepsSlot (.or o) s t := by
  exact .of (keeps_dualOp h)

theorem keeps_bic {o : Dual} {s t : State} (h : execBic o s = .next t) : KeepsSlot (.bic o) s t := by
  exact .of (keeps_dualOp h)

theorem keeps_xor {o : Dual} {s t : State} (h : execXor o s = .next t) : KeepsSlot (.xor o) s t := by
  exact .of (keeps_dualOp h)

theorem keeps_aslm {o : Dual} {s t : State} (h : execAslm o s = .next t) : KeepsSlot (.aslm o) s t := by
  simp only [execAslm] at h
  split at h
  · exact .of (keeps_dualOp h)
  · cases h; exact .of (keeps_instructionError _ _)

theorem keeps_lsrm {o : Dual} {s t : State} (h : execLsrm o s = .next t) : KeepsSlot (.lsrm o) s t := by
  simp only [execLsrm] at h
  split at h
  · exact .of (keeps_dualOp h)
  · cases h; exact .of (keeps_instructionError _ _)

theorem keeps_asrm {o : Dual} {s t : State} (h : execAsrm o s = .next t) : KeepsSlot (.asrm o) s t := by
  simp only [execAsrm] at h
  split at h
  · exact .of (keeps_dualOp h)
  · cases h; exact .of (keeps_instructionError _ _)

theorem keeps_rorm {o : Dual} {s t : State} (h : execRorm o s = .next t) : KeepsSlot (.rorm o) s t := by
  simp only [execRorm] at h
  split at h
  · exact .of (keeps_dualOp h)
  · cases h; exact .of (keeps_instructionError _ _)

theorem keeps_max {o : Dual} {s t : State} (h : execMax o s = .next t) : KeepsSlot (.max o) s t := by
  simp only [execMax] at h
  split at h
  · exact .of (keeps_dualOp h)
  · cases h; exact .of (keeps_instructionError _ _)

theorem keeps_min {o : Dual} {s t : State} (h : execMin o s = .next t) : KeepsSlot (.min o) s t := by
  simp only [execMin] at h
  split at h
  · exact .of (keeps_dualOp h)
  · cases h; exact .of (keeps_instructionError _ _)

theorem keeps_mul64 {o : MulOp} {s t : State} (h : execMul64 o s = .next t) : KeepsSlot (.mul64 o) s t := by
  simp only [execMul64] at h
  split at h
  · exact .of (keeps_mulOp h)
  · cases h; exact .of (keeps_instructionError _ _)

theorem keeps_mulu64 {o : MulOp} {s t : State} (h : execMulu64 o s = .next t) : KeepsSlot (.mulu64 o) s t := by
  simp only [execMulu64] at h
  split at h
  · exact .of (keeps_mulOp h)
  · cases h; exact .of (keeps_instructionError _ _)

theorem keeps_nop {s t : State} (h : execNop s = .next t) : KeepsSlot .nop s t := by
  exact .of (keeps_dualOp h)

theorem keeps_mov {o : Single} {s t : State} (h : execMov o s = .next t) : KeepsSlot (.mov o) s t := by
  exact .of (keeps_dualOp h)

theorem keeps_asl {o : Single} {s t : State} (h : execAsl o s = .next t) : KeepsSlot (.asl o) s t := by
  exact .of (keeps_dualOp h)

theorem keeps_rlc {o : Single} {s t : State} (h : execRlc o s = .next t) : KeepsSlot (.rlc o) s t := by
  exact .of (keeps_dualOp h)

theorem keeps_rol {o : RolOp} {s t : State} (h : execRol o s = .next t) : KeepsSlot (.rol o) s t := by
  exact .of (keeps_dualOp h)

theorem keeps_bcc {o : BranchOp} {s t : State} (h : execBcc o s = .next t) : KeepsSlot (.bcc o) s t := by
  exact ⟨keeps_slotted h (keeps_transfer _ _ _ _ _), .inr ⟨rfl, (slotted_cases h).1⟩⟩

theorem keeps_blcc {o : BranchOp} {s t : State} (h : execBlcc o s = .next t) : KeepsSlot (.blcc o) s t := by
  refine ⟨keeps_slotted h ?_, .inr ⟨rfl, (slotted_cases h).1⟩⟩
  refine (keeps_transfer _ _ _ _ _).of_left ?_ ?_ ?_ ?_ ?_ ?_ ?_ ?_ <;> split <;> simp

theorem keeps_lpcc {o : BranchOp} {s t : State} (h : execLpcc o s = .next t) : KeepsSlot (.lpcc o) s t := by
  refine ⟨keeps_slotted h ?_, .inr ⟨rfl, (slotted_cases h).1⟩⟩
  refine (keeps_transfer _ _ _ _ _).of_left ?_ ?_ ?_ ?_ ?_ ?_ ?_ ?_ <;> split <;> simp

theorem keeps_jcc {o : JumpOp} {s t : State} (h : execJcc o s = .next t) : KeepsSlot (.jcc o) s t := by
  simp only [execJcc] at h
  split at h
  · refine ⟨keeps_slotted h ?_, .inr ⟨rfl, (slotted_cases h).1⟩⟩
    refine (keeps_transfer _ _ _ _ _).of_left ?_ ?_ ?_ ?_ ?_ ?_ ?_ ?_ <;> split <;> simp
  · split at h
    · cases h
    · rename_i hs
      simp only [Host.Outcome.next.injEq] at h
      subst h
      refine ⟨.of_eq ?_ ?_ ?_ ?_ ?_ ?_ ?_ ?_, .inr ⟨rfl, hs⟩⟩ <;> split <;> simp

theorem keeps_jlcc {o : JumpOp} {s t : State} (h : execJlcc o s = .next t) : KeepsSlot (.jlcc o) s t := by
  simp only [execJlcc] at h
  split at h
  · refine ⟨keeps_slotted h ?_, .inr ⟨rfl, (slotted_cases h).1⟩⟩
    refine (keeps_transfer _ _ _ _ _).of_left ?_ ?_ ?_ ?_ ?_ ?_ ?_ ?_ <;> split <;> simp
  · split at h
    · cases h
    · rename_i hs
      split at h
      · cases h
      · simp only [Host.Outcome.next.injEq] at h
        subst h
        refine ⟨.of_eq ?_ ?_ ?_ ?_ ?_ ?_ ?_ ?_, .inr ⟨rfl, hs⟩⟩ <;> split <;> simp

theorem exec_keeps (i : Instr) {s t : State} (h : exec i s = .next t) : KeepsSlot i s t := by
  cases i with
  | ldRR o => exact keeps_ldRR h
  | ldRO o => exact keeps_ldRO h
  | lr o => exact keeps_lr h
  | st o => exact keeps_st h
  | sr o => exact keeps_sr h
  | flag o => exact keeps_flag h
  | asr o => exact keeps_asr h
  | lsr o => exact keeps_lsr h
  | ror o => exact keeps_ror h
  | rrc o => exact keeps_rrc h
  | sexb o => exact keeps_sexb h
  | sexw o => exact keeps_sexw h
  | extb o => exact keeps_extb h
  | extw o => exact keeps_extw h
  | swap o => exact keeps_swap h
  | norm o => exact keeps_norm h
  | brk => exact keeps_brk h
  | sleep => exact keeps_sleep h
  | swi => exact keeps_swi h
  | add o => exact keeps_add h
  | adc o => exact keeps_adc h
  | sub o => exact keeps_sub h
  | sbc o => exact keeps_sbc h
  | and o => exact keeps_and h
  | or o => exact keeps_or h
  | bic o => exact keeps_bic h
  | xor o => exact keeps_xor h
  | aslm o => exact keeps_aslm h
  | lsrm o => exact keeps_lsrm h
  | asrm o => exact keeps_asrm h
  | rorm o => exact keeps_rorm h
  | max o => exact keeps_max h
  | min o => exact keeps_min h
  | mul64 o => exact keeps_mul64 h
  | mulu64 o => exact keeps_mulu64 h
  | nop => exact keeps_nop h
  | mov o => exact keeps_mov h
  | asl o => exact keeps_asl h
  | rlc o => exact keeps_rlc h
  | rol o => exact keeps_rol h
  | bcc o => exact keeps_bcc h
  | blcc o => exact keeps_blcc h
  | lpcc o => exact keeps_lpcc h
  | jcc o => exact keeps_jcc h
  | jlcc o => exact keeps_jlcc h

end Sys2Proof
end

