-- ==== Sys2Proof/Laws/Buffer.lean ====
section
/-! SUPPORT. The stores the host may not see yet, the note of stored code, and what a step without input and a halt
can do. -/

namespace Sys2Proof

open Machine

/-! ### Stores taken back (20_memory.md R82) -/

/-- Bytes of two accesses that do not overlap are different bytes. -/
theorem overlap_apart {a b : Word} {z y : Size} (h : overlap a z b y = false) {i j : Nat} (hi : i < Size.bytes z)
    (hj : j < Size.bytes y) : (a + BitVec.ofNat 32 i).toNat ≠ (b + BitVec.ofNat 32 j).toNat := by
  intro e
  simp only [overlap, Bool.or_eq_false_iff, decide_eq_false_iff_not, not_lt] at h
  have hz : Size.bytes z ≤ 4 := by cases z <;> decide
  have hy : Size.bytes y ≤ 4 := by cases y <;> decide
  have ha := a.isLt
  have hb := b.isLt
  simp only [BitVec.toNat_sub, BitVec.toNat_add, BitVec.toNat_ofNat] at h e
  omega

/-- Stores put back leave every byte outside them alone. -/
theorem byte_fold_ne {e : Endian} (f : Buffered → Word) (l : List Buffered) (m : Memory) (x : Nat)
    (h : ∀ b ∈ l, ∀ i < Size.bytes b.size, x ≠ (b.addr + BitVec.ofNat 32 i).toNat) :
    (l.foldl (fun m b => memWrite e m b.addr b.size (f b)) m).byte x = m.byte x := by
  induction l generalizing m with
  | nil => rfl
  | cons b l ih =>
    rw [List.foldl_cons, ih _ fun c hc => h c (List.mem_cons_of_mem _ hc)]
    exact byte_memWrite_ne (h b List.mem_cons_self)

/-- Stores put back do not show to an access they do not meet. -/
theorem memRead_fold_apart {e : Endian} (f : Buffered → Word) (l : List Buffered) (m : Memory) (a : Word) (z : Size)
    (h : ∀ b ∈ l, overlap b.addr b.size a z = false) :
    memRead e (l.foldl (fun m b => memWrite e m b.addr b.size (f b)) m) a z = memRead e m a z := by
  unfold memRead
  rw [Memory.readList_congr fun i hi => byte_fold_ne f l m _ fun b hb j hj => (overlap_apart (h b hb) hj hi).symm]

/-- Stores put back keep the canonical form. -/
theorem fold_wf {e : Endian} (f : Buffered → Word) (l : List Buffered) {m : Memory} (hm : m.wf) :
    (l.foldl (fun m b => memWrite e m b.addr b.size (f b)) m).wf := by
  induction l generalizing m with
  | nil => exact hm
  | cons b l ih => exact ih (memWrite_wf hm ..)

/-- Memory as the host sees it is in canonical form. -/
theorem hostMem_wf {s : State} (h : s.mem.wf) : s.hostMem.wf := fold_wf Buffered.old _ h

/-- A host write keeps the canonical form. -/
theorem hostPutMem_wf {s : State} (h : s.mem.wf) (a : Word) (z : Size) (v : Word) : (s.hostPutMem a z v).mem.wf :=
  fold_wf _ _ (memWrite_wf h ..)

/-- Accesses copied from another memory: their bytes are the bytes there, and no other byte changes. -/
theorem byte_fold_copy {e : Endian} (m' : Memory) (l : List Buffered) {m : Memory} (hm : m.wf) (x : Nat) :
    let copied := l.foldl (fun m b => memWrite e m b.addr b.size (memRead e m' b.addr b.size)) m
    (InStore l x → copied.byte x = m'.byte x) ∧ (¬ InStore l x → copied.byte x = m.byte x) := by
  refine ⟨fun h => ?_, fun h => byte_fold_ne _ l m x fun b hb i hi hx => h ⟨b, hb, i, hi, hx⟩⟩
  induction l generalizing m with
  | nil => obtain ⟨b, hb, -⟩ := h; cases hb
  | cons b l ih =>
    rw [List.foldl_cons]
    by_cases hl : InStore l x
    · exact ih (memWrite_wf hm ..) hl
    · obtain ⟨c, hc, i, hi, rfl⟩ := h
      rcases List.mem_cons.1 hc with rfl | hc
      · rw [byte_fold_ne _ l _ _ fun b hb i hi hx => hl ⟨b, hb, i, hi, hx⟩]
        exact byte_copy hm _ _ hi
      · exact absurd ⟨c, hc, i, hi, rfl⟩ hl

/-- Each of several stores that lie apart is read back whole. -/
theorem memRead_fold_mem {e : Endian} (f : Buffered → Word) (l : List Buffered) {m : Memory} (hm : m.wf)
    (hl : l.Pairwise fun d e => overlap d.addr d.size e.addr e.size = false) {b : Buffered} (hb : b ∈ l) :
    memRead e (l.foldl (fun m b => memWrite e m b.addr b.size (f b)) m) b.addr b.size =
      ((f b).setWidth (8 * Size.bytes b.size)).setWidth 32 := by
  induction l generalizing m with
  | nil => cases hb
  | cons c l ih =>
    rw [List.foldl_cons]
    obtain ⟨h1, h2⟩ := List.pairwise_cons.1 hl
    rcases List.mem_cons.1 hb with rfl | hb
    · rw [memRead_fold_apart _ _ _ _ _ fun d hd => by rw [overlap_comm]; exact h1 d hd, memRead_memWrite hm]
    · exact ih (memWrite_wf hm ..) h2 hb

/-! ### The note of stored code (20_memory.md R85) -/

/-- The long words noted: those before, and those of the bytes stored. -/
theorem noteStored_contains (a : Word) (n : Nat) (l : List Nat) (p : PAddr) :
    (noteStored a n l).contains p.toNat = true ↔
      l.contains p.toNat = true ∨ ∃ i < n, (a + BitVec.ofNat 32 i).toNat / 4 = p.toNat := by
  induction n generalizing a l with
  | zero => simp [noteStored]
  | succ n ih =>
    have next : ∀ i, a + 1 + BitVec.ofNat 32 i = a + BitVec.ofNat 32 (i + 1) := fun i => by
      rw [BitVec.add_assoc, ← BitVec.ofNat_add_ofNat, BitVec.add_comm (BitVec.ofNat 32 i)]; rfl
    have hp := p.isLt
    have first : ((if decide (a.toNat < 2 ^ 26) && !l.contains (a.toNat / 4) then a.toNat / 4 :: l
        else l).contains p.toNat = true) ↔ (l.contains p.toNat = true ∨ a.toNat / 4 = p.toNat) := by
      simp only [List.contains_iff_mem]
      split
      · rw [List.mem_cons]
        exact ⟨fun h => h.elim (fun h => .inr h.symm) .inl, fun h => h.elim .inr fun h => .inl h.symm⟩
      · rename_i h
        simp only [Bool.and_eq_true, decide_eq_true_eq, Bool.not_eq_true', List.contains_eq_mem,
          decide_eq_false_iff_not, not_and, not_not] at h
        exact ⟨.inl, fun h' => h'.elim id fun h' => h' ▸ h (by omega)⟩
    rw [noteStored, ih, first]
    constructor
    · rintro ((h | h) | ⟨i, hi, h⟩)
      · exact .inl h
      · exact .inr ⟨0, by omega, by simpa using h⟩
      · exact .inr ⟨i + 1, by omega, by rw [← next]; exact h⟩
    · rintro (h | ⟨i, hi, h⟩)
      · exact .inl (.inl h)
      · cases i with
        | zero => exact .inl (.inr (by simpa using h))
        | succ i => exact .inr ⟨i, by omega, by rw [next]; exact h⟩

/-! ### Steps and halts -/

/-- No line asserted, no interrupt. -/
theorem selectIrq_nil (s : State) : s.selectIrq [] = none := by
  have none_asserted : ∀ lv, firstLine s.cfg lv [] = none := fun lv => by simp [firstLine]
  simp [State.selectIrq, none_asserted]

/-- A running core that meets no input runs a unit. -/
theorem step_running {s : State} (h : s.h = false) (hz : s.zz = false) (hi : s.inputs = []) : step s = s.runUnit := by
  unfold step State.cycle
  simp only [hi, State.coreStep, h, hz, Bool.false_eq_true, if_false, State.awake, selectIrq_nil]
  cases s.slot <;> rfl

/-- The PC seen at a halt is one of three fetch addresses (60_exceptions.md R363). -/
theorem seenPc_cases (s : State) : ∃ k ≤ 2, s.seenPc = s.pathPc k := by
  unfold State.seenPc
  rcases Config.freeIndex s.draws .hostPc with _ | _ | k
  · exact ⟨0, by omega, rfl⟩
  · exact ⟨1, by omega, rfl⟩
  · exact ⟨2, by omega, rfl⟩

end Sys2Proof
end

