-- ==== Sys2Proof/Laws/Decode.lean ====
section
/-! SUPPORT. The fields of an assembled word, and decoding what each encoder wrote. -/

namespace Sys2Proof

/-! ### Fields of a packed word -/

section
variable (i : BitVec 5) (a b c : BitVec 6) (low : BitVec 9)

@[simp] theorem opcodeOf_packWord : opcodeOf (packWord i a b c low) = i := by
  unfold opcodeOf packWord; ext j hj; simp; grind

@[simp] theorem fieldA_packWord : fieldA (packWord i a b c low) = a := by
  unfold fieldA packWord; ext j hj; simp; grind

@[simp] theorem fieldB_packWord : fieldB (packWord i a b c low) = b := by
  unfold fieldB packWord; ext j hj; simp; grind

@[simp] theorem fieldC_packWord : fieldC (packWord i a b c low) = c := by
  unfold fieldC packWord; ext j hj; simp; grind

@[simp] theorem fieldD_packWord : fieldD (packWord i a b c low) = low := by
  unfold fieldD packWord; ext j hj; simp; grind

@[simp] theorem fieldR_packWord : fieldR (packWord i a b c low) = low.extractLsb' 5 3 := by
  unfold fieldR packWord; ext j hj; simp; grind

@[simp] theorem fieldN_packWord : fieldN (packWord i a b c low) = low.extractLsb' 5 2 := by
  unfold fieldN packWord; ext j hj; simp; grind

@[simp] theorem fieldQ_packWord : fieldQ (packWord i a b c low) = low.extractLsb' 0 5 := by
  unfold fieldQ packWord; ext j hj; simp; grind

@[simp] theorem fieldF_packWord : fieldF (packWord i a b c low) = low.getLsbD 8 := by
  simp only [fieldF, packWord, BitVec.getLsbD_append]; grind

theorem packWord_low (j : Nat) (h : j < 9) : (packWord i a b c low).getLsbD j = low.getLsbD j := by
  simp only [packWord, BitVec.getLsbD_append]; grind

theorem packWord_c (j : Nat) (h : j < 6) : (packWord i a b c low).getLsbD (9 + j) = c.getLsbD j := by
  simp only [packWord, BitVec.getLsbD_append]; grind

theorem packWord_a (j : Nat) (h : j < 6) : (packWord i a b c low).getLsbD (21 + j) = a.getLsbD j := by
  simp only [packWord, BitVec.getLsbD_append]; grind

theorem packWord_lowField (k n : Nat) (h : k + n ≤ 9) :
    (packWord i a b c low).extractLsb' k n = low.extractLsb' k n := by
  ext j hj; simp only [BitVec.getElem_extractLsb']; exact packWord_low i a b c low _ (by omega)

theorem packWord_cField (k n : Nat) (h : k + n ≤ 6) :
    (packWord i a b c low).extractLsb' (9 + k) n = c.extractLsb' k n := by
  ext j hj
  simp only [BitVec.getElem_extractLsb', Nat.add_assoc]
  exact packWord_c i a b c low _ (by omega)

theorem packWord_aField (k n : Nat) (h : k + n ≤ 6) :
    (packWord i a b c low).extractLsb' (21 + k) n = a.extractLsb' k n := by
  ext j hj
  simp only [BitVec.getElem_extractLsb', Nat.add_assoc]
  exact packWord_a i a b c low _ (by omega)

theorem packWord_13 : (packWord i a b c low).getLsbD 13 = c.getLsbD 4 := packWord_c i a b c low 4 (by decide)

theorem packWord_12 : (packWord i a b c low).getLsbD 12 = c.getLsbD 3 := packWord_c i a b c low 3 (by decide)

theorem packWord_14 : (packWord i a b c low).getLsbD 14 = c.getLsbD 5 := packWord_c i a b c low 5 (by decide)

theorem packWord_9 : (packWord i a b c low).getLsbD 9 = c.getLsbD 0 := packWord_c i a b c low 0 (by decide)

theorem packWord_25 : (packWord i a b c low).getLsbD 25 = a.getLsbD 4 := packWord_a i a b c low 4 (by decide)

theorem packWord_24 : (packWord i a b c low).getLsbD 24 = a.getLsbD 3 := packWord_a i a b c low 3 (by decide)

theorem packWord_26 : (packWord i a b c low).getLsbD 26 = a.getLsbD 5 := packWord_a i a b c low 5 (by decide)

theorem packWord_21 : (packWord i a b c low).getLsbD 21 = a.getLsbD 0 := packWord_a i a b c low 0 (by decide)

theorem packWord_10 : (packWord i a b c low).extractLsb' 10 2 = c.extractLsb' 1 2 :=
  packWord_cField i a b c low 1 2 (by decide)

theorem packWord_22 : (packWord i a b c low).extractLsb' 22 2 = a.extractLsb' 1 2 :=
  packWord_aField i a b c low 1 2 (by decide)

end

/-! ### Codes read back -/

@[simp] theorem regField_code (d : RegField) : regField d.code = d := by
  rcases d with r | k
  · have h : (BitVec.ofNat 6 r.val).toNat = r.val := by
      have := r.isLt; simp only [BitVec.toNat_ofNat]; omega
    simp only [regField, RegField.code, h, r.isLt, dif_pos]
  · cases k <;> rfl

@[simp] theorem regField_regCode (r : CoreReg) : regField (regCode r) = .reg r := regField_code (.reg r)

@[simp] theorem regField_62 : regField 62#6 = .ind .long := rfl

@[simp] theorem regField_shortCode (f : Bool) :
    regField (shortCode f) = .ind (if f then .shortFlags else .shortQuiet) := by cases f <;> rfl

theorem code_eq_62 (d : RegField) : (d.code == 62#6) = d.isLong := by
  rcases d with r | k
  · have := r.isLt
    simp only [RegField.code, RegField.isLong, beq_eq_false_iff_ne, ne_eq, ← BitVec.toNat_inj, BitVec.toNat_ofNat]
    omega
  · cases k <;> rfl

theorem regCode_ne_62 (r : CoreReg) : (regCode r == 62#6) = false := code_eq_62 (.reg r)

theorem shortCode_ne_62 (f : Bool) : (shortCode f == 62#6) = false := by cases f <;> rfl

@[simp] theorem condOf_code (q : Cond) : condOf q.code = q := by
  cases q with
  | ext k => revert k; decide
  | _ => rfl

@[simp] theorem modeOf_code (n : SlotMode) : modeOf n.code = some n := by cases n <;> rfl

@[simp] theorem sizeOf_code (z : Size) : sizeOf z.code = some z := by cases z <;> rfl

@[simp] theorem bit_getLsbD (b : Bool) : (bit b).getLsbD 0 = b := by cases b <;> rfl

/-! ### The low nine bits of each layout -/

theorem regLow_f (f : Bool) (q : Cond) : (regLow f q)[8] = f := by
  rw [← BitVec.getLsbD_eq_getElem]; simp only [regLow, BitVec.getLsbD_append]; cases f <;> rfl

theorem regLow_r (f : Bool) (q : Cond) : (regLow f q).extractLsb' 5 3 = 0 := by
  unfold regLow; ext j hj; simp; grind

theorem regLow_q (f : Bool) (q : Cond) : (regLow f q).extractLsb' 0 5 = q.code := by
  unfold regLow; ext j hj; simp; grind

/-! ### Operand groups read back -/

/-- A dual-operand word gives its operands back. -/
theorem decodeDual_packDual (i : BitVec 5) (o : Dual) (h : o.wf = true) (x : Word) :
    decodeDual (packDual i o).1 ((packDual i o).2.getD x) = .ok o := by
  obtain ⟨d, src, f, q⟩ := o
  cases src <;> simp only [Dual.wf, Src2.isShort, Bool.not_true, Bool.false_or, beq_iff_eq] at h <;>
    (try subst h) <;> cases f <;>
    simp [decodeDual, packDual, packSrc2, srcPair, Src2.isShort, regLow_f, regLow_r, regLow_q, hasShortFlags]

/-- The multiply's operands. -/
theorem decodeMul_packMul (i : BitVec 5) (o : MulOp) (h : o.wf = true) (x : Word) :
    decodeMul (packMul i o).1 ((packMul i o).2.getD x) = .ok o := by
  obtain ⟨src, f, q⟩ := o
  have hd := decodeDual_packDual i ⟨.ind .shortQuiet, src, f, q⟩
    (by cases src <;> simp_all [MulOp.wf, Dual.wf, Src2.isShort]) x
  have he : packMul i ⟨src, f, q⟩ = packDual i ⟨.ind .shortQuiet, src, f, q⟩ := rfl
  rw [he, decodeMul, hd]
  cases src <;> simp_all [MulOp.wf, Src2.isShort]

/-- A single-operand word gives its operand back. -/
theorem decodeSingle_packSrc1 (c : BitVec 6) (o : Single) (h : o.wf = true) (x : Word) :
    decodeSingle (packSrc1 c o).1 ((packSrc1 c o).2.getD x) = .ok o := by
  obtain ⟨d, src, f, q⟩ := o
  cases src <;> simp only [Single.wf, Src1.isShort, Bool.not_true, Bool.false_or, beq_iff_eq] at h <;>
    (try subst h) <;> cases f <;>
    simp [decodeSingle, packSrc1, srcOne, Src1.isShort, regLow_f, regLow_r, regLow_q]

/-- The low nine bits of LD, register + register. -/
theorem loadLow_fields (o : LoadRR) : (loadLow o).extractLsb' 6 3 = 0 ∧ (loadLow o).getLsbD 4 = false ∧
    (loadLow o).getLsbD 3 = o.awb ∧ (loadLow o).getLsbD 5 = o.di ∧ (loadLow o).getLsbD 0 = o.x ∧
    (loadLow o).extractLsb' 1 2 = o.size.code := by
  obtain ⟨d, src, di, awb, z, sx⟩ := o
  simp only [loadLow]; cases di <;> cases awb <;> cases z <;> cases sx <;> decide

/-- A word of LD, register + register. -/
theorem decodeLoadRR_pack (o : LoadRR) (h : o.wf = true) (x : Word) :
    decodeLoadRR (packLoadRR o).1 ((packLoadRR o).2.getD x) = .ok o := by
  obtain ⟨d, src, di, awb, z, sx⟩ := o
  cases src <;> simp only [LoadRR.wf, Src2.isShort, Src2.firstIsReg, Bool.not_true, Bool.not_false, Bool.false_and,
      Bool.true_and, Bool.or_true, Bool.or_false, Bool.not_eq_true', Bool.false_eq_true] at h <;>
    (try subst h) <;>
    simp [decodeLoadRR, packLoadRR, srcPair, Src2.isShort, Src2.firstIsReg, packWord_low, packWord_lowField,
      loadLow_fields, -BitVec.getLsbD_eq_getElem]

/-- The long immediate as the decoder reads it. -/
theorem limmIf_limmWord (uses : Bool) (v x : Word) (h : limmOk uses v = true) :
    limmIf uses ((limmWord uses v).getD x) = v := by
  cases uses <;> simp_all [limmIf, limmWord, limmOk]

/-- The modifier bits of LD, register + offset. -/
theorem loadMods (di awb x : Bool) (z : Size) :
    (bit di ++ 0#1 ++ bit awb ++ z.code ++ bit x : BitVec 6).getLsbD 4 = false ∧
    (bit di ++ 0#1 ++ bit awb ++ z.code ++ bit x : BitVec 6).getLsbD 3 = awb ∧
    (bit di ++ 0#1 ++ bit awb ++ z.code ++ bit x : BitVec 6).getLsbD 5 = di ∧
    (bit di ++ 0#1 ++ bit awb ++ z.code ++ bit x : BitVec 6).getLsbD 0 = x ∧
    (bit di ++ 0#1 ++ bit awb ++ z.code ++ bit x : BitVec 6).extractLsb' 1 2 = z.code := by
  cases di <;> cases awb <;> cases z <;> cases x <;> decide

/-- The write-back check passes on a well-formed instruction. -/
theorem writeBack_ok (awb r : Bool) (h : (!awb || r) = true) : (awb && !r) = false := by
  cases awb <;> cases r <;> simp_all

/-- A word of LD, register + offset. -/
theorem decodeLoadRO_pack (o : LoadRO) (h : o.wf = true) (x : Word) :
    (packLoadRO o).1.getLsbD 13 = false ∧ decodeLoadRO (packLoadRO o).1 ((packLoadRO o).2.getD x) = .ok o := by
  obtain ⟨d, b, v, off, di, awb, z, sx⟩ := o
  rw [LoadRO.wf, Bool.and_eq_true] at h
  obtain ⟨h4, h3, h5, h0, h1⟩ := loadMods di awb sx z
  simp only [packLoadRO, decodeLoadRO, packWord_13, packWord_12, packWord_14, packWord_9, packWord_10, h4, h3, h5,
    h0, h1, fieldA_packWord, fieldB_packWord, fieldD_packWord, regField_code, sizeOf_code,
    limmIf_limmWord _ _ _ h.1, writeBack_ok _ _ h.2]
  simp

/-- A word of LR. -/
theorem decodeLr_pack (o : LrOp) (h : o.wf = true) (x : Word) :
    (packLr o).1.getLsbD 13 = true ∧ decodeLr (packLr o).1 ((packLr o).2.getD x) = .ok o := by
  simp only [packLr, decodeLr, packWord_13, fieldA_packWord, fieldB_packWord, fieldC_packWord, fieldD_packWord,
    regField_code, limmIf_limmWord _ _ _ h]
  exact ⟨by decide, if_pos rfl⟩

/-- A word of ST. -/
theorem decodeStore_pack (o : StoreOp) (h : o.wf = true) (x : Word) :
    (packStore o).1.getLsbD 25 = false ∧ decodeStore (packStore o).1 ((packStore o).2.getD x) = .ok o := by
  obtain ⟨b, c, v, off, di, awb, z⟩ := o
  rw [StoreOp.wf, Bool.and_eq_true, Bool.and_eq_true] at h
  have hm := loadMods di awb false z
  obtain ⟨h4, h3, h5, h0, h1⟩ := hm
  rw [show bit false = 0#1 from rfl] at h4 h3 h5 h0 h1
  simp only [packStore, decodeStore, packWord_25, packWord_24, packWord_26, packWord_21, packWord_22, h4, h3, h5,
    h0, h1, fieldB_packWord, fieldC_packWord, fieldD_packWord, regField_code, sizeOf_code, h.1.2,
    limmIf_limmWord _ _ _ h.1.1, writeBack_ok _ _ h.2]
  simp

/-- A word of SR. -/
theorem decodeSr_pack (o : SrOp) (h : o.wf = true) (x : Word) :
    (packSr o).1.getLsbD 25 = true ∧ decodeSr (packSr o).1 ((packSr o).2.getD x) = .ok o := by
  rw [SrOp.wf, Bool.and_eq_true] at h
  simp only [packSr, decodeSr, packWord_25, fieldA_packWord, fieldB_packWord, fieldC_packWord, fieldD_packWord,
    regField_code, h.2, limmIf_limmWord _ _ _ h.1]
  exact ⟨by decide, by simp⟩

/-- The fields of a branch word. -/
theorem packBranch_fields (i : BitVec 5) (o : BranchOp) :
    opcodeOf (packBranch i o).1 = i ∧ fieldL (packBranch i o).1 = o.l ∧ fieldN (packBranch i o).1 = o.n.code ∧
      fieldQ (packBranch i o).1 = o.cc.code := by
  refine ⟨?_, ?_, ?_, ?_⟩
  · unfold opcodeOf packBranch; ext j hj; simp; grind
  · unfold fieldL packBranch; ext j hj; simp; grind
  · unfold fieldN packBranch; ext j hj; simp; grind
  · unfold fieldQ packBranch; ext j hj; simp; grind

/-- A branch word. -/
theorem decodeBranch_pack (i : BitVec 5) (o : BranchOp) : decodeBranch (packBranch i o).1 = .ok o := by
  obtain ⟨-, hl, hn, hq⟩ := packBranch_fields i o
  simp [decodeBranch, hl, hn, hq]

/-- The low nine bits of a jump word. -/
theorem jumpLow_fields (f : Bool) (n : SlotMode) (q : Cond) :
    (bit f ++ 0#1 ++ n.code ++ q.code : BitVec 9).getLsbD 8 = f ∧
      (bit f ++ 0#1 ++ n.code ++ q.code : BitVec 9).getLsbD 7 = false ∧
      (bit f ++ 0#1 ++ n.code ++ q.code : BitVec 9).extractLsb' 5 2 = n.code ∧
      (bit f ++ 0#1 ++ n.code ++ q.code : BitVec 9).extractLsb' 0 5 = q.code := by
  refine ⟨?_, ?_, ?_, ?_⟩
  · simp only [BitVec.getLsbD_append]; cases f <;> cases n <;> rfl
  · simp only [BitVec.getLsbD_append]; cases f <;> cases n <;> rfl
  · ext j hj; simp; grind
  · ext j hj; simp; grind

/-- A jump word. -/
theorem decodeJump_pack (c : BitVec 6) (o : JumpOp) (x : Word) :
    decodeJump (packJump c o).1 ((packJump c o).2.getD x) = .ok o := by
  obtain ⟨src, f, n, q⟩ := o
  obtain ⟨h8, h7, hn, hq⟩ := jumpLow_fields f n q
  cases src <;> simp [decodeJump, packJump, h8, h7, hn, hq, packWord_low, -BitVec.getLsbD_eq_getElem]

/-! ### The long-immediate flag of each word (30_encoding.md R100) -/

theorem needsLimm_two (i : BitVec 5) (a b c : BitVec 6) (low : BitVec 9)
    (hi : i.toNat ≠ 1 ∧ i.toNat ≠ 3 ∧ i.toNat ≠ 4 ∧ i.toNat ≠ 5 ∧ i.toNat ≠ 6) :
    needsLimm (packWord i a b c low) = (b == 62#6 || c == 62#6) := by
  simp only [needsLimm, opcodeOf_packWord, fieldB_packWord, fieldC_packWord]
  obtain ⟨h1, h3, h4, h5, h6⟩ := hi
  split <;> first | rfl | contradiction

theorem needsLimm_one (i : BitVec 5) (a b c : BitVec 6) (low : BitVec 9)
    (hi : i.toNat = 1 ∨ i.toNat = 3) : needsLimm (packWord i a b c low) = (b == 62#6) := by
  simp only [needsLimm, opcodeOf_packWord, fieldB_packWord]
  rcases hi with h | h <;> simp [h]

theorem needsLimm_packSrc2 (i : BitVec 5) (a : BitVec 6) (src : Src2) (f : Bool) (q : Cond)
    (hi : i.toNat ≠ 1 ∧ i.toNat ≠ 3 ∧ i.toNat ≠ 4 ∧ i.toNat ≠ 5 ∧ i.toNat ≠ 6) :
    needsLimm (packSrc2 i a src f q).1 = (packSrc2 i a src f q).2.isSome := by
  cases src <;> simp [packSrc2, needsLimm_two, hi, regCode_ne_62, shortCode_ne_62, -beq_eq_false_iff_ne]

theorem needsLimm_packSrc1 (c : BitVec 6) (o : Single) :
    needsLimm (packSrc1 c o).1 = (packSrc1 c o).2.isSome := by
  obtain ⟨d, src, f, q⟩ := o
  cases src <;> simp [packSrc1, needsLimm_one, regCode_ne_62, shortCode_ne_62, -beq_eq_false_iff_ne]

theorem needsLimm_packLoadRR (o : LoadRR) :
    needsLimm (packLoadRR o).1 = (packLoadRR o).2.isSome := by
  obtain ⟨d, src, di, awb, z, sx⟩ := o
  cases src <;> simp [packLoadRR, needsLimm_two, regCode_ne_62, -beq_eq_false_iff_ne]

theorem limmWord_isSome (u : Bool) (v : Word) : (limmWord u v).isSome = u := by cases u <;> rfl

theorem needsLimm_packJump (c : BitVec 6) (o : JumpOp) (hc : (c == 62#6) = false) :
    needsLimm (packJump c o).1 = (packJump c o).2.isSome := by
  obtain ⟨src, f, n, q⟩ := o
  cases src <;> simp [packJump, needsLimm_two, hc, regCode_ne_62, -beq_eq_false_iff_ne]

theorem needsLimm_packBranch (i : BitVec 5) (o : BranchOp) (hi : i.toNat = 4 ∨ i.toNat = 5 ∨ i.toNat = 6) :
    needsLimm (packBranch i o).1 = false := by
  simp only [needsLimm, (packBranch_fields i o).1]
  rcases hi with h | h | h <;> simp [h]

/-! ### The opcode map -/

theorem opcodeOf_packSrc2 (i : BitVec 5) (a : BitVec 6) (src : Src2) (f : Bool) (q : Cond) :
    opcodeOf (packSrc2 i a src f q).1 = i := by cases src <;> simp [packSrc2]

theorem opcodeOf_packSrc1 (c : BitVec 6) (o : Single) :
    opcodeOf (packSrc1 c o).1 = 3 ∧ fieldC (packSrc1 c o).1 = c := by
  obtain ⟨d, src, f, q⟩ := o; cases src <;> simp [packSrc1]

theorem opcodeOf_packLoadRR (o : LoadRR) : opcodeOf (packLoadRR o).1 = 0 := by
  obtain ⟨d, src, di, awb, z, sx⟩ := o; cases src <;> simp [packLoadRR]

theorem opcodeOf_packJump (c : BitVec 6) (o : JumpOp) :
    opcodeOf (packJump c o).1 = 7 ∧ fieldC (packJump c o).1 = c ∧ fieldN (packJump c o).1 = o.n.code := by
  obtain ⟨src, f, n, q⟩ := o
  obtain ⟨-, -, hn, -⟩ := jumpLow_fields f n q
  cases src <;> simp [packJump, hn]

end Sys2Proof
end

