-- ==== Sys2Proof/Laws/PerInstr.lean ====
section
/-! SUPPORT. Statements made once for every instruction: an instruction's words decode to it. -/

namespace Sys2Proof.Laws

/-- The words of a well-formed instruction say how many they are and decode to the instruction, whatever follows
a one-word instruction in memory. -/
def Coding.Statement (i : Instr) : Prop :=
  i.wf = true → needsLimm (encode i).1 = (encode i).2.isSome ∧
    ∀ x, decode (encode i).1 ((encode i).2.getD x) = .instr i

theorem coding_dual (mk : Dual → Instr) (op : BitVec 5) (o : Dual) (ho : o.wf = true)
    (hop : op.toNat ≠ 1 ∧ op.toNat ≠ 3 ∧ op.toNat ≠ 4 ∧ op.toNat ≠ 5 ∧ op.toNat ≠ 6)
    (hdec : ∀ x, decode (packDual op o).1 x = .of mk (decodeDual (packDual op o).1 x)) :
    needsLimm (packDual op o).1 = (packDual op o).2.isSome ∧
      ∀ x, decode (packDual op o).1 ((packDual op o).2.getD x) = .instr (mk o) :=
  ⟨needsLimm_packSrc2 _ _ _ _ _ hop, fun x => by rw [hdec, decodeDual_packDual op o ho]; rfl⟩

theorem coding_single (mk : Single → Instr) (c : BitVec 6) (o : Single) (ho : o.wf = true) (hc : c.toNat ≠ 63)
    (hdec : ∀ w x, fieldC w = c → decodeGroup3 w x =
      if w = brkWord then .instr .brk else if w = sleepWord then .instr .sleep else if w = swiWord then .instr .swi
      else .of mk (decodeSingle w x)) :
    needsLimm (packSrc1 c o).1 = (packSrc1 c o).2.isSome ∧
      ∀ x, decode (packSrc1 c o).1 ((packSrc1 c o).2.getD x) = .instr (mk o) := by
  refine ⟨needsLimm_packSrc1 _ _, fun x => ?_⟩
  obtain ⟨h3, hC⟩ := opcodeOf_packSrc1 c o
  have hne : ∀ w : Word, (fieldC w).toNat = 63 → (packSrc1 c o).1 ≠ w := by
    intro w hw he; rw [← he, hC] at hw; exact hc hw
  have hd : ∀ w x, opcodeOf w = 3 → decode w x = decodeGroup3 w x := by
    intro w x hw; simp [decode, hw]
  rw [hd _ _ h3, hdec _ _ hC, if_neg (hne _ (by decide)), if_neg (hne _ (by decide)), if_neg (hne _ (by decide)),
    decodeSingle_packSrc1 c o ho]
  rfl

theorem Src2.same_both (s : Src1) : s.both.same = some s := by cases s <;> simp [Src1.both, Src2.same]

theorem Src1.isShort_both (s : Src1) : s.both.isShort = s.isShort := by cases s <;> rfl

theorem Single.wf_both (o : Single) (h : o.wf = true) : o.both.wf = true := by
  rw [Dual.wf, Single.both, Src1.isShort_both]; exact h

theorem RolOp.wf_both (o : RolOp) (h : o.wf = true) : o.both.wf = true := by
  rw [Dual.wf, RolOp.both, Src1.isShort_both]; exact h

theorem opcodeOf_packDual (op : BitVec 5) (o : Dual) : opcodeOf (packDual op o).1 = op :=
  opcodeOf_packSrc2 _ _ _ _ _

/-- A NOP word holds NOP's operands. -/
theorem xor_ne_nop (o : Dual) (ho : o.wf = true) (hn : o ≠ nopDual) : (packDual 15 o).1 ≠ nopWord := by
  intro h
  have h1 := decodeDual_packDual 15 o ho 0
  rw [h] at h1
  have h2 : ∀ x, decodeDual nopWord x = .ok nopDual := fun x => rfl
  rw [h2] at h1
  injection h1 with h1
  exact hn h1.symm

theorem Coding.ldRR (o : LoadRR) : Coding.Statement (.ldRR o) := fun h =>
  ⟨needsLimm_packLoadRR o, fun x => by
    have := decodeLoadRR_pack o h x
    simp only [encode, decode, opcodeOf_packLoadRR, this]; rfl⟩

theorem Coding.ldRO (o : LoadRO) : Coding.Statement (.ldRO o) := fun h => by
  refine ⟨?_, fun x => ?_⟩
  · simp only [encode, packLoadRO, limmWord_isSome, needsLimm_one 1 _ _ _ _ (by decide), code_eq_62]
  · obtain ⟨h13, hd⟩ := decodeLoadRO_pack o h x
    have ho : opcodeOf (packLoadRO o).1 = 1 := opcodeOf_packWord _ _ _ _ _
    simp only [encode, decode, ho, h13, hd]; rfl

theorem Coding.lr (o : LrOp) : Coding.Statement (.lr o) := fun h => by
  refine ⟨?_, fun x => ?_⟩
  · simp only [encode, packLr, limmWord_isSome, needsLimm_one 1 _ _ _ _ (by decide), code_eq_62]
  · obtain ⟨h13, hd⟩ := decodeLr_pack o h x
    have ho : opcodeOf (packLr o).1 = 1 := opcodeOf_packWord _ _ _ _ _
    simp only [encode, decode, ho, h13, hd]; rfl

theorem Coding.st (o : StoreOp) : Coding.Statement (.st o) := fun h => by
  refine ⟨?_, fun x => ?_⟩
  · simp only [encode, packStore, limmWord_isSome, needsLimm_two 2 _ _ _ _ (by decide), code_eq_62]
  · obtain ⟨h25, hd⟩ := decodeStore_pack o h x
    have ho : opcodeOf (packStore o).1 = 2 := opcodeOf_packWord _ _ _ _ _
    simp only [encode, decode, ho, h25, hd]; rfl

theorem Coding.sr (o : SrOp) : Coding.Statement (.sr o) := fun h => by
  refine ⟨?_, fun x => ?_⟩
  · simp only [encode, packSr, limmWord_isSome, needsLimm_two 2 _ _ _ _ (by decide), code_eq_62]
  · obtain ⟨h25, hd⟩ := decodeSr_pack o h x
    have ho : opcodeOf (packSr o).1 = 2 := opcodeOf_packWord _ _ _ _ _
    simp only [encode, decode, ho, h25, hd]; rfl

theorem Coding.flag (o : Single) : Coding.Statement (.flag o) := fun h =>
  coding_single .flag 0 o h (by decide) fun w x hw => by simp only [decodeGroup3, hw]; rfl

theorem Coding.asr (o : Single) : Coding.Statement (.asr o) := fun h =>
  coding_single .asr 1 o h (by decide) fun w x hw => by simp only [decodeGroup3, hw]; rfl

theorem Coding.lsr (o : Single) : Coding.Statement (.lsr o) := fun h =>
  coding_single .lsr 2 o h (by decide) fun w x hw => by simp only [decodeGroup3, hw]; rfl

theorem Coding.ror (o : Single) : Coding.Statement (.ror o) := fun h =>
  coding_single .ror 3 o h (by decide) fun w x hw => by simp only [decodeGroup3, hw]; rfl

theorem Coding.rrc (o : Single) : Coding.Statement (.rrc o) := fun h =>
  coding_single .rrc 4 o h (by decide) fun w x hw => by simp only [decodeGroup3, hw]; rfl

theorem Coding.sexb (o : Single) : Coding.Statement (.sexb o) := fun h =>
  coding_single .sexb 5 o h (by decide) fun w x hw => by simp only [decodeGroup3, hw]; rfl

theorem Coding.sexw (o : Single) : Coding.Statement (.sexw o) := fun h =>
  coding_single .sexw 6 o h (by decide) fun w x hw => by simp only [decodeGroup3, hw]; rfl

theorem Coding.extb (o : Single) : Coding.Statement (.extb o) := fun h =>
  coding_single .extb 7 o h (by decide) fun w x hw => by simp only [decodeGroup3, hw]; rfl

theorem Coding.extw (o : Single) : Coding.Statement (.extw o) := fun h =>
  coding_single .extw 8 o h (by decide) fun w x hw => by simp only [decodeGroup3, hw]; rfl

theorem Coding.swap (o : Single) : Coding.Statement (.swap o) := fun h =>
  coding_single .swap 9 o h (by decide) fun w x hw => by simp only [decodeGroup3, hw]; rfl

theorem Coding.norm (o : Single) : Coding.Statement (.norm o) := fun h =>
  coding_single .norm 10 o h (by decide) fun w x hw => by simp only [decodeGroup3, hw]; rfl

theorem Coding.brk : Coding.Statement .brk := fun _ => ⟨rfl, fun _ => rfl⟩

theorem Coding.sleep : Coding.Statement .sleep := fun _ => ⟨rfl, fun _ => rfl⟩

theorem Coding.swi : Coding.Statement .swi := fun _ => ⟨rfl, fun _ => rfl⟩

theorem Coding.nop : Coding.Statement .nop := fun _ => ⟨rfl, fun _ => rfl⟩

theorem Coding.bcc (o : BranchOp) : Coding.Statement (.bcc o) := fun _ =>
  ⟨needsLimm_packBranch 4 o (by decide), fun x => by
    simp only [encode, decode, (packBranch_fields 4 o).1, decodeBranch_pack]; rfl⟩

theorem Coding.blcc (o : BranchOp) : Coding.Statement (.blcc o) := fun _ =>
  ⟨needsLimm_packBranch 5 o (by decide), fun x => by
    simp only [encode, decode, (packBranch_fields 5 o).1, decodeBranch_pack]; rfl⟩

theorem Coding.lpcc (o : BranchOp) : Coding.Statement (.lpcc o) := fun _ =>
  ⟨needsLimm_packBranch 6 o (by decide), fun x => by
    simp only [encode, decode, (packBranch_fields 6 o).1, decodeBranch_pack]; rfl⟩

theorem Coding.jcc (o : JumpOp) : Coding.Statement (.jcc o) := fun _ =>
  ⟨needsLimm_packJump 0 o rfl, fun x => by
    obtain ⟨h7, hC, -⟩ := opcodeOf_packJump 0 o
    simp only [encode, decode, h7, hC, decodeJump_pack]; rfl⟩

theorem Coding.jlcc (o : JumpOp) : Coding.Statement (.jlcc o) := fun h =>
  ⟨needsLimm_packJump 1 o rfl, fun x => by
    obtain ⟨h7, hC, hN⟩ := opcodeOf_packJump 1 o
    have hf : (needsLimm (packJump 1 o).1 && fieldN (packJump 1 o).1 == 1#2) = false := by
      rw [needsLimm_packJump 1 o rfl, hN]
      obtain ⟨src, f, n, q⟩ := o
      cases src
      · rfl
      · cases n <;> first | rfl | cases h
    simp only [encode, decode, h7, hC, decodeJump_pack, hf]; rfl⟩

theorem Coding.add (o : Dual) : Coding.Statement (.add o) := fun h => by
  rw [Instr.wf, Dual.wfDistinct, Bool.and_eq_true, beq_iff_eq] at h
  refine ⟨needsLimm_packSrc2 _ _ _ _ _ (by decide), fun x => ?_⟩
  simp only [encode, decode, opcodeOf_packDual, decodeDual_packDual 8 o h.1]
  simp [ofAdd, h.2]

theorem Coding.adc (o : Dual) : Coding.Statement (.adc o) := fun h => by
  rw [Instr.wf, Dual.wfDistinct, Bool.and_eq_true, beq_iff_eq] at h
  refine ⟨needsLimm_packSrc2 _ _ _ _ _ (by decide), fun x => ?_⟩
  simp only [encode, decode, opcodeOf_packDual, decodeDual_packDual 9 o h.1]
  simp [ofSame, h.2]

theorem Coding.and (o : Dual) : Coding.Statement (.and o) := fun h => by
  rw [Instr.wf, Dual.wfDistinct, Bool.and_eq_true, beq_iff_eq] at h
  refine ⟨needsLimm_packSrc2 _ _ _ _ _ (by decide), fun x => ?_⟩
  simp only [encode, decode, opcodeOf_packDual, decodeDual_packDual 12 o h.1]
  simp [ofSame, h.2]

theorem Coding.sub (o : Dual) : Coding.Statement (.sub o) := fun h =>
  coding_dual .sub 10 o h (by decide) fun x => by simp only [decode, opcodeOf_packDual]; rfl

theorem Coding.sbc (o : Dual) : Coding.Statement (.sbc o) := fun h =>
  coding_dual .sbc 11 o h (by decide) fun x => by simp only [decode, opcodeOf_packDual]; rfl

theorem Coding.or (o : Dual) : Coding.Statement (.or o) := fun h =>
  coding_dual .or 13 o h (by decide) fun x => by simp only [decode, opcodeOf_packDual]; rfl

theorem Coding.bic (o : Dual) : Coding.Statement (.bic o) := fun h =>
  coding_dual .bic 14 o h (by decide) fun x => by simp only [decode, opcodeOf_packDual]; rfl

theorem Coding.aslm (o : Dual) : Coding.Statement (.aslm o) := fun h =>
  coding_dual .aslm 16 o h (by decide) fun x => by simp only [decode, opcodeOf_packDual]; rfl

theorem Coding.lsrm (o : Dual) : Coding.Statement (.lsrm o) := fun h =>
  coding_dual .lsrm 17 o h (by decide) fun x => by simp only [decode, opcodeOf_packDual]; rfl

theorem Coding.asrm (o : Dual) : Coding.Statement (.asrm o) := fun h =>
  coding_dual .asrm 18 o h (by decide) fun x => by simp only [decode, opcodeOf_packDual]; rfl

theorem Coding.rorm (o : Dual) : Coding.Statement (.rorm o) := fun h =>
  coding_dual .rorm 19 o h (by decide) fun x => by simp only [decode, opcodeOf_packDual]; rfl

theorem Coding.max (o : Dual) : Coding.Statement (.max o) := fun h =>
  coding_dual .max 30 o h (by decide) fun x => by simp only [decode, opcodeOf_packDual]; rfl

theorem Coding.min (o : Dual) : Coding.Statement (.min o) := fun h =>
  coding_dual .min 31 o h (by decide) fun x => by simp only [decode, opcodeOf_packDual]; rfl

theorem Coding.xor (o : Dual) : Coding.Statement (.xor o) := fun h => by
  rw [Instr.wf, Bool.and_eq_true, bne_iff_ne] at h
  exact coding_dual .xor 15 o h.1 (by decide) fun x => by
    simp only [decode, opcodeOf_packDual]; exact if_neg (xor_ne_nop o h.1 h.2)

theorem Coding.mul64 (o : MulOp) : Coding.Statement (.mul64 o) := fun h =>
  ⟨needsLimm_packSrc2 _ _ _ _ _ (by decide), fun x => by
    have ho : opcodeOf (packMul 20 o).1 = 20 := opcodeOf_packSrc2 _ _ _ _ _
    simp only [encode, decode, ho, decodeMul_packMul 20 o h]; rfl⟩

theorem Coding.mulu64 (o : MulOp) : Coding.Statement (.mulu64 o) := fun h =>
  ⟨needsLimm_packSrc2 _ _ _ _ _ (by decide), fun x => by
    have ho : opcodeOf (packMul 21 o).1 = 21 := opcodeOf_packSrc2 _ _ _ _ _
    simp only [encode, decode, ho, decodeMul_packMul 21 o h]; rfl⟩

theorem Coding.mov (o : Single) : Coding.Statement (.mov o) := fun h => by
  refine ⟨needsLimm_packSrc2 _ _ _ _ _ (by decide), fun x => ?_⟩
  simp only [encode, decode, opcodeOf_packDual, decodeDual_packDual 12 o.both (Single.wf_both o h)]
  simp [ofSame, Single.both, Src2.same_both]

theorem Coding.rlc (o : Single) : Coding.Statement (.rlc o) := fun h => by
  refine ⟨needsLimm_packSrc2 _ _ _ _ _ (by decide), fun x => ?_⟩
  simp only [encode, decode, opcodeOf_packDual, decodeDual_packDual 9 o.both (Single.wf_both o h)]
  simp [ofSame, Single.both, Src2.same_both]

theorem Coding.asl (o : Single) : Coding.Statement (.asl o) := fun h => by
  rw [Instr.wf, Single.wfAsl, Bool.and_eq_true] at h
  refine ⟨needsLimm_packSrc2 _ _ _ _ _ (by decide), fun x => ?_⟩
  simp only [encode, decode, opcodeOf_packDual, decodeDual_packDual 8 o.both (Single.wf_both o h.1)]
  obtain ⟨d, src, f, q⟩ := o
  have hr := h.2
  rcases d with d | d <;> cases f <;> simp [ofAdd, Single.both, Src2.same_both, RegField.isReg] at hr ⊢

theorem Coding.rol (o : RolOp) : Coding.Statement (.rol o) := fun h => by
  refine ⟨needsLimm_packSrc2 _ _ _ _ _ (by decide), fun x => ?_⟩
  simp only [encode, decode, opcodeOf_packDual, decodeDual_packDual 8 o.both (RolOp.wf_both o h)]
  simp [ofAdd, RolOp.both, Src2.same_both]

end Sys2Proof.Laws
end

