-- ==== Sys2Proof/Tests/Slice0.lean ====
section
/-! SUPPORT. Tests. Words and expected results are those of spec/95_test_vectors.md, the section named beside each
group; a witness shows, for each statement with hypotheses, states and operands that meet them. -/

set_option Elab.async false

namespace Sys2Proof.Tests

open Machine

/-! ### WellFormed: a term that each check refuses -/

theorem test_wf_dual_condition : Instr.wf (.sub ⟨.reg 1, .rs 2 5, false, .eq⟩) = false := by decide
theorem test_wf_single_condition : Instr.wf (.asr ⟨.reg 1, .short 5, false, .ne⟩) = false := by decide
theorem test_wf_add_equal : Instr.wf (.add ⟨.reg 1, .rr 2 2, false, .al⟩) = false := by decide
theorem test_wf_asl_rol : Instr.wf (.asl ⟨.reg 1, .reg 2, true, .al⟩) = false := by decide
theorem test_wf_asl_condition : Instr.wf (.asl ⟨.ind .long, .short 1, true, .eq⟩) = false := by decide
theorem test_wf_rol_condition : Instr.wf (.rol ⟨1, .short 5, .ne⟩) = false := by decide
theorem test_wf_mul_condition : Instr.wf (.mul64 ⟨.rs 2 5, false, .eq⟩) = false := by decide
theorem test_wf_mul_indicator : Instr.wf (.mulu64 ⟨.rr 2 3, true, .al⟩) = false := by decide
theorem test_wf_xor_nop : Instr.wf (.xor nopDual) = false := by decide
theorem test_wf_load_short : Instr.wf (.ldRR ⟨.reg 1, .rs 2 5, false, false, .long, false⟩) = false := by decide
theorem test_wf_load_base : Instr.wf (.ldRR ⟨.reg 1, .lr 8 2, false, true, .long, false⟩) = false := by decide
theorem test_wf_offset_base :
    Instr.wf (.ldRO ⟨.reg 1, .ind .long, 8, 0, false, true, .long, false⟩) = false := by decide
theorem test_wf_offset_limm :
    Instr.wf (.ldRO ⟨.reg 1, .reg 2, 8, 0, false, false, .long, false⟩) = false := by decide
theorem test_wf_lr_limm : Instr.wf (.lr ⟨.reg 1, .ind .shortQuiet, 8, 4⟩) = false := by decide
theorem test_wf_store_limm : Instr.wf (.st ⟨.reg 2, .reg 1, 8, 0, false, false, .long⟩) = false := by decide
theorem test_wf_store_shorts :
    Instr.wf (.st ⟨.ind .shortFlags, .ind .shortQuiet, 0, 0, false, false, .long⟩) = false := by decide
theorem test_wf_store_base :
    Instr.wf (.st ⟨.ind .long, .reg 1, 8, 0, false, true, .long⟩) = false := by decide
theorem test_wf_sr_limm : Instr.wf (.sr ⟨.reg 2, .reg 1, 8, 0⟩) = false := by decide
theorem test_wf_sr_shorts : Instr.wf (.sr ⟨.ind .shortFlags, .ind .shortQuiet, 0, 0⟩) = false := by decide
theorem test_wf_jlcc_mode : Instr.wf (.jlcc ⟨.limm 8, false, .d, .al⟩) = false := by decide

/-! ### Decode: the words of 95_test_vectors.md sections 1.2 to 1.4 and 2.5 -/

theorem test_decode_arith :
    decode 0x40210702 0 = .instr (.add ⟨.reg 1, .rr 2 3, true, .ne⟩) ∧
    decode 0x48210600 0 = .instr (.adc ⟨.reg 1, .rr 2 3, false, .al⟩) ∧
    decode 0x57E1FAC8 0 = .instr (.sub ⟨.ind .shortQuiet, .rs 3 200, true, .al⟩) ∧
    decode 0x58210600 0 = .instr (.sbc ⟨.reg 1, .rr 2 3, false, .al⟩) ∧
    decode 0x40217C00 0x12345678 = .instr (.add ⟨.reg 1, .rl 2 0x12345678, false, .al⟩) ∧
    decode 0x403F8422 0 = .instr (.add ⟨.reg 1, .sr 34 2, false, .al⟩) := by decide

theorem test_decode_logic :
    decode 0x60210700 0 = .instr (.and ⟨.reg 1, .rr 2 3, true, .al⟩) ∧
    decode 0x68210600 0 = .instr (.or ⟨.reg 1, .rr 2 3, false, .al⟩) ∧
    decode 0x70210600 0 = .instr (.bic ⟨.reg 1, .rr 2 3, false, .al⟩) ∧
    decode 0x78210600 0 = .instr (.xor ⟨.reg 1, .rr 2 3, false, .al⟩) := by decide

theorem test_decode_second_names :
    decode 0x7FFFFFFF 0 = .instr .nop ∧
    decode 0x60210400 0 = .instr (.mov ⟨.reg 1, .reg 2, false, .al⟩) ∧
    decode 0x40210400 0 = .instr (.asl ⟨.reg 1, .reg 2, false, .al⟩) ∧
    decode 0x48210400 0 = .instr (.rlc ⟨.reg 1, .reg 2, false, .al⟩) ∧
    decode 0x40210500 0 = .instr (.rol ⟨1, .reg 2, .al⟩) := by decide

theorem test_decode_single :
    decode 0x1FA10000 0 = .instr (.flag ⟨.ind .shortFlags, .reg 2, false, .al⟩) ∧
    decode 0x18210200 0 = .instr (.asr ⟨.reg 1, .reg 2, false, .al⟩) ∧
    decode 0x18210400 0 = .instr (.lsr ⟨.reg 1, .reg 2, false, .al⟩) ∧
    decode 0x18210602 0 = .instr (.ror ⟨.reg 1, .reg 2, false, .ne⟩) ∧
    decode 0x18210800 0 = .instr (.rrc ⟨.reg 1, .reg 2, false, .al⟩) ∧
    decode 0x18210B00 0 = .instr (.sexb ⟨.reg 1, .reg 2, true, .al⟩) ∧
    decode 0x18210C00 0 = .instr (.sexw ⟨.reg 1, .reg 2, false, .al⟩) ∧
    decode 0x18210F00 0 = .instr (.extb ⟨.reg 1, .reg 2, true, .al⟩) ∧
    decode 0x18211000 0 = .instr (.extw ⟨.reg 1, .reg 2, false, .al⟩) ∧
    decode 0x18211200 0 = .instr (.swap ⟨.reg 1, .reg 2, false, .al⟩) ∧
    decode 0x18211400 0 = .instr (.norm ⟨.reg 1, .reg 2, false, .al⟩) := by decide

theorem test_decode_control :
    decode 0x1FFFFE00 0 = .instr .brk ∧ decode 0x1FFFFE01 0 = .instr .sleep ∧
    decode 0x1FFFFE02 0 = .instr .swi := by decide

theorem test_decode_branch :
    decode 0x200007A1 0 = .instr (.bcc ⟨15, .d, .eq⟩) ∧
    decode 0x28000781 0 = .instr (.blcc ⟨15, .nd, .eq⟩) ∧
    decode 0x30000102 0 = .instr (.lpcc ⟨2, .nd, .ne⟩) ∧
    decode 0x38008122 0 = .instr (.jcc ⟨.reg 1, true, .d, .ne⟩) ∧
    decode 0x381F0102 0x800007D0 = .instr (.jcc ⟨.limm 0x800007D0, true, .nd, .ne⟩) ∧
    decode 0x38028321 0 = .instr (.jlcc ⟨.reg 5, true, .d, .eq⟩) ∧
    decode 0x381F0241 0x110 = .instr (.jlcc ⟨.limm 0x110, false, .jd, .eq⟩) := by decide

theorem test_decode_memory :
    decode 0x0021060D 0 = .instr (.ldRR ⟨.reg 1, .rr 2 3, false, true, .word, true⟩) ∧
    decode 0x0881500A 0 = .instr (.ldRO ⟨.reg 4, .reg 2, 0, 10, true, true, .long, false⟩) ∧
    decode 0x15810206 0 = .instr (.st ⟨.reg 2, .reg 1, 0, 6, true, true, .word⟩) ∧
    decode 0x083FA004 0 = .instr (.lr ⟨.reg 1, .ind .shortQuiet, 0, 4⟩) ∧
    decode 0x121F8A01 0 = .instr (.sr ⟨.ind .shortQuiet, .reg 5, 0, 1⟩) := by decide

theorem test_decode_library :
    decode 0x80210600 0 = .instr (.aslm ⟨.reg 1, .rr 2 3, false, .al⟩) ∧
    decode 0x88210600 0 = .instr (.lsrm ⟨.reg 1, .rr 2 3, false, .al⟩) ∧
    decode 0x90417E06 0 = .instr (.asrm ⟨.reg 2, .rs 2 6, false, .al⟩) ∧
    decode 0x98210600 0 = .instr (.rorm ⟨.reg 1, .rr 2 3, false, .al⟩) ∧
    decode 0xA7E10601 0 = .instr (.mul64 ⟨.rr 2 3, false, .eq⟩) ∧
    decode 0xAFE17E01 0 = .instr (.mulu64 ⟨.rs 2 1, false, .al⟩) ∧
    decode 0xF0210600 0 = .instr (.max ⟨.reg 1, .rr 2 3, false, .al⟩) ∧
    decode 0xF8210600 0 = .instr (.min ⟨.reg 1, .rr 2 3, false, .al⟩) := by decide

/-- The same numbered as the opcode table numbers bits, its long immediate in the second word. -/
theorem test_decode_table :
    decodeTableWord 64 0x123456784021_7C00 = some (.add ⟨.reg 1, .rl 2 0x12345678, false, .al⟩) ∧
    decodeTableWord 32 0x40217C00 = some (.add ⟨.reg 1, .rl 2 0, false, .al⟩) := by decide

/-! ### One step -/

/-- The start state: `pc` = 0x100, r2 and r3 as given, r1 = 0xAAAAAAAA, the flags Z N C V as given. -/
def start (x2 x3 : Word) (zncv : BitVec 4) : State :=
  { ((State.reset.setReg 1 0xAAAAAAAA).setReg 2 x2).setReg 3 x3 with
    pc := 0x100
    z := zncv.getLsbD 3, n := zncv.getLsbD 2, c := zncv.getLsbD 1, v := zncv.getLsbD 0 }

/-- A field of the next state, if there is one. -/
def after {α : Type} (o : Result) (f : State → α) : Option α :=
  match o with
  | .next t => some (f t)
  | _ => none

/-- A register of a state. -/
def r (i : Fin 32) (t : State) : Word := t.regs[i]

/-- The flags Z N C V. -/
def zncv (t : State) : BitVec 4 := BitVec.ofBool t.z ++ BitVec.ofBool t.n ++ BitVec.ofBool t.c ++ BitVec.ofBool t.v

/-- r1, the flags and the pc after the step that runs the word `w` from `s`. -/
def run (s : State) (w : Nat) : Option (Word × BitVec 4 × PAddr) :=
  after (step (s.withFetchWord 64 w)) fun t => (r 1 t, zncv t, t.pc)

/-! 95_test_vectors.md sections 2.1 and 2.2. -/

theorem test_add :
    run (start 0x7FFFFFFF 0x1 0) 0x40210700 = some (0x80000000, 5, 0x101) := by decide
theorem test_add_limm_flags :
    run (start 0xF0 0xF 0) 0x80000000403F7D00 = some (0x0, 11, 0x102) := by decide
theorem test_adc :
    run (start 0x7FFFFFFF 0x7FFFFFFF 2) 0x48210700 = some (0xFFFFFFFF, 5, 0x101) := by decide
theorem test_sub :
    run (start 0x7FFFFFFF 0xFFFFFFFF 0) 0x50210700 = some (0x80000000, 7, 0x101) := by decide
theorem test_sub_no_borrow :
    run (start 0x80000000 0x1 0) 0x50210700 = some (0x7FFFFFFF, 1, 0x101) := by decide
theorem test_sbc :
    run (start 0x7FFFFFFF 0x7FFFFFFF 2) 0x58210700 = some (0xFFFFFFFF, 6, 0x101) := by decide
theorem test_and :
    run (start 0xFFFFFFFF 0x80000000 3) 0x60210700 = some (0x80000000, 7, 0x101) := by decide
theorem test_or :
    run (start 0x12345678 0xF0F0F0F 3) 0x68210700 = some (0x1F3F5F7F, 3, 0x101) := by decide
theorem test_bic :
    run (start 0x12345678 0xF0F0F0F 3) 0x70210700 = some (0x10305070, 3, 0x101) := by decide
theorem test_xor :
    run (start 0x55555555 0x55555555 3) 0x78210700 = some (0x0, 11, 0x101) := by decide
theorem test_nop :
    run (start 0xF0 0xF 10) 0x7FFFFFFF = some (0xAAAAAAAA, 10, 0x101) := by decide
theorem test_condition_false_limm :
    run (start 0xF0 0xF 0) 0x1234567840217C01 = some (0xAAAAAAAA, 0, 0x102) := by decide

/-! 95_test_vectors.md section 2.3. -/

theorem test_asr :
    run (start 0x80000001 0x0 0) 0x18210300 = some (0xC0000000, 6, 0x101) := by decide
theorem test_lsr :
    run (start 0x80000001 0x0 0) 0x18210500 = some (0x40000000, 2, 0x101) := by decide
theorem test_ror :
    run (start 0x80000001 0x0 0) 0x18210700 = some (0xC0000000, 6, 0x101) := by decide
theorem test_rrc :
    run (start 0x2 0x0 2) 0x18210900 = some (0x80000001, 4, 0x101) := by decide
theorem test_sexb :
    run (start 0x80 0x0 0) 0x18210B00 = some (0xFFFFFF80, 4, 0x101) := by decide
theorem test_sexw :
    run (start 0x8000 0x0 0) 0x18210D00 = some (0xFFFF8000, 4, 0x101) := by decide
theorem test_extb :
    run (start 0x123456FF 0x0 2) 0x18210F00 = some (0xFF, 2, 0x101) := by decide
theorem test_extw :
    run (start 0x1234FFFF 0x0 2) 0x18211100 = some (0xFFFF, 2, 0x101) := by decide
theorem test_mov :
    run (start 0x80000000 0x0 2) 0x60210500 = some (0x80000000, 6, 0x101) := by decide
theorem test_rol_first_word :
    run (start 0x40000000 0x0 0) 0x40210500 = some (0x80000000, 5, 0x101) := by decide
theorem test_asl :
    run (start 0xC0000001 0x0 2) 0x40210400 = some (0x80000002, 2, 0x101) := by decide
theorem test_rlc :
    run (start 0x80000000 0x0 2) 0x48210500 = some (0x1, 3, 0x101) := by decide

/-- FLAG 0x78, from Z=1 N=0 C=1 V=0 E2=0 E1=1. -/
theorem test_flag :
    after (step ({ start 0 0 10 with e1 := true }.withFetchWord 32 0x1FBF8078))
      (fun t => (zncv t, t.e1, t.e2, t.h)) = some (15, false, false, false) := by decide
/-- FLAG 0x7F halts and leaves the other bits. -/
theorem test_flag_halt :
    after (step ({ start 0 0 10 with e1 := true }.withFetchWord 32 0x1FBF807F))
      (fun t => (zncv t, t.e1, t.e2, t.h, t.sh, t.pc)) = some (10, true, false, true, true, 0x101) := by decide

/-! 95_test_vectors.md sections 1.4 (S21, S22) and 2.10 row 1. -/

theorem test_brk :
    after (step ((start 0 0 8).withFetchWord 32 0x1FFFFE00)) (fun t => (t.h, t.bh, t.sh, t.pc)) =
      some (true, true, false, 0x100) := by decide
theorem test_sleep :
    after (step ((start 0 0 8).withFetchWord 32 0x1FFFFE01)) (fun t => (t.h, t.zz, t.pc)) =
      some (false, true, 0x101) := by decide
theorem test_swi :
    after (step ({ start 0 0 10 with e2 := true }.withFetchWord 32 0x1FFFFE02))
      (fun t => (r 30 t, t.e1, t.e2, t.pc)) = some (0xA8000101, false, false, 4) := by decide

/-! 95_test_vectors.md section 2.5: `ADD r1,r1,1` in the delay slot, flags Z=1 N=0 C=1 V=0, E2=1; the step takes the
slot with the branch. -/

/-- The layout of section 2.5, with r5 as given and the slot's word. -/
def branchStart (x5 slot : Word) : State :=
  { ((start 0 0 10).setReg 1 0).setReg 5 x5 with e2 := true }.placeWord 0x101 slot

/-- r1, BLINK and the pc after the step. -/
def branched (s : State) (w : Word) : Option (Word × Word × PAddr) :=
  after (step (s.placeWord 0x100 w)) fun t => (r 1 t, r 31 t, t.pc)

theorem test_bcc_d :
    branched (branchStart 0 0x4020FE01) 0x200007A1 = some (1, 0x0, 0x110) := by decide
theorem test_bcc_jd_not_taken :
    branched (branchStart 0 0x4020FE01) 0x200007C2 = some (0, 0x0, 0x102) := by decide
/-- The skip of mode JD in the last position of a loop goes to LP_START, LP_COUNT as it is (42_jump_branch_loop.md R205,
decision D42). -/
theorem test_bcc_jd_loop_end :
    after (step ({ branchStart 0 0x4020FE01 with lpStart := 0x80, lpEnd := 0x102, lpCount := 2 }.placeWord 0x100
      0x200007C2)) (fun t => (t.pc, t.lpCount)) = some (0x80, 2) := by decide
theorem test_blcc :
    branched (branchStart 0 0x4020FE01) 0x28000781 = some (0, 0xA8000101, 0x110) := by decide
theorem test_blcc_d :
    branched (branchStart 0 0x4020FE01) 0x280007A1 = some (1, 0xA8000102, 0x110) := by decide
theorem test_jcc_d :
    branched (branchStart 0xFF000110 0x4020FE01) 0x38028021 = some (1, 0x0, 0x110) := by decide
theorem test_jlcc_d :
    branched (branchStart 0x110 0x4020FE01) 0x38028221 = some (1, 0xA8000102, 0x110) := by decide
theorem test_jlcc_limm :
    branched (branchStart 0 0x110) 0x381F0241 = some (0, 0xA8000102, 0x110) := by decide
/-- JEQ.F 0x110,0x48: the explicit address with flags. -/
theorem test_jcc_flags :
    after (step ((branchStart 0 0x90000110).placeWord 0x100 0x381F0101)) (fun t => (zncv t, t.e1, t.e2, t.pc)) =
      some (0b1001, false, false, 0x110) := by decide

/-! 95_test_vectors.md section 2.6, traces A (third step), B and A (ninth step). -/

theorem test_lpcc :
    after (step ({ start 0 0 0 with pc := 0x102, lpCount := 3 }.withFetchWord 32 0x30000100))
      (fun t => (t.lpStart, t.lpEnd, t.lpCount, t.pc)) = some (0x103, 0x105, 3, 0x103) := by decide
theorem test_lpcc_false :
    after (step ({ start 0 0 8 with pc := 0x101, lpStart := 0x55, lpEnd := 0x77 }.withFetchWord 32 0x30000102))
      (fun t => (t.lpStart, t.lpEnd, t.pc)) = some (0x55, 0x77, 0x104) := by decide
theorem test_loop_again :
    after (step ({ start 0 0 0 with pc := 0x104, lpStart := 0x103, lpEnd := 0x105, lpCount := 3 }.withFetchWord 32
      0x40417E02)) (fun t => (t.lpCount, t.pc)) = some (2, 0x103) := by decide
theorem test_loop_ends :
    after (step ({ start 0 0 0 with pc := 0x104, lpStart := 0x103, lpEnd := 0x105, lpCount := 1 }.withFetchWord 32
      0x40417E02)) (fun t => (t.lpCount, t.pc)) = some (0, 0x105) := by decide

/-! 95_test_vectors.md section 2.7. -/

/-- The memory of the LD rows: bytes 11 82 33 F4 55 66 77 88 from 0x1000. -/
def loadMem : Memory :=
  [(0x1000, 0x11), (0x1001, 0x82), (0x1002, 0x33), (0x1003, 0xF4), (0x1004, 0x55), (0x1005, 0x66), (0x1006, 0x77),
    (0x1007, 0x88)]

/-- The start of the LD rows, in either byte order. -/
def loadStart (e : Endian) : State := { start 0x1000 4 0 with mem := loadMem, cfg := { endian := e } }

/-- LDW.X r1,[r2,2] and LD.A r1,[r2,4], little. -/
theorem test_ldRO :
    after (step ((loadStart .little).withFetchWord 32 0x08210A02)) (r 1) = some 0xFFFFF433 ∧
    after (step ((loadStart .little).withFetchWord 32 0x08211004)) (fun t => (r 1 t, r 2 t)) =
      some (0x88776655, 0x1004) := by decide
/-- LDW.X r1,[r2,2] big. -/
theorem test_ldRO_big : after (step ((loadStart .big).withFetchWord 32 0x08210A02)) (r 1) = some 0x33F4 := by decide
/-- LDW.X.A r1,[r2,r3]. -/
theorem test_ldRR :
    after (step ((loadStart .little).withFetchWord 32 0x0021060D)) (fun t => (r 1 t, r 2 t)) =
      some (0x6655, 0x1004) := by decide

/-- The start of the ST rows, memory being 0. -/
def storeStart (e : Endian) : State := { (start 0x2000 4 0).setReg 1 0x12345678 with cfg := { endian := e } }

/-- The bytes from an address on. -/
def bytesAt (a : Word) (n : Nat) (t : State) : List Byte := t.mem.readList a n

/-- ST.A r1,[r2,4], little. -/
theorem test_st :
    after (step ((storeStart .little).withFetchWord 32 0x11010204)) (fun t => (bytesAt 0x2003 6 t, r 2 t)) =
      some ([0, 0x78, 0x56, 0x34, 0x12, 0], 0x2004) := by decide
/-- STW r1,[r2,2], big. -/
theorem test_st_word :
    after (step ((storeStart .big).withFetchWord 32 0x10810202)) (bytesAt 0x2001 4) =
      some [0, 0x56, 0x78, 0] := by decide

/-! 95_test_vectors.md section 2.8. -/

theorem test_lr :
    after (step ({ start 0 0 6 with e2 := true }.withFetchWord 32 0x083FA000)) (r 1) = some 0x68000101 ∧
    after (step ((start 0 0 6).withFetchWord 32 0x083FA004)) (r 1) = some 8 := by decide
theorem test_sr :
    after (step (((start 0 0 6).setReg 1 0xFF000200).withFetchWord 32 0x121F8202)) (fun t => t.lpStart) =
      some 0x200 := by decide
theorem test_sr_mulhi :
    after (step ((start 0xDEADBEEF 0 6).withFetchWord 32 0x121F8412)) (fun t => t.mr) =
      some 0xDEADBEEF00000000 := by decide

/-! 95_test_vectors.md section 2.9. -/

theorem test_mul64 :
    after (step ((start 0x12345678 0x9ABCDEF0 0).withFetchWord 32 0xA7E10600)) (fun t => t.mr) =
      some 0xF8CC93D6242D2080 := by decide
theorem test_mulu64 :
    after (step ((start 0x12345678 0x9ABCDEF0 0).withFetchWord 32 0xAFE10600)) (fun t => t.mr) =
      some 0x0B00EA4E242D2080 := by decide
theorem test_aslm :
    run (start 0x80000001 0x4 3) 0x80210700 = some (0x10, 3, 0x101) := by decide
theorem test_lsrm :
    run (start 0x80000001 0x1F 3) 0x88210700 = some (0x1, 3, 0x101) := by decide
theorem test_asrm :
    run (start 0x80000001 0x4 3) 0x90210700 = some (0xF8000000, 7, 0x101) := by decide
theorem test_rorm :
    run (start 0x80000001 0x4 3) 0x98210700 = some (0x18000000, 3, 0x101) := by decide
theorem test_norm :
    run (start 0xFFFFFFFE 0x0 0) 0x18211500 = some (0x1E, 0, 0x101) := by decide
theorem test_norm_zero :
    run (start 0x0 0x0 0) 0x18211500 = some (0x1F, 0, 0x101) := by decide
theorem test_swap :
    run (start 0x8000 0x0 0) 0x18211300 = some (0x80000000, 4, 0x101) := by decide
theorem test_max :
    run (start 0x80000000 0x7FFFFFFF 0) 0xF0210700 = some (0x7FFFFFFF, 3, 0x101) := by decide
theorem test_max_equal :
    run (start 0x7 0x7 0) 0xF0210700 = some (0x7, 10, 0x101) := by decide
theorem test_min :
    run (start 0x7FFFFFFF 0x80000000 0) 0xF8210700 = some (0x80000000, 7, 0x101) := by decide

/-! 95_test_vectors.md section 2.10, by row. -/

/-- An interrupt row: pc = 0x123, the flags and enables given, the lines asserted. -/
def irqStart (zncv : BitVec 4) (e1 e2 : Bool) (lines : List Nat) : State :=
  { start 5 6 zncv with pc := 0x123, e1 := e1, e2 := e2, inputs := [.lines lines] }

/-- r29, r30, E1, E2 and the pc after the step. -/
def entered (s : State) : Option (Word × Word × Bool × Bool × PAddr) :=
  after (step s) fun t => (r 29 t, r 30 t, t.e1, t.e2, t.pc)

theorem test_row3_instruction_error :
    after (step ({ start 0 0 5 with e2 := true }.withFetchWord 32 0xB0000000)) (fun t => (r 30 t, t.e2, t.pc)) =
      some (0x58000101, false, 4) := by decide
theorem test_row4_absent_multiplier :
    after (step ({ start 3 5 0 with cfg := { hasMul := false }, e1 := true, e2 := true }.withFetchWord 32 0xA7E10600))
      (fun t => (r 30 t, t.mr, t.pc)) = some (0x0C000101, 0, 4) := by decide
theorem test_row5_swi_in_loop :
    after (step ({ start 0 0 0 with
      e1 := true, e2 := true, lpStart := 0xF0, lpEnd := 0x101, lpCount := 3 }.withFetchWord 32 0x1FFFFE02))
      (fun t => (r 30 t, t.lpCount)) = some (0x0C0000F0, 2) := by decide
theorem test_row6_level1 :
    entered (irqStart 4 true true [3]) = some (0x4C000123, 0, false, true, 6) := by decide
theorem test_row7_level2 :
    entered (irqStart 3 true true [7]) = some (0, 0x3C000123, false, false, 14) := by decide
theorem test_row8_masked :
    after (step ((irqStart 0 false true [3]).placeWord 0x123 0x40210600)) (fun t => (r 1 t, t.pc)) =
      some (11, 0x124) := by decide
theorem test_row9_both :
    entered (irqStart 0 true true [3, 7]) = some (0, 0x0C000123, false, false, 14) := by decide
theorem test_row10_level2_masked :
    entered (irqStart 0 true false [3, 7]) = some (0x04000123, 0, false, false, 6) := by decide
theorem test_row11_memory_error :
    after (step ({ start 0x00F00000 0 8 with
      cfg := { invalid := [⟨.load, 4, 0x00F00000, 0x00F00000⟩] }, e1 := true, e2 := true }.withFetchWord 32 0x08210000))
      (fun t => (zncv t, t.e1, t.e2, t.pc)) = some (8, false, false, 2) := by decide
theorem test_row13_return :
    after (step (((start 0 0 0).setReg 30 0xAF000101).withFetchWord 32 0x380F0100))
      (fun t => (zncv t, t.e1, t.e2, t.h, t.pc)) = some (10, true, true, false, 0x101) := by decide
theorem test_row18_asleep_masked :
    after (step { irqStart 0 false false [3] with zz := true }) (fun t => (t.zz, t.pc)) =
      some (true, 0x123) := by decide
theorem test_row17_wakes :
    after (step { irqStart 0 true true [3] with zz := true }) (fun t => (t.zz, r 29 t, t.pc)) =
      some (false, 0x0C000123, 6) := by decide
theorem test_row19_swi_in_slot :
    after (step ({ start 0 0 8 with e1 := true, e2 := true }.placeWord 0x101 0x1FFFFE02 |>.placeWord 0x100 0x200007A1))
      (fun t => (r 30 t, t.pc)) = some (0x8C000110, 4) := by decide
/-- Row 20: the branch is not taken and its slot runs in the same step. -/
theorem test_row20_swi_in_slot_not_taken :
    after (step ({ start 0 0 0 with e1 := true, e2 := true }.placeWord 0x101 0x1FFFFE02 |>.placeWord 0x100 0x200007A1))
      (fun t => (r 30 t, t.pc)) = some (0x0C000102, 4) := by decide
theorem test_row21_hard_reset :
    after (step { start 0 0 15 with lpCount := 5, semArc := 1, inputs := [.reset] })
      (fun t => (zncv t, t.pc, t.lpCount, t.semArc)) = some (0, 0, 0, 0) := by decide

/-! ### Witnesses: states and operands that meet the hypotheses of the statements -/

/-- A register that is no multiply result may be written. -/
theorem writable_reg {s : State} {x : CoreReg} (h : isMulReg s.cfg x = false) : Writable s (.reg x) := by
  rintro _ ⟨⟩; exact h

/-- A discarded result may always be written. -/
theorem writable_ind (s : State) (k : Indicator) : Writable s (.ind k) := nofun

/-- A start state with the flags clear. -/
def plain : State := start 0xF0 0x0F 0

theorem witness_DecodeEncode : Instr.wf (.add ⟨.reg 1, .rl 2 8, true, .ne⟩) = true := by decide
theorem witness_EncodeDecode : decode 0x40210600 0 = .instr (.add ⟨.reg 1, .rr 2 3, false, .al⟩) := by decide

/-- `N` = 3 in each branch opcode, `ZZ` = 3 in both LD forms and in ST. -/
theorem witness_ReservedFieldsRefused :
    (opcodeOf 0x20000060 = 4 ∧ fieldN 0x20000060 = 3) ∧ (opcodeOf 0x28000060 = 5 ∧ fieldN 0x28000060 = 3) ∧
    (opcodeOf 0x30000060 = 6 ∧ fieldN 0x30000060 = 3) ∧ (opcodeOf 0x38008060 = 7 ∧ fieldN 0x38008060 = 3) ∧
    (opcodeOf 0x00210606 = 0 ∧ (0x00210606 : Word).extractLsb' 1 2 = 3) ∧
    (opcodeOf 0x08210C00 = 1 ∧ (0x08210C00 : Word).getLsbD 13 = false ∧ (0x08210C00 : Word).extractLsb' 10 2 = 3) ∧
    (opcodeOf 0x10C10200 = 2 ∧ (0x10C10200 : Word).getLsbD 25 = false ∧
      (0x10C10200 : Word).extractLsb' 22 2 = 3) := by decide

/-- The first and the last unassigned opcode, and one of an absent option. -/
theorem witness_InvalidOpcode :
    let s := fun w : Word => plain.placeWord 0x100 w
    let absent := fun w : Word => (s w).fetchValid (s w).pc = true ∧ (s w).stale (s w).pc = false ∧
      opcodeValid (s w).cfg ((s w).codeWord (s w).pc) = false
    absent 0xB0000000 ∧ absent 0xEFFFFFFF := by decide
theorem witness_InvalidOpcode_option :
    let s := { plain with cfg := { hasBarrel := false } }.placeWord 0x100 0x80210600
    s.fetchValid s.pc = true ∧ s.stale s.pc = false ∧ opcodeValid s.cfg (s.codeWord s.pc) = false := by decide

theorem witness_SubThenCompare :
    let o : Dual := ⟨.reg 1, .rr 2 3, true, .al⟩
    plain.cond o.cc = true ∧ o.f = true ∧ ∃ t, exec (.sub o) plain = .next t := ⟨rfl, rfl, _, rfl⟩

/-- A false condition, and an extension condition. -/
theorem witness_FalseConditionDoesNothing :
    (conditionOf (.add ⟨.reg 1, .rl 2 8, true, .eq⟩) = some (.eq, true) ∧
      Available plain.cfg (.add ⟨.reg 1, .rl 2 8, true, .eq⟩) ∧ plain.cond .eq = false) ∧
    (conditionOf (.aslm ⟨.reg 1, .rr 2 3, true, .ext 0⟩) = some (.ext 0, false) ∧
      Available plain.cfg (.aslm ⟨.reg 1, .rr 2 3, true, .ext 0⟩)) ∧
    (conditionOf (.flag ⟨.ind .shortFlags, .reg 2, false, .eq⟩) = some (.eq, false) ∧
      Available plain.cfg (.flag ⟨.ind .shortFlags, .reg 2, false, .eq⟩)) := by
  refine ⟨⟨rfl, trivial, rfl⟩, ⟨rfl, rfl⟩, rfl, rfl, rfl⟩

/-- r0 and r31, a multiplier, and a history of LP_COUNT that is empty, or just too old to be read. -/
theorem witness_OperandValues :
    (0 : CoreReg).val < 32 ∧ (31 : CoreReg).val < 32 ∧ (∀ e ∈ plain.countHist, 2 ≤ e.age) ∧
    (∀ e ∈ { plain with countHist := [⟨5, 2⟩] }.countHist, 2 ≤ e.age) ∧
    ¬(∀ e ∈ { plain with countHist := [⟨5, 1⟩] }.countHist, 2 ≤ e.age) ∧ plain.cfg.hasMul = true := by decide

/-- The hypotheses of AddResult, SubResult, LogicResult, BarrelResult, BarrelOpenCounts and MaxMinResult: a
destination r1, LP_COUNT, and none. -/
theorem witness_dual :
    (plain.cond .al = true ∧ Writable plain (.reg 1)) ∧ Writable plain (.reg 60) ∧
    Writable plain (.ind .shortQuiet) ∧ plain.cfg.hasBarrel = true ∧ plain.cfg.hasMinMax = true :=
  ⟨⟨rfl, writable_reg rfl⟩, writable_reg rfl, writable_ind _ _, rfl, rfl⟩

/-- Counts 32 and 2^32 - 1. -/
theorem witness_BarrelOpenCounts :
    (operand2 (start 1 32 0) (.rr 2 3)).toNat = 32 ∧ (operand2 (start 1 0xFFFFFFFF 0) (.rr 2 3)).toNat = 2 ^ 32 - 1 := by
  decide

/-- Counts 0 and 31. -/
theorem witness_BarrelResult :
    (operand2 (start 1 0 0) (.rr 2 3)).toNat < 32 ∧ (operand2 (start 1 31 0) (.rr 2 3)).toNat = 31 := by decide

/-- The hypotheses of SecondNames, ShiftByOne, ExtendResult and SwapNormResult. -/
theorem witness_single :
    plain.cond .al = true ∧ Writable plain (.reg 1) ∧ (∀ b, Src1.reg 2 = .reg b → Implemented plain b) ∧
    plain.cfg.hasSwap = true ∧ plain.cfg.hasNorm = true := by
  refine ⟨rfl, writable_reg rfl, ?_, rfl, rfl⟩
  rintro _ ⟨⟩; exact .inl (by decide)

/-- An operand of NORM that is 0 after the sign is taken off, and one that is not. -/
theorem witness_SwapNormResult :
    operand (start 0xFFFFFFFF 0 0) (.reg 2) = 0xFFFFFFFF ∧ operand (start 0x80000000 0 0) (.reg 2) = 0x80000000 := by
  decide

/-- A result for r57, r58 and r59 of each shape: dual, single, the second names, LR. -/
theorem witness_ReadOnlyDestination :
    plain.cfg.hasMul = true ∧ plain.cond .al = true ∧ MulField (.reg 57) ∧ MulField (.reg 58) ∧ MulField (.reg 59) ∧
    resultOf (.xor ⟨.reg 57, .rr 2 3, false, .al⟩) = some (.reg 57, .al) ∧
    resultOf (.norm ⟨.reg 58, .reg 2, false, .al⟩) = some (.reg 58, .al) ∧
    resultOf (.rol ⟨59, .reg 2, .al⟩) = some (.reg 59, .al) ∧
    resultOf (.lr ⟨.reg 57, .ind .shortQuiet, 0, 4⟩) = some (.reg 57, .al) ∧
    Available plain.cfg (.xor ⟨.reg 57, .rr 2 3, false, .al⟩) :=
  ⟨rfl, rfl, .inl rfl, .inr (.inl rfl), .inr (.inr rfl), rfl, rfl, rfl, rfl, trivial⟩

/-- LD and ST of r57 to r59: as the destination, and as the base of a write-back. -/
theorem witness_ReadOnlyDestination_memory :
    let s := loadStart .little
    MulField (LoadRR.dst ⟨.reg 57, .rr 2 3, false, false, .long, false⟩) ∧
    MulField (backTo true (Src2.first (.rr 58 2))) ∧ MulField (backTo true (.reg 59)) ∧
    (memValid s.cfg (operand1 s (.rr 2 3) + operand2 s (.rr 2 3)).toNat 4 .load = true ∧
      accessOk s.cfg (operand1 s (.rr 2 3) + operand2 s (.rr 2 3)) .long = true) ∧
    (memValid s.cfg (operand1 s (.rr 58 2) + operand2 s (.rr 58 2)).toNat 4 .load = true ∧
      accessOk s.cfg (operand1 s (.rr 58 2) + operand2 s (.rr 58 2)) .long = true) ∧
    (memValid s.cfg (fieldOperand s false .operand1 (.reg 59) 0 4 + shortImm 4).toNat 4 .load = true ∧
      accessOk s.cfg (fieldOperand s false .operand1 (.reg 59) 0 4 + shortImm 4) .long = true) ∧
    let o : StoreOp := ⟨.reg 59, .reg 1, 0, 4, false, true, .long⟩
    memValid s.cfg (storeAddr o (s.issue (StoreOp.isLong o))).toNat 4 .store = true ∧
      accessOk s.cfg (storeAddr o (s.issue (StoreOp.isLong o))) .long = true :=
  ⟨.inl rfl, .inr (.inl rfl), .inr (.inr rfl), by decide, by decide, by decide, by decide⟩

theorem witness_MultiplyResult : plain.cfg.hasMul = true ∧ plain.cond .al = true := by decide

/-- A load through r57 that takes the memory error has waited for the multiply (70_reset_and_hazards.md R412). -/
theorem test_mul_wait_memory_error :
    after (exec (.ldRO ⟨.reg 1, .reg 57, 0, 0, false, false, .long, false⟩)
      { start 0 0 0 with mulBusy := 3, cfg := { invalid := [⟨.load, 4, 0, 0⟩] } }) (fun t => (t.pc, t.mulBusy)) =
      some (2, 0) := by decide

/-- Reads of r57 and r59 while a multiply may be under way, by MOV, as the data of SR and of ST, and by a jump. -/
theorem witness_MultiplyResult_reads :
    let s := { plain with mulBusy := 3 }
    let i : Instr := .mov ⟨.reg 1, .reg 57, false, .al⟩
    let k : Instr := .sr ⟨.ind .shortQuiet, .reg 59, 0, 2⟩
    s.cfg.hasMul = true ∧ 57 ∈ readsOf i ∧ 59 ∈ readsOf k ∧ MulField (.reg 57) ∧ MulField (.reg 59) ∧
    Available s.cfg i ∧ Available s.cfg k ∧ (∃ t, exec i s = .next t) ∧ (∃ t, exec k s = .next t) ∧
    58 ∈ readsOf (.st ⟨.reg 2, .reg 58, 0, 0, false, false, .long⟩) ∧
    57 ∈ readsOf (.jcc ⟨.reg 57, false, .nd, .al⟩) ∧ s.slotWord (s.fallThrough false) ≠ .brk :=
  ⟨rfl, by decide, by decide, .inl rfl, .inr (.inr rfl), trivial, trivial, ⟨_, rfl⟩, ⟨_, rfl⟩, by decide, by decide,
    by decide⟩

/-- Each option absent. -/
theorem witness_AbsentOption :
    let s := { plain with cfg :=
      { hasBarrel := false, hasMul := false, hasMinMax := false, hasSwap := false, hasNorm := false } }
    s.cfg.hasBarrel = false ∧ s.cfg.hasMul = false ∧ s.cfg.hasMinMax = false ∧ s.cond .al = true ∧
    Writable s (.reg 1) ∧ s.cfg.hasSwap = false ∧ s.cfg.hasNorm = false :=
  ⟨rfl, rfl, rfl, rfl, writable_reg rfl, rfl, rfl⟩

/-- The unassigned code 0x0B fetched; the first and last unassigned codes, and one with a reserved bit set. -/
theorem witness_AbsentOption_unassigned :
    let s := plain.placeWord 0x100 0x18211600
    let open3 := fun w : Word => opcodeOf w = 3 ∧ 0x0B ≤ (fieldC w).toNat ∧ w ≠ brkWord ∧ w ≠ sleepWord ∧ w ≠ swiWord
    s.fetchInstr = .unassigned ⟨.reg 1, .reg 2, false, .al⟩ ∧ s.cond .al = true ∧
    open3 0x18211600 ∧ open3 0x1FFFFE03 ∧ open3 0x182116E0 ∧ fieldR 0x182116E0 ≠ 0 := by decide

theorem witness_ByteOrder : Memory.wf loadMem := by decide

/-- Both forms of LD, with write-back to the base, at the first and the last long word. -/
theorem witness_LoadResult :
    let s := loadStart .little
    let o : LoadRR := ⟨.reg 1, .rr 2 3, false, true, .long, false⟩
    let p : LoadRO := ⟨.reg 1, .reg 2, 0, 4, false, true, .word, true⟩
    (memValid s.cfg (operand1 s o.src + operand2 s o.src).toNat 4 .load = true ∧
      accessOk s.cfg (operand1 s o.src + operand2 s o.src) .long = true) ∧
    (memValid s.cfg (fieldOperand s false .operand1 p.base 0 4 + shortImm 4).toNat 2 .load = true ∧
      accessOk s.cfg (fieldOperand s false .operand1 p.base 0 4 + shortImm 4) .word = true) ∧
    accessOk s.cfg 0 .long = true ∧ accessOk s.cfg 0xFFFFFFFC .long = true := by decide
theorem witness_LoadResult_writable :
    Writable (loadStart .little) (.reg 1) ∧ Writable (loadStart .little) (backTo true (.reg 2)) :=
  ⟨writable_reg rfl, writable_reg rfl⟩

theorem witness_StoreResult :
    let s := storeStart .little
    let o : StoreOp := ⟨.reg 2, .reg 1, 0, 4, false, true, .long⟩
    Memory.wf s.mem ∧ memValid s.cfg (storeAddr o (s.issue (StoreOp.isLong o))).toNat 4 .store = true ∧
    accessOk s.cfg (storeAddr o (s.issue (StoreOp.isLong o))) .long = true := by decide
theorem witness_StoreResult_writable : Writable (storeStart .little) (backTo true (.reg 2)) := writable_reg rfl

/-- A misaligned load of each form, and a store. -/
theorem witness_Alignment :
    let s := (loadStart .little).setReg 3 1
    let o : LoadRO := ⟨.reg 1, .reg 2, 0, 2, false, false, .long, false⟩
    let p : StoreOp := ⟨.reg 2, .reg 1, 0, 1, false, false, .word⟩
    let a := fieldOperand s false .operand1 o.base o.limm o.off + shortImm o.off
    let b := storeAddr p (s.issue (StoreOp.isLong p))
    let c := operand1 s (.rr 3 2) + operand2 s (.rr 3 2)
    (memValid s.cfg a.toNat 4 .load = true ∧ aligned a .long = false ∧ misalignedOk s.cfg a.toNat 4 = false) ∧
    (memValid s.cfg c.toNat 4 .load = true ∧ aligned c .long = false ∧ misalignedOk s.cfg c.toNat 4 = false) ∧
    (memValid s.cfg b.toNat 2 .store = true ∧ aligned b .word = false ∧ misalignedOk s.cfg b.toNat 2 = false) := by
  decide

/-- The start state with invalid long words for each kind. -/
def badMemory : State :=
  { start 0x2000 4 0 with
    cfg := { invalid := [⟨.load, 4, 0x2000, 0x2000⟩, ⟨.store, 4, 0x2000, 0x2000⟩, ⟨.fetch, 4, 0x400, 0x400⟩] } }

/-- The fetch of a long immediate from invalid memory: the words at 0x100 and 0x101. -/
theorem witness_MemoryErrorEntry_limm :
    let s := { start 0 0 0 with cfg := { invalid := [⟨.fetch, 4, 0x404, 0x404⟩] } }.placeWord 0x100 0x40217C00
    s.fetchValid s.pc = true ∧ s.stale s.pc = false ∧ opcodeValid s.cfg (s.codeWord s.pc) = true ∧
    needsLimm (s.codeWord s.pc) = true ∧ s.fetchValid (s.fallThrough false) = false := by decide

theorem witness_MemoryErrorEntry :
    let s := badMemory
    let o : LoadRO := ⟨.reg 1, .reg 2, 0, 0, false, true, .long, false⟩
    let p : StoreOp := ⟨.reg 2, .reg 1, 0, 0, false, true, .long⟩
    let q : LoadRR := ⟨.reg 1, .rr 2 4, false, true, .long, false⟩
    memValid s.cfg (operand1 s q.src + operand2 s q.src).toNat 4 .load = false ∧
    memValid s.cfg (fieldOperand s false .operand1 o.base o.limm o.off + shortImm o.off).toNat 4 .load = false ∧
    memValid s.cfg (storeAddr p (s.issue (StoreOp.isLong p))).toNat 4 .store = false ∧
    o.dst ≠ .reg 60 ∧ backTo o.awb o.base ≠ .reg 60 ∧ s.fetchValid s.pc = false := by decide

/-- The auxiliary addresses at the bounds of the clauses. -/
theorem witness_LrResult :
    Writable plain (.reg 1) ∧
    ([0, 1, 2, 3, 4, 5, 6, 0x12, 0x5F, 0x60, 0x7F, 0x80, 0xFF] : List (BitVec 9)).map
      (fun d => (fieldOperand plain false .operand1 (.ind .shortQuiet) 0 d).toNat) =
      [0, 1, 2, 3, 4, 5, 6, 0x12, 0x5F, 0x60, 0x7F, 0x80, 0xFF] := ⟨writable_reg rfl, by decide⟩

/-- LR of DEBUG with no load outstanding, and with those that the LR itself waits for. -/
theorem witness_LrResult_loads :
    (∀ d ∈ plain.loads, (∃ x, d = .reg x) ∧ (d = .reg 1 ∨ d = .reg 2)) ∧
    ∀ d ∈ { plain with loads := [.reg 1, .reg 2] }.loads, (∃ x, d = .reg x) ∧ (d = .reg 1 ∨ d = .reg 2) :=
  ⟨by simp [plain, start, State.reset, State.setReg], by simp⟩

/-- The same addresses for SR, with r2 as the data; STATUS, IDENTITY, DEBUG and the bounds of the build
configuration registers are the refused ones. -/
theorem witness_SrResult :
    ([0, 1, 2, 3, 4, 5, 6, 0x12, 0x5F, 0x60, 0x7F, 0x80] : List (BitVec 9)).map
      (fun d => (fieldOperand plain (SrOp.isLong ⟨.ind .shortQuiet, .reg 2, 0, d⟩) .operand1 (.ind .shortQuiet) 0
        d).toNat) = [0, 1, 2, 3, 4, 5, 6, 0x12, 0x5F, 0x60, 0x7F, 0x80] ∧ plain.cfg.hasMul = true := by decide

/-- The invariant at the start state, both agents owning a semaphore bit. -/
theorem witness_inv : Inv { plain with semArc := 1, semHost := 8 } :=
  ⟨by decide, by decide, by decide, by decide, by decide, nofun, .nil⟩

theorem witness_SemaphoreWrite :
    Inv { plain with semArc := 1, semHost := 8 } ∧ 0 < plain.cfg.nSem ∧ 3 < plain.cfg.nSem :=
  ⟨witness_inv, by decide, by decide⟩

/-- FLAG refused for either reason, FLAG that halts, FLAG that does not. -/
theorem witness_FlagResult :
    ((⟨.ind .shortFlags, .short 0, true, .al⟩ : Single).f = true) ∧
    (∃ x, (⟨.reg 1, .reg 2, false, .al⟩ : Single).dst = .reg x) ∧
    ((∀ x, (⟨.ind .shortFlags, .reg 2, false, .al⟩ : Single).dst ≠ .reg x) ∧ plain.cond .al = true ∧
      (operand (start 0x7E 0 0) (.reg 2)).getLsbD 0 = false ∧ (operand (start 0x7F 0 0) (.reg 2)).getLsbD 0 = true) :=
  ⟨rfl, ⟨1, rfl⟩, nofun, rfl, by decide, by decide⟩

/-- A word in the slot that no mode refuses. -/
theorem slotOk_plain : ∀ n, SlotOk plain n := fun n => ⟨nofun, by decide, by decide, fun _ => by decide⟩

/-- The hypotheses of BccResult, BlccResult, JccResult and JlccResult, in each mode and with the condition true and
false. -/
theorem witness_branch :
    (SlotOk plain .nd ∧ SlotOk plain .d ∧ SlotOk plain .jd) ∧ plain.cond .ne = true ∧ plain.cond .eq = false ∧
    (∀ target, plain.slot ≠ .run target) :=
  ⟨⟨slotOk_plain _, slotOk_plain _, slotOk_plain _⟩, by decide, by decide, nofun⟩

theorem witness_LpccResult :
    SlotOk plain .nd ∧ LoopSettled plain ∧ plain.cond .al = true ∧ ∃ t, exec (.lpcc ⟨2, .nd, .al⟩) plain = .next t :=
  ⟨slotOk_plain _, ⟨rfl, rfl, rfl, rfl⟩, rfl, _,
    (slotted_next (slotOk_plain .nd) : execLpcc ⟨2, .nd, .al⟩ plain = _)⟩

/-- A branch in a delay slot, and one before a two-word instruction. -/
theorem witness_SlotContentsRefused :
    (isBranch (.jcc ⟨.limm 8, false, .nd, .al⟩) = true ∧ { plain with slot := .run 8 }.slot = .run 8) ∧
    (slottedMode (.bcc ⟨2, .d, .eq⟩) = some .d ∧ (∀ target, (plain.placeWord 0x101 0x40217C00).slot ≠ .run target) ∧
      (plain.placeWord 0x101 0x40217C00).slotWord ((plain.placeWord 0x101 0x40217C00).fallThrough false) = .twoWords) :=
  ⟨⟨rfl, rfl⟩, rfl, nofun, by decide⟩

theorem witness_BrkInSlot :
    slottedMode (.bcc ⟨2, .nd, .eq⟩) = some .nd ∧ (∀ target, (plain.placeWord 0x101 0x1FFFFE00).slot ≠ .run target) ∧
    (plain.placeWord 0x101 0x1FFFFE00).slotWord ((plain.placeWord 0x101 0x1FFFFE00).fallThrough false) = .brk :=
  ⟨rfl, nofun, by decide⟩

/-- A word of opcode 7 with `C` = 62 has a long immediate (30_encoding.md R100), so a branch of mode JD does not skip it. -/
theorem test_jump_c_long :
    needsLimm 0x38007C00 = true ∧ decode 0x38007C00 0 = .refused .jumpForm ∧
    exec (.bcc ⟨2, .jd, .eq⟩) (plain.placeWord 0x101 0x38007C00) = .refused .longInSlot := ⟨by decide, by decide, rfl⟩

/-- The last fetch of a loop, with 1 and with more passes left, and another fetch. -/
theorem witness_LoopNext :
    LoopSettled { plain with lpEnd := 0x101, lpCount := 1 } ∧ LoopSettled { plain with lpEnd := 0x101, lpCount := 2 } ∧
    LoopSettled plain ∧ plain.pc + 1 = 0x101 := ⟨⟨rfl, rfl, rfl, rfl⟩, ⟨rfl, rfl, rfl, rfl⟩, ⟨rfl, rfl, rfl, rfl⟩, rfl⟩

/-- The bounds in force after an SR to LP_END, and after an LPcc; a write of LP_COUNT on its way. -/
theorem witness_LoopNext_windows :
    InForce { plain with lpEnd := 0x101, endHist := [⟨0x200, 0⟩] } plain.lpStart 0x200 ∧
    InForce { plain with lpEnd := 0x101, endHist := [⟨0x200, 0⟩] } plain.lpStart 0x101 ∧
    InForce { plain with lpLag := some (3, 4) } 3 4 ∧
    { plain with lpCount := 7, countHist := [⟨1, 0⟩] }.countHist = [] ++ ⟨1, 0⟩ :: [] :=
  ⟨⟨.inl rfl, .inr ⟨_, List.mem_cons_self, rfl⟩⟩, ⟨.inl rfl, .inl rfl⟩, rfl, rfl⟩

/-- A value kept for a second instruction, and one no longer. -/
theorem test_later : LaterBy1 2 [⟨1, 0⟩, ⟨5, 1⟩, ⟨7, 2⟩] [⟨1, 1⟩, ⟨5, 2⟩] := by unfold LaterBy1; decide

/-- The parameters of the default layouts, which StatusLayout has clauses for. -/
theorem witness_StatusLayout : plain.cfg.identityBits = {} ∧ plain.cfg.debugBits = {} := by decide

/-- An interrupt of each level, and a state without one. -/
theorem witness_interrupts :
    let s := irqStart 0 true true [3]
    let u := irqStart 0 true true [7]
    let m := irqStart 0 false false [3]
    (s.inputs = .lines [3] :: [] ∧ s.h = false ∧ s.slot = .none ∧ s.selectIrq [3] = some (3, .l1) ∧
      s.brkNext = false) ∧
    (u.selectIrq [7] = some (7, .l2) ∧ u.brkNext = false) ∧ m.selectIrq [3] = none := by decide

/-- A BRK at the recognition point, and a pending request behind a branch that did not jump. -/
theorem witness_InterruptHeldOff :
    let s := (irqStart 0 true true [3]).placeWord 0x123 0x1FFFFE00
    let u := { irqStart 0 true true [3] with slot := .hold }
    (s.inputs = .lines [3] :: [] ∧ s.h = false ∧ s.slot = .none ∧ s.selectIrq [3] = some (3, .l1) ∧
      s.brkNext = true) ∧
    (u.inputs = .lines [3] :: [] ∧ u.h = false ∧ u.zz = false ∧ u.slot = .hold) := by decide

/-- The state after an entry of level 1, the handler's link register untouched. -/
theorem witness_ReturnRestores :
    let t := (irqStart 4 true true []).enter 3 .l1 0x123
    Entered (irqStart 4 true true []) 3 .l1 0x123 (irqStart 4 true true []).lpCount t ∧ t.regs = t.regs ∧
    SlotOk t .nd :=
  ⟨enter_entered _ _ _ _, rfl, nofun, by decide, by decide, fun h => absurd rfl h⟩

theorem witness_HaltedAndSleepingWait :
    ({ plain with h := true }.h = true ∧ { plain with h := true }.ss = false ∧ { plain with h := true }.inputs = []) ∧
    ({ plain with zz := true, inputs := [.lines [3]] }.zz = true ∧
      { plain with zz := true, inputs := [.lines [3]] }.selectIrq [3] = none) := by decide

/-- A NOP, and a SLEEP, under an instruction step. -/
theorem witness_InstructionStep :
    let s := fun w : Word => { plain.placeWord 0x100 w with h := true, ss := true, is := true }
    ((s 0x7FFFFFFF).inputs = [] ∧ (s 0x7FFFFFFF).h = true ∧ (s 0x7FFFFFFF).ss = true ∧ (s 0x7FFFFFFF).is = true) ∧
    after (s 0x7FFFFFFF).restart.draw.runUnit (fun u => u.zz) = some false ∧
    after (s 0x1FFFFE01).restart.draw.runUnit (fun u => u.zz) = some true := by decide

/-- A cycle step, an interrupt selected at a step, before a BRK or not, and a form that stops. -/
theorem witness_InstructionStep_cycle :
    let s := fun w : Word => { (irqStart 0 true true [3]).placeWord 0x123 w with h := true, ss := true }
    let q := fun w : Word => ((s w).withInputs []).restart.draw
    ((s 0x7FFFFFFF).inputs = .lines [3] :: [] ∧ (s 0x7FFFFFFF).h = true ∧ (s 0x7FFFFFFF).ss = true ∧
      (s 0x7FFFFFFF).is = false ∧ (s 0x7FFFFFFF).slot = .none ∧ (s 0x7FFFFFFF).selectIrq [3] = some (3, .l1)) ∧
    (q 0x7FFFFFFF).brkNext = false ∧ (q 0x1FFFFE00).brkNext = true ∧ (s 0x7FFFFFFF).selectIrq [] = none ∧
    ∃ r, (q 0x20000060).awake [] = .refused r :=
  ⟨by decide, by decide, by decide, by decide, _, rfl⟩

/-- Two stores the core has made and the host may not see yet: a long word, and a byte after it. -/
def buffering : State := { (plain.store 0x2000 .long 0x11223344).store 0x2004 .byte 0x55 with draws := 1 }

theorem apart_buffering : Apart buffering := by unfold Apart; decide

theorem witness_HardReset :
    { buffering with inputs := [.reset] }.inputs = .reset :: [] ∧ Memory.wf buffering.mem ∧ Apart buffering ∧
    (⟨0x2000, .long, 0, 0⟩ : Buffered) ∈ buffering.buffer ∧ (⟨0x2004, .byte, 0, 0⟩ : Buffered) ∈ buffering.buffer :=
  ⟨rfl, by decide, apart_buffering, by decide, by decide⟩

/-- A write of STATUS with H clear and set, to a running and to a halted core, the PC being the one seen or not. -/
theorem witness_HostStatusWrite :
    let s := fun (v : Word) (h : Bool) => { plain with h := h, inputs := [.host (.writeAux 0 v)] }
    ((s 0x100 false).inputs = .host (.writeAux 0 0x100) :: [] ∧ (s 0x100 false).h = false ∧
      (0x100 : Word).getLsbD 25 = false) ∧
    ((s 0x02000100 true).inputs = .host (.writeAux 0 0x02000100) :: [] ∧ (s 0x02000100 true).h = true ∧
      (0x02000100 : Word).getLsbD 25 = true) := by decide

/-- The PC written by the host is the one it reads, or another; a BRK may hold a branch. -/
theorem witness_HostStatusWrite_pc :
    let s := { plain with h := true, sh := true, hostPc := some 0x102 }
    let u := { plain with h := true, bh := true, hostPc := some 0x102 }
    ((0x102 : Word).getLsbD 25 = false ∧ (0x102 : Word).setWidth 24 = s.hostPc.getD s.pc ∧
      ¬(s.bh = true ∧ s.hostPc ≠ none)) ∧
    (0x100 : Word).setWidth 24 ≠ s.hostPc.getD s.pc ∧ (0x02000102 : Word).getLsbD 25 = true ∧
    (u.bh = true ∧ u.hostPc ≠ none) := by decide
/-- The PC seen, written back with H kept, replaces the pc (60_exceptions.md R357, R366). -/
theorem test_host_pc :
    let s := { plain with h := true, hostPc := some 0x102, inputs := [.host (.writeAux 0 0x02000102)] }
    after (step s) (fun t => (t.pc, t.hostPc)) = some (0x102, none) := by decide

/-- The start state with a word at the pc and one behind it. -/
def path (w v : Word) : State := (plain.placeWord 0x100 w).placeWord 0x101 v

/-- What the fetch of PathRule's cases finds: invalid memory, no opcode, SWI, a word stored to, forms without a meaning,
and instructions that go on, redirect the fetch, or do so before a BRK. -/
theorem witness_PathRule :
    (path 0x1FFFFE00 0).brkAt 0x100 = true ∧ badMemory.fetchInstr = .badWord ∧
    { path 0x40217C00 0 with cfg := { invalid := [⟨.fetch, 4, 0x404, 0x404⟩] } }.fetchInstr = .badLimm ∧
    (path 0xB0000000 0).fetchInstr = .absent false ∧ (path 0x1FFFFE02 0).fetchInstr = .instr .swi ∧
    { path 0x20000780 0 with stored := [0x100] }.fetchInstr = .stale ∧
    (path 0x18211600 0).fetchInstr = .unassigned ⟨.reg 1, .reg 2, false, .al⟩ ∧
    (∃ q, (path 0x20000060 0).fetchInstr = .refused q) ∧
    (path 0x20000780 0).fetchInstr = .instr (.bcc ⟨15, .nd, .al⟩) ∧
    redirected (path 0x20000780 0) false (.bcc ⟨15, .nd, .al⟩) = some 0x110 ∧
    redirected plain false .nop = none ∧ (path 0x7FFFFFFF 0x1FFFFE00).brkAt 0x101 = true := by
  refine ⟨?_, ?_, ?_, ?_, ?_, ?_, ?_, ⟨.reservedMode, ?_⟩, ?_⟩ <;> decide
/-- The third fetch: of a branch, behind a BRK, past a word stored to, whose branch does not count, and past a long
immediate, which is no BRK (60_exceptions.md R337, R363; log 28). -/
theorem test_path :
    (path 0x20000780 0x7FFFFFFF).thirdFetch = 0x110 ∧ (path 0x20000780 0x1FFFFE00).thirdFetch = 0x101 ∧
    { path 0x20000780 0x7FFFFFFF with stored := [0x100] }.thirdFetch = 0x102 ∧
    (path 0x40217C00 0x1FFFFE00).thirdFetch = 0x102 := by decide
/-- A word in invalid memory sends the third fetch to vector 1 (60_exceptions.md R326, R363; log 28). -/
theorem test_path_invalid : badMemory.thirdFetch = 2 := by decide
/-- A store after a host's change that a fetch may still miss (20_memory.md R72, R85 (c)). -/
theorem test_store_old_code :
    ({ plain with oldCode := [⟨0x40, 0x11223344, 0⟩] }.store 0x101 .byte 0xAA).oldCode =
      [⟨0x40, 0x1122AA44, 0⟩] := by decide

/-- The addresses the host reaches while the core runs, and others, those beside them among them. -/
theorem witness_HostAccessRunning :
    let s := fun a : Word => { plain with inputs := [.host (.readAux a)] }
    plain.h = false ∧ (∀ a, (s a).inputs = .host (.readAux a) :: []) ∧
    ([0, 1, 2, 3, 4, 5, 6] : List Word).map (fun a => decide (a = 0 ∨ a = 1 ∨ a = 4 ∨ a = 5)) =
      [true, true, false, false, true, true, false] := ⟨rfl, fun _ => rfl, by decide⟩

/-- A halted core for the host, one access being its next input. -/
def halted (a : HostAction) : State := { plain with h := true, inputs := [.host a] }

/-- The core registers of HostReadsCore and HostWritesCore. -/
theorem witness_HostReadsCore :
    (halted (.readCore 31)).h = true ∧ (halted (.readCore 31)).inputs = .host (.readCore 31) :: [] ∧
    (31 : CoreReg).val < 32 ∧ (halted (.readCore 57)).cfg.hasMul = true ∧ Writable (halted (.writeCore 60 5)) (.reg 60) ∧
    MulField (.reg 57) := ⟨rfl, rfl, by decide, rfl, writable_reg rfl, .inl rfl⟩

/-- The addresses of HostWritesAux; a multiply under way, and none. -/
theorem witness_HostWritesAux :
    (halted (.writeAux 2 8)).h = true ∧ (halted (.writeAux 2 8)).inputs = .host (.writeAux 2 8) :: [] ∧
    (halted (.writeAux 0x12 8)).cfg.hasMul = true ∧ (halted (.writeAux 0x12 8)).mulBusy = 0 ∧
    ([6, 0x5F, 0x60, 0x7F, 0x80] : List Word).map (fun a => decide (0x60 ≤ a.toNat ∧ a.toNat ≤ 0x7F)) =
      [false, false, true, true, false] := by decide

/-- IDENTITY is read-only for the host while the core runs, too (60_exceptions.md R355). -/
theorem test_host_identity : step { plain with inputs := [.host (.writeAux 4 5)] } = .refused .readOnlyAux := rfl

/-- SEMAPHORE written by the host, running; HostReadsAux at the edges of its address ranges is as HostWritesAux. -/
theorem witness_HostWritesSemaphore :
    { plain with inputs := [.host (.writeAux 1 5)] }.inputs = .host (.writeAux 1 5) :: [] ∧
    (halted (.readAux 0x60)).h = true ∧ (halted (.readAux 0x60)).inputs = .host (.readAux 0x60) :: [] := by decide

/-- HostReadsAux of a halted and of a running core; HostWritesDebug with FH, SS, IS, each allowed and not. -/
theorem witness_HostReadsAux :
    let bits := fun v : Word => (v.getLsbD plain.cfg.debugBits.fh, v.getLsbD plain.cfg.debugBits.ss,
      v.getLsbD plain.cfg.debugBits.is)
    (halted (.readAux 2)).h = true ∧ (halted (.readAux 2)).loads = [] ∧ plain.h = false ∧ plain.zz = false ∧
    [0, 1, 2, 3, 0x800, 0x801].map bits = [(false, false, false), (false, true, false), (true, false, false),
      (true, true, false), (false, false, true), (false, true, true)] := by decide

/-- The host reads and writes memory where a store is buffered, where none is, and with the core halted. -/
theorem witness_HostReadsMem :
    (memValid buffering.cfg 0x2000 4 .load = true ∧ memValid buffering.cfg 0x2000 4 .store = true ∧
      accessOk buffering.cfg 0x2000 .long = true) ∧ Memory.wf buffering.mem ∧ Apart buffering ∧
    (⟨0x2000, .long, 0, 0⟩ : Buffered) ∈ buffering.buffer ∧
    (∀ b ∈ buffering.buffer, overlap b.addr b.size 0x3000 .long = false) ∧ { buffering with h := true }.loads = [] ∧
    InStore buffering.buffer 0x2003 ∧ ¬ InStore buffering.buffer 0x2005 ∧
    ∃ i < 4, ((0x2002 : Word) + BitVec.ofNat 32 i).toNat / 4 = (0x801 : PAddr).toNat :=
  ⟨by decide, by decide, apart_buffering, by decide, by decide, by decide,
    ⟨⟨0x2000, .long, 0, 0⟩, by decide, 3, by decide, by decide⟩, by unfold InStore; decide, 2, by decide, by decide⟩

/-- A host access to invalid memory, and one that is misaligned and not supported so. -/
theorem witness_HostStops :
    memValid badMemory.cfg 0x2000 4 .load = false ∧ memValid badMemory.cfg 0x2000 4 .store = false ∧
    (memValid plain.cfg 0x1001 4 .load = true ∧ memValid plain.cfg 0x1001 4 .store = true ∧
      accessOk plain.cfg 0x1001 .long = false) := by decide
/-- A write into a running core's code that was changed before. -/
theorem witness_HostWritesMem_running :
    let s := { plain with oldCode := [⟨0x100, 5, 0⟩], inputs := [.host (.writeMem 0x400 .long 7)] }
    s.h = false ∧ s.inputs = .host (.writeMem 0x400 .long 7) :: [] ∧ Memory.wf s.mem ∧
    memValid s.cfg 0x400 4 .store = true ∧ accessOk s.cfg 0x400 .long = true ∧
    (⟨0x100, 5, 0⟩ : OldCode) ∈ s.oldCode := by decide

/-- A one-word and a two-word instruction at the pc. -/
theorem witness_StepRunsDecoded :
    let s := plain.placeWord 0x100 0x40210600
    s.h = false ∧ s.zz = false ∧ s.inputs = [] ∧ Instr.wf (.add ⟨.reg 1, .rr 2 3, false, .al⟩) = true ∧
    s.fetchValid s.pc = true ∧ s.stale s.pc = false ∧ opcodeValid s.cfg (s.codeWord s.pc) = true ∧
    encode (.add ⟨.reg 1, .rr 2 3, false, .al⟩) = (s.codeWord s.pc, none) := by decide
theorem witness_StepRunsDecoded_long :
    let s := (plain.placeWord 0x100 0x40217C00).placeWord 0x101 8
    let i : Instr := .add ⟨.reg 1, .rl 2 8, false, .al⟩
    i.wf = true ∧ s.fetchValid s.pc = true ∧ s.stale s.pc = false ∧ opcodeValid s.cfg (s.codeWord s.pc) = true ∧
    (encode i).1 = s.codeWord s.pc ∧ (encode i).2 = some 8 ∧ s.fetchValid (s.fallThrough false) = true ∧
    s.stale (s.fallThrough false) = false ∧ s.codeWord (s.fallThrough false) = 8 := by decide

theorem witness_StaleFetchStops :
    let s := { plain with stored := [0x100] }
    s.h = false ∧ s.zz = false ∧ s.inputs = [] ∧ s.fetchValid s.pc = true ∧ s.stale s.pc = true := by decide

/-- A stale long immediate, a stale word in the slot, and what byte, word and long stores note. -/
theorem witness_StaleFetchStops_more :
    let s := { plain.placeWord 0x100 0x40217C00 with stored := [0x101] }
    (s.inputs = [] ∧ s.fetchValid s.pc = true ∧ opcodeValid s.cfg (s.codeWord s.pc) = true ∧
      needsLimm (s.codeWord s.pc) = true ∧ s.fetchValid (s.fallThrough false) = true ∧
      s.stale (s.fallThrough false) = true) ∧
    (plain.store 0x407 .byte 1).stored = [0x101] ∧ (plain.store 0x406 .word 1).stored = [0x101] ∧
    (plain.store 0x404 .long 1).stored = [0x101] := by decide
theorem witness_StaleFetchStops_slot :
    let s := { plain with stored := [0x101] }
    slottedMode (.bcc ⟨2, .nd, .eq⟩) = some .nd ∧ (∀ target, s.slot ≠ .run target) ∧
    s.fetchValid (s.fallThrough false) = true ∧ s.stale (s.fallThrough false) = true :=
  ⟨rfl, nofun, by decide, by decide⟩
theorem witness_StaleFetchStops_store :
    ∃ t, exec (.st ⟨.reg 2, .reg 1, 0, 4, false, true, .long⟩) (storeStart .little) = .next t := ⟨_, rfl⟩

theorem witness_InvStep : Inv plain ∧ ∃ t, step plain = .next t :=
  ⟨⟨by decide, by decide, by decide, by decide, by decide, nofun, .nil⟩, _, rfl⟩

/-- The hypotheses of StateWriters and EnableWriters. -/
theorem witness_writers : ∃ t, exec .nop plain = .next t := ⟨_, rfl⟩

end Sys2Proof.Tests
end

section
/-! Proofs of the family 30_encoding.md: the condition codes. -/

namespace Sys2Proof

open Machine

/-- Testing what the decoder makes of a condition's code is testing the condition (30_encoding.md R120). -/
theorem cond_condOf_code (s : State) (q : Cond) : s.cond (condOf q.code) = s.cond q :=
  congrArg s.cond (condOf_code q)

/-- Settles O6. Each number of the table is the code of the condition named here, in the table's order. What the
state's test of that name computes is the row's formula. -/
theorem conditionTable : Obligations.ConditionTable := by
  intro s
  have named := cond_condOf_code s
  exact ⟨named .al, named .eq, named .ne, named .pl, named .mi, named .cs, named .cc, named .vs, named .vc,
    named .gt, named .ge, named .lt, named .le, named .hi, named .ls, named .pnz⟩

end Sys2Proof
end

section
/-! Proofs of the family 40_alu.md: the logical instructions. -/

namespace Sys2Proof

open Machine

/-- An instruction that runs by the dual-operand template completes, if its condition is true, with the result and the
flags of the function it hands the template. -/
theorem dualOp_completes {i : Instr} {fn : Word → Word → Bool → AluOut} {o : Dual} {s : State}
    (hi : exec i s = dualOp fn o s) (hc : s.cond o.cc = true) (hd : Writable s o.dst) :
    Completes i s o.src.isLong o.dst (fn (operand1 s o.src) (operand2 s o.src) s.c).result
      (withOut s o.f (fn (operand1 s o.src) (operand2 s o.src) s.c)) := by
  rw [Completes, hi]
  exact dualOp_next fn o s hc hd

/-- A result that sets Z and N only leaves C and V as they are (40_alu.md R157). -/
theorem withOut_outZN (s : State) (f : Bool) (w : Word) :
    withOut s f (outZN w) = withFlags s f (w == 0) w.msb s.c s.v := rfl

/-- A dual-operand instruction whose flags are Z and N of its result completes with them, C and V unchanged. -/
theorem dualOp_outZN_completes {i : Instr} {fn : Word → Word → Word} {o : Dual} {s : State}
    (hi : exec i s = dualOp (fun x y _ => outZN (fn x y)) o s) (hc : s.cond o.cc = true) (hd : Writable s o.dst) :
    let w := fn (operand1 s o.src) (operand2 s o.src)
    Completes i s o.src.isLong o.dst w (withFlags s o.f (w == 0) w.msb s.c s.v) := by
  intro w
  rw [← withOut_outZN]
  exact dualOp_completes hi hc hd

/-- Settles O12. Each of the four instructions runs by the dual-operand template with its bitwise function, and has
no flags but Z and N. -/
theorem logicResult : Obligations.LogicResult := by
  intro o s hc hd x y done
  have and_done : done (.and o) (x &&& y) := dualOp_outZN_completes (fn := fun x y => x &&& y) rfl hc hd
  have or_done : done (.or o) (x ||| y) := dualOp_outZN_completes (fn := fun x y => x ||| y) rfl hc hd
  have bic_done : done (.bic o) (x &&& ~~~y) := dualOp_outZN_completes (fn := fun x y => x &&& ~~~y) rfl hc hd
  have xor_done : done (.xor o) (x ^^^ y) := dualOp_outZN_completes (fn := fun x y => x ^^^ y) rfl hc hd
  exact ⟨and_done, or_done, bic_done, xor_done⟩

end Sys2Proof
end

section
/-! Proofs of the family 41_single_operand.md: sign and zero extension. -/

namespace Sys2Proof

open Machine

/-- An instruction that runs by the single-operand template completes, if its condition is true, with the result and
the flags of the function it hands the template. -/
theorem singleOp_completes {i : Instr} {fn : Word → Bool → AluOut} {o : Single} {s : State}
    (hi : exec i s = singleOp fn o s) (hc : s.cond o.cc = true) (hd : Writable s o.dst) :
    Completes i s o.src.isLong o.dst (fn (operand s o.src) s.c).result (withOut s o.f (fn (operand s o.src) s.c)) := by
  rw [Completes, hi]
  exact singleOp_next fn o s hc hd

/-- A single-operand instruction whose flags are Z and N of its result completes with them, C and V unchanged. The
result may be given in any form equal to the one the instruction computes. -/
theorem singleOp_outZN_completes {i : Instr} {fn : Word → Word} {o : Single} {s : State} {w : Word}
    (hi : exec i s = singleOp (fun x _ => outZN (fn x)) o s) (hw : fn (operand s o.src) = w)
    (hc : s.cond o.cc = true) (hd : Writable s o.dst) :
    Completes i s o.src.isLong o.dst w (withFlags s o.f (w == 0) w.msb s.c s.v) := by
  rw [← hw, ← withOut_outZN]
  exact singleOp_completes hi hc hd

/-- Sign extension of the low `k` bits keeps them as a signed number (41_single_operand.md R172, R173). -/
theorem signExtend_lowBits (x : Word) {k : Nat} (hk : k ≤ 32) :
    (x.extractLsb' 0 k).signExtend 32 = BitVec.ofInt 32 (x.setWidth k).toInt := by
  rw [BitVec.signExtend, BitVec.setWidth_eq_extractLsb' hk]

/-- Zero extension of the low `k` bits keeps them as an unsigned number (41_single_operand.md R174, R175). -/
theorem zeroExtend_lowBits (x : Word) {k : Nat} (hk : k ≤ 32) :
    (x.extractLsb' 0 k).setWidth 32 = BitVec.ofNat 32 (x.toNat % 2 ^ k) := by
  rw [← BitVec.setWidth_eq_extractLsb' hk, ← BitVec.ofNat_toNat, BitVec.toNat_setWidth]

/-- Settles O16. Each of the four instructions runs by the single-operand template, extends the low 8 or 16 bits, and
has no flags but Z and N. -/
theorem extendResult : Obligations.ExtendResult := by
  intro o s hc hd x done
  have sexb_done : done (.sexb o) (BitVec.ofInt 32 (x.setWidth 8).toInt) :=
    singleOp_outZN_completes (fn := fun x => (x.extractLsb' 0 8).signExtend 32) rfl
      (signExtend_lowBits x (by decide)) hc hd
  have sexw_done : done (.sexw o) (BitVec.ofInt 32 (x.setWidth 16).toInt) :=
    singleOp_outZN_completes (fn := fun x => (x.extractLsb' 0 16).signExtend 32) rfl
      (signExtend_lowBits x (by decide)) hc hd
  have extb_done : done (.extb o) (BitVec.ofNat 32 (x.toNat % 2 ^ 8)) :=
    singleOp_outZN_completes (fn := fun x => (x.extractLsb' 0 8).setWidth 32) rfl
      (zeroExtend_lowBits x (by decide)) hc hd
  have extw_done : done (.extw o) (BitVec.ofNat 32 (x.toNat % 2 ^ 16)) :=
    singleOp_outZN_completes (fn := fun x => (x.extractLsb' 0 16).setWidth 32) rfl
      (zeroExtend_lowBits x (by decide)) hc hd
  exact ⟨sexb_done, sexw_done, extb_done, extw_done⟩

end Sys2Proof
end

section
/-! Proofs of the family 46_extensions.md: the multiple shifts. -/

namespace Sys2Proof

open Machine

/-- With a barrel shifter, a multiple shift by fewer than 32 places completes with the shifted operand, Z and N from
it, C and V unchanged (46_extensions.md R299). The result may be given in any form equal to the one the instruction
computes. -/
theorem barrelShift_completes {i : Instr} {sh : Word → Nat → Word} {o : Dual} {s t : State} {w : Word}
    (hi : exec i s =
      if s.cfg.hasBarrel then dualOp (fun x y _ => shiftOut s.freeOut sh x y) o s else .next t)
    (hb : s.cfg.hasBarrel = true) (hc : s.cond o.cc = true) (hd : Writable s o.dst)
    (hn : (operand2 s o.src).toNat < 32) (hw : sh (operand1 s o.src) (operand2 s o.src).toNat = w) :
    Completes i s o.src.isLong o.dst w (withFlags s o.f (w == 0) w.msb s.c s.v) := by
  rw [if_pos hb] at hi
  have counted : shiftOut s.freeOut sh (operand1 s o.src) (operand2 s o.src) = outZN w := by
    rw [shiftOut, if_pos hn, hw]
  have done := dualOp_completes hi hc hd
  rwa [counted, withOut_outZN] at done

/-- A shift left multiplies by the power of two, modulo 2^32 (46_extensions.md R300). -/
theorem shiftLeft_eq_mul_pow (x : Word) (n : Nat) : x <<< n = BitVec.ofNat 32 (x.toNat * 2 ^ n) := by
  rw [← Nat.shiftLeft_eq]
  exact BitVec.eq_of_toNat_eq (by rw [BitVec.toNat_shiftLeft, BitVec.toNat_ofNat])

/-- A logical shift right divides the unsigned number by the power of two (46_extensions.md R301). -/
theorem ushiftRight_eq_div_pow (x : Word) (n : Nat) : x >>> n = BitVec.ofNat 32 (x.toNat / 2 ^ n) := by
  rw [← Nat.shiftRight_eq_div_pow, ← BitVec.toNat_ushiftRight, BitVec.ofNat_toNat, BitVec.setWidth_eq]

/-- An arithmetic shift right divides the signed number by the power of two, rounding down (46_extensions.md R302). -/
theorem sshiftRight_eq_div_pow (x : Word) (n : Nat) : x.sshiftRight n = BitVec.ofInt 32 (x.toInt / 2 ^ n) := by
  rw [BitVec.sshiftRight_eq, Int.shiftRight_eq_div_pow, Nat.cast_pow, Nat.cast_ofNat]

/-- A rotation right by fewer than 32 places puts the bits shifted out at the top (46_extensions.md R303). -/
theorem rotateRight_eq_or (x : Word) {n : Nat} (hn : n < 32) : x.rotateRight n = x >>> n ||| x <<< (32 - n) := by
  rw [BitVec.rotateRight_def, Nat.mod_eq_of_lt hn]

/-- Settles O18. Each of the four instructions runs the dual-operand template with its shift of operand 1 by operand
2, and what that shift is in arithmetic is the lemma named after it. -/
theorem barrelResult : Obligations.BarrelResult := by
  intro o s hb hc hd x n done hn
  have aslm_done : done (.aslm o) (BitVec.ofNat 32 (x.toNat * 2 ^ n)) :=
    barrelShift_completes (sh := (· <<< ·)) rfl hb hc hd hn (shiftLeft_eq_mul_pow x n)
  have lsrm_done : done (.lsrm o) (BitVec.ofNat 32 (x.toNat / 2 ^ n)) :=
    barrelShift_completes (sh := (· >>> ·)) rfl hb hc hd hn (ushiftRight_eq_div_pow x n)
  have asrm_done : done (.asrm o) (BitVec.ofInt 32 (x.toInt / 2 ^ n)) :=
    barrelShift_completes (sh := BitVec.sshiftRight) rfl hb hc hd hn (sshiftRight_eq_div_pow x n)
  have rorm_done : done (.rorm o) (x >>> n ||| x <<< (32 - n)) :=
    barrelShift_completes (sh := BitVec.rotateRight) rfl hb hc hd hn (rotateRight_eq_or x hn)
  exact ⟨aslm_done, lsrm_done, asrm_done, rorm_done⟩

end Sys2Proof
end

section
/-! Proofs of the family other: the words of the instructions, encoded and decoded (30_encoding.md R100 to R137). -/

namespace Sys2Proof

open Machine

-- One thread, as in the laws: many small lemmas at once ask for more threads than a sandbox gives.
set_option Elab.async false

/-! ### From an instruction to its words -/

/-- The words of every instruction say how many they are and decode to it. -/
theorem coding (i : Instr) : Laws.Coding.Statement i := by
  cases i with
  | ldRR o => exact Laws.Coding.ldRR o
  | ldRO o => exact Laws.Coding.ldRO o
  | lr o => exact Laws.Coding.lr o
  | st o => exact Laws.Coding.st o
  | sr o => exact Laws.Coding.sr o
  | flag o => exact Laws.Coding.flag o
  | asr o => exact Laws.Coding.asr o
  | lsr o => exact Laws.Coding.lsr o
  | ror o => exact Laws.Coding.ror o
  | rrc o => exact Laws.Coding.rrc o
  | sexb o => exact Laws.Coding.sexb o
  | sexw o => exact Laws.Coding.sexw o
  | extb o => exact Laws.Coding.extb o
  | extw o => exact Laws.Coding.extw o
  | swap o => exact Laws.Coding.swap o
  | norm o => exact Laws.Coding.norm o
  | brk => exact Laws.Coding.brk
  | sleep => exact Laws.Coding.sleep
  | swi => exact Laws.Coding.swi
  | bcc o => exact Laws.Coding.bcc o
  | blcc o => exact Laws.Coding.blcc o
  | lpcc o => exact Laws.Coding.lpcc o
  | jcc o => exact Laws.Coding.jcc o
  | jlcc o => exact Laws.Coding.jlcc o
  | add o => exact Laws.Coding.add o
  | adc o => exact Laws.Coding.adc o
  | sub o => exact Laws.Coding.sub o
  | sbc o => exact Laws.Coding.sbc o
  | and o => exact Laws.Coding.and o
  | or o => exact Laws.Coding.or o
  | bic o => exact Laws.Coding.bic o
  | xor o => exact Laws.Coding.xor o
  | aslm o => exact Laws.Coding.aslm o
  | lsrm o => exact Laws.Coding.lsrm o
  | asrm o => exact Laws.Coding.asrm o
  | rorm o => exact Laws.Coding.rorm o
  | max o => exact Laws.Coding.max o
  | min o => exact Laws.Coding.min o
  | mul64 o => exact Laws.Coding.mul64 o
  | mulu64 o => exact Laws.Coding.mulu64 o
  | nop => exact Laws.Coding.nop
  | mov o => exact Laws.Coding.mov o
  | asl o => exact Laws.Coding.asl o
  | rlc o => exact Laws.Coding.rlc o
  | rol o => exact Laws.Coding.rol o

/-- Settles O1, instruction by instruction: the law of each row's words. -/
theorem decodeEncode : Obligations.DecodeEncode := coding

/-- Settles O3: the decoder evaluated on each of the words. -/
theorem decodeWords : Obligations.DecodeWords := by
  unfold Obligations.DecodeWords
  decide

/-! ### Codes and fields put together again -/

/-- A word is the packing of its fields (30_encoding.md R101). -/
theorem packWord_fields (w : Word) : packWord (opcodeOf w) (fieldA w) (fieldB w) (fieldC w) (fieldD w) = w := by
  unfold packWord opcodeOf fieldA fieldB fieldC fieldD; ext j hj; simp; grind

/-- The code of a decoded register field is the field (30_encoding.md R103). -/
theorem code_regField (x : BitVec 6) : (regField x).code = x := by
  revert x; decide

/-- The code of a decoded condition is the field (30_encoding.md R120). -/
theorem code_condOf (q : BitVec 5) : (condOf q).code = q := by
  revert q; decide

theorem code_of_modeOf {n : BitVec 2} {m : SlotMode} (h : modeOf n = some m) : m.code = n := by
  revert n m; decide

theorem code_of_sizeOf {z : BitVec 2} {y : Size} (h : sizeOf z = some y) : y.code = z := by
  revert z y; decide

/-- The low nine bits of the register layout, where the reserved bits are 0 (30_encoding.md R101, R111). -/
theorem regLow_fields {w : Word} (h : fieldR w = 0) : regLow (fieldF w) (condOf (fieldQ w)) = fieldD w := by
  have reserved : ∀ j < 3, w.getLsbD (5 + j) = false := fun j hj => by
    have := congrArg (·.getLsbD j) h
    simpa [fieldR, hj] using this
  have h5 := reserved 0 (by decide)
  have h6 := reserved 1 (by decide)
  have h7 := reserved 2 (by decide)
  rw [regLow, code_condOf]
  unfold bit fieldF fieldQ fieldD
  ext j hj
  simp
  grind

/-- A single bit, taken as a field of one bit. -/
theorem bit_getLsbD_eq (w : Word) (k : Nat) : bit (w.getLsbD k) = w.extractLsb' k 1 := by
  unfold bit; ext j hj; obtain rfl : j = 0 := by omega
  simp

/-! ### From words to an instruction -/

/-- Whether a word of an operand pair asks for a long immediate. -/
def pairLong (w : Word) : Bool := fieldB w == 62#6 || fieldC w == 62#6

theorem pairLong_iff (w : Word) : pairLong w = ((regField (fieldB w)).isLong || (regField (fieldC w)).isLong) := by
  rw [pairLong, ← code_eq_62, ← code_eq_62, code_regField, code_regField]

theorem fieldB_long (w : Word) : (fieldB w == 62#6) = (regField (fieldB w)).isLong := by
  rw [← code_eq_62, code_regField]

/-- Operands decoded as a pair pack to the word they come from, if the low bits do. -/
theorem packSrc2_srcPair {w x : Word} {src : Src2} {f : Bool} {q : Cond}
    (h : srcPair (regField (fieldB w)) (regField (fieldC w)) (fieldD w) x = .ok src)
    (hf : src.isShort = true → f = hasShortFlags (regField (fieldB w)) (regField (fieldC w)))
    (hq : src.isShort = false → regLow f q = fieldD w) :
    packSrc2 (opcodeOf w) (fieldA w) src f q = (w, if pairLong w then some x else none) := by
  have hw := packWord_fields w
  rw [pairLong_iff]
  rw [← code_regField (fieldB w), ← code_regField (fieldC w)] at hw
  generalize regField (fieldB w) = b at h hf hw ⊢
  generalize regField (fieldC w) = c at h hf hw ⊢
  rcases b with b | (_ | _ | _) <;> rcases c with c | (_ | _ | _) <;>
    simp only [srcPair, reduceCtorEq, if_false, if_true, Except.ok.injEq] at h <;> subst h <;>
    simp [Src2.isShort, hasShortFlags] at hf hq <;>
    simp_all [packSrc2, RegField.isLong, RegField.code, regCode, shortCode]

/-- What decodes as a dual-operand instruction is well formed and packs to its word. -/
theorem packDual_of_decodeDual {w x : Word} {o : Dual} (h : decodeDual w x = .ok o) :
    o.wf = true ∧ packDual (opcodeOf w) o = (w, if pairLong w then some x else none) := by
  unfold decodeDual at h
  dsimp only at h
  split at h
  · cases h
  · rename_i src hsrc
    split at h
    · rename_i hs
      cases h
      refine ⟨by simp [Dual.wf], ?_⟩
      rw [packDual, code_regField]
      exact packSrc2_srcPair hsrc (fun _ => rfl) (fun h => by simp [hs] at h)
    · rename_i hs
      split at h
      · rename_i hr
        cases h
        refine ⟨by simp [Dual.wf, hs], ?_⟩
        rw [packDual, code_regField]
        exact packSrc2_srcPair hsrc (fun h => absurd h hs) (fun _ => regLow_fields hr)
      · cases h

/-- The same for a multiply. -/
theorem packMul_of_decodeMul {w x : Word} {o : MulOp} (h : decodeMul w x = .ok o) :
    o.wf = true ∧ packMul (opcodeOf w) o = (w, if pairLong w then some x else none) := by
  unfold decodeMul at h
  split at h
  · cases h
  · rename_i d hd
    obtain ⟨hwf, hp⟩ := packDual_of_decodeDual hd
    split at h
    · cases h
    · rename_i hdst
      have hcode : d.dst.code = 63 := by
        rw [show d.dst = .ind .shortQuiet by simpa using hdst]; rfl
      rw [packDual, hcode] at hp
      split at h
      · rename_i hs
        cases h
        have hal : d.cc = .al := by simpa [Dual.wf, hs] using hwf
        exact ⟨by simp [MulOp.wf, hs], by rw [← hp, packMul, hal]⟩
      · rename_i hs
        split at h
        · cases h
        · rename_i hf
          cases h
          have hf : d.f = false := by simpa using hf
          exact ⟨by simp [MulOp.wf, hs], by rw [← hp, packMul, hf]⟩

/-- The same for a single-operand word, `C` being its sub-opcode. -/
theorem packSrc1_of_decodeSingle {w x : Word} {o : Single} (hop : opcodeOf w = 3) (h : decodeSingle w x = .ok o) :
    o.wf = true ∧ packSrc1 (fieldC w) o = (w, if fieldB w == 62#6 then some x else none) := by
  have hw := packWord_fields w
  rw [hop, ← code_regField (fieldA w), ← code_regField (fieldB w)] at hw
  unfold decodeSingle at h
  dsimp only at h
  rw [fieldB_long]
  generalize regField (fieldB w) = b at h hw ⊢
  split at h
  · rename_i hs
    cases h
    rcases b with b | (_ | _ | _) <;> simp_all [Single.wf, packSrc1, srcOne, Src1.isShort, RegField.isLong, shortCode,
      RegField.code]
  · rename_i hs
    split at h
    · rename_i hr
      cases h
      rw [← regLow_fields hr] at hw
      rcases b with b | (_ | _ | _) <;> simp_all [Single.wf, packSrc1, srcOne, Src1.isShort, RegField.isLong, regCode,
        RegField.code]
    · cases h

/-- The low nine bits of LD, register + register, put together again (44_load_store.md R260 (b)). -/
theorem loadLow_eq {w : Word} {d : RegField} {src : Src2} {z : Size}
    (h : (decide (w.extractLsb' 6 3 ≠ 0) || w.getLsbD 4) = false) (hz : sizeOf (w.extractLsb' 1 2) = some z) :
    loadLow ⟨d, src, w.getLsbD 5, w.getLsbD 3, z, w.getLsbD 0⟩ = fieldD w := by
  simp only [Bool.or_eq_false_iff, decide_eq_false_iff_not, not_not] at h
  obtain ⟨h6, h4⟩ := h
  have reserved : ∀ j < 3, w.getLsbD (6 + j) = false := fun j hj => by
    have := congrArg (·.getLsbD j) h6
    simpa [hj] using this
  have r6 := reserved 0 (by decide)
  have r7 := reserved 1 (by decide)
  have r8 := reserved 2 (by decide)
  simp only [loadLow, code_of_sizeOf hz, bit_getLsbD_eq]
  unfold fieldD
  ext j hj
  simp
  grind

/-- LD, register + register. -/
theorem packLoadRR_of_decode {w x : Word} {o : LoadRR} (hop : opcodeOf w = 0) (h : decodeLoadRR w x = .ok o) :
    o.wf = true ∧ packLoadRR o = (w, if pairLong w then some x else none) := by
  have hw := packWord_fields w
  rw [hop, ← code_regField (fieldA w), ← code_regField (fieldB w), ← code_regField (fieldC w)] at hw
  unfold decodeLoadRR at h
  rw [pairLong_iff]
  generalize regField (fieldB w) = b at h hw ⊢
  generalize regField (fieldC w) = c at h hw ⊢
  split at h
  · cases h
  · rename_i src hsrc
    split at h
    · cases h
    · rename_i hs
      split at h
      · cases h
      · rename_i hr
        split at h
        · cases h
        · rename_i hwb
          split at h
          · cases h
          · rename_i z hz
            cases h
            have hlow := fun src => loadLow_eq (d := regField (fieldA w)) (src := src) (Bool.not_eq_true _ ▸ hr) hz
            refine ⟨by simp [LoadRR.wf, hs]; grind, ?_⟩
            rcases b with b | (_ | _ | _) <;> rcases c with c | (_ | _ | _) <;>
              simp only [srcPair, reduceCtorEq, if_false, if_true, Except.ok.injEq] at hsrc <;> subst hsrc <;>
              simp_all [packLoadRR, RegField.isLong, RegField.code, regCode, Src2.isShort]

/-- A long immediate that no field asks for is given as 0. -/
theorem limmOk_limmIf (uses : Bool) (x : Word) : limmOk uses (limmIf uses x) = true := by
  cases uses <;> rfl

theorem limmWord_limmIf (uses : Bool) (x : Word) : limmWord uses (limmIf uses x) = if uses then some x else none := by
  cases uses <;> rfl

/-- LD, register + offset. -/
theorem packLoadRO_of_decode {w x : Word} {o : LoadRO} (hop : opcodeOf w = 1) (h13 : w.getLsbD 13 = false)
    (h : decodeLoadRO w x = .ok o) :
    o.wf = true ∧ packLoadRO o = (w, if fieldB w == 62#6 then some x else none) := by
  unfold decodeLoadRO at h
  dsimp only at h
  split at h
  · cases h
  · rename_i hwb
    split at h
    · cases h
    · rename_i z hz
      cases h
      refine ⟨by simp [LoadRO.wf, limmOk_limmIf]; grind, ?_⟩
      have hc : (bit (w.getLsbD 14) ++ 0#1 ++ bit (w.getLsbD 12) ++ z.code ++ bit (w.getLsbD 9) : BitVec 6) =
          fieldC w := by
        rw [code_of_sizeOf hz]
        simp only [bit_getLsbD_eq]
        unfold fieldC
        ext j hj
        simp
        grind
      simp only [packLoadRO, hc, code_regField, limmWord_limmIf, ← fieldB_long]
      rw [← hop, packWord_fields]

/-- LR. -/
theorem packLr_of_decode {w x : Word} {o : LrOp} (hop : opcodeOf w = 1) (h : decodeLr w x = .ok o) :
    o.wf = true ∧ packLr o = (w, if fieldB w == 62#6 then some x else none) := by
  unfold decodeLr at h
  dsimp only at h
  split at h
  · rename_i hc
    cases h
    refine ⟨limmOk_limmIf _ _, ?_⟩
    simp only [packLr, code_regField, limmWord_limmIf, ← fieldB_long]
    rw [← hop, show (16 : BitVec 6) = fieldC w from hc.symm, packWord_fields]
  · cases h

/-- ST. -/
theorem packStore_of_decode {w x : Word} {o : StoreOp} (hop : opcodeOf w = 2) (h25 : w.getLsbD 25 = false)
    (h : decodeStore w x = .ok o) : o.wf = true ∧ packStore o = (w, if pairLong w then some x else none) := by
  unfold decodeStore at h
  dsimp only at h
  split at h
  · cases h
  · rename_i h21
    split at h
    · cases h
    · rename_i hm
      split at h
      · cases h
      · rename_i hwb
        split at h
        · cases h
        · rename_i z hz
          cases h
          refine ⟨by simp [StoreOp.wf, limmOk_limmIf]; grind, ?_⟩
          have ha : (bit (w.getLsbD 26) ++ 0#1 ++ bit (w.getLsbD 24) ++ z.code ++ 0#1 : BitVec 6) = fieldA w := by
            rw [code_of_sizeOf hz]
            simp only [bit_getLsbD_eq]
            unfold fieldA
            ext j hj
            simp
            grind
          simp only [packStore, ha, code_regField, limmWord_limmIf, ← pairLong_iff]
          rw [← hop, packWord_fields]

/-- SR. -/
theorem packSr_of_decode {w x : Word} {o : SrOp} (hop : opcodeOf w = 2) (h : decodeSr w x = .ok o) :
    o.wf = true ∧ packSr o = (w, if pairLong w then some x else none) := by
  unfold decodeSr at h
  dsimp only at h
  split at h
  · cases h
  · rename_i ha
    split at h
    · cases h
    · rename_i hm
      cases h
      refine ⟨by simp [SrOp.wf, limmOk_limmIf]; grind, ?_⟩
      simp only [packSr, code_regField, limmWord_limmIf, ← pairLong_iff]
      rw [← hop, show (16 : BitVec 6) = fieldA w from (not_not.1 ha).symm, packWord_fields]

/-- Bcc, BLcc, LPcc. -/
theorem packBranch_of_decode {w : Word} {o : BranchOp} (h : decodeBranch w = .ok o) :
    packBranch (opcodeOf w) o = (w, none) := by
  unfold decodeBranch at h
  split at h
  · cases h
  · rename_i n hn
    cases h
    simp only [packBranch, code_of_modeOf hn, code_condOf, Prod.mk.injEq, and_true]
    unfold opcodeOf fieldL fieldN fieldQ
    ext j hj
    simp
    grind

/-- The low nine bits of a jump word put together again (42_jump_branch_loop.md R214). -/
theorem jumpLow_eq {w : Word} {n : SlotMode} (h7 : w.getLsbD 7 = false) (hn : modeOf (fieldN w) = some n) :
    (bit (fieldF w) ++ 0#1 ++ n.code ++ (condOf (fieldQ w)).code : BitVec 9) = fieldD w := by
  rw [code_of_modeOf hn, code_condOf, fieldF, bit_getLsbD_eq]
  unfold fieldN fieldQ fieldD
  ext j hj
  simp
  grind

/-- Jcc and JLcc, `C` telling them apart. -/
theorem packJump_of_decode {w x : Word} {o : JumpOp} (hop : opcodeOf w = 7) (hc : fieldC w ≠ 62#6)
    (h : decodeJump w x = .ok o) :
    packJump (fieldC w) o = (w, if pairLong w then some x else none) ∧ o.n.code = fieldN w := by
  have hw := packWord_fields w
  have hl : pairLong w = (regField (fieldB w)).isLong := by
    rw [← fieldB_long, pairLong, beq_false_of_ne hc, Bool.or_false]
  rw [hop, ← code_regField (fieldB w)] at hw
  unfold decodeJump at h
  rw [hl]
  generalize regField (fieldB w) = b at h hw ⊢
  split at h
  · cases h
  · rename_i ha
    rw [not_not.1 ha] at hw
    split at h
    · cases h
    · rename_i h7
      have low := fun n => jumpLow_eq (n := n) (Bool.not_eq_true _ ▸ h7)
      split at h
      · cases h
      · rename_i n r hn
        cases h
        refine ⟨?_, code_of_modeOf hn⟩
        simp only [packJump, low n hn]
        exact Prod.ext hw rfl
      · rename_i n hn
        cases h
        refine ⟨?_, code_of_modeOf hn⟩
        simp only [packJump, low n hn]
        exact Prod.ext hw rfl
      · cases h

/-! ### The opcode map read backwards -/

/-- What a word decodes to if its operands do. -/
theorem of_eq_instr {α : Type} {mk : α → Instr} {r : Except DecodeRefusal α} {i : Instr} (h : Decoded.of mk r = .instr i) :
    ∃ o, r = .ok o ∧ i = mk o := by
  unfold Decoded.of at h
  split at h <;> cases h
  exact ⟨_, rfl, rfl⟩

/-- The opcodes whose `C` field is a register field too (30_encoding.md R100). -/
theorem needsLimm_pair {w : Word} {k : Nat} (hop : (opcodeOf w).toNat = k)
    (hk : k ≠ 1 ∧ k ≠ 3 ∧ k ≠ 4 ∧ k ≠ 5 ∧ k ≠ 6) : needsLimm w = pairLong w := by
  obtain ⟨h1, h3, h4, h5, h6⟩ := hk
  unfold needsLimm
  rw [hop]
  split <;> first | contradiction | rfl

/-- Those of which only `B` is. -/
theorem needsLimm_single {w : Word} {k : Nat} (hop : (opcodeOf w).toNat = k) (hk : k = 1 ∨ k = 3) :
    needsLimm w = (fieldB w == 62#6) := by
  unfold needsLimm
  rcases hk with rfl | rfl <;> rw [hop] <;> rfl

/-- Those that have none. -/
theorem needsLimm_branch {w : Word} {k : Nat} (hop : (opcodeOf w).toNat = k) (hk : k = 4 ∨ k = 5 ∨ k = 6) :
    needsLimm w = false := by
  unfold needsLimm
  rcases hk with rfl | rfl | rfl <;> rw [hop] <;> rfl

/-- The instruction is well formed and encodes to `w`, with `x` as its long immediate if `w` asks for one. -/
def EncodesTo (w x : Word) (i : Instr) : Prop :=
  i.wf = true ∧ encode i = (w, if needsLimm w then some x else none)

/-- A row of the dual-operand layout that shares its words with no other. -/
theorem encodesTo_dual {w x : Word} {i : Instr} (mk : Dual → Instr) (op : BitVec 5) (hop : opcodeOf w = op)
    (hk : op.toNat ≠ 1 ∧ op.toNat ≠ 3 ∧ op.toNat ≠ 4 ∧ op.toNat ≠ 5 ∧ op.toNat ≠ 6)
    (hwf : ∀ o, (mk o).wf = o.wf) (henc : ∀ o, encode (mk o) = packDual op o)
    (h : Decoded.of mk (decodeDual w x) = .instr i) : EncodesTo w x i := by
  obtain ⟨o, ho, rfl⟩ := of_eq_instr h
  obtain ⟨hw, hp⟩ := packDual_of_decodeDual ho
  rw [EncodesTo, hwf, henc, ← hop, needsLimm_pair (congrArg _ hop) hk]
  exact ⟨hw, hp⟩

/-- A row of the single-operand layout. -/
theorem encodesTo_single {w x : Word} {i : Instr} (mk : Single → Instr) (hop : opcodeOf w = 3) {c : BitVec 6}
    (hc : fieldC w = c) (hwf : ∀ o, (mk o).wf = o.wf) (henc : ∀ o, encode (mk o) = packSrc1 c o)
    (h : Decoded.of mk (decodeSingle w x) = .instr i) : EncodesTo w x i := by
  obtain ⟨o, ho, rfl⟩ := of_eq_instr h
  obtain ⟨hw, hp⟩ := packSrc1_of_decodeSingle hop ho
  rw [EncodesTo, hwf, henc, ← hc, needsLimm_single (congrArg _ hop) (by decide)]
  exact ⟨hw, hp⟩

/-- A pair whose two fields agree is its one operand in both (30_encoding.md R142). -/
theorem both_of_same {src : Src2} {one : Src1} (h : src.same = some one) :
    src = one.both ∧ one.isShort = src.isShort := by
  cases src <;> simp only [Src2.same, Option.some.injEq, reduceCtorEq] at h
  case rr b c =>
    split at h
    · rename_i hbc; subst hbc; cases h; exact ⟨rfl, rfl⟩
    · cases h
  all_goals subst h; exact ⟨rfl, rfl⟩

/-- ADC and AND, and the rows that name their words with `B` = `C`. -/
theorem encodesTo_same {w x : Word} {i : Instr} (mk : Dual → Instr) (mkSame : Single → Instr) (op : BitVec 5)
    (hop : opcodeOf w = op) (hk : op.toNat ≠ 1 ∧ op.toNat ≠ 3 ∧ op.toNat ≠ 4 ∧ op.toNat ≠ 5 ∧ op.toNat ≠ 6)
    (hwf : ∀ o, (mk o).wf = o.wfDistinct) (henc : ∀ o, encode (mk o) = packDual op o)
    (hwf' : ∀ o, (mkSame o).wf = o.wf) (henc' : ∀ o, encode (mkSame o) = packDual op o.both)
    (h : ofSame mk mkSame (decodeDual w x) = .instr i) : EncodesTo w x i := by
  unfold ofSame at h
  split at h
  · cases h
  · rename_i o ho
    obtain ⟨hw, hp⟩ := packDual_of_decodeDual ho
    rw [hop, ← needsLimm_pair (congrArg _ hop) hk] at hp
    split at h
    · rename_i hs
      cases h
      rw [EncodesTo, hwf, henc]
      exact ⟨by simp [Dual.wfDistinct, hw, hs], hp⟩
    · rename_i src hs
      cases h
      obtain ⟨hb, hshort⟩ := both_of_same hs
      rw [EncodesTo, hwf', henc']
      refine ⟨by rw [Single.wf, hshort]; exact hw, ?_⟩
      rw [← hp, Single.both, ← hb]

/-- ADD, and the rows that name its words with `B` = `C`. -/
theorem encodesTo_add {w x : Word} {i : Instr} (hop : opcodeOf w = 8) (h : ofAdd (decodeDual w x) = .instr i) :
    EncodesTo w x i := by
  unfold ofAdd at h
  split at h
  · cases h
  · rename_i o ho
    obtain ⟨hw, hp⟩ := packDual_of_decodeDual ho
    rw [hop, ← needsLimm_pair (congrArg _ hop) (by decide)] at hp
    obtain ⟨dst, src, f, q⟩ := o
    cases hs : src.same with
    | none =>
      simp only [hs] at h
      cases h
      exact ⟨by simp [Instr.wf, Dual.wfDistinct, hw, hs], hp⟩
    | some one =>
      simp only [hs] at h
      obtain ⟨hb, hshort⟩ := both_of_same hs
      have one_wf : (!one.isShort || q == .al) = true := by rw [hshort]; exact hw
      rw [hb] at hp
      have asl : (f && dst.isReg) = false → EncodesTo w x (.asl ⟨dst, one, f, q⟩) := fun not_rol =>
        ⟨by simp only [Instr.wf, Single.wfAsl, Single.wf, one_wf, not_rol]; rfl, hp⟩
      cases f with
      | false => cases h; exact asl rfl
      | true =>
        cases dst with
        | reg a => cases h; exact ⟨one_wf, hp⟩
        | ind k => cases h; exact asl rfl

/-- Opcode 3, by its `C` field. -/
theorem encodesTo_group3 {w x : Word} {i : Instr} (hop : opcodeOf w = 3) (h : decodeGroup3 w x = .instr i) :
    EncodesTo w x i := by
  unfold decodeGroup3 at h
  split at h
  · rename_i hw; subst hw; cases h; exact ⟨rfl, rfl⟩
  · split at h
    · rename_i hw; subst hw; cases h; exact ⟨rfl, rfl⟩
    · split at h
      · rename_i hw; subst hw; cases h; exact ⟨rfl, rfl⟩
      · dsimp only at h
        have c_eq : ∀ {c : BitVec 6}, (fieldC w).toNat = c.toNat → fieldC w = c := BitVec.eq_of_toNat_eq
        split at h
        · exact encodesTo_single .flag hop (c_eq ‹_›) (fun _ => rfl) (fun _ => rfl) h
        · exact encodesTo_single .asr hop (c_eq ‹_›) (fun _ => rfl) (fun _ => rfl) h
        · exact encodesTo_single .lsr hop (c_eq ‹_›) (fun _ => rfl) (fun _ => rfl) h
        · exact encodesTo_single .ror hop (c_eq ‹_›) (fun _ => rfl) (fun _ => rfl) h
        · exact encodesTo_single .rrc hop (c_eq ‹_›) (fun _ => rfl) (fun _ => rfl) h
        · exact encodesTo_single .sexb hop (c_eq ‹_›) (fun _ => rfl) (fun _ => rfl) h
        · exact encodesTo_single .sexw hop (c_eq ‹_›) (fun _ => rfl) (fun _ => rfl) h
        · exact encodesTo_single .extb hop (c_eq ‹_›) (fun _ => rfl) (fun _ => rfl) h
        · exact encodesTo_single .extw hop (c_eq ‹_›) (fun _ => rfl) (fun _ => rfl) h
        · exact encodesTo_single .swap hop (c_eq ‹_›) (fun _ => rfl) (fun _ => rfl) h
        · exact encodesTo_single .norm hop (c_eq ‹_›) (fun _ => rfl) (fun _ => rfl) h
        · unfold ofUnassigned at h
          split at h <;> cases h

/-- Bcc, BLcc, LPcc. -/
theorem encodesTo_branch {w x : Word} {i : Instr} (mk : BranchOp → Instr) (op : BitVec 5) (hop : opcodeOf w = op)
    (hk : op.toNat = 4 ∨ op.toNat = 5 ∨ op.toNat = 6) (hwf : ∀ o, (mk o).wf = true)
    (henc : ∀ o, encode (mk o) = packBranch op o) (h : Decoded.of mk (decodeBranch w) = .instr i) :
    EncodesTo w x i := by
  obtain ⟨o, ho, rfl⟩ := of_eq_instr h
  rw [EncodesTo, hwf, henc, ← hop, packBranch_of_decode ho, needsLimm_branch (congrArg _ hop) hk]
  exact ⟨rfl, rfl⟩

/-- JLcc: the explicit address with mode D is refused before (42_jump_branch_loop.md R215). -/
theorem encodesTo_jlcc {w x : Word} {o : JumpOp} (hop : opcodeOf w = 7) (hc : fieldC w = 1#6)
    (hd : (needsLimm w && fieldN w == 1#2) = false) (h : decodeJump w x = .ok o) : EncodesTo w x (.jlcc o) := by
  obtain ⟨hp, hn⟩ := packJump_of_decode hop (by rw [hc]; decide) h
  rw [hc, ← needsLimm_pair (congrArg _ hop) (by decide)] at hp
  refine ⟨?_, hp⟩
  obtain ⟨src, f, n, q⟩ := o
  cases src with
  | reg b => rfl
  | limm v =>
    have long : needsLimm w = true := by
      by_contra hl
      rw [Bool.not_eq_true] at hl
      simp [packJump, hl] at hp
    rw [long, Bool.true_and, ← hn] at hd
    cases n with
    | d => cases hd
    | nd | jd => rfl

/-- XOR: the word that NOP names is taken out before (40_alu.md R162). -/
theorem encodesTo_xor {w x : Word} {i : Instr} (hop : opcodeOf w = 15) (hnop : w ≠ nopWord)
    (h : Decoded.of .xor (decodeDual w x) = .instr i) : EncodesTo w x i := by
  obtain ⟨o, ho, rfl⟩ := of_eq_instr h
  obtain ⟨hw, hp⟩ := packDual_of_decodeDual ho
  rw [hop, ← needsLimm_pair (congrArg _ hop) (by decide)] at hp
  have not_nop : o ≠ nopDual := by
    rintro rfl
    exact hnop (congrArg Prod.fst hp).symm
  exact ⟨by simp [Instr.wf, hw, not_nop], hp⟩

/-- MUL64 and MULU64. -/
theorem encodesTo_mul {w x : Word} {i : Instr} (mk : MulOp → Instr) (op : BitVec 5) (hop : opcodeOf w = op)
    (hk : op.toNat ≠ 1 ∧ op.toNat ≠ 3 ∧ op.toNat ≠ 4 ∧ op.toNat ≠ 5 ∧ op.toNat ≠ 6)
    (hwf : ∀ o, (mk o).wf = o.wf) (henc : ∀ o, encode (mk o) = packMul op o)
    (h : Decoded.of mk (decodeMul w x) = .instr i) : EncodesTo w x i := by
  obtain ⟨o, ho, rfl⟩ := of_eq_instr h
  obtain ⟨hw, hp⟩ := packMul_of_decodeMul ho
  rw [EncodesTo, hwf, henc, ← hop, needsLimm_pair (congrArg _ hop) hk]
  exact ⟨hw, hp⟩

/-- Settles O2, opcode by opcode: the operands of each row pack to the word they were decoded from. -/
theorem encodeDecode : Obligations.EncodeDecode := by
  intro w x i h
  change EncodesTo w x i
  have op_eq : ∀ {op : BitVec 5}, (opcodeOf w).toNat = op.toNat → opcodeOf w = op := BitVec.eq_of_toNat_eq
  unfold decode at h
  split at h
  · rename_i k hk
    obtain ⟨o, ho, rfl⟩ := of_eq_instr h
    rw [EncodesTo, needsLimm_pair hk (by decide)]
    exact packLoadRR_of_decode (op_eq hk) ho
  · rename_i k hk
    rw [EncodesTo, needsLimm_single hk (by decide)]
    split at h
    · obtain ⟨o, ho, rfl⟩ := of_eq_instr h
      exact packLr_of_decode (op_eq hk) ho
    · rename_i h13
      obtain ⟨o, ho, rfl⟩ := of_eq_instr h
      exact packLoadRO_of_decode (op_eq hk) (Bool.not_eq_true _ ▸ h13) ho
  · rename_i k hk
    rw [EncodesTo, needsLimm_pair hk (by decide)]
    split at h
    · obtain ⟨o, ho, rfl⟩ := of_eq_instr h
      exact packSr_of_decode (op_eq hk) ho
    · rename_i h25
      obtain ⟨o, ho, rfl⟩ := of_eq_instr h
      exact packStore_of_decode (op_eq hk) (Bool.not_eq_true _ ▸ h25) ho
  · exact encodesTo_group3 (op_eq ‹_›) h
  · exact encodesTo_branch .bcc 4 (op_eq ‹_›) (by decide) (fun _ => rfl) (fun _ => rfl) h
  · exact encodesTo_branch .blcc 5 (op_eq ‹_›) (by decide) (fun _ => rfl) (fun _ => rfl) h
  · exact encodesTo_branch .lpcc 6 (op_eq ‹_›) (by decide) (fun _ => rfl) (fun _ => rfl) h
  · rename_i k hk
    split at h
    · rename_i hc
      obtain ⟨o, ho, rfl⟩ := of_eq_instr h
      have hp := (packJump_of_decode (op_eq hk) (by rw [hc]; decide) ho).1
      rw [hc, ← needsLimm_pair hk (by decide)] at hp
      exact ⟨rfl, hp⟩
    · split at h
      · rename_i hc
        split at h
        · cases h
        · rename_i hd
          obtain ⟨o, ho, rfl⟩ := of_eq_instr h
          exact encodesTo_jlcc (op_eq hk) hc (Bool.not_eq_true _ ▸ hd) ho
      · cases h
  · exact encodesTo_add (op_eq ‹_›) h
  · exact encodesTo_same .adc .rlc 9 (op_eq ‹_›) (by decide) (fun _ => rfl) (fun _ => rfl) (fun _ => rfl)
      (fun _ => rfl) h
  · exact encodesTo_dual .sub 10 (op_eq ‹_›) (by decide) (fun _ => rfl) (fun _ => rfl) h
  · exact encodesTo_dual .sbc 11 (op_eq ‹_›) (by decide) (fun _ => rfl) (fun _ => rfl) h
  · exact encodesTo_same .and .mov 12 (op_eq ‹_›) (by decide) (fun _ => rfl) (fun _ => rfl) (fun _ => rfl)
      (fun _ => rfl) h
  · exact encodesTo_dual .or 13 (op_eq ‹_›) (by decide) (fun _ => rfl) (fun _ => rfl) h
  · exact encodesTo_dual .bic 14 (op_eq ‹_›) (by decide) (fun _ => rfl) (fun _ => rfl) h
  · rename_i k hk
    split at h
    · rename_i hw; subst hw; cases h; exact ⟨rfl, rfl⟩
    · exact encodesTo_xor (op_eq hk) ‹_› h
  · exact encodesTo_dual .aslm 16 (op_eq ‹_›) (by decide) (fun _ => rfl) (fun _ => rfl) h
  · exact encodesTo_dual .lsrm 17 (op_eq ‹_›) (by decide) (fun _ => rfl) (fun _ => rfl) h
  · exact encodesTo_dual .asrm 18 (op_eq ‹_›) (by decide) (fun _ => rfl) (fun _ => rfl) h
  · exact encodesTo_dual .rorm 19 (op_eq ‹_›) (by decide) (fun _ => rfl) (fun _ => rfl) h
  · exact encodesTo_mul .mul64 20 (op_eq ‹_›) (by decide) (fun _ => rfl) (fun _ => rfl) h
  · exact encodesTo_mul .mulu64 21 (op_eq ‹_›) (by decide) (fun _ => rfl) (fun _ => rfl) h
  · exact encodesTo_dual .max 30 (op_eq ‹_›) (by decide) (fun _ => rfl) (fun _ => rfl) h
  · exact encodesTo_dual .min 31 (op_eq ‹_›) (by decide) (fun _ => rfl) (fun _ => rfl) h
  · cases h

/-! ### What is refused (30_encoding.md R137, decision D15) -/

/-- Refused operands refuse the word, whatever row it is of. -/
theorem of_error {α : Type} (mk : α → Instr) {r : Except DecodeRefusal α} (h : ∃ e, r = .error e) :
    ∃ e, Decoded.of mk r = .refused e := by
  obtain ⟨e, rfl⟩ := h
  exact ⟨e, rfl⟩

/-- The mode 3 is reserved, in a branch. -/
theorem decodeBranch_reservedMode {w : Word} (h : fieldN w = 3) : ∃ e, decodeBranch w = .error e :=
  ⟨.reservedMode, by rw [decodeBranch, h]; rfl⟩

/-- The mode 3 is reserved, in a jump. -/
theorem decodeJump_reservedMode {w : Word} (x : Word) (h : fieldN w = 3) : ∃ e, decodeJump w x = .error e := by
  have none : modeOf (fieldN w) = none := by rw [h]; rfl
  unfold decodeJump
  rw [none]
  split
  · exact ⟨_, rfl⟩
  · split <;> exact ⟨_, rfl⟩

/-- The size code 3 is reserved, in LD register + register. -/
theorem decodeLoadRR_reservedSize {w : Word} (x : Word) (h : w.extractLsb' 1 2 = 3) : ∃ e, decodeLoadRR w x = .error e := by
  have none : sizeOf (w.extractLsb' 1 2) = none := by rw [h]; rfl
  unfold decodeLoadRR
  rw [none]
  split
  · exact ⟨_, rfl⟩
  · split
    · exact ⟨_, rfl⟩
    · split
      · exact ⟨_, rfl⟩
      · split <;> exact ⟨_, rfl⟩

/-- The size code 3 is reserved, in LD register + offset. -/
theorem decodeLoadRO_reservedSize {w : Word} (x : Word) (h : w.extractLsb' 10 2 = 3) :
    ∃ e, decodeLoadRO w x = .error e := by
  have none : sizeOf (w.extractLsb' 10 2) = none := by rw [h]; rfl
  unfold decodeLoadRO
  rw [none]
  dsimp only
  split <;> exact ⟨_, rfl⟩

/-- The size code 3 is reserved, in ST. -/
theorem decodeStore_reservedSize {w : Word} (x : Word) (h : w.extractLsb' 22 2 = 3) :
    ∃ e, decodeStore w x = .error e := by
  have none : sizeOf (w.extractLsb' 22 2) = none := by rw [h]; rfl
  unfold decodeStore
  rw [none]
  dsimp only
  split
  · exact ⟨_, rfl⟩
  · split
    · exact ⟨_, rfl⟩
    · split <;> exact ⟨_, rfl⟩

/-- A word of opcode 7 with the mode 3 is refused, whatever its `C` field. -/
theorem decode_jump_reservedMode {w : Word} (x : Word) (hop : opcodeOf w = 7) (h : fieldN w = 3) :
    ∃ e, decode w x = .refused e := by
  have hd : decode w x =
      if fieldC w = 0 then .of .jcc (decodeJump w x)
      else if fieldC w = 1#6 then
        if needsLimm w && fieldN w == 1#2 then .refused .jumpForm else .of .jlcc (decodeJump w x)
      else .refused .jumpForm := by
    rw [decode, hop]; rfl
  rw [hd]
  split
  · exact of_error .jcc (decodeJump_reservedMode x h)
  · split
    · split
      · exact ⟨_, rfl⟩
      · exact of_error .jlcc (decodeJump_reservedMode x h)
    · exact ⟨_, rfl⟩

/-- Settles O4: each opcode's operands are refused for the reserved code. -/
theorem reservedFieldsRefused : Obligations.ReservedFieldsRefused := by
  intro w x
  refine ⟨fun hop hn => ?_, fun hop hz => ?_, fun hop h13 hz => ?_, fun hop h25 hz => ?_⟩
  · rcases hop with hop | hop | hop | hop
    · rw [decode, hop]; exact of_error .bcc (decodeBranch_reservedMode hn)
    · rw [decode, hop]; exact of_error .blcc (decodeBranch_reservedMode hn)
    · rw [decode, hop]; exact of_error .lpcc (decodeBranch_reservedMode hn)
    · exact decode_jump_reservedMode x hop hn
  · rw [decode, hop]; exact of_error .ldRR (decodeLoadRR_reservedSize x hz)
  · rw [decode, hop, h13]; exact of_error .ldRO (decodeLoadRO_reservedSize x hz)
  · rw [decode, hop, h25]; exact of_error .st (decodeStore_reservedSize x hz)

/-! ### Invalid opcodes (30_encoding.md R135) -/

theorem of_ne_invalid {α : Type} (mk : α → Instr) (r : Except DecodeRefusal α) : Decoded.of mk r ≠ .invalid := by
  cases r <;> nofun

theorem ofAdd_ne_invalid (r : Except DecodeRefusal Dual) : ofAdd r ≠ .invalid := by
  unfold ofAdd
  split
  · nofun
  · split <;> nofun

theorem ofSame_ne_invalid (mk : Dual → Instr) (mkSame : Single → Instr) (r : Except DecodeRefusal Dual) :
    ofSame mk mkSame r ≠ .invalid := by
  unfold ofSame
  split
  · nofun
  · split <;> nofun

theorem decodeGroup3_ne_invalid (w x : Word) : decodeGroup3 w x ≠ .invalid := by
  unfold decodeGroup3
  split
  · nofun
  · split
    · nofun
    · split
      · nofun
      · dsimp only
        split <;> first | exact of_ne_invalid _ _ | (unfold ofUnassigned; split <;> nofun)

/-- Only a word of an unassigned opcode decodes to none of the rows, and every such word does. -/
theorem decode_invalid_iff (w x : Word) :
    decode w x = .invalid ↔ 0x16 ≤ (opcodeOf w).toNat ∧ (opcodeOf w).toNat ≤ 0x1D := by
  have hlt : (opcodeOf w).toNat < 32 := (opcodeOf w).isLt
  have out : ∀ {d : Decoded} {k : Nat}, d ≠ .invalid → (opcodeOf w).toNat = k → (k < 0x16 ∨ 0x1D < k) →
      (d = .invalid ↔ 0x16 ≤ (opcodeOf w).toNat ∧ (opcodeOf w).toNat ≤ 0x1D) := fun hd hk h =>
    ⟨fun e => absurd e hd, fun _ => by omega⟩
  unfold decode
  split
  · exact out (of_ne_invalid _ _) ‹_› (by decide)
  · split <;> exact out (of_ne_invalid _ _) ‹_› (by decide)
  · split <;> exact out (of_ne_invalid _ _) ‹_› (by decide)
  · exact out (decodeGroup3_ne_invalid _ _) ‹_› (by decide)
  · exact out (of_ne_invalid _ _) ‹_› (by decide)
  · exact out (of_ne_invalid _ _) ‹_› (by decide)
  · exact out (of_ne_invalid _ _) ‹_› (by decide)
  · refine out ?_ ‹_› (by decide)
    split
    · exact of_ne_invalid _ _
    · split
      · split
        · nofun
        · exact of_ne_invalid _ _
      · nofun
  · exact out (ofAdd_ne_invalid _) ‹_› (by decide)
  · exact out (ofSame_ne_invalid _ _ _) ‹_› (by decide)
  · exact out (of_ne_invalid _ _) ‹_› (by decide)
  · exact out (of_ne_invalid _ _) ‹_› (by decide)
  · exact out (ofSame_ne_invalid _ _ _) ‹_› (by decide)
  · exact out (of_ne_invalid _ _) ‹_› (by decide)
  · exact out (of_ne_invalid _ _) ‹_› (by decide)
  · refine out ?_ ‹_› (by decide)
    split
    · nofun
    · exact of_ne_invalid _ _
  · exact out (of_ne_invalid _ _) ‹_› (by decide)
  · exact out (of_ne_invalid _ _) ‹_› (by decide)
  · exact out (of_ne_invalid _ _) ‹_› (by decide)
  · exact out (of_ne_invalid _ _) ‹_› (by decide)
  · exact out (of_ne_invalid _ _) ‹_› (by decide)
  · exact out (of_ne_invalid _ _) ‹_› (by decide)
  · exact out (of_ne_invalid _ _) ‹_› (by decide)
  · exact out (of_ne_invalid _ _) ‹_› (by decide)
  · simp only [imp_false] at *
    exact iff_of_true trivial (by omega)

/-- The major opcodes that the build has, by its options. -/
theorem opcodeValid_iff (cfg : Config) (w : Word) : opcodeValid cfg w = true ↔
    (opcodeOf w).toNat < 0x10 ∨
    ((opcodeOf w).toNat < 0x14 ∧ 0x10 ≤ (opcodeOf w).toNat ∧ cfg.hasBarrel = true) ∨
    ((opcodeOf w).toNat < 0x16 ∧ 0x14 ≤ (opcodeOf w).toNat ∧ cfg.hasMul = true) ∨
    (0x1E ≤ (opcodeOf w).toNat ∧ cfg.hasMinMax = true) := by
  unfold opcodeValid
  dsimp only
  split
  · exact ⟨fun _ => .inl ‹_›, fun _ => rfl⟩
  · split
    · exact ⟨fun h => .inr (.inl ⟨‹_›, by omega, h⟩), fun h => by grind⟩
    · split
      · exact ⟨fun h => .inr (.inr (.inl ⟨‹_›, by omega, h⟩)), fun h => by grind⟩
      · split
        · exact ⟨nofun, fun h => by omega⟩
        · exact ⟨fun h => .inr (.inr (.inr ⟨by omega, h⟩)), fun h => by grind⟩

/-- A word of opcode 3 with a `C` field past NORM's that is none of the three named words is an unassigned code, or has
a reserved bit set (43_control.md R255; log 34). -/
theorem decode_unassigned {w : Word} (x : Word) (hop : opcodeOf w = 3) (hc : 0x0B ≤ (fieldC w).toNat)
    (hb : w ≠ brkWord) (hs : w ≠ sleepWord) (hi : w ≠ swiWord) :
    (∃ o, decode w x = .unassigned o) ∨ decode w x = .refused .reservedBits ∧ fieldR w ≠ 0 := by
  have hd : decode w x = ofUnassigned (decodeSingle w x) := by
    rw [decode, hop]
    change decodeGroup3 w x = _
    rw [decodeGroup3, if_neg hb, if_neg hs, if_neg hi]
    dsimp only
    split <;> first | omega | rfl
  rw [hd, decodeSingle]
  split
  · exact .inl ⟨_, rfl⟩
  · split
    · exact .inl ⟨_, rfl⟩
    · exact .inr ⟨rfl, ‹_›⟩

end Sys2Proof
end

section
/-! Proofs of the family other: the invariant of every step. -/

namespace Sys2Proof

open Machine

-- One thread, as in the laws.
set_option Elab.async false

/-! ### Semaphore bits claimed (20_memory.md R91) -/

theorem semClaim_and_other (mask other v : Word) : semClaim mask other v &&& other = 0 := by
  unfold semClaim; ext i hi; simp; grind

theorem semClaim_and_not_mask (mask other v : Word) : semClaim mask other v &&& ~~~mask = 0 := by
  unfold semClaim; ext i hi; simp

/-! ### The invariant, the delay slot aside -/

/-- The invariant of a state in the middle of a unit, where an executed delay slot may be pending. -/
def Sound (s : State) : Prop := Inv { s with slot := .none }

theorem Inv.sound {s : State} (h : Inv s) : Sound s :=
  ⟨h.memory, h.oneOwner, h.ownedArc, h.ownedHost, h.running, nofun, h.apart⟩

theorem Sound.inv {s : State} (h : Sound s) (hs : ∀ target, s.slot ≠ .run target) : Inv s :=
  ⟨h.memory, h.oneOwner, h.ownedArc, h.ownedHost, h.running, hs, h.apart⟩

/-- What every instruction keeps is enough for the invariant. -/
theorem Sound.of_keeps {s t : State} (h : Sound s) (k : Keeps s t) : Sound t := by
  obtain ⟨hmem, howner, harc, hhost, hrun, -, hapart⟩ := h
  obtain ⟨kcfg, kmem, ksemHost, ksemArc, khalt, ⟨kss, kis⟩, -, kapart⟩ := k
  refine ⟨?_, ?_, ?_, ?_, fun hh => ?_, nofun, kapart hapart⟩
  · rcases kmem with e | ⟨e, a, z, v, hm⟩
    · exact e ▸ hmem
    · exact hm ▸ memWrite_wf hmem e a z v
  · change t.semArc &&& t.semHost = 0
    rw [ksemHost]
    rcases ksemArc with e | ⟨v, e⟩
    · rw [e]; exact howner
    · rw [e]; exact semClaim_and_other _ _ v
  · change t.semArc &&& ~~~semMask t.cfg = 0
    rw [kcfg]
    rcases ksemArc with e | ⟨v, e⟩
    · rw [e]; exact harc
    · rw [e]; exact semClaim_and_not_mask _ _ v
  · change t.semHost &&& ~~~semMask t.cfg = 0
    rw [kcfg, ksemHost]; exact hhost
  · change t.h = false at hh
    rcases khalt with e | ⟨eh, esh, ebh, epc⟩
    · rw [e] at hh; cases hh
    · change t.sh = false ∧ t.bh = false ∧ t.ss = false ∧ t.is = false ∧ t.hostPc = none
      rw [esh, ebh, epc, kss, kis]
      exact hrun (eh ▸ hh)

/-! ### Units -/

/-- An instruction, or the exception its fetch raises, keeps what `Keeps` says; only one outside a delay slot leaves
a slot pending. -/
theorem keeps_runOne {s t : State} (h : s.runOne = .next t) :
    Keeps s t ∧ (t.slot = .none ∨ ∀ target, s.slot ≠ .run target) := by
  have error : Keeps s s.tick.memoryError ∧ s.tick.memoryError.slot = .none :=
    ⟨(keeps_enter s.tick 1 .exc _).of_left rfl rfl rfl rfl ⟨rfl, rfl, rfl, rfl⟩ ⟨rfl, rfl⟩ ⟨rfl, rfl⟩ rfl, rfl⟩
  unfold State.runOne at h
  split at h
  · obtain ⟨k, hs⟩ := exec_keeps _ h
    exact ⟨k, hs.imp_right And.right⟩
  · unfold execUnassigned unassignedOp at h
    exact (keeps_singleOp h).imp_right .inl
  · cases h; exact (keeps_instructionError s _).imp_right .inl
  · cases h; exact error.imp_right .inl
  · cases h; exact error.imp_right .inl
  · cases h
  · cases h

/-- After the slot of a branch that jumped, none is pending. -/
theorem sound_slotIfTaken {s t : State} (hs : Sound s) (h : s.slotIfTaken = .next t) :
    Sound t ∧ ∀ target, t.slot ≠ .run target := by
  unfold State.slotIfTaken at h
  split at h
  · rename_i target hr
    obtain ⟨k, hn⟩ := keeps_runOne h
    refine ⟨hs.of_keeps k, fun p hp => ?_⟩
    rcases hn with hn | hn
    · rw [hn] at hp; cases hp
    · exact hn target hr
  · rename_i hr
    cases h
    exact ⟨hs, hr⟩

/-- After the slot of a branch, jumping or not, none is pending. -/
theorem sound_slotIfAny {s t : State} (hs : Sound s) (h : s.slotIfAny = .next t) :
    Sound t ∧ ∀ target, t.slot ≠ .run target := by
  unfold State.slotIfAny at h
  split at h
  · rename_i target hr
    exact sound_slotIfTaken hs (by rw [State.slotIfTaken, hr]; exact h)
  · obtain ⟨u, hu, h⟩ := andThen_eq_next.1 h
    exact sound_slotIfTaken (hs.of_keeps (keeps_runOne hu).1) h
  · rename_i hr
    cases h
    exact ⟨hs, fun p hp => by rw [hr] at hp; cases hp⟩

theorem inv_runUnit {s t : State} (hs : Sound s) (h : s.runUnit = .next t) : Inv t := by
  obtain ⟨u, hu, h⟩ := andThen_eq_next.1 h
  obtain ⟨ht, hn⟩ := sound_slotIfAny (hs.of_keeps (keeps_runOne hu).1) h
  exact ht.inv hn

theorem inv_interrupt {s t : State} {k : Nat} {lv : Level} (hs : Sound s) (h : s.interrupt k lv = .next t) : Inv t := by
  unfold State.interrupt at h
  split at h
  · obtain ⟨kept, hn⟩ := keeps_brk h
    cases h
    exact (hs.of_keeps kept).inv nofun
  · cases h
    exact (hs.of_keeps (keeps_enter s k lv s.pc)).inv nofun

theorem inv_awake {s t : State} {irqs : List Nat} (hs : Sound s) (h : s.awake irqs = .next t) : Inv t := by
  unfold State.awake at h
  split at h
  · exact inv_interrupt hs h
  · exact inv_runUnit hs h

/-! ### Steps the host orders -/

theorem Apart.settle {s : State} (h : Apart s) : Apart s.settle := List.Pairwise.sublist List.filter_sublist h

/-- A restarted core shows no halt cause. -/
theorem Inv.restart {s : State} (h : Inv s) : Inv s.restart :=
  ⟨h.memory, h.oneOwner, h.ownedArc, h.ownedHost, fun _ => ⟨rfl, rfl, rfl, rfl, rfl⟩, h.noSlot, h.apart.settle⟩

theorem Inv.draw {s : State} (h : Inv s) : Inv s.draw :=
  ⟨h.memory, h.oneOwner, h.ownedArc, h.ownedHost, h.running, h.noSlot, h.apart⟩

theorem Inv.endStep {s : State} (h : Inv s) (zz : Bool) : Inv (s.endStep zz) :=
  ⟨h.memory, h.oneOwner, h.ownedArc, h.ownedHost, nofun, h.noSlot, h.apart⟩

theorem Inv.withInputs {s : State} (h : Inv s) (l : List Input) : Inv (s.withInputs l) :=
  ⟨h.memory, h.oneOwner, h.ownedArc, h.ownedHost, h.running, h.noSlot, h.apart⟩

theorem inv_coreStep {s t : State} {irqs : List Nat} (hs : Inv s) (h : s.coreStep irqs = .next t) : Inv t := by
  unfold State.coreStep at h
  split at h
  · split at h
    · unfold State.singleStep at h
      split at h
      · obtain ⟨u, hu, h⟩ := andThen_eq_next.1 h
        cases h
        exact (inv_awake hs.restart.draw.sound hu).endStep _
      · cases h
        exact hs.restart.draw.endStep _
    · cases h; exact hs
  · split at h
    · unfold State.asleep at h
      split at h
      · exact inv_interrupt hs.sound h
      · cases h; exact hs
    · exact inv_awake hs.sound h

/-! ### Reset and the host's accesses -/

theorem inv_hardReset {s : State} (hs : Inv s) : Inv s.hardReset :=
  ⟨fold_wf Buffered.old _ hs.memory, BitVec.zero_and, BitVec.zero_and, BitVec.zero_and,
    fun _ => ⟨rfl, rfl, rfl, rfl, rfl⟩, nofun, List.Pairwise.nil⟩

/-- A halt shows its cause; only a running core shows none. -/
theorem Inv.hostHalt {s : State} (h : Inv s) : Inv s.hostHalt :=
  ⟨h.memory, h.oneOwner, h.ownedArc, h.ownedHost, nofun, h.noSlot, h.apart⟩

theorem Inv.hostSetPc {s : State} (h : Inv s) (hh : s.h = true) (p : PAddr) (r : Bool) : Inv (s.hostSetPc p r) := by
  unfold State.hostSetPc
  split
  · exact h
  · exact ⟨h.memory, h.oneOwner, h.ownedArc, h.ownedHost, fun e => absurd (hh.symm.trans e) nofun, nofun,
      h.apart⟩

theorem Inv.loadStatus {s : State} (h : Inv s) (v : Word) : Inv (s.loadStatus v) :=
  ⟨h.memory, h.oneOwner, h.ownedArc, h.ownedHost, h.running, h.noSlot, h.apart⟩

theorem inv_hostStatus {s : State} (hs : Inv s) (v : Word) : Inv (s.hostStatus v) := by
  unfold State.hostStatus
  split
  · rename_i hh
    have ht : Inv ((s.loadStatus v).hostSetPc (v.setWidth 24) (!v.getLsbD 25)) := (hs.loadStatus v).hostSetPc hh _ _
    dsimp only
    split
    · exact ht
    · exact ht.restart
  · split
    · exact hs.hostHalt
    · exact hs

theorem inv_hostDebug {s t : State} {v : Word} (hs : Inv s) (h : s.hostDebug v = .next t) : Inv t := by
  unfold State.hostDebug at h
  dsimp only at h
  split at h
  · cases h
  · split at h
    · rename_i hh
      cases h
      exact ⟨hs.memory, hs.oneOwner, hs.ownedArc, hs.ownedHost, fun e => absurd (hh.symm.trans e) nofun, hs.noSlot,
        hs.apart⟩
    · split at h
      · cases h
      · split at h <;> cases h
        · exact hs.hostHalt
        · exact hs

/-- A core register, or an auxiliary register the invariant does not speak of, written by the host. -/
theorem Inv.of_keeps {s t : State} (h : Inv s) (k : Keeps s t) (hs : t.slot = s.slot) : Inv t :=
  (h.sound.of_keeps k).inv (hs ▸ h.noSlot)

theorem inv_hostWriteAux {s t : State} {a v : Word} (hs : Inv s) (h : s.hostWriteAux a v = .next t) : Inv t := by
  unfold State.hostWriteAux at h
  split at h
  · cases h
  · split at h
    · cases h; exact inv_hostStatus hs v
    · split at h
      · cases h
        exact ⟨hs.memory, by rw [BitVec.and_comm]; exact semClaim_and_other _ _ v, hs.ownedArc,
          semClaim_and_not_mask _ _ v, hs.running, hs.noSlot, hs.apart⟩
      · split at h
        · cases h; exact hs.of_keeps (.of_eq rfl rfl rfl rfl ⟨rfl, rfl, rfl, rfl⟩ ⟨rfl, rfl⟩ ⟨rfl, rfl⟩ rfl) rfl
        · split at h
          · cases h; exact hs.of_keeps (.of_eq rfl rfl rfl rfl ⟨rfl, rfl, rfl, rfl⟩ ⟨rfl, rfl⟩ ⟨rfl, rfl⟩ rfl) rfl
          · split at h
            · cases h
            · split at h
              · exact inv_hostDebug hs h
              · split at h
                · cases h
                · split at h <;> cases h
                  · exact hs.of_keeps (.of_eq rfl rfl rfl rfl ⟨rfl, rfl, rfl, rfl⟩ ⟨rfl, rfl⟩ ⟨rfl, rfl⟩ rfl) rfl
                  · exact hs

theorem inv_hostWriteCore {s t : State} {r : CoreReg} {v : Word} (hs : Inv s) (h : s.hostWriteCore r v = .next t) :
    Inv t := by
  unfold State.hostWriteCore at h
  split at h
  · cases h
  · split at h
    · cases h; exact hs.of_keeps (.of_eq rfl rfl rfl rfl ⟨rfl, rfl, rfl, rfl⟩ ⟨rfl, rfl⟩ ⟨rfl, rfl⟩ rfl) rfl
    · obtain ⟨-, rfl⟩ := writeDst_cases (d := .reg r) h
      exact hs.of_keeps (keeps_putDst s _ v) (putDst_slot s _ v)

theorem Inv.noteCode {s : State} (h : Inv s) (a : Word) (z : Size) : Inv (s.noteCode a z) :=
  ⟨h.memory, h.oneOwner, h.ownedArc, h.ownedHost, h.running, h.noSlot, h.apart⟩

theorem Inv.hostPutMem {s : State} (h : Inv s) (a : Word) (z : Size) (v : Word) : Inv (s.hostPutMem a z v) :=
  ⟨hostPutMem_wf h.memory a z v, h.oneOwner, h.ownedArc, h.ownedHost, h.running, h.noSlot,
    List.Pairwise.map _ (fun _ _ hd => hd) h.apart.settle⟩

theorem inv_hostWriteMem {s t : State} {a v : Word} {z : Size} (hs : Inv s) (h : s.hostWriteMem a z v = .next t) :
    Inv t := by
  unfold State.hostWriteMem at h
  split at h
  · cases h
  · split at h <;> cases h
    exact (hs.noteCode a z).hostPutMem a z v

theorem Inv.answer {s : State} (h : Inv s) (v : Word) : Inv (s.answer v) :=
  ⟨h.memory, h.oneOwner, h.ownedArc, h.ownedHost, h.running, h.noSlot, h.apart⟩

theorem inv_hostReadAux {s t : State} {a : Word} (hs : Inv s) (h : s.hostReadAux a = .next t) : Inv t := by
  unfold State.hostReadAux at h
  split at h <;> cases h
  exact (hs.of_keeps (.of_eq (by simp) (by simp) (by simp) (by simp) (by simp) (by simp) (by simp) (by simp))
    (by simp)).answer _

theorem inv_hostReadCore {s t : State} {r : CoreReg} (hs : Inv s) (h : s.hostReadCore r = .next t) : Inv t := by
  unfold State.hostReadCore at h
  split at h <;> cases h
  exact hs.answer _

theorem inv_hostReadMem {s t : State} {a : Word} {z : Size} (hs : Inv s) (h : s.hostReadMem a z = .next t) : Inv t := by
  unfold State.hostReadMem at h
  split at h
  · cases h
  · split at h <;> cases h
    exact hs.answer _

theorem inv_hostAct {s t : State} {a : HostAction} (hs : Inv s) (h : s.hostAct a = .next t) : Inv t := by
  cases a with
  | readCore r => exact inv_hostReadCore hs.draw h
  | writeCore r v => exact inv_hostWriteCore hs.draw h
  | readAux a => exact inv_hostReadAux hs.draw h
  | writeAux a v => exact inv_hostWriteAux hs.draw h
  | readMem a z => exact inv_hostReadMem hs.draw h
  | writeMem a z v => exact inv_hostWriteMem hs.draw h

/-- Settles O57: a step is a hard reset, a host access, or a core step. -/
theorem invStep : Obligations.InvStep := by
  intro s t hs h
  unfold step State.cycle at h
  split at h
  · exact inv_coreStep hs h
  · cases h; exact inv_hardReset (hs.withInputs _)
  · exact inv_hostAct (hs.withInputs _) h
  · exact inv_coreStep (hs.withInputs _) h

/-- Settles O58: nothing is listed in memory, owned, buffered or pending. -/
theorem invReset : Obligations.InvReset :=
  ⟨by decide, rfl, rfl, rfl, fun _ => ⟨rfl, rfl, rfl, rfl, rfl⟩, nofun, .nil⟩

end Sys2Proof
end

section
/-! Proofs of the family other: the results and flags of the computing instructions (40_alu.md,
41_single_operand.md, 46_extensions.md). -/

namespace Sys2Proof

open Machine

-- One thread, as in the laws.
set_option Elab.async false

/-! ### Results with all four flags -/

/-- The flags of an ALU result in the statements' words: those it marks, the others as they were. -/
theorem withOut_eq (s : State) (f : Bool) (o : AluOut) :
    withOut s f o = withFlags s f o.z o.n (o.c.getD s.c) (o.v.getD s.v) := rfl

/-- A dual-operand instruction that computes `out` completes with its result and flags. -/
theorem dualOp_completes_as {i : Instr} {fn : Word → Word → Bool → AluOut} {o : Dual} {s : State} {out : AluOut}
    (hi : exec i s = dualOp fn o s) (hc : s.cond o.cc = true) (hd : Writable s o.dst)
    (hout : fn (operand1 s o.src) (operand2 s o.src) s.c = out) :
    Completes i s o.src.isLong o.dst out.result (withOut s o.f out) := by
  subst hout
  exact dualOp_completes hi hc hd

/-- The same for a single operand. -/
theorem singleOp_completes_as {i : Instr} {fn : Word → Bool → AluOut} {o : Single} {s : State} {out : AluOut}
    (hi : exec i s = singleOp fn o s) (hc : s.cond o.cc = true) (hd : Writable s o.dst)
    (hout : fn (operand s o.src) s.c = out) :
    Completes i s o.src.isLong o.dst out.result (withOut s o.f out) := by
  subst hout
  exact singleOp_completes hi hc hd

/-! ### Addition and subtraction (40_alu.md R151 to R155) -/

/-- The result of an addition is the sum modulo 2^32, its carry the sum's bit 32, its overflow a signed sum out of
range. -/
theorem addOut_eq (x y : Word) (cin : Bool) :
    addOut x y cin =
      ⟨x + y + BitVec.ofNat 32 cin.toNat, x + y + BitVec.ofNat 32 cin.toNat == 0,
        (x + y + BitVec.ofNat 32 cin.toNat).msb, some (decide (2 ^ 32 ≤ x.toNat + y.toNat + cin.toNat)),
        some (overflows (x.toInt + y.toInt + cin.toNat))⟩ := by
  have hr : BitVec.ofNat 32 (x.toNat + y.toNat + cin.toNat) = x + y + BitVec.ofNat 32 cin.toNat := by
    simp [BitVec.ofNat_add]
  have hx := x.isLt
  have hy := y.isLt
  have hcin : cin.toNat ≤ 1 := Bool.toNat_le cin
  have hv : (x.msb == y.msb && (BitVec.ofNat 32 (x.toNat + y.toNat + cin.toNat)).msb != x.msb) =
      overflows (x.toInt + y.toInt + cin.toNat) := by
    rw [Bool.eq_iff_iff]
    simp only [overflows, BitVec.msb_eq_decide, BitVec.toInt_eq_toNat_cond, BitVec.toNat_ofNat, Bool.and_eq_true,
      beq_iff_eq, bne_iff_ne, ne_eq, decide_eq_decide, decide_eq_true_eq]
    generalize cin.toNat = k at *
    split <;> split <;> omega
  rw [hr] at hv
  simp only [addOut, hr, hv]

/-- The result of a subtraction is the difference modulo 2^32, its carry the borrow, its overflow a signed difference
out of range. -/
theorem subOut_eq (x y : Word) (bin : Bool) :
    subOut x y bin =
      ⟨x - y - BitVec.ofNat 32 bin.toNat, x - y - BitVec.ofNat 32 bin.toNat == 0,
        (x - y - BitVec.ofNat 32 bin.toNat).msb, some (decide (x.toNat < y.toNat + bin.toNat)),
        some (overflows (x.toInt - y.toInt - bin.toNat))⟩ := by
  have hx := x.isLt
  have hy := y.isLt
  have hbin : bin.toNat ≤ 1 := Bool.toNat_le bin
  have hr : BitVec.ofInt 32 ((x.toNat : Int) - y.toNat - bin.toNat) = x - y - BitVec.ofNat 32 bin.toNat := by
    apply BitVec.eq_of_toNat_eq
    simp only [BitVec.toNat_ofInt, BitVec.toNat_sub, BitVec.toNat_ofNat]
    omega
  have hv : (x.msb != y.msb && (BitVec.ofInt 32 ((x.toNat : Int) - y.toNat - bin.toNat)).msb != x.msb) =
      overflows (x.toInt - y.toInt - bin.toNat) := by
    rw [Bool.eq_iff_iff]
    simp only [overflows, BitVec.msb_eq_decide, BitVec.toInt_eq_toNat_cond, BitVec.toNat_ofInt, Bool.and_eq_true,
      bne_iff_ne, ne_eq, decide_eq_decide, decide_eq_true_eq]
    generalize bin.toNat = k at *
    split <;> split <;> omega
  have hc : decide ((x.toNat : Int) - y.toNat - bin.toNat < 0) = decide (x.toNat < y.toNat + bin.toNat) := by
    rw [decide_eq_decide]; omega
  rw [hr] at hv
  simp only [subOut, subOverflow, hr, hv, hc]

/-- A carry taken as a number. -/
theorem carry_toNat (c : Bool) : (if c then 1 else 0 : Nat) = c.toNat := by cases c <;> rfl

/-- Settles O10: both run the dual-operand template with the addition, ADC with the carry going in. -/
theorem addResult : Obligations.AddResult := by
  intro o s hc hd x y k
  have add_done := dualOp_completes_as (i := .add o) (fn := fun x y _ => addOut x y false) rfl hc hd (addOut_eq x y false)
  have adc_done := dualOp_completes_as (i := .adc o) (fn := addOut) rfl hc hd (addOut_eq x y s.c)
  refine ⟨?_, ?_⟩
  · simpa [withOut_eq] using add_done
  · simpa [withOut_eq, k, carry_toNat] using adc_done

/-- Settles O11: both run the dual-operand template with the subtraction, SBC with the carry as borrow. -/
theorem subResult : Obligations.SubResult := by
  intro o s hc hd x y k
  have sub_done := dualOp_completes_as (i := .sub o) (fn := fun x y _ => subOut x y false) rfl hc hd (subOut_eq x y false)
  have sbc_done := dualOp_completes_as (i := .sbc o) (fn := subOut) rfl hc hd (subOut_eq x y s.c)
  refine ⟨?_, ?_⟩
  · simpa [withOut_eq] using sub_done
  · simpa [withOut_eq, k, carry_toNat] using sbc_done

/-! ### The conditions after a subtraction (40_alu.md R153) -/

/-- A dual-operand instruction that completes with its condition true has a destination it may write. -/
theorem dualOp_writable {fn : Word → Word → Bool → AluOut} {o : Dual} {s t : State} (h : dualOp fn o s = .next t)
    (hc : s.cond o.cc = true) : Writable s o.dst := by
  simp only [dualOp, State.issue_cond, hc, if_true] at h
  exact (complete_cases h).1.congr (by simp)

/-- The signed comparison by the sign and the overflow of the difference. -/
theorem sign_ne_overflow_iff (x y : Word) :
    ((x - y).msb != overflows (x.toInt - y.toInt)) = decide (x.toInt < y.toInt) := by
  have hx := x.isLt
  have hy := y.isLt
  rw [Bool.eq_iff_iff]
  simp only [overflows, BitVec.msb_eq_decide, BitVec.toInt_eq_toNat_cond, BitVec.toNat_sub, bne_iff_ne, ne_eq,
    decide_eq_decide, decide_eq_true_eq]
  split <;> split <;> omega

/-- The signed conditions are those of the sign against the overflow. -/
theorem cond_signed (t : State) :
    t.cond .gt = (!t.z && !(t.n != t.v)) ∧ t.cond .ge = (!(t.n != t.v)) ∧ t.cond .lt = (t.n != t.v) ∧
      t.cond .le = (t.z || (t.n != t.v)) := by
  simp only [State.cond]
  cases t.z <;> cases t.n <;> cases t.v <;> decide

/-- In a state with the flags of a subtraction the condition names compare the operands. -/
theorem cond_of_subFlags {t : State} {x y : Word} (hz : t.z = (x - y == 0)) (hn : t.n = (x - y).msb)
    (hc : t.c = decide (x.toNat < y.toNat)) (hv : t.v = overflows (x.toInt - y.toInt)) :
    t.cond .eq = (x == y) ∧ t.cond .ne = (x != y) ∧
    t.cond .cs = decide (x.toNat < y.toNat) ∧ t.cond .cc = decide (y.toNat ≤ x.toNat) ∧
    t.cond .hi = decide (y.toNat < x.toNat) ∧ t.cond .ls = decide (x.toNat ≤ y.toNat) ∧
    t.cond .gt = decide (y.toInt < x.toInt) ∧ t.cond .ge = decide (y.toInt ≤ x.toInt) ∧
    t.cond .lt = decide (x.toInt < y.toInt) ∧ t.cond .le = decide (x.toInt ≤ y.toInt) := by
  have zero : t.z = (x == y) := by
    rw [hz, Bool.eq_iff_iff, beq_iff_eq, beq_iff_eq]
    exact sub_eq_zero
  have less : (t.n != t.v) = decide (x.toInt < y.toInt) := by rw [hn, hv]; exact sign_ne_overflow_iff x y
  have eq_nat : x = y ↔ x.toNat = y.toNat := BitVec.toNat_inj.symm
  have eq_int : x = y ↔ x.toInt = y.toInt := BitVec.toInt_inj.symm
  obtain ⟨gt, ge, lt, le⟩ := cond_signed t
  rw [gt, ge, lt, le, less]
  simp only [State.cond, zero, hc]
  refine ⟨trivial, rfl, trivial, ?_, ?_, ?_, ?_, ?_, trivial, ?_⟩ <;> rw [Bool.eq_iff_iff] <;>
    simp only [Bool.not_eq_true', Bool.and_eq_true, Bool.or_eq_true, decide_eq_true_eq, decide_eq_false_iff_not,
      beq_iff_eq, beq_eq_false_iff_ne, ne_eq]
  · omega
  · rw [eq_nat]; omega
  · rw [eq_nat]; omega
  · rw [eq_int]; omega
  · omega
  · rw [eq_int]; omega

/-- Settles O7: SUB.F leaves the flags of the subtraction, and the conditions read them. -/
theorem subThenCompare : Obligations.SubThenCompare := by
  intro o s t hc hf h x y
  obtain ⟨t', ht', same, -⟩ := (subResult o s hc (dualOp_writable (fn := fun x y _ => subOut x y false) h hc)).1
  cases h.symm.trans ht'
  obtain ⟨hz, hn, hcarry, hv⟩ := same.flags
  rw [hf] at hz hn hcarry hv
  exact cond_of_subFlags hz hn hcarry hv

/-! ### The second names (30_encoding.md R142) -/

theorem Src1.both_isLong (src : Src1) : src.both.isLong = src.isLong := by cases src <;> rfl

/-- An implemented register reads alike as either operand; any other may not (10_state.md R23). -/
theorem readReg_implemented {s : State} {b : CoreReg} (h : Implemented s b) (u u' : FreeUse) :
    s.readReg u b = s.readReg u' b := by
  unfold State.readReg
  unfold Implemented isMulReg at h
  split
  · rfl
  · split
    · rfl
    · split
      · rfl
      · split
        · rfl
        · split
          · rfl
          · rename_i h32 h60 h57 h58 h59
            simp only [Bool.and_eq_true, beq_iff_eq, decide_eq_true_eq, not_and] at h h57 h58 h59
            rcases h with h | h | ⟨hm, h⟩
            · exact absurd h h32
            · exact absurd h h60
            · have := h57 hm
              have := h58 hm
              have := h59 hm
              omega

/-- One operand in both fields is read as operand 1. -/
theorem operand1_both (s : State) (src : Src1) : operand1 s src.both = operand s src := by
  cases src <;> rfl

/-- And as operand 2, where the register is implemented. -/
theorem operand2_both {s : State} {src : Src1} (h : ∀ b, src = .reg b → Implemented s b) :
    operand2 s src.both = operand s src := by
  cases src with
  | reg b =>
    refine readReg_implemented ?_ .operand2 .operand1
    simpa [Implemented] using h b rfl
  | limm v => rfl
  | short d => rfl

/-- Doubling shifts left by one, the number added coming in at the bottom. -/
theorem double_eq_append (x : Word) (cin : Bool) :
    BitVec.ofNat 32 (x.toNat + x.toNat + cin.toNat) = x.extractLsb' 0 31 ++ BitVec.ofBool cin := by
  apply BitVec.eq_of_toNat_eq
  have hcin : (BitVec.ofBool cin).toNat = cin.toNat := BitVec.toNat_ofBool cin
  have hlt : cin.toNat < 2 ^ 1 := Bool.toNat_lt cin
  rw [BitVec.toNat_append, hcin, ← Nat.shiftLeft_add_eq_or_of_lt hlt, Nat.shiftLeft_eq]
  simp only [BitVec.toNat_ofNat, BitVec.extractLsb'_toNat, Nat.shiftRight_zero]
  omega

/-- The sum of an operand with itself: a shift by one, with the carry going in at the bottom (41_single_operand.md
R180, R182). -/
theorem addOut_self (x : Word) (cin : Bool) :
    addOut x x cin =
      ⟨x.extractLsb' 0 31 ++ BitVec.ofBool cin, x.extractLsb' 0 31 ++ BitVec.ofBool cin == 0,
        (x.extractLsb' 0 31 ++ BitVec.ofBool cin).msb, some (x.getLsbD 31), some (x.getLsbD 31 ^^ x.getLsbD 30)⟩ := by
  have top : x.msb = x.getLsbD 31 := rfl
  have below : (x.extractLsb' 0 31 ++ BitVec.ofBool cin).msb = x.getLsbD 30 := by
    rw [BitVec.msb_eq_getLsbD_last, BitVec.getLsbD_append]
    simp
  have carry : decide (2 ^ 32 ≤ x.toNat + x.toNat + cin.toNat) = x.getLsbD 31 := by
    have hcin : cin.toNat ≤ 1 := Bool.toNat_le cin
    rw [← top, BitVec.msb_eq_decide, decide_eq_decide]
    omega
  simp only [addOut, double_eq_append, below, carry, top, BEq.rfl, Bool.true_and]
  rw [bne_comm]

/-- A row that adds one operand to itself completes with the shifted operand, where that is implemented. -/
theorem addSelf_completes {i : Instr} {o : Dual} {src : Src1} {s : State} (cin : Bool → Bool)
    (hi : exec i s = dualOp (fun x y c => addOut x y (cin c)) o s) (hsrc : o.src = src.both)
    (hc : s.cond o.cc = true) (hd : Writable s o.dst) :
    ∃ w c v, Completes i s src.isLong o.dst w (withFlags s o.f (w == 0) w.msb c v) ∧
      ((∀ b, src = .reg b → Implemented s b) →
        w = (operand s src).extractLsb' 0 31 ++ BitVec.ofBool (cin s.c) ∧ c = (operand s src).getLsbD 31 ∧
          v = ((operand s src).getLsbD 31 ^^ (operand s src).getLsbD 30)) := by
  have done := dualOp_completes hi hc hd
  rw [hsrc, Src1.both_isLong, operand1_both] at done
  refine ⟨_, _, _, done, fun himp => ?_⟩
  rw [operand2_both himp, addOut_self]
  exact ⟨rfl, rfl, rfl⟩

/-- NOP completes and changes nothing (40_alu.md R162). -/
theorem nop_done (s : State) : DoneAs .nop s false (Same s) := by
  obtain ⟨t, ht, same, count, passed⟩ :=
    dualOp_completes (i := .nop) (fn := fun x y _ => outZN (x ^^^ y)) (o := nopDual) (s := s) rfl rfl
      (fun r hr => by cases hr)
  refine ⟨t, ht, ?_, count, passed⟩
  rw [show nopDual.dst = .ind .shortQuiet from rfl, regsWith_ind] at same
  exact same

/-- MOV: the operand and itself (41_single_operand.md R171). -/
theorem mov_completes {o : Single} {s : State} (hc : s.cond o.cc = true) (hd : Writable s o.dst) :
    ∃ w, Completes (.mov o) s o.src.isLong o.dst w (withFlags s o.f (w == 0) w.msb s.c s.v) ∧
      ((∀ b, o.src = .reg b → Implemented s b) → w = operand s o.src) := by
  have done := dualOp_outZN_completes (i := .mov o) (fn := fun x y => x &&& y) (o := o.both) rfl hc hd
  rw [Single.both, Src1.both_isLong, operand1_both] at done
  refine ⟨_, done, fun himp => ?_⟩
  rw [operand2_both himp, BitVec.and_self]

/-- Settles O13: each runs the row whose words it names on its operand twice. -/
theorem secondNames : Obligations.SecondNames :=
  ⟨nop_done,
    fun o _ hc hd => ⟨mov_completes hc hd,
      addSelf_completes (i := .asl o) (o := o.both) (fun _ => false) rfl rfl hc hd,
      addSelf_completes (i := .rlc o) (o := o.both) (fun c => c) rfl rfl hc hd⟩,
    fun o _ hc hd => addSelf_completes (i := .rol o) (o := o.both) (fun _ => false) rfl rfl hc hd⟩

/-! ### Shifts by one (41_single_operand.md R176 to R179) -/

theorem msb_ofBool_append (b : Bool) (x : BitVec 31) : (BitVec.ofBool b ++ x).msb = b := by
  rw [BitVec.msb_append]; simp

/-- A single-operand instruction that puts `top` over the upper 31 bits of its operand completes with that, the lowest
bit as its carry. -/
theorem shiftByOne_completes {i : Instr} {fn : Word → Bool → AluOut} {o : Single} {s : State} {top : Bool}
    (hi : exec i s = singleOp fn o s) (hc : s.cond o.cc = true) (hd : Writable s o.dst)
    (hout : fn (operand s o.src) s.c =
      outZNC (BitVec.ofBool top ++ (operand s o.src).extractLsb' 1 31) ((operand s o.src).getLsbD 0)) :
    let w := BitVec.ofBool top ++ (operand s o.src).extractLsb' 1 31
    Completes i s o.src.isLong o.dst w (withFlags s o.f (w == 0) top ((operand s o.src).getLsbD 0) s.v) := by
  intro w
  have done := singleOp_completes_as hi hc hd hout
  rw [withOut_eq] at done
  simp only [outZNC, msb_ofBool_append] at done
  exact done

theorem sshiftRight_one (x : Word) : x.sshiftRight 1 = BitVec.ofBool x.msb ++ x.extractLsb' 1 31 := by
  ext j hj; simp [BitVec.getElem_sshiftRight]; grind

theorem ushiftRight_one (x : Word) : x >>> 1 = BitVec.ofBool false ++ x.extractLsb' 1 31 := by
  ext j hj; simp; grind

theorem rotateRight_one (x : Word) : x.rotateRight 1 = BitVec.ofBool (x.getLsbD 0) ++ x.extractLsb' 1 31 := by
  ext j hj; simp [BitVec.getElem_rotateRight]; grind

/-- Settles O15: each puts its own bit on top. -/
theorem shiftByOne : Obligations.ShiftByOne := by
  intro o s hc hd x done
  have asr_done : done (.asr o) x.msb :=
    shiftByOne_completes (fn := fun x _ => asrOut x) rfl hc hd (by rw [asrOut, sshiftRight_one])
  have lsr_done : done (.lsr o) false :=
    shiftByOne_completes (fn := fun x _ => lsrOut x) rfl hc hd (by rw [lsrOut, ushiftRight_one])
  have ror_done : done (.ror o) (x.getLsbD 0) :=
    shiftByOne_completes (fn := fun x _ => rorOut x) rfl hc hd (by rw [rorOut, rotateRight_one])
  have rrc_done : done (.rrc o) s.c := shiftByOne_completes (fn := rrcOut) rfl hc hd rfl
  exact ⟨asr_done, lsr_done, ror_done, rrc_done⟩

/-! ### SWAP and NORM (46_extensions.md R306, R308) -/

/-- The halves of a word exchanged. -/
theorem swap_halves (x : Word) :
    x.extractLsb' 0 16 ++ x.extractLsb' 16 16 = x.setWidth 16 ++ (x >>> 16).setWidth 16 := by
  ext j hj; simp; grind

/-- The leading zeros of a number below `2 ^ k` place it between two powers of two. -/
theorem leadingZeros_spec {y : Word} {k : Nat} (hk : k ≤ 32) (h0 : y.toNat ≠ 0) (hy : y.toNat < 2 ^ k) :
    leadingZeros y k < k ∧ 2 ^ (k - 1 - leadingZeros y k) ≤ y.toNat ∧ y.toNat < 2 ^ (k - leadingZeros y k) := by
  induction k with
  | zero => simp at hy; omega
  | succ k ih =>
    rw [leadingZeros]
    have bit_iff : y.getLsbD k = true ↔ 2 ^ k ≤ y.toNat := by
      rw [BitVec.getLsbD, Nat.testBit_eq_decide_div_mod_eq, decide_eq_true_eq]
      have : y.toNat / 2 ^ k < 2 := by
        rw [Nat.div_lt_iff_lt_mul (by positivity)]; rw [pow_succ] at hy; omega
      rw [← Nat.one_le_div_iff (by positivity)]
      generalize y.toNat / 2 ^ k = q at *
      omega
    split
    · exact ⟨by omega, by simpa using bit_iff.1 ‹_›, by simpa using hy⟩
    · rename_i hb
      rw [bit_iff, not_le] at hb
      obtain ⟨h1, h2, h3⟩ := ih (by omega) hb
      rw [show k + 1 - 1 - (leadingZeros y k + 1) = k - 1 - leadingZeros y k by omega,
        show k + 1 - (leadingZeros y k + 1) = k - leadingZeros y k by omega]
      exact ⟨by omega, h2, h3⟩

/-- An operand, complemented if it is negative, is not negative. -/
theorem magnitude_lt (x : Word) : (if x.msb then ~~~x else x).toNat < 2 ^ 31 := by
  have hx := x.isLt
  split <;> rename_i h <;> rw [BitVec.msb_eq_decide] at h <;> simp at h ⊢ <;> omega

/-- NORM of an operand that is not all sign. -/
theorem normOf_spec {x y : Word} (hy : y = if x.msb then ~~~x else x) (h0 : y ≠ 0) :
    (normOf x).toNat ≤ 30 ∧ 2 ^ (30 - (normOf x).toNat) ≤ y.toNat ∧ y.toNat < 2 ^ (31 - (normOf x).toNat) := by
  have hlt : y.toNat < 2 ^ 31 := hy ▸ magnitude_lt x
  have hne : y.toNat ≠ 0 := fun h => h0 (BitVec.eq_of_toNat_eq h)
  obtain ⟨h1, h2, h3⟩ := leadingZeros_spec (k := 31) (by decide) hne hlt
  have top : y.getLsbD 31 = false := by
    have : y.getLsbD 31 = y.msb := rfl
    rw [this, BitVec.msb_eq_decide]
    simpa using hlt
  have norm : normOf x = BitVec.ofNat 32 (leadingZeros y 31) := by
    rw [normOf]
    simp only [← hy]
    rw [if_neg h0, leadingZeros, top]
    rfl
  have hn : (normOf x).toNat = leadingZeros y 31 := by
    rw [norm, BitVec.toNat_ofNat]; omega
  rw [hn]
  exact ⟨by omega, h2, h3⟩

/-- Settles O17: both run the single-operand template where the build has them. -/
theorem swapNormResult : Obligations.SwapNormResult := by
  intro o s hc hd x y done
  refine ⟨fun hs => ?_, fun hn => ?_⟩
  · exact singleOp_outZN_completes (fn := fun x => x.extractLsb' 0 16 ++ x.extractLsb' 16 16)
      (by rw [exec, execSwap, if_pos hs]; rfl) (swap_halves x) hc hd
  · have norm_done : done (.norm o) (normOf x) :=
      singleOp_outZN_completes (fn := normOf) (by rw [exec, execNorm, if_pos hn]) rfl hc hd
    exact ⟨normOf x, norm_done, fun h => if_pos h, normOf_spec rfl⟩

/-! ### Multiple shifts by 32 or more places (46_extensions.md R299) -/

/-- With a count of 32 or more a multiple shift completes with some result and some Z and N. -/
theorem barrelOpen_completes {i : Instr} {sh : Word → Nat → Word} {o : Dual} {s t : State}
    (hi : exec i s =
      if s.cfg.hasBarrel then dualOp (fun x y _ => shiftOut s.freeOut sh x y) o s else .next t)
    (hb : s.cfg.hasBarrel = true) (hc : s.cond o.cc = true) (hd : Writable s o.dst)
    (hn : 32 ≤ (operand2 s o.src).toNat) :
    ∃ w z n, Completes i s o.src.isLong o.dst w (withFlags s o.f z n s.c s.v) := by
  rw [if_pos hb] at hi
  have counted : shiftOut s.freeOut sh (operand1 s o.src) (operand2 s o.src) = { s.freeOut with c := none, v := none } := by
    rw [shiftOut, if_neg (by omega)]
  exact ⟨_, _, _, dualOp_completes_as hi hc hd counted⟩

/-- Settles O19: the four differ in the shift only, which does not count here. -/
theorem barrelOpenCounts : Obligations.BarrelOpenCounts := by
  intro o s hb hc hd hn
  exact ⟨barrelOpen_completes (sh := (· <<< ·)) rfl hb hc hd hn, barrelOpen_completes (sh := (· >>> ·)) rfl hb hc hd hn,
    barrelOpen_completes (sh := BitVec.sshiftRight) rfl hb hc hd hn,
    barrelOpen_completes (sh := BitVec.rotateRight) rfl hb hc hd hn⟩

/-! ### MAX and MIN (46_extensions.md R311 to R313) -/

/-- The overflow of the subtraction, as MAX and MIN compute it. -/
theorem subOverflow_eq (x y : Word) : subOverflow x y (x - y) = overflows (x.toInt - y.toInt) := by
  have h := subOut_eq x y false
  simp only [subOut] at h
  have hr := congrArg AluOut.result h
  have hv := congrArg AluOut.v h
  simp only [Option.some.injEq] at hr hv
  rw [hr] at hv
  simpa using hv

/-- Settles O20: the chosen operand, with the flags of the subtraction. -/
theorem maxMinResult : Obligations.MaxMinResult := by
  intro o s hm hc hd x y done
  have chosen : ∀ (i : Instr) (second : Bool) (fn : Word → Word → AluOut),
      exec i s = dualOp (fun x y _ => fn x y) o s → fn x y = chooseOut x y second → done i second := by
    intro i second fn hi hfn
    have := dualOp_completes_as hi hc hd hfn
    rw [withOut_eq] at this
    simp only [chooseOut, subOverflow_eq] at this
    exact this
  exact ⟨chosen (.max o) _ maxOut (by rw [exec, execMax, if_pos hm]) rfl,
    chosen (.min o) _ minOut (by rw [exec, execMin, if_pos hm]) rfl⟩

end Sys2Proof
end

section
/-! Proofs of the family other: conditions, operands, what is refused or absent, and the multiplier. -/

namespace Sys2Proof

open Machine

-- One thread, as in the laws.
set_option Elab.async false

/-! ### The execution templates -/

/-- The instructions that run by one of the three templates. -/
def usesTemplate : Instr → Bool
  | .ldRR _ | .ldRO _ | .lr _ | .st _ | .sr _ | .flag _ | .brk | .sleep | .swi | .bcc _ | .blcc _ | .lpcc _ | .jcc _
  | .jlcc _ => false
  | _ => true

/-- The template an instruction runs by on `s`, with what the statements' tables say of it; or the instruction error of
an absent option. -/
inductive RunsAs (i : Instr) (s : State) : Prop where
  | dual (fn : Word → Word → Bool → AluOut) (o : Dual) (run : exec i s = dualOp fn o s)
    (cond : ∀ p, conditionOf i = some p → p = (o.cc, o.src.isLong)) (result : ∀ p, resultOf i = some p → p = (o.dst, o.cc))
    (reads : ∀ r ∈ readsOf i, r ∈ o.src.regs)
  | single (fn : Word → Bool → AluOut) (o : Single) (run : exec i s = singleOp fn o s)
    (cond : ∀ p, conditionOf i = some p → p = (o.cc, o.src.isLong)) (result : ∀ p, resultOf i = some p → p = (o.dst, o.cc))
    (reads : ∀ r ∈ readsOf i, r ∈ o.src.regs)
  | mul (fn : Word → Word → BitVec 64) (o : MulOp) (run : exec i s = mulOp fn o s) (name : i = .mul64 o ∨ i = .mulu64 o)
  | absent (long : Bool) (run : exec i s = .next (s.instructionError long)) (na : ¬ Available s.cfg i)

theorem Src1.regs_both {src : Src1} {r : CoreReg} (h : r ∈ src.regs) : r ∈ src.both.regs := by
  cases src with
  | reg b => exact List.mem_cons.2 (.inl (List.mem_singleton.1 h))
  | limm v => cases h
  | short d => cases h

/-- A dual-operand row. -/
theorem RunsAs.row {i : Instr} {s : State} (fn : Word → Word → Bool → AluOut) (o : Dual) (run : exec i s = dualOp fn o s)
    (cond : conditionOf i = some (o.cc, o.src.isLong)) (result : resultOf i = some (o.dst, o.cc))
    (reads : readsOf i = o.src.regs) : RunsAs i s :=
  .dual fn o run (fun _ h => Option.some.inj (h.symm.trans cond)) (fun _ h => Option.some.inj (h.symm.trans result))
    fun _ h => reads ▸ h

/-- A dual-operand row of the library. -/
theorem RunsAs.rowIf {i : Instr} {s : State} {b : Bool} (fn : Word → Word → Bool → AluOut) (o : Dual)
    (run : exec i s = if b then dualOp fn o s else .next (s.instructionError o.src.isLong))
    (av : Available s.cfg i → b = true)
    (cond : conditionOf i = some (o.cc, o.src.isLong)) (result : resultOf i = some (o.dst, o.cc))
    (reads : readsOf i = o.src.regs) : RunsAs i s := by
  cases b with
  | true => exact .row fn o run cond result reads
  | false => exact .absent _ run fun h => nomatch av h

/-- A single-operand row. -/
theorem RunsAs.one {i : Instr} {s : State} (fn : Word → Bool → AluOut) (o : Single) (run : exec i s = singleOp fn o s)
    (cond : conditionOf i = some (o.cc, o.src.isLong)) (result : resultOf i = some (o.dst, o.cc))
    (reads : readsOf i = o.src.regs) : RunsAs i s :=
  .single fn o run (fun _ h => Option.some.inj (h.symm.trans cond)) (fun _ h => Option.some.inj (h.symm.trans result))
    fun _ h => reads ▸ h

/-- A single-operand row of the library: without its option an unassigned code. -/
theorem RunsAs.oneIf {i : Instr} {s : State} {b : Bool} (fn : Word → Bool → AluOut) (o : Single)
    (run : exec i s = if b then singleOp fn o s else unassignedOp o s)
    (cond : conditionOf i = some (o.cc, o.src.isLong)) (result : resultOf i = some (o.dst, o.cc))
    (reads : readsOf i = o.src.regs) : RunsAs i s := by
  cases b with
  | true => exact .one fn o run cond result reads
  | false => exact .one (fun _ _ => s.freeOut) o run cond result reads

/-- A second name: the row whose words it names, on one operand twice. -/
theorem RunsAs.second {i : Instr} {s : State} (fn : Word → Word → Bool → AluOut) (o : Dual) (src : Src1)
    (run : exec i s = dualOp fn o s) (hsrc : o.src = src.both) (cond : conditionOf i = some (o.cc, src.isLong))
    (result : resultOf i = some (o.dst, o.cc)) (reads : readsOf i = src.regs) : RunsAs i s :=
  .dual fn o run (fun _ h => by rw [hsrc, Src1.both_isLong]; exact Option.some.inj (h.symm.trans cond))
    (fun _ h => Option.some.inj (h.symm.trans result)) fun r h => by rw [hsrc]; exact Src1.regs_both (reads ▸ h)

/-- A multiply. -/
theorem RunsAs.mulIf {i : Instr} {s : State} {b : Bool} (fn : Word → Word → BitVec 64) (o : MulOp)
    (run : exec i s = if b then mulOp fn o s else .next (s.instructionError o.src.isLong))
    (av : Available s.cfg i → b = true) (name : i = .mul64 o ∨ i = .mulu64 o) : RunsAs i s := by
  cases b with
  | true => exact .mul fn o run name
  | false => exact .absent _ run fun h => nomatch av h

/-- Each instruction's template. -/
theorem runsAs {i : Instr} (h : usesTemplate i = true) (s : State) : RunsAs i s := by
  cases i with
  | asr o => exact .one (fun x _ => asrOut x) o rfl rfl rfl rfl
  | lsr o => exact .one (fun x _ => lsrOut x) o rfl rfl rfl rfl
  | ror o => exact .one (fun x _ => rorOut x) o rfl rfl rfl rfl
  | rrc o => exact .one rrcOut o rfl rfl rfl rfl
  | sexb o => exact .one (fun x _ => sexbOut x) o rfl rfl rfl rfl
  | sexw o => exact .one (fun x _ => sexwOut x) o rfl rfl rfl rfl
  | extb o => exact .one (fun x _ => extbOut x) o rfl rfl rfl rfl
  | extw o => exact .one (fun x _ => extwOut x) o rfl rfl rfl rfl
  | swap o => exact .oneIf (fun x _ => swapOut x) o rfl rfl rfl rfl
  | norm o => exact .oneIf (fun x _ => outZN (normOf x)) o rfl rfl rfl rfl
  | add o => exact .row (fun x y _ => addOut x y false) o rfl rfl rfl rfl
  | adc o => exact .row addOut o rfl rfl rfl rfl
  | sub o => exact .row (fun x y _ => subOut x y false) o rfl rfl rfl rfl
  | sbc o => exact .row subOut o rfl rfl rfl rfl
  | and o => exact .row (fun x y _ => outZN (x &&& y)) o rfl rfl rfl rfl
  | or o => exact .row (fun x y _ => outZN (x ||| y)) o rfl rfl rfl rfl
  | bic o => exact .row (fun x y _ => outZN (x &&& ~~~y)) o rfl rfl rfl rfl
  | xor o => exact .row (fun x y _ => outZN (x ^^^ y)) o rfl rfl rfl rfl
  | aslm o => exact .rowIf (fun x y _ => shiftOut s.freeOut (· <<< ·) x y) o rfl id rfl rfl rfl
  | lsrm o => exact .rowIf (fun x y _ => shiftOut s.freeOut (· >>> ·) x y) o rfl id rfl rfl rfl
  | asrm o => exact .rowIf (fun x y _ => shiftOut s.freeOut BitVec.sshiftRight x y) o rfl id rfl rfl rfl
  | rorm o => exact .rowIf (fun x y _ => shiftOut s.freeOut BitVec.rotateRight x y) o rfl id rfl rfl rfl
  | max o => exact .rowIf (fun x y _ => maxOut x y) o rfl id rfl rfl rfl
  | min o => exact .rowIf (fun x y _ => minOut x y) o rfl id rfl rfl rfl
  | mul64 o => exact .mulIf mulSigned o rfl id (.inl rfl)
  | mulu64 o => exact .mulIf mulUnsigned o rfl id (.inr rfl)
  | nop => exact .dual (fun x y _ => outZN (x ^^^ y)) nopDual rfl (fun _ h => nomatch h) (fun _ h => nomatch h) nofun
  | mov o => exact .second (fun x y _ => outZN (x &&& y)) o.both o.src rfl rfl rfl rfl rfl
  | asl o => exact .second (fun x y _ => addOut x y false) o.both o.src rfl rfl rfl rfl rfl
  | rlc o => exact .second addOut o.both o.src rfl rfl rfl rfl rfl
  | rol o => exact .second (fun x y _ => addOut x y false) o.both o.src rfl rfl rfl rfl rfl
  | _ => cases h

/-! ### A false condition (30_encoding.md R114, R121) -/

/-- FLAG in its proper form, its condition false (41_single_operand.md R190). -/
theorem flag_skip {o : Single} {s : State} (hf : o.f = false) (hd : o.dst.isReg = false) (hc : s.cond o.cc = false) :
    DoneAs (.flag o) s o.src.isLong (Same s) := by
  refine ⟨((s.issue o.src.isLong).touch1 o.src).retire (s.fallThrough o.src.isLong), ?_, ?_⟩
  · simp [exec, execFlag, hf, hd, hc]
  · exact retire_next ((same_issue s _).trans (same_touch1 _ _)) (by simp) (by simp)

/-- An instruction with a false condition, of each template. -/
theorem falseCondition_done {i : Instr} {s : State} {q : Cond} {long : Bool} (hi : conditionOf i = some (q, long))
    (ha : Available s.cfg i) (hc : s.cond q = false) : DoneAs i s long (Same s) := by
  by_cases ht : usesTemplate i = true
  · cases runsAs ht s with
    | dual fn o run cond _ _ => cases cond _ hi; exact dualOp_skip fn o s hc i run
    | single fn o run cond _ _ => cases cond _ hi; exact singleOp_skip fn o s hc i run
    | mul fn o run name => rcases name with rfl | rfl <;> cases hi <;> exact mulOp_skip fn o s hc _ run
    | absent long run na => exact absurd ha na
  · cases i with
    | flag o => cases hi; exact flag_skip ha.1 ha.2 hc
    | ldRR | ldRO | lr | st | sr | brk | sleep | swi | bcc | blcc | lpcc | jcc | jlcc => cases hi
    | _ => exact absurd rfl ht

/-- Settles O8: an extension condition tests false. -/
theorem falseConditionDoesNothing : Obligations.FalseConditionDoesNothing := by
  intro i s q long hi ha hc
  refine falseCondition_done hi ha ?_
  rcases hc with hc | ⟨k, rfl⟩
  · exact hc
  · exact Cond.ext_false s k

/-! ### Operand values (30_encoding.md R110; 10_state.md R20 to R25) -/

/-- The loop's decrement of an older count keeps the ages. -/
theorem decLag_age {l : List Lag} {i : Nat} {e : Lag} (h : e ∈ decLag l i) : ∃ d ∈ l, e.age = d.age := by
  induction l generalizing i with
  | nil => cases h
  | cons d l ih =>
    cases i with
    | zero =>
      obtain rfl := List.mem_singleton.1 h
      exact ⟨d, List.mem_cons_self, rfl⟩
    | succ i =>
      rw [decLag] at h
      split at h
      · cases h
      · rcases List.mem_cons.1 h with rfl | h
        · exact ⟨e, List.mem_cons_self, rfl⟩
        · obtain ⟨c, hc, ha⟩ := ih h
          exact ⟨c, List.mem_cons_of_mem _ hc, ha⟩

/-- A fetch keeps the ages of the counts that may still be read. -/
theorem loopFetch_age {s : State} {k : Nat} {a : PAddr} {e : Lag} (h : e ∈ (s.loopFetch k a).countHist) :
    ∃ d ∈ s.countHist, e.age = d.age := by
  unfold State.loopFetch at h
  split at h
  · rw [State.dropLag_countHist, State.loopDecrement] at h
    split at h
    · cases h
    · exact decLag_age h
  · exact ⟨e, h, rfl⟩

/-- An instruction later every older value is one older. -/
theorem ageLags_age {n : Nat} {l : List Lag} {e : Lag} (h : e ∈ ageLags n l) : ∃ d ∈ l, e.age = d.age + 1 := by
  induction l with
  | nil => cases h
  | cons d l ih =>
    rw [ageLags] at h
    have tail : e ∈ ageLags n l → ∃ c ∈ d :: l, e.age = c.age + 1 := fun h =>
      (ih h).imp fun c hc => ⟨List.mem_cons_of_mem _ hc.1, hc.2⟩
    split at h
    · rcases List.mem_cons.1 h with rfl | h
      · exact ⟨d, List.mem_cons_self, rfl⟩
      · exact tail h
    · exact tail h

/-- The older counts an instruction may read are one instruction older than before it. -/
theorem issue_age {s : State} {long : Bool} {e : Lag} (h : e ∈ (s.issue long).countHist) :
    ∃ d ∈ s.countHist, e.age = d.age + 1 := by
  have fetched : ∃ d ∈ s.tick.countHist, e.age = d.age := by
    unfold State.issue State.fetched at h
    split at h
    · obtain ⟨d, hd, he⟩ := loopFetch_age h
      obtain ⟨c, hc, hd⟩ := loopFetch_age hd
      exact ⟨c, hc, he.trans hd⟩
    · exact loopFetch_age h
  obtain ⟨d, hd, he⟩ := fetched
  obtain ⟨c, hc, hd⟩ := ageLags_age hd
  exact ⟨c, hc, he.trans hd⟩

/-- r0 to r31 read as they stand. -/
theorem readReg_core (s : State) (u : FreeUse) (r : CoreReg) (h : r.val < 32) : s.readReg u r = s.regs[r.val] := by
  rw [State.readReg, dif_pos h]

theorem readReg_count (s : State) (u : FreeUse) : s.readReg u 60 = s.countRead.setWidth 32 := rfl

/-- The multiplier's registers are views of the product (10_state.md R24). -/
theorem readReg_product (s : State) (u : FreeUse) (h : s.cfg.hasMul = true) :
    s.readReg u 57 = s.mr.extractLsb' 0 32 ∧ s.readReg u 58 = s.mr.extractLsb' 16 32 ∧
      s.readReg u 59 = s.mr.extractLsb' 32 32 := by
  have views : ∀ r : CoreReg, ¬ r.val < 32 → ¬ r.val = 60 → s.readReg u r =
      if r.val = 57 then s.mr.extractLsb' 0 32 else if r.val = 58 then s.mr.extractLsb' 16 32
      else if r.val = 59 then s.mr.extractLsb' 32 32 else s.freeWord u := by
    intro r h32 h60
    rw [State.readReg, dif_neg h32, if_neg h60]
    simp only [h, Bool.true_and, beq_iff_eq]
  exact ⟨views 57 (by decide) (by decide), views 58 (by decide) (by decide), views 59 (by decide) (by decide)⟩

/-- A read of LP_COUNT shows the count or one kept from before a write, not more than two instructions old
(70_reset_and_hazards.md R406). -/
theorem countRead_cases (s : State) : s.countRead = s.lpCount ∨ ∃ e ∈ s.countHist, e.age ≤ 2 ∧ s.countRead = e.old := by
  refine (pickLag_cases _ _ _).imp_right fun ⟨e, he, h⟩ => ?_
  obtain ⟨hm, ha⟩ := List.mem_filter.1 he
  exact ⟨e, hm, of_decide_eq_true ha, h⟩

/-- It is the count as the fetches leave it where no write is among the last two instructions. -/
theorem countRead_settled {s : State} {long : Bool} (h : ∀ e ∈ s.countHist, 2 ≤ e.age) :
    (s.issue long).countRead = (s.issue long).lpCount := by
  rcases countRead_cases (s.issue long) with hc | ⟨e, he, ha, -⟩
  · exact hc
  · obtain ⟨d, hd, hage⟩ := issue_age he
    have := h d hd
    omega

/-- The short immediate keeps its signed value. -/
theorem toInt_shortImm (d : BitVec 9) : (shortImm d).toInt = d.toInt :=
  BitVec.toInt_signExtend_of_le (by decide)

/-- Settles O9: the operand forms are by definition what the statement says, but for the registers. -/
theorem operandValues : Obligations.OperandValues := by
  intro s b c v d long u
  have short := toInt_shortImm d
  refine ⟨fun h => ?_, fun h => ?_, ?_, fun h => ?_, rfl, rfl, rfl, rfl, rfl, rfl, rfl, rfl, rfl, short, short, rfl,
    short, short, rfl, rfl, short, rfl, rfl, short, short⟩
  · rw [readReg_core _ _ _ h]; simp
  · rw [readReg_count, countRead_settled h]
  · exact ⟨_, readReg_count _ _, countRead_cases _⟩
  · have := readReg_product (s.issue long) u (by simpa using h)
    simpa using this

/-! ### Read-only destinations (10_state.md R24, decision D39) -/

theorem isMulReg_of_mulField {cfg : Config} {r : CoreReg} (hm : cfg.hasMul = true) (h : MulField (.reg r)) :
    isMulReg cfg r = true := by
  simp only [MulField, RegField.reg.injEq] at h
  rcases h with rfl | rfl | rfl <;> rw [isMulReg, hm] <;> rfl

/-- A result for one of r57 to r59 is refused. -/
theorem writeDst_readOnly {s : State} {d : RegField} (w : Word) (hm : s.cfg.hasMul = true) (hd : MulField d) :
    s.writeDst d w = .refused .readOnlyCore := by
  cases d with
  | reg r => rw [State.writeDst, State.writeReg, if_pos (isMulReg_of_mulField hm hd)]
  | ind k => rcases hd with h | h | h <;> cases h

theorem complete_readOnly {s : State} {d : RegField} {f : Bool} {o : AluOut} {p : PAddr} (hm : s.cfg.hasMul = true)
    (hd : MulField d) : s.complete d f o p = .refused .readOnlyCore := by
  rw [State.complete, writeDst_readOnly _ hm hd]; rfl

theorem dualOp_readOnly {fn : Word → Word → Bool → AluOut} {o : Dual} {s : State} (hm : s.cfg.hasMul = true)
    (hc : s.cond o.cc = true) (hd : MulField o.dst) : dualOp fn o s = .refused .readOnlyCore := by
  simp only [dualOp, State.issue_cond, hc, if_true]
  exact complete_readOnly (by simpa using hm) hd

theorem singleOp_readOnly {fn : Word → Bool → AluOut} {o : Single} {s : State} (hm : s.cfg.hasMul = true)
    (hc : s.cond o.cc = true) (hd : MulField o.dst) : singleOp fn o s = .refused .readOnlyCore := by
  simp only [singleOp, State.issue_cond, hc, if_true]
  exact complete_readOnly (by simpa using hm) hd

theorem lr_readOnly {o : LrOp} {s : State} (hm : s.cfg.hasMul = true) (hd : MulField o.dst) :
    execLr o s = .refused .readOnlyCore := by
  simp only [execLr]
  rw [writeDst_readOnly _ (by simpa using hm) hd]; rfl

/-- An instruction with a result, of each template. -/
theorem result_readOnly {i : Instr} {s : State} {d : RegField} {q : Cond} (hm : s.cfg.hasMul = true)
    (hi : resultOf i = some (d, q)) (ha : Available s.cfg i) (hc : s.cond q = true) (hd : MulField d) :
    exec i s = .refused .readOnlyCore := by
  by_cases ht : usesTemplate i = true
  · cases runsAs ht s with
    | dual fn o run _ result _ => cases result _ hi; rw [run]; exact dualOp_readOnly hm hc hd
    | single fn o run _ result _ => cases result _ hi; rw [run]; exact singleOp_readOnly hm hc hd
    | mul fn o run name => rcases name with rfl | rfl <;> cases hi
    | absent long run na => exact absurd ha na
  · cases i with
    | lr o => cases hi; exact lr_readOnly hm hd
    | ldRR | ldRO | flag | st | sr | brk | sleep | swi | bcc | blcc | lpcc | jcc | jlcc => cases hi
    | _ => exact absurd rfl ht

/-- A load with a read-only destination or base of a write-back is refused. -/
theorem load_readOnly {s e : State} {d b : RegField} {awb : Bool} {a : Word} {z : Size} {x : Bool} {p : PAddr}
    (hm : s.cfg.hasMul = true) (hv : memValid s.cfg a.toNat (Size.bytes z) .load = true)
    (ha : accessOk s.cfg a z = true) (hd : MulField d ∨ MulField (backTo awb b)) :
    s.load e d (wbReg awb b) a z x p = .refused .readOnlyCore := by
  simp only [State.load, hv, ha, Bool.not_true, Bool.false_eq_true, if_false, writeBack_eq]
  have hmp : (s.perform a z).cfg.hasMul = true := hm
  by_cases hb : MulField (backTo awb b)
  · rw [writeDst_readOnly _ hmp hb]; rfl
  · have hd := hd.resolve_right hb
    cases hw : (s.perform a z).writeDst (backTo awb b) a with
    | next t =>
      have hmt : t.cfg.hasMul = true := by
        obtain ⟨-, rfl⟩ := writeDst_cases hw
        rw [(same_putDst _ _ _).cfg]; exact hm
      have h60 : d ≠ .reg 60 := by rintro rfl; rcases hd with h | h | h <;> cases h
      rw [andThen, State.writeLoaded, if_neg h60, writeDst_readOnly _ hmt hd]; rfl
    | fault f =>
      cases hb' : backTo awb b <;> rw [hb'] at hw <;> simp only [State.writeDst, State.writeReg] at hw
      · split at hw <;> cases hw
      · cases hw
    | refused q =>
      cases hb' : backTo awb b <;> rw [hb'] at hw <;> simp only [State.writeDst, State.writeReg] at hw
      · split at hw <;> cases hw; rfl
      · cases hw

/-- A store with a read-only base of a write-back is refused. -/
theorem storeTo_readOnly {s e : State} {b : RegField} {awb : Bool} {a v : Word} {z : Size} {p : PAddr}
    (hm : s.cfg.hasMul = true) (hv : memValid s.cfg a.toNat (Size.bytes z) .store = true)
    (ha : accessOk s.cfg a z = true) (hb : MulField (backTo awb b)) :
    s.storeTo e (wbReg awb b) a z v p = .refused .readOnlyCore := by
  simp only [State.storeTo, hv, ha, Bool.not_true, Bool.false_eq_true, if_false, writeBack_eq]
  rw [writeDst_readOnly _ (by simpa using hm) hb]; rfl

/-- Settles O14: whatever is written to a register goes through one check. -/
theorem readOnlyDestination : Obligations.ReadOnlyDestination := by
  refine ⟨fun _ _ _ _ => result_readOnly, ?_, ?_, ?_⟩
  · intro o s hm a hv ha hd
    exact load_readOnly (s := (s.issue o.src.isLong).touch2 o.src) (a := a) (by simpa using hm) (by simpa using hv)
      (by simpa using ha) hd
  · intro o s hm a hv ha hd
    exact load_readOnly (s := (s.issue o.base.isLong).touchField o.base) (a := a) (by simpa using hm)
      (by simpa using hv) (by simpa using ha) hd
  · intro o s hm a hv ha hd
    exact storeTo_readOnly (a := a) (by simpa using hm) (by simpa using hv) (by simpa using ha) hd

end Sys2Proof
end

section
/-! Proofs of the family other: the multiplier and the absent options (46_extensions.md; 30_encoding.md R135, R136). -/

namespace Sys2Proof

open Machine

-- One thread, as in the laws.
set_option Elab.async false

/-! ### The products (46_extensions.md R291, R292) -/

theorem toInt_mulSigned (x y : Word) : (mulSigned x y).toInt = x.toInt * y.toInt := by
  have hx : -2 ^ 31 ≤ x.toInt ∧ x.toInt < 2 ^ 31 := ⟨BitVec.le_toInt x, BitVec.toInt_lt⟩
  have hy : -2 ^ 31 ≤ y.toInt ∧ y.toInt < 2 ^ 31 := ⟨BitVec.le_toInt y, BitVec.toInt_lt⟩
  have upper : x.toInt * y.toInt < 2 ^ 63 := by nlinarith
  have lower : -2 ^ 63 ≤ x.toInt * y.toInt := by nlinarith
  rw [mulSigned, BitVec.toInt_ofInt_eq_self (by decide) (by simpa using lower) (by simpa using upper)]

theorem toNat_mulUnsigned (x y : Word) : (mulUnsigned x y).toNat = x.toNat * y.toNat := by
  have hx := x.isLt
  have hy := y.isLt
  have : x.toNat * y.toNat < 2 ^ 64 := by nlinarith
  rw [mulUnsigned, BitVec.toNat_ofNat, Nat.mod_eq_of_lt this]

/-- A multiply leaves its product's upper half and the time it may take. -/
theorem mulOp_done {fn : Word → Word → BitVec 64} {o : MulOp} {s : State} {i : Instr} (hc : s.cond o.cc = true)
    (hi : exec i s = mulOp fn o s) :
    DoneAs i s o.src.isLong fun t => Same { s with mr := t.mr } t ∧ t.mr = fn (operand1 s o.src) (operand2 s o.src) ∧
      t.mulHigh = t.mr.extractLsb' 32 32 ∧ t.mulBusy = if s.cfg.mulFast then 4 else 10 := by
  obtain ⟨t, ht, ⟨same, product⟩, count, passed⟩ := mulOp_next fn o s hc i hi
  refine ⟨t, ht, ⟨same, product, ?_⟩, count, passed⟩
  simp only [hi, mulOp, State.issue_cond, hc, if_true, Host.Outcome.next.injEq] at ht
  subst ht
  simp [mulCycles]

/-! ### Reads of the multiply result (70_reset_and_hazards.md R412) -/

/-- A read of r57, r58 or r59 ends the multiply. -/
theorem touch_mulBusy {s : State} {r : CoreReg} (h : isMulReg s.cfg r = true) : (s.touch r).mulBusy = 0 := by
  rw [State.touch, if_pos h]

/-- A multiply that has ended stays so. -/
theorem touch_mulBusy_zero {s : State} (h : s.mulBusy = 0) (r : CoreReg) : (s.touch r).mulBusy = 0 := by
  rw [State.touch]
  split
  · rfl
  · exact h

theorem touch1_mulBusy {s : State} {src : Src1} {r : CoreReg} (hr : isMulReg s.cfg r = true) (h : r ∈ src.regs) :
    (s.touch1 src).mulBusy = 0 := by
  cases src with
  | reg b => obtain rfl := List.mem_singleton.1 h; exact touch_mulBusy hr
  | limm v => cases h
  | short d => cases h

theorem touch2_mulBusy {s : State} {src : Src2} {r : CoreReg} (hr : isMulReg s.cfg r = true) (h : r ∈ src.regs) :
    (s.touch2 src).mulBusy = 0 := by
  cases src with
  | rr b c =>
    rcases List.mem_cons.1 h with rfl | h
    · exact touch_mulBusy_zero (touch_mulBusy hr) c
    · obtain rfl := List.mem_singleton.1 h; exact touch_mulBusy (by simpa using hr)
  | rl b | rs b | lr _ c | sr _ c => obtain rfl := List.mem_singleton.1 h; exact touch_mulBusy hr
  | ll | ss => cases h

theorem touchField_mulBusy {s : State} {d : RegField} {r : CoreReg} (hr : isMulReg s.cfg r = true) (h : r ∈ d.regs) :
    (s.touchField d).mulBusy = 0 := by
  cases d with
  | reg b => obtain rfl := List.mem_singleton.1 h; exact touch_mulBusy hr
  | ind k => cases h

theorem touchField_mulBusy_zero {s : State} (h : s.mulBusy = 0) (d : RegField) : (s.touchField d).mulBusy = 0 := by
  cases d with
  | reg b => exact touch_mulBusy_zero h b
  | ind k => exact h

/-- Both fields of ST or SR. -/
theorem touchFields_mulBusy {s : State} {b d : RegField} {r : CoreReg} (hr : isMulReg s.cfg r = true)
    (h : r ∈ b.regs ++ d.regs) : ((s.touchField b).touchField d).mulBusy = 0 := by
  rcases List.mem_append.1 h with h | h
  · exact touchField_mulBusy_zero (touchField_mulBusy hr h) d
  · exact touchField_mulBusy (by simpa using hr) h

@[simp] theorem putDst_mulBusy (s : State) (d : RegField) (w : Word) : (putDst s d w).mulBusy = s.mulBusy := by
  cases d <;> simp [putDst]

theorem complete_mulBusy {s t : State} {d : RegField} {f : Bool} {o : AluOut} {p : PAddr}
    (h : s.complete d f o p = .next t) : t.mulBusy = s.mulBusy := by
  obtain ⟨-, rfl⟩ := complete_cases h
  simp

theorem dualOp_mulBusy {fn : Word → Word → Bool → AluOut} {o : Dual} {s t : State} {r : CoreReg}
    (hr : isMulReg s.cfg r = true) (hm : r ∈ o.src.regs) (h : dualOp fn o s = .next t) : t.mulBusy = 0 := by
  have read : ((s.issue o.src.isLong).touch2 o.src).mulBusy = 0 := touch2_mulBusy (by simpa using hr) hm
  unfold dualOp at h
  dsimp only at h
  split at h
  · rw [complete_mulBusy h]; simpa using read
  · cases h; simpa using read

theorem singleOp_mulBusy {fn : Word → Bool → AluOut} {o : Single} {s t : State} {r : CoreReg}
    (hr : isMulReg s.cfg r = true) (hm : r ∈ o.src.regs) (h : singleOp fn o s = .next t) : t.mulBusy = 0 := by
  have read : ((s.issue o.src.isLong).touch1 o.src).mulBusy = 0 := touch1_mulBusy (by simpa using hr) hm
  unfold singleOp at h
  dsimp only at h
  split at h
  · rw [complete_mulBusy h]; simpa using read
  · cases h; simpa using read

theorem flag_mulBusy {o : Single} {s t : State} {r : CoreReg} (hr : isMulReg s.cfg r = true) (hm : r ∈ o.src.regs)
    (h : execFlag o s = .next t) : t.mulBusy = 0 := by
  have read : ((s.issue o.src.isLong).touch1 o.src).mulBusy = 0 := touch1_mulBusy (by simpa using hr) hm
  unfold execFlag at h
  split at h
  · cases h
  · dsimp only at h
    split at h
    · split at h <;> cases h
      · exact read
      · exact read
    · cases h; exact read

theorem lr_mulBusy {o : LrOp} {s t : State} {r : CoreReg} (hr : isMulReg s.cfg r = true) (hm : r ∈ o.base.regs)
    (h : execLr o s = .next t) : t.mulBusy = 0 := by
  have read : ((s.issue o.base.isLong).touchField o.base).mulBusy = 0 := touchField_mulBusy (by simpa using hr) hm
  obtain ⟨u, hu, h⟩ := andThen_eq_next.1 h
  obtain ⟨-, rfl⟩ := writeDst_cases hu
  cases h
  simpa using read

theorem sr_mulBusy {o : SrOp} {s t : State} {r : CoreReg} (hr : isMulReg s.cfg r = true)
    (hm : r ∈ o.base.regs ++ o.data.regs) (h : execSr o s = .next t) : t.mulBusy = 0 := by
  have read : (((s.issue (SrOp.isLong o)).touchField o.base).touchField o.data).mulBusy = 0 :=
    touchFields_mulBusy (by simpa using hr) hm
  obtain ⟨u, hu, h⟩ := andThen_eq_next.1 h
  cases h
  rcases auxWrite_cases hu with ⟨-, rfl⟩ | ⟨-, rfl⟩ | ⟨-, rfl⟩ | ⟨-, -, rfl⟩ | rfl <;> exact read

theorem load_mulBusy {s e t : State} {d b : RegField} {awb : Bool} {a : Word} {z : Size} {x : Bool} {p : PAddr}
    (hs : s.mulBusy = 0) (he : e.mulBusy = 0) (h : s.load e d (wbReg awb b) a z x p = .next t) : t.mulBusy = 0 := by
  rcases load_cases h with rfl | ⟨w, rfl⟩
  · simpa [State.memoryError] using he
  · simpa using hs

theorem storeTo_mulBusy {s e t : State} {b : RegField} {awb : Bool} {a v : Word} {z : Size} {p : PAddr}
    (hs : s.mulBusy = 0) (he : e.mulBusy = 0) (h : s.storeTo e (wbReg awb b) a z v p = .next t) : t.mulBusy = 0 := by
  rcases storeTo_cases h with rfl | rfl
  · simpa [State.memoryError] using he
  · simpa using hs

/-- A branch that completes before a word that is no BRK has had its effect. -/
theorem slotted_effect {n : SlotMode} {effect : State → PAddr → State} {s t : State} (h : slotted n effect s = .next t)
    (hb : s.slotWord (s.fallThrough false) ≠ .brk) : t = effect (s.issue false) (s.fallThrough false) := by
  unfold slotted at h
  split at h
  · cases h
  · dsimp only at h
    split at h
    · cases h
    · exact absurd ‹_› hb
    · cases h
    · cases h
    · cases h; rfl

theorem jcc_mulBusy {b : CoreReg} {f : Bool} {n : SlotMode} {q : Cond} {s t : State} (hr : isMulReg s.cfg b = true)
    (hb : s.slotWord (s.fallThrough false) ≠ .brk) (h : execJcc ⟨.reg b, f, n, q⟩ s = .next t) : t.mulBusy = 0 := by
  have read : ((s.issue false).touch b).mulBusy = 0 := touch_mulBusy (by simpa using hr)
  obtain rfl := slotted_effect (effect := fun t ds => _) h hb
  dsimp only
  rw [State.transfer_mulBusy]
  split <;> simpa using read

theorem jlcc_mulBusy {b : CoreReg} {f : Bool} {n : SlotMode} {q : Cond} {s t : State} (hr : isMulReg s.cfg b = true)
    (hb : s.slotWord (s.fallThrough false) ≠ .brk) (h : execJlcc ⟨.reg b, f, n, q⟩ s = .next t) : t.mulBusy = 0 := by
  have read : ((s.issue false).touch b).mulBusy = 0 := touch_mulBusy (by simpa using hr)
  obtain rfl := slotted_effect (effect := fun t ds => _) h hb
  dsimp only
  rw [State.transfer_mulBusy]
  split <;> simpa using read

/-- An instruction that reads r57, r58 or r59 and completes has waited for the multiply. -/
theorem reads_mulBusy {i : Instr} {s t : State} {r : CoreReg} (hr : isMulReg s.cfg r = true) (ha : Available s.cfg i)
    (hm : r ∈ readsOf i) (hb : isBranch i = true → s.slotWord (s.fallThrough false) ≠ .brk) (h : exec i s = .next t) :
    t.mulBusy = 0 := by
  by_cases ht : usesTemplate i = true
  · cases runsAs ht s with
    | dual fn o run _ _ reads => exact dualOp_mulBusy hr (reads r hm) (run.symm.trans h)
    | single fn o run _ _ reads => exact singleOp_mulBusy hr (reads r hm) (run.symm.trans h)
    | mul fn o run name => rcases name with rfl | rfl <;> cases hm
    | absent long run na => exact absurd ha na
  · cases i with
    | flag o => exact flag_mulBusy hr hm h
    | lr o => exact lr_mulBusy hr hm h
    | sr o => exact sr_mulBusy hr hm h
    | ldRR o =>
      exact load_mulBusy (touch2_mulBusy (by simpa using hr) hm) (touch2_mulBusy (by simpa using hr) hm) h
    | ldRO o =>
      exact load_mulBusy (touchField_mulBusy (by simpa using hr) hm) (touchField_mulBusy (by simpa using hr) hm) h
    | st o =>
      exact storeTo_mulBusy (touchFields_mulBusy (by simpa using hr) hm) (touchFields_mulBusy (by simpa using hr) hm) h
    | jcc o =>
      obtain ⟨src, f, n, q⟩ := o
      cases src with
      | reg b => obtain rfl := List.mem_singleton.1 hm; exact jcc_mulBusy hr (hb rfl) h
      | limm w => cases hm
    | jlcc o =>
      obtain ⟨src, f, n, q⟩ := o
      cases src with
      | reg b => obtain rfl := List.mem_singleton.1 hm; exact jlcc_mulBusy hr (hb rfl) h
      | limm w => cases hm
    | brk | sleep | swi | bcc | blcc | lpcc => cases hm
    | _ => exact absurd rfl ht

/-- Settles O21. -/
theorem multiplyResult : Obligations.MultiplyResult := by
  refine ⟨fun o s hm hc => ⟨?_, ?_⟩, fun s long => ⟨by simp, by simp⟩, fun i s t r hm ha hr hf hb h =>
    reads_mulBusy (isMulReg_of_mulField hm hf) ha hr hb h⟩
  · obtain ⟨t, ht, ⟨same, product, high⟩, done⟩ :=
      mulOp_done (i := .mul64 o) (fn := mulSigned) hc (by rw [exec, execMul64, if_pos hm])
    exact ⟨t, ht, ⟨same, by rw [product]; exact toInt_mulSigned _ _, high⟩, done⟩
  · obtain ⟨t, ht, ⟨same, product, high⟩, done⟩ :=
      mulOp_done (i := .mulu64 o) (fn := mulUnsigned) hc (by rw [exec, execMulu64, if_pos hm])
    exact ⟨t, ht, ⟨same, by rw [product]; exact toNat_mulUnsigned _ _, high⟩, done⟩

/-! ### The instruction error (60_exceptions.md R327) -/

theorem issue_resumeAddr (s : State) (long : Bool) (p : PAddr) : (s.issue long).resumeAddr p = s.resumeAddr p := by
  simp only [State.resumeAddr, State.issue_slot]

/-- The instruction error as an entry after the fetch of the word. -/
theorem instructionError_eq (s : State) (long : Bool) :
    s.instructionError long = (s.issue false).enter 2 .exc
      (s.resumeAddr (if long && (s.issue false).freeBit .savedPc then s.fallThrough true else s.fallThrough false)) := by
  rw [← issue_resumeAddr s false]; rfl

/-- The instruction error enters vector 2; where the word asks for a long immediate one of two addresses is saved. -/
theorem instructionError_entered (s : State) (long : Bool) :
    ∃ ret, Entered s 2 .exc ret (s.issue false).lpCount (s.instructionError long) ∧
      (ret = s.resumeAddr (s.fallThrough false) ∨ long = true ∧ ret = s.resumeAddr (s.fallThrough true)) := by
  rw [instructionError_eq]
  refine ⟨_, (enter_entered (s.issue false) 2 .exc _).of_same (same_issue s false), ?_⟩
  split
  · rename_i h
    exact .inr ⟨(Bool.and_eq_true_iff.1 h).1, rfl⟩
  · exact .inl rfl

/-- An unassigned code completes with an open result and open flags (30_encoding.md R136). -/
theorem unassigned_completed {o : Single} {s : State} (hc : s.cond o.cc = true) (hd : Writable s o.dst) :
    ∃ w z n c v, Completed (unassignedOp o s) s o.src.isLong o.dst w (withFlags s o.f z n c v) :=
  ⟨_, _, _, _, _, singleOp_next (fun _ _ => s.freeOut) o s hc hd⟩

/-- Settles O22. -/
theorem absentOption : Obligations.AbsentOption := by
  refine ⟨?_, ?_, fun w x => decode_unassigned x⟩
  · intro o m s traps
    have trap : ∀ (i : Instr) (long : Bool), exec i s = .next (s.instructionError long) → traps i long := fun i long hi => by
      obtain ⟨ret, entered, saved⟩ := instructionError_entered s long
      exact ⟨_, ret, hi, entered, saved⟩
    refine ⟨fun hb => ⟨?_, ?_, ?_, ?_⟩, fun hm => ⟨?_, ?_⟩, fun hm => ⟨?_, ?_⟩⟩ <;> apply trap
    · simp [exec, execAslm, hb]
    · simp [exec, execLsrm, hb]
    · simp [exec, execAsrm, hb]
    · simp [exec, execRorm, hb]
    · simp [exec, execMul64, hm]
    · simp [exec, execMulu64, hm]
    · simp [exec, execMax, hm]
    · simp [exec, execMin, hm]
  · intro o s hc hd done
    have open_done := unassigned_completed hc hd
    refine ⟨fun hs => ?_, fun hn => ?_, fun hf => ?_⟩
    · rw [show exec (.swap o) s = unassignedOp o s by simp [exec, execSwap, hs]]; exact open_done
    · rw [show exec (.norm o) s = unassignedOp o s by simp [exec, execNorm, hn]]; exact open_done
    · rw [show s.runOne = unassignedOp o s by rw [State.runOne, hf]; rfl]; exact open_done

/-- Settles O5: the fetch decides on the opcode before all else. -/
theorem invalidOpcode : Obligations.InvalidOpcode := by
  refine ⟨decode_invalid_iff, fun s => opcodeValid_iff s.cfg, fun s hv hs ho => ?_⟩
  have fetch : s.fetchInstr = .absent (needsLimm (s.codeWord s.pc)) := by
    simp [State.fetchInstr, hv, hs, ho]
  obtain ⟨ret, entered, saved⟩ := instructionError_entered s (needsLimm (s.codeWord s.pc))
  exact ⟨_, ret, by rw [State.runOne, fetch], entered, saved⟩

end Sys2Proof
end

section
/-! Proofs of the family other: memory, LD and ST (20_memory.md, 44_load_store.md). -/

namespace Sys2Proof

open Machine

-- One thread, as in the laws.
set_option Elab.async false

/-! ### The bytes of an access (20_memory.md R71) -/

theorem joinBytes_two (a b : Byte) : joinBytes [a, b] = (b ++ a).setWidth 32 := by
  unfold joinBytes joinBytes joinBytes; ext i hi; simp; grind

theorem joinBytes_four (a b c d : Byte) : joinBytes [a, b, c, d] = d ++ c ++ b ++ a := by
  unfold joinBytes joinBytes joinBytes joinBytes joinBytes; ext i hi; simp; grind

theorem memRead_byte (e : Endian) (m : Memory) (a : Word) : memRead e m a .byte = (m.byte a.toNat).setWidth 32 := by
  cases e <;> simp [memRead, Size.bytes, Memory.readList, byteOrder, joinBytes]

/-- A read is made of the bytes at rising addresses. -/
theorem readList_long (m : Memory) (a : Word) :
    m.readList a 4 = [m.byte a.toNat, m.byte (a + 1).toNat, m.byte (a + 2).toNat, m.byte (a + 3).toNat] := by
  simp only [Memory.readList]
  rw [BitVec.add_assoc a 1 1, BitVec.add_assoc a _ 1]
  rfl

/-- The low bytes of a value, as a number. -/
theorem lowBytes_eq (v : Word) (n : Nat) : (v.setWidth n).setWidth 32 = BitVec.ofNat 32 (v.toNat % 2 ^ n) := by
  apply BitVec.eq_of_toNat_eq; simp

/-- An access reads the low bytes of what the same access wrote. -/
theorem memRead_memWrite_lowBytes {m : Memory} (hm : m.wf) (e : Endian) (a : Word) (z : Size) (v : Word) :
    memRead e (memWrite e m a z v) a z = BitVec.ofNat 32 (v.toNat % 2 ^ (8 * Size.bytes z)) := by
  rw [memRead_memWrite hm, lowBytes_eq]

theorem memRead_long_little (m : Memory) (a : Word) : memRead .little m a .long =
    m.byte (a + 3).toNat ++ m.byte (a + 2).toNat ++ m.byte (a + 1).toNat ++ m.byte a.toNat := by
  rw [memRead, Size.bytes, readList_long]; exact joinBytes_four _ _ _ _

theorem memRead_long_big (m : Memory) (a : Word) : memRead .big m a .long =
    m.byte a.toNat ++ m.byte (a + 1).toNat ++ m.byte (a + 2).toNat ++ m.byte (a + 3).toNat := by
  rw [memRead, Size.bytes, readList_long]; exact joinBytes_four _ _ _ _

/-- A long word reads back whole. -/
theorem memRead_memWrite_long {m : Memory} (hm : m.wf) (e : Endian) (a v : Word) :
    memRead e (memWrite e m a .long v) a .long = v := by
  rw [memRead_memWrite hm]; simp [Size.bytes]

theorem append_four_low (a b c d : Byte) : (a ++ b ++ c ++ d).extractLsb' 0 8 = d := by
  ext i hi; simp; grind

theorem append_four_high (a b c d : Byte) : (a ++ b ++ c ++ d).extractLsb' 24 8 = a := by
  ext i hi; simp; grind

/-- The byte at the address of a long word is its lowest in a little-endian memory. -/
theorem byte_memWrite_little {m : Memory} (hm : m.wf) (a v : Word) :
    (memWrite .little m a .long v).byte a.toNat = v.extractLsb' 0 8 := by
  have whole := memRead_memWrite_long hm .little a v
  rw [memRead_long_little] at whole
  exact (append_four_low _ _ _ _).symm.trans (congrArg (BitVec.extractLsb' 0 8) whole)

/-- And its highest in a big-endian one. -/
theorem byte_memWrite_big {m : Memory} (hm : m.wf) (a v : Word) :
    (memWrite .big m a .long v).byte a.toNat = v.extractLsb' 24 8 := by
  have whole := memRead_memWrite_long hm .big a v
  rw [memRead_long_big] at whole
  exact (append_four_high _ _ _ _).symm.trans (congrArg (BitVec.extractLsb' 24 8) whole)

/-- Settles O23. -/
theorem byteOrder : Obligations.ByteOrder := by
  intro m a v e z
  refine ⟨memRead_byte e m a, joinBytes_two _ _, joinBytes_two _ _, memRead_long_little m a, memRead_long_big m a,
    fun hm => memRead_memWrite_lowBytes hm e a z v, fun hm => ⟨?_, ?_⟩⟩
  · rw [memRead_byte, byte_memWrite_little hm]; rfl
  · rw [memRead_byte, byte_memWrite_big hm]; rfl

/-- Settles O24: sign extension keeps the signed number, zero extension the unsigned one. -/
theorem loadExtension : Obligations.LoadExtension := by
  intro raw x
  have zero : ∀ {k : Nat} (v : BitVec k), v.setWidth 32 = BitVec.ofNat 32 v.toNat := fun v => (BitVec.ofNat_toNat 32 v).symm
  exact ⟨rfl, zero (raw.setWidth 16), rfl, zero (raw.setWidth 8), rfl⟩

/-! ### LD (44_load_store.md R262) -/

/-- A load after the reads of its operands, as the statements say it. -/
theorem loads_of_load {i : Instr} {s u e : State} {long : Bool} {d b : RegField} {awb : Bool} {a : Word} {z : Size}
    {x : Bool} (hi : exec i s = u.load e d (wbReg awb b) a z x (s.fallThrough long)) (hu : Same s u)
    (hc : u.lpCount = (s.issue long).lpCount) (hs : u.slot = s.slot) (hm : u.mem = s.mem) (hb : u.buffer = s.buffer)
    (hv : memValid s.cfg a.toNat (Size.bytes z) .load = true) (ha : accessOk s.cfg a z = true)
    (hd : Writable s d) (hw : Writable s (backTo awb b)) :
    Loads i s long d (backTo awb b) a (extendLoad z x (memRead s.cfg.endian s.mem a z)) z := by
  obtain ⟨t, ht, same, head, buffer, done⟩ := load_next (e := e) (x := x) hu hc hs hm hv ha hd hw
  exact ⟨t, hi.trans ht, same, head, by rw [buffer, State.perform, hb], done⟩

/-- Settles O25. -/
theorem loadResult : Obligations.LoadResult := by
  refine ⟨?_, ?_⟩
  · intro o s a wb hv ha hd hw
    exact loads_of_load (i := .ldRR o) rfl ((same_issue s _).trans (same_touch2 _ _)) (by simp) (by simp) (by simp)
      (by simp) hv ha hd hw
  · intro o s a wb hv ha hd hw
    exact loads_of_load (i := .ldRO o) rfl ((same_issue s _).trans (same_touchField _ _)) (by simp) (by simp) (by simp)
      (by simp) hv ha hd hw

/-! ### ST (44_load_store.md R269) -/

/-- The reads of ST's two fields. -/
theorem same_touchFields (s : State) (b d : RegField) : Same s ((s.touchField b).touchField d) :=
  (same_touchField s b).trans (same_touchField _ d)

/-- Settles O26. -/
theorem storeResult : Obligations.StoreResult := by
  intro o s long a v wb hwf hv ha hw
  obtain ⟨t, ht, same, mem, old, buffer, count, passed⟩ :=
    storeTo_next (long := long) (e := (s.tick.touchField o.base).touchField o.data) (v := v)
      ((same_issue s long).trans (same_touchFields _ o.base o.data)) (by simp) (by simp) (by simp) hv ha hw
  refine ⟨rfl, t, ht, same, old, ?_, ?_, fun x hx => ?_, count, passed⟩
  · rw [buffer]; simp [State.perform]
  · rw [mem]; exact memRead_memWrite_lowBytes hwf _ a o.size v
  · rw [mem]; exact byte_memWrite_ne hx

/-! ### Alignment (20_memory.md R73, R74) -/

theorem load_misaligned {s e : State} {d : RegField} {b : Option CoreReg} {a : Word} {z : Size} {x : Bool} {p : PAddr}
    (hv : memValid s.cfg a.toNat (Size.bytes z) .load = true) (ha : accessOk s.cfg a z = false) :
    s.load e d b a z x p = .fault .misaligned := by
  simp [State.load, hv, ha]

theorem storeTo_misaligned {s e : State} {b : Option CoreReg} {a v : Word} {z : Size} {p : PAddr}
    (hv : memValid s.cfg a.toNat (Size.bytes z) .store = true) (ha : accessOk s.cfg a z = false) :
    s.storeTo e b a z v p = .fault .misaligned := by
  simp [State.storeTo, hv, ha]

/-- Settles O27. -/
theorem alignment : Obligations.Alignment := by
  have refused : ∀ {cfg : Config} {a : Word} {z : Size}, aligned a z = false →
      misalignedOk cfg a.toNat (Size.bytes z) = false → accessOk cfg a z = false := fun h k => by
    rw [accessOk, h, k]; rfl
  have ok : ∀ (cfg : Config) (a : Word) (z : Size), a.toNat % Size.bytes z = 0 → accessOk cfg a z = true := fun cfg a z h => by
    rw [accessOk, aligned, h]; rfl
  refine ⟨fun cfg a => ⟨ok cfg a .byte (Nat.mod_one _), ok cfg a .word, ok cfg a .long⟩, ?_, ?_, ?_⟩
  · intro o s a hv ha hm
    exact load_misaligned (s := (s.issue o.src.isLong).touch2 o.src) (a := a) (by simpa using hv)
      (by simpa using refused ha hm)
  · intro o s a hv ha hm
    exact load_misaligned (s := (s.issue o.base.isLong).touchField o.base) (a := a) (by simpa using hv)
      (by simpa using refused ha hm)
  · intro o s a hv ha hm
    exact storeTo_misaligned (a := a) (by simpa using hv) (by simpa using refused ha hm)

/-! ### The memory error (60_exceptions.md R326) -/

theorem same_tick (s : State) : Same s s.tick := by constructor <;> simp

/-- Whether the base of a faulting access is written back is open. -/
theorem spoilBase_eq (s : State) (awb : Bool) (b : RegField) (a : Word) :
    s.spoilBase (wbReg awb b) a = if s.freeBit .writeBack then putDst s (backTo awb b) a else s := by
  cases b <;> cases awb <;> simp [State.spoilBase, wbReg, backTo, putDst]

/-- The destination of a faulting load is open. -/
theorem spoilDst_eq (s : State) (d : RegField) : s.spoilDst d = putDst s d (s.freeWord .result) := by
  cases d <;> rfl

/-- The base of a faulting access, as the statements say it. -/
theorem spoilBase_same {s e : State} (he : Same s e) (awb : Bool) (b : RegField) (a : Word) :
    Same { s with regs := if e.freeBit .writeBack then regsWith s (backTo awb b) a else s.regs }
      (e.spoilBase (wbReg awb b) a) := by
  rw [spoilBase_eq]
  split
  · exact he.putDst _ a
  · exact he

theorem spoilBase_count {s e : State} (hc : e.lpCount = s.lpCount) (awb : Bool) (b : RegField) (a : Word) :
    (e.spoilBase (wbReg awb b) a).lpCount =
      if backTo awb b = .reg 60 ∧ e.freeBit .writeBack = true then a.setWidth 24 else s.lpCount := by
  rw [spoilBase_eq]
  split
  · rename_i h
    simp [putDst_lpCount, h, hc]
  · rename_i h
    simp [h, hc]

/-- The memory error, seen from the state its access leaves. -/
theorem memoryError_entered {e u : State} (h : Same e u) :
    ∃ ret, Entered e 1 .exc ret u.memoryError.lpCount u.memoryError := by
  refine ⟨_, (Entered.of_same h (enter_entered u 1 .exc _))⟩

theorem memoryError_lpCount (s : State) : s.memoryError.lpCount = s.lpCount := (enter_entered s 1 .exc _).count

/-- A load from invalid memory. -/
theorem loadFaults_of_load {i : Instr} {s u e : State} {long : Bool} {d b : RegField} {awb : Bool} {a : Word} {z : Size}
    {x : Bool} (hi : exec i s = u.load e d (wbReg awb b) a z x (s.fallThrough long)) (hcfg : u.cfg = s.cfg)
    (he : Same s e) (hc : e.lpCount = s.lpCount) (hv : memValid s.cfg a.toNat (Size.bytes z) .load = false) :
    LoadFaults i s d (backTo awb b) a := by
  have base := spoilBase_same he awb b a
  have fault : exec i s = .next ((e.spoilBase (wbReg awb b) a).spoilDst d).memoryError := by
    rw [hi, State.load, hcfg, hv]; rfl
  rw [spoilDst_eq] at fault
  generalize hw : (e.spoilBase (wbReg awb b) a).freeWord .result = w at fault
  obtain ⟨ret, entered⟩ := memoryError_entered (base.putDst d w)
  refine ⟨_, ret, e.freeBit .writeBack, w, fault, entered, fun h60 => ?_⟩
  rw [memoryError_lpCount, putDst_lpCount, if_neg h60]
  exact spoilBase_count hc awb b a

/-- A store to invalid memory, after the reads of its operands: the store and the open base. -/
theorem storeFault_entered {s e : State} (he : Same s e) (hc : e.lpCount = s.lpCount) (hm : e.mem = s.mem)
    (awb : Bool) (b : RegField) (a data : Word) (z : Size) :
    let t := ((e.spoilBase (wbReg awb b) a).store a z data).memoryError
    ∃ ret, Entered { s with
        mem := t.mem, buffer := t.buffer, stored := t.stored, oldCode := t.oldCode
        regs := if e.freeBit .writeBack then regsWith s (backTo awb b) a else s.regs } 1 .exc ret t.lpCount t ∧
      t.mem = memWrite s.cfg.endian s.mem a z data ∧
      t.buffer = ⟨a, z, memRead s.cfg.endian s.mem a z, e.draws⟩ ::
        e.buffer.filter (fun d => !overlap d.addr d.size a z) ∧
      t.oldCode = s.oldCode.map (OldCode.redo s.cfg.endian fun m => memWrite s.cfg.endian m a z data) ∧
      t.lpCount = if backTo awb b = .reg 60 ∧ e.freeBit .writeBack = true then a.setWidth 24 else s.lpCount := by
  intro t
  have base := spoilBase_same he awb b a
  have hcfg : (e.spoilBase (wbReg awb b) a).cfg = s.cfg := base.cfg
  obtain ⟨ret, entered⟩ := memoryError_entered (base.store a z data)
  have count := spoilBase_count hc awb b a
  refine ⟨ret, ?_, ?_, ?_, ?_, ?_⟩
  · simpa [t, State.memoryError] using entered
  · simp [t, State.memoryError, he.cfg, hm]
  · simp [t, State.memoryError, he.cfg, hm, State.perform]
  · simp [t, State.memoryError, he.cfg, he.stored.2]
  · exact (memoryError_lpCount _).trans count

/-- The fetch of a word from invalid memory. -/
theorem fetchFault_entered {s : State} (h : s.fetchInstr = .badWord ∨ s.fetchInstr = .badLimm) :
    ∃ t ret, s.runOne = .next t ∧ Entered s 1 .exc ret s.lpCount t := by
  have run : s.runOne = .next s.tick.memoryError := by
    rcases h with h | h <;> rw [State.runOne, h]
  exact ⟨_, _, run, (enter_entered s.tick 1 .exc _).of_same (same_tick s)⟩

/-- Settles O28. -/
theorem memoryErrorEntry : Obligations.MemoryErrorEntry := by
  refine ⟨?_, ?_, ?_, ?_, ?_⟩
  · intro o s a hv
    exact loadFaults_of_load (i := .ldRR o) rfl (by simp) ((same_tick s).trans (same_touch2 _ _)) (by simp) hv
  · intro o s a hv
    exact loadFaults_of_load (i := .ldRO o) rfl (by simp) ((same_tick s).trans (same_touchField _ _)) (by simp) hv
  · intro o s a wb hv
    have he : Same s ((s.tick.touchField o.base).touchField o.data) := (same_tick s).trans (same_touchFields _ _ _)
    obtain ⟨ret, entered, mem, buffer, old, count⟩ := storeFault_entered he (by simp) (by simp) o.awb o.base a
      (((s.tick.touchField o.base).touchField o.data).freeWord .stored) o.size
    refine ⟨_, ret, ((s.tick.touchField o.base).touchField o.data).freeBit .writeBack, ?_, entered, ?_, fun x hx => ?_,
      ⟨_, old⟩, count⟩
    · have hv' : memValid ((((s.issue (StoreOp.isLong o)).touchField o.base).touchField o.data).cfg) a.toNat
          (Size.bytes o.size) .store = false := by simpa using hv
      rw [exec, execSt, State.storeTo, hv']; rfl
    · rw [buffer]; simp
    · rw [mem]; exact byte_memWrite_ne hx
  · intro s hv
    exact fetchFault_entered (.inl (by simp [State.fetchInstr, hv]))
  · intro s hv hs ho hl hf
    exact fetchFault_entered (.inr (by simp [State.fetchInstr, hv, hs, ho, hl, hf]))

end Sys2Proof
end

section
/-! Proofs of the family other: auxiliary registers, FLAG, BRK, SLEEP, SWI (45_aux_access.md, 41_single_operand.md R190,
43_control.md; 10_state.md R41, R47, R48). -/

namespace Sys2Proof

open Machine

-- One thread, as in the laws.
set_option Elab.async false

/-! ### Reads of an auxiliary register (45_aux_access.md R285) -/

/-- The addresses from 6 on are none of the basecase registers. -/
theorem aux_ne_of_le {a : Word} (h : 6 ≤ a.toNat) : a ≠ 0 ∧ a ≠ 1 ∧ a ≠ 2 ∧ a ≠ 3 ∧ a ≠ 4 ∧ a ≠ 5 := by
  refine ⟨?_, ?_, ?_, ?_, ?_, ?_⟩ <;> rintro rfl <;> exact absurd h (by decide)

/-- What each address reads as, MULHI's value being open. -/
theorem auxRead_values (s : State) (a status sem : Word) :
    (a = 0 → s.auxRead a status sem = status) ∧ (a = 1 → s.auxRead a status sem = sem) ∧
    (a = 2 → s.auxRead a status sem = s.lpStart.setWidth 32) ∧ (a = 3 → s.auxRead a status sem = s.lpEnd.setWidth 32) ∧
    (a = 4 → s.auxRead a status sem = identityWord s.cfg) ∧
    (a = 5 → s.auxRead a status sem = s.debugWord s.loadPending) ∧
    (0x60 ≤ a.toNat → a.toNat ≤ 0x7F → s.auxRead a status sem = (bcrAt s.cfg a.toNat).getD (identityWord s.cfg)) ∧
    (6 ≤ a.toNat → ¬(0x60 ≤ a.toNat ∧ a.toNat ≤ 0x7F) → (a ≠ 0x12 ∨ s.cfg.hasMul = false) →
      s.auxRead a status sem = identityWord s.cfg) := by
  have other : 6 ≤ a.toNat → ¬(a = 0x12 ∧ s.cfg.hasMul) → s.auxRead a status sem = s.otherAux a := fun h hm => by
    obtain ⟨h0, h1, h2, h3, h4, h5⟩ := aux_ne_of_le h
    rw [State.auxRead, if_neg h0, if_neg h1, if_neg h2, if_neg h3, if_neg h4, if_neg h5, if_neg hm]
  refine ⟨?_, ?_, ?_, ?_, ?_, ?_, fun hl hu => ?_, fun h hn hm => ?_⟩
  · rintro rfl; rfl
  · rintro rfl; rfl
  · rintro rfl; rfl
  · rintro rfl; rfl
  · rintro rfl; rfl
  · rintro rfl; rfl
  · rw [other (by omega) (by rintro ⟨rfl, -⟩; exact absurd hl (by decide)), State.otherAux, if_pos ⟨hl, hu⟩]
  · rw [other h (by rintro ⟨rfl, h⟩; simp_all), State.otherAux, if_neg hn]

/-- A read of DEBUG that finds no load outstanding ends the note of them. -/
theorem auxSeen_eq (s : State) (a : Word) :
    s.auxSeen a = { s with loads := if a = 5 ∧ s.loadPending = false then [] else s.loads } := by
  unfold State.auxSeen
  split <;> rfl

/-- The loads left after a register has been waited for. -/
theorem mem_touchField_loads {s : State} {b d : RegField} (h : d ∈ (s.touchField b).loads) :
    d ∈ s.loads ∧ ∀ r, d = .reg r → d ≠ b := by
  cases b with
  | ind k => exact ⟨h, fun r hr e => by rw [hr] at e; cases e⟩
  | reg r =>
    have : d ∈ (s.arrive r).loads := by
      change d ∈ (s.touch r).loads at h
      unfold State.touch at h
      split at h <;> exact h
    obtain ⟨hm, hne⟩ := List.mem_filter.1 this
    exact ⟨hm, fun _ _ => by simpa using hne⟩

theorem mem_awaitDst_loads {s : State} {d' d : RegField} (h : d ∈ (s.awaitDst d').loads) :
    d ∈ s.loads ∧ ∀ r, d = .reg r → d ≠ d' := by
  cases d' with
  | ind k => exact ⟨h, fun r hr e => by rw [hr] at e; cases e⟩
  | reg r =>
    obtain ⟨hm, hne⟩ := List.mem_filter.1 h
    exact ⟨hm, fun _ _ => by simpa using hne⟩

/-- Once every outstanding load has been waited for, DEBUG.LD is 0. -/
theorem loadPending_waited {s : State} {b d : RegField} (h : ∀ e ∈ s.loads, (∃ r, e = .reg r) ∧ (e = d ∨ e = b)) :
    ((s.touchField b).awaitDst d).loadPending = false := by
  have none : ((s.touchField b).awaitDst d).loads = [] := by
    refine List.eq_nil_iff_forall_not_mem.2 fun e he => ?_
    obtain ⟨he, hd⟩ := mem_awaitDst_loads he
    obtain ⟨he, hb⟩ := mem_touchField_loads he
    obtain ⟨⟨r, hr⟩, hor⟩ := h e he
    exact hor.elim (hd r hr) (hb r hr)
  rw [State.loadPending, none]; rfl

theorem debugWord_congr {s t : State} (h : Same s t) (ld : Bool) : t.debugWord ld = s.debugWord ld := by
  simp only [State.debugWord, h.cfg, h.halt, h.dbg]

/-- Settles O29. -/
theorem lrResult : Obligations.LrResult := by
  intro o s hd long a
  let t := s.issue long
  let u := (t.touchField o.base).awaitDst o.dst
  let w := u.auxRead a (t.statusWord (s.fallThrough long)) t.semArc
  have hu : Same s u := (same_issue s long).trans ((same_touchField t _).trans (same_awaitDst _ _))
  have hv : Same { s with loads := if a = 5 ∧ u.loadPending = false then [] else s.loads } (u.auxSeen a) := by
    have hl := hu.loads
    rw [auxSeen_eq]
    refine ⟨hu.cfg, hu.regs, hu.mr, hu.loops, hu.flags, hu.enables, hu.halt, hu.dbg, fun d h => ?_, hu.semaphores, hu.bytes,
      hu.buffer, hu.stored, hu.outside⟩
    dsimp only at h ⊢
    split
    · rwa [if_pos ‹_›] at h
    · rw [if_neg ‹_›] at h; exact hl d h
  have run : exec (.lr o) s = .next ((putDst (u.auxSeen a) o.dst w).retire (s.fallThrough long)) := by
    have hw : (u.auxSeen a).writeDst o.dst w = .next (putDst (u.auxSeen a) o.dst w) :=
      writeDst_eq _ _ _ (hd.congr hv.cfg)
    change andThen ((u.auxSeen a).writeDst o.dst w) _ = _
    rw [hw]; rfl
  obtain ⟨r0, r1, r2, r3, r4, r5, rb, ro⟩ := auxRead_values u a (t.statusWord (s.fallThrough long)) t.semArc
  refine ⟨w, u.loadPending, ⟨_, run, (hv.putDst o.dst w).retire _, ?_, ?_, ?_⟩, fun h => loadPending_waited ?_, fun h => ?_,
    fun h => ?_, fun h => ?_, fun h => ?_, fun h => ?_, fun h => ?_, fun hl hh => ?_, fun h hn hm => ?_⟩
  · rw [State.retire_lpCount, putDst_lpCount]; simp [u, t]
  · simp [State.resumeAddr, u, t]
  · simp
  · simpa [t] using h
  · exact (r0 h).trans (statusWord_congr (same_issue s long) _)
  · exact (r1 h).trans (same_issue s long).semaphores.1
  · rw [← hu.loops.1]; exact r2 h
  · rw [← hu.loops.2]; exact r3 h
  · rw [← hu.cfg]; exact r4 h
  · rw [← debugWord_congr hu]; exact r5 h
  · rw [← hu.cfg]; exact rb hl hh
  · rw [← hu.cfg] at hm ⊢; exact ro h hn hm

/-! ### Writes of an auxiliary register (45_aux_access.md R286) -/

/-- The implemented semaphore bits. -/
theorem semMask_getLsbD (cfg : Config) {k : Nat} (hk : k < 32) : (semMask cfg).getLsbD k = decide (k < cfg.nSem) := by
  rw [semMask, BitVec.getLsbD_ofNat, Nat.testBit_two_pow_sub_one]
  simp [hk]

/-- A semaphore write, bit by bit. -/
theorem semClaim_getLsbD (cfg : Config) (other v : Word) {k : Nat} (hk : k < 32) :
    (semClaim (semMask cfg) other v).getLsbD k = (decide (k < cfg.nSem) && v.getLsbD k && !other.getLsbD k) := by
  rw [semClaim, BitVec.getLsbD_and, BitVec.getLsbD_and, BitVec.getLsbD_not, semMask_getLsbD cfg hk]
  simp only [hk, decide_true, Bool.true_and]
  rw [Bool.and_comm, Bool.and_assoc]

/-- The halves of MR after a write of MULHI. -/
theorem writeMulHi_halves (s : State) (v : Word) :
    (s.writeMulHi v).mr.extractLsb' 0 32 = s.mr.extractLsb' 0 32 ∧
      ((s.writeMulHi v).mr.extractLsb' 32 32 = v ∨
        0 < s.mulBusy ∧ (s.writeMulHi v).mr.extractLsb' 32 32 = s.mulHigh) := by
  have low : ∀ a b : Word, (a ++ b).extractLsb' 0 32 = b := fun a b => by ext i hi; simp; grind
  have high : ∀ a b : Word, (a ++ b).extractLsb' 32 32 = a := fun a b => by ext i hi; simp; grind
  rw [State.writeMulHi]
  refine ⟨low _ _, ?_⟩
  dsimp only
  rw [high, State.mulHiAfter]
  split
  · exact .inl rfl
  · split
    · exact .inr ⟨by omega, rfl⟩
    · exact .inl rfl

/-- An SR whose auxiliary write answers `w`. -/
theorem sr_done {o : SrOp} {s w : State} {P : State → Prop}
    (hw : (((s.issue (SrOp.isLong o)).touchField o.base).touchField o.data).auxWrite
      (fieldOperand s (SrOp.isLong o) .operand1 o.base o.limm o.off)
      (fieldOperand s (SrOp.isLong o) .operand2 o.data o.limm o.off) = .next w)
    (hc : w.lpCount = (s.issue (SrOp.isLong o)).lpCount) (hs : w.slot = s.slot)
    (hP : P (w.retire (s.fallThrough (SrOp.isLong o)))) : DoneAs (.sr o) s (SrOp.isLong o) P := by
  refine ⟨w.retire (s.fallThrough (SrOp.isLong o)), ?_, hP, by simpa using hc, ?_, by simp⟩
  · change andThen (State.auxWrite _ _ _) _ = _
    unfold fieldOperand at hw
    rw [hw]; rfl
  · simp [State.resumeAddr, hs]

/-- An SR to a read-only address. -/
theorem auxWrite_readOnly (s : State) {a : Word} (v : Word)
    (h : a = 0 ∨ a = 4 ∨ a = 5 ∨ (0x60 ≤ a.toNat ∧ a.toNat ≤ 0x7F)) : s.auxWrite a v = .refused .readOnlyAux := by
  rcases h with rfl | rfl | rfl | h
  · rfl
  · rfl
  · rfl
  · obtain ⟨h0, h1, h2, h3, h4, h5⟩ := aux_ne_of_le (show 6 ≤ a.toNat by omega)
    rw [State.auxWrite, if_neg h0, if_neg h1, if_neg h2, if_neg h3, if_neg (not_or.2 ⟨h4, h5⟩), if_pos h]

/-- An SR to an address where there is no register. -/
theorem auxWrite_nothing (s : State) {a : Word} (v : Word) (h : 6 ≤ a.toNat) (hn : ¬(0x60 ≤ a.toNat ∧ a.toNat ≤ 0x7F))
    (hm : ¬(a = 0x12 ∧ s.cfg.hasMul)) : s.auxWrite a v = .next s := by
  obtain ⟨h0, h1, h2, h3, h4, h5⟩ := aux_ne_of_le h
  rw [State.auxWrite, if_neg h0, if_neg h1, if_neg h2, if_neg h3, if_neg (not_or.2 ⟨h4, h5⟩), if_neg hn, if_neg hm]

/-- The instructions a multiply still takes, after some registers have been waited for. -/
theorem touch_mulBusy_le (s : State) (r : CoreReg) : (s.touch r).mulBusy ≤ s.mulBusy := by
  unfold State.touch
  split
  · exact Nat.zero_le _
  · exact Nat.le_refl _

theorem touchField_mulBusy_le (s : State) (d : RegField) : (s.touchField d).mulBusy ≤ s.mulBusy := by
  cases d with
  | reg r => exact touch_mulBusy_le s r
  | ind k => exact Nat.le_refl _

/-- A multiply still under way at an SR was so before, and for one more instruction. -/
theorem mulBusy_of_touchFields {s : State} {long : Bool} {b d : RegField}
    (h : 0 < (((s.issue long).touchField b).touchField d).mulBusy) : 1 < s.mulBusy := by
  have h1 := touchField_mulBusy_le ((s.issue long).touchField b) d
  have h2 := touchField_mulBusy_le (s.issue long) b
  have h3 : (s.issue long).mulBusy = s.mulBusy - 1 := by simp
  omega

/-- Settles O30. -/
theorem srResult : Obligations.SrResult := by
  intro o s long a v
  let u := ((s.issue long).touchField o.base).touchField o.data
  have hu : Same s u := (same_issue s long).trans (same_touchFields _ _ _)
  have count : u.lpCount = (s.issue long).lpCount := by simp [u]
  have slot : u.slot = s.slot := by simp [u]
  obtain ⟨cfg, regs, mr, loops, flags, enables, halt, dbg, loads, sem, bytes, buffer, stored, outside⟩ := id hu
  refine ⟨fun h => ?_, fun h => ?_, fun h => ?_, fun h hm => ?_, fun h hn hm => ?_, fun h => ?_⟩
  · refine sr_done (w := { u with semArc := semClaim (semMask u.cfg) u.semHost v }) ?_ count slot ⟨Same.retire ?_ _, ?_⟩
    · change u.auxWrite a v = _
      rw [h]; rfl
    · exact ⟨cfg, regs, mr, loops, flags, enables, halt, dbg, loads, ⟨rfl, sem.2⟩, bytes, buffer, stored, outside⟩
    · intro k hk
      change (semClaim (semMask u.cfg) u.semHost v).getLsbD k = _
      rw [semClaim_getLsbD _ _ _ hk, cfg, sem.2]
  · refine sr_done (w := { u with lpStart := v.setWidth 24, startHist := ⟨u.lpStart, 0⟩ :: u.startHist }) ?_ count slot
      ⟨Same.retire ?_ _, ?_, ?_⟩
    · change u.auxWrite a v = _
      rw [h]; rfl
    · exact ⟨cfg, regs, mr, ⟨rfl, loops.2⟩, flags, enables, halt, dbg, loads, sem, bytes, buffer, stored, outside⟩
    · simp [u]
    · simp [u]
  · refine sr_done (w := { u with lpEnd := v.setWidth 24, endHist := ⟨u.lpEnd, 0⟩ :: u.endHist }) ?_ count slot
      ⟨Same.retire ?_ _, ?_, ?_⟩
    · change u.auxWrite a v = _
      rw [h]; rfl
    · exact ⟨cfg, regs, mr, ⟨loops.1, rfl⟩, flags, enables, halt, dbg, loads, sem, bytes, buffer, stored, outside⟩
    · simp [u]
    · simp [u]
  · obtain ⟨low, high⟩ := writeMulHi_halves u v
    refine sr_done (w := u.writeMulHi v) ?_ count slot ⟨Same.retire ?_ _, ?_, ?_⟩
    · change u.auxWrite a v = _
      have hmul : u.cfg.hasMul = true := cfg ▸ hm
      rw [h]
      exact if_pos (show (0x12 : Word) = 0x12 ∧ u.cfg.hasMul = true from ⟨rfl, hmul⟩)
    · exact ⟨cfg, regs, rfl, loops, flags, enables, halt, dbg, loads, sem, bytes, buffer, stored, outside⟩
    · exact low.trans (by rw [mr])
    · exact high.imp_right fun ⟨hb, he⟩ => ⟨mulBusy_of_touchFields hb, he.trans (by simp [u])⟩
  · refine sr_done (w := u) ?_ count slot (hu.retire _)
    refine auxWrite_nothing u v h hn ?_
    rintro ⟨ha, hmul⟩
    exact hm.elim (fun h => h ha) fun h => by rw [cfg, h] at hmul; cases hmul
  · change andThen (u.auxWrite a v) _ = _
    rw [auxWrite_readOnly u v h]; rfl

/-! ### SEMAPHORE (20_memory.md R91) -/

/-- A claimed bit, no implemented bit having two owners: the writer's own place of a bit that the other agent owns is
clear before and after. -/
theorem semClaim_owned {cfg : Config} {own other v : Word} (h : own &&& other = 0) {k : Nat} (hn : k < cfg.nSem)
    (hk : k < 32) :
    (semClaim (semMask cfg) other v).getLsbD k = if other.getLsbD k then own.getLsbD k else v.getLsbD k := by
  have hkk : (own.getLsbD k && other.getLsbD k) = false := by
    rw [← BitVec.getLsbD_and, h]; exact BitVec.getLsbD_zero
  rw [semClaim_getLsbD _ _ _ hk, decide_eq_true hn, Bool.true_and]
  cases ho : other.getLsbD k
  · simp
  · rw [ho, Bool.and_true] at hkk
    simp [hkk]

/-- Settles O31. -/
theorem semaphoreWrite : Obligations.SemaphoreWrite := by
  intro s v inv
  have oneOwner' : s.semHost &&& s.semArc = 0 := by rw [BitVec.and_comm]; exact inv.oneOwner
  refine ⟨⟨{ s with semArc := semClaim (semMask s.cfg) s.semHost v }, rfl, rfl, fun k hn hk => ?_⟩,
    ⟨{ s with semHost := semClaim (semMask s.cfg) s.semArc v }, ?_, rfl, fun k hn hk => ?_⟩⟩
  · exact semClaim_owned inv.oneOwner hn hk
  · exact if_neg (by simp [dualAccess])
  · exact semClaim_owned oneOwner' hn hk

/-! ### FLAG (41_single_operand.md R190) -/

/-- FLAG in its proper form with a true condition. -/
theorem execFlag_proper {o : Single} {s : State} (hf : o.f = false) (hd : ∀ r, o.dst ≠ .reg r)
    (hc : s.cond o.cc = true) :
    let u := (s.issue o.src.isLong).touch1 o.src
    execFlag o s = if (operand s o.src).getLsbD 0 then .next (u.retire (s.fallThrough o.src.isLong)).selfHalt
      else .next ((u.flagBits (operand s o.src)).retire (s.fallThrough o.src.isLong)) := by
  have hr : o.dst.isReg = false := by
    cases h : o.dst with
    | reg r => exact absurd h (hd r)
    | ind k => rfl
  have hc' : ((s.issue o.src.isLong).touch1 o.src).cond o.cc = true := by simpa using hc
  unfold execFlag
  rw [hf, hr]
  dsimp only
  rw [State.touch1_cond] at hc'
  simp only [Bool.or_self, Bool.false_eq_true, if_false, hc', if_true]
  rfl

/-- A state halted by FLAG, before the halt. -/
theorem beforeHalt_selfHalt {s q : State} (h : Same s q) : beforeHalt s q.selfHalt = q := by
  obtain ⟨-, -, -, -, -, -, ⟨h1, h2, h3⟩, -, -, -, -, -, ⟨h4, -⟩, ⟨-, h5, -⟩⟩ := h
  unfold beforeHalt
  rw [← h1, ← h2, ← h3, ← h4, ← h5]
  rfl

/-- Settles O32. -/
theorem flagResult : Obligations.FlagResult := by
  refine ⟨fun o s h => ?_, ?_⟩
  · refine if_pos ?_
    obtain h | ⟨r, h⟩ := h
    · rw [h]; rfl
    · rw [h, Bool.or_eq_true]; exact .inr rfl
  · intro o s hf hd hc x
    let u := (s.issue o.src.isLong).touch1 o.src
    have hu : Same s u := (same_issue s _).trans (same_touch1 _ _)
    have count : u.lpCount = (s.issue o.src.isLong).lpCount := by simp [u]
    have slot : u.slot = s.slot := by simp [u]
    obtain ⟨cfg, regs, mr, loops, -, -, halt, dbg, loads, sem, bytes, buffer, stored, outside⟩ := id hu
    have run := execFlag_proper hf hd hc
    refine ⟨fun hx => ?_, fun hx => ?_⟩
    · have run : exec (.flag o) s = .next ((u.flagBits x).retire (s.fallThrough o.src.isLong)) :=
        run.trans (if_neg (by rw [hx]; decide))
      refine ⟨_, run, Same.retire ?_ _, count, ?_, rfl⟩
      · exact ⟨cfg, regs, mr, loops, ⟨rfl, rfl, rfl, rfl⟩, ⟨rfl, rfl⟩, halt, dbg, loads, sem, bytes, buffer, stored,
          outside⟩
      · simp [State.resumeAddr, slot]
    · have run : exec (.flag o) s = .next (u.retire (s.fallThrough o.src.isLong)).selfHalt := run.trans (if_pos hx)
      obtain ⟨hq, hcount, hpass⟩ := retire_next hu count slot
      obtain ⟨cfg, regs, mr, loops, flags, enables, halt, dbg, loads, sem, bytes, buffer, stored, outside⟩ := id hq
      refine ⟨_, run, ⟨?_, ?_⟩, hcount, ⟨hpass.pc, hpass.slot⟩⟩
      · exact ⟨cfg, regs, mr, loops, flags, enables, ⟨rfl, rfl, halt.2.2⟩, dbg, loads, sem, bytes, buffer,
          ⟨rfl, stored.2⟩, ⟨outside.1, rfl, outside.2.2⟩⟩
      · rw [beforeHalt_selfHalt hq]
        obtain ⟨k, hk, h⟩ := seenPc_cases (u.retire (s.fallThrough o.src.isLong))
        exact ⟨k, hk, congrArg some h⟩

/-! ### BRK, SLEEP and SWI (43_control.md) -/

/-- Settles O33. -/
theorem brkHalts : Obligations.BrkHalts := fun s =>
  ⟨_, rfl, by unfold HaltedFrom; constructor <;> simp [State.halt], rfl, rfl, rfl, rfl⟩

/-- Settles O34. -/
theorem sleepResult : Obligations.SleepResult := by
  intro s
  obtain ⟨hq, hcount, hpass⟩ := retire_next (same_issue s false) rfl (by simp)
  obtain ⟨cfg, regs, mr, loops, flags, enables, halt, dbg, loads, sem, bytes, buffer, stored, outside⟩ := hq
  exact ⟨_, rfl, ⟨cfg, regs, mr, loops, flags, enables, halt, ⟨rfl, dbg.2⟩, loads, sem, bytes, buffer, stored, outside⟩,
    hcount, ⟨hpass.pc, hpass.slot⟩⟩

/-- Settles O35. -/
theorem swiEntry : Obligations.SwiEntry := by
  intro s
  refine ⟨_, rfl, Entered.of_same (same_issue s false) ?_⟩
  rw [issue_resumeAddr]
  exact enter_entered _ 2 .exc _

/-! ### The words of STATUS, IDENTITY and DEBUG (10_state.md R41, R47, R48) -/

/-- The STATUS word as the bits it is put together from. -/
theorem statusWord_getLsbD (s : State) (p : PAddr) (k : Nat) :
    (s.statusWord p).getLsbD k = BitVec.getLsbD (w := 1 + 1 + 1 + 1 + 1 + 1 + 1 + 1 + 24)
      (BitVec.ofBool s.z ++ BitVec.ofBool s.n ++ BitVec.ofBool s.c ++ BitVec.ofBool s.v ++ BitVec.ofBool s.e2 ++
        BitVec.ofBool s.e1 ++ BitVec.ofBool s.h ++ BitVec.ofBool s.cfg.statusR24 ++ p) k := rfl

/-- The bits of the STATUS word. -/
theorem statusWord_bits (s : State) (p : PAddr) :
    (s.statusWord p).getLsbD 31 = s.z ∧ (s.statusWord p).getLsbD 30 = s.n ∧ (s.statusWord p).getLsbD 29 = s.c ∧
    (s.statusWord p).getLsbD 28 = s.v ∧ (s.statusWord p).getLsbD 27 = s.e2 ∧ (s.statusWord p).getLsbD 26 = s.e1 ∧
    (s.statusWord p).getLsbD 25 = s.h ∧ (s.statusWord p).getLsbD 24 = s.cfg.statusR24 := by
  simp only [statusWord_getLsbD, BitVec.getLsbD_append]
  simp

/-- The address in the STATUS word. -/
theorem statusWord_setWidth (s : State) (p : PAddr) : (s.statusWord p).setWidth 24 = p := by
  refine BitVec.eq_of_getLsbD_eq fun i hi => ?_
  rw [BitVec.getLsbD_setWidth, statusWord_getLsbD, BitVec.getLsbD_append]
  simp [hi]

/-- Bit 24 set in a word leaves every other bit as it was. -/
theorem getLsbD_or_bit24 (w : Word) {k : Nat} (hk : k ≠ 24) : (w ||| 0x01000000).getLsbD k = w.getLsbD k := by
  have : (0x01000000 : Word).getLsbD k = false := by
    rw [show (0x01000000 : Word) = BitVec.twoPow 32 24 from rfl, BitVec.getLsbD_twoPow]
    simp only [Bool.and_eq_false_imp, decide_eq_true_eq, decide_eq_false_iff_not]
    omega
  rw [BitVec.getLsbD_or, this, Bool.or_false]

theorem loadStatus_or_bit24 (s : State) (w : Word) : s.loadStatus (w ||| 0x01000000) = s.loadStatus w := by
  have bit : ∀ k, k ≠ 24 → (w ||| 0x01000000).getLsbD k = w.getLsbD k := fun k hk => getLsbD_or_bit24 w hk
  simp only [State.loadStatus, bit 31 (by decide), bit 30 (by decide), bit 29 (by decide), bit 28 (by decide),
    bit 27 (by decide), bit 26 (by decide)]

theorem hostStatus_or_bit24 (s : State) (w : Word) : s.hostStatus (w ||| 0x01000000) = s.hostStatus w := by
  have addr : (w ||| 0x01000000).setWidth 24 = w.setWidth 24 := by
    ext i hi
    rw [BitVec.getElem_setWidth, BitVec.getElem_setWidth, getLsbD_or_bit24 w (by omega)]
  simp only [State.hostStatus, loadStatus_or_bit24, addr, getLsbD_or_bit24 w (show (25 : Nat) ≠ 24 by decide)]

/-- A byte put at its place. -/
theorem placeByte_getLsbD (b : Byte) (pos : Nat) {k : Nat} (hk : k < 32) :
    (placeByte b pos).getLsbD k = placedBit b pos k := by
  rw [placeByte, BitVec.getLsbD_shiftLeft, placedBit, BitVec.getLsbD_setWidth]
  by_cases h : pos ≤ k
  · have : k - pos < 32 := by omega
    simp [hk, h, this]
  · simp [h]

theorem debugBit_getLsbD (b : Bool) (pos : Nat) {k : Nat} (hk : k < 32) :
    (debugBit b pos).getLsbD k = (b && k == pos) := by
  cases b
  · simp [debugBit]
  · rw [debugBit, if_pos rfl, BitVec.getLsbD_shiftLeft]
    by_cases h : k = pos
    · subst h; simp [hk]
    · have : ¬(pos ≤ k ∧ k - pos = 0) := by omega
      simp only [hk, decide_true, Bool.true_and]
      rw [beq_eq_false_iff_ne.2 h]
      by_cases hp : k < pos
      · simp [hp]
      · have : k - pos ≠ 0 := by omega
        simp [this]

/-- IDENTITY with its fields at the default places. -/
theorem identityWord_default {cfg : Config} (h : cfg.identityBits = {}) :
    identityWord cfg = cfg.mancode ++ cfg.manver ++ cfg.arcnum ++ 8#8 := by
  rw [identityWord, h]
  refine BitVec.eq_of_getLsbD_eq fun i hi => ?_
  change _ = BitVec.getLsbD (w := 8 + 8 + 8 + 8) _ i
  simp only [BitVec.getLsbD_append, placeByte, BitVec.getLsbD_or, BitVec.getLsbD_shiftLeft, BitVec.getLsbD_setWidth]
  simp [hi]
  grind

/-- DEBUG with its fields at the default places. -/
theorem debugWord_default {s : State} (h : s.cfg.debugBits = {}) (ld : Bool) :
    s.debugWord ld = BitVec.ofBool ld ++ BitVec.ofBool s.sh ++ BitVec.ofBool s.bh ++ 0#5 ++ BitVec.ofBool s.zz ++ 0#23 := by
  have bits : ∀ a b c d : Bool, debugBit a 31 ||| debugBit b 30 ||| debugBit c 29 ||| debugBit d 23 =
      BitVec.ofBool a ++ BitVec.ofBool b ++ BitVec.ofBool c ++ 0#5 ++ BitVec.ofBool d ++ 0#23 := by decide
  rw [State.debugWord, h]
  exact bits ld s.sh s.bh s.zz

/-- Settles O44. -/
theorem statusLayout : Obligations.StatusLayout := by
  intro s p w
  obtain ⟨b31, b30, b29, b28, b27, b26, b25, b24⟩ := statusWord_bits s p
  refine ⟨b31, b30, b29, b28, b27, b26, b25, b24, statusWord_setWidth s p, loadStatus_or_bit24 s w,
    hostStatus_or_bit24 s w, fun k hk => ?_, fun h => ?_, fun ld => ⟨fun k hk => ?_, fun h => ?_⟩⟩
  · simp only [identityWord, BitVec.getLsbD_or, placeByte_getLsbD _ _ hk]
  · exact identityWord_default h
  · simp only [State.debugWord, BitVec.getLsbD_or, debugBit_getLsbD _ _ hk]
  · exact debugWord_default h ld

end Sys2Proof
end

section
/-! Proofs of the family other: branches, jumps and loops (42_jump_branch_loop.md; 43_control.md R251; 60_exceptions.md
R339). -/

namespace Sys2Proof

open Machine

-- One thread, as in the laws.
set_option Elab.async false

/-! ### The loop rule (42_jump_branch_loop.md R230) -/

theorem settled_tick {s : State} (h : LoopSettled s) : LoopSettled s.tick := by
  obtain ⟨h1, h2, h3, h4⟩ := h
  exact ⟨h1, by simp [h2, ageLags], by simp [h3, ageLags], by simp [h4, ageLags]⟩

/-- The loop's decrement where no write of LP_COUNT is recent. -/
theorem loopFetch_lpCount_settled {s : State} (h : LoopSettled s) (k : Nat) (a : PAddr) :
    (s.loopFetch k a).lpCount = if a + 1 = s.lpEnd then s.lpCount - 1 else s.lpCount := by
  obtain ⟨h1, h2, h3, h4⟩ := h
  have hit : s.loopHit k a = decide (a + 1 = s.lpEnd) := by
    simp only [State.loopHit, State.loopBounds, h1, h3, pickLag]
    rfl
  unfold State.loopFetch
  rw [hit]
  by_cases he : a + 1 = s.lpEnd
  · rw [if_pos (decide_eq_true he), if_pos he, State.loopDecrement, h4]
    rfl
  · rw [if_neg (by simpa using he), if_neg he]
    rfl

/-- The decrement meets the value that the test meets: LP_COUNT itself, or an older value, the still older ones being
over then. -/
theorem decLag_cases (l : List Lag) (i : Nat) (c : PAddr) :
    (decLag l i = [] ∧ pickLag l i c = c) ∨ ∃ newer e older, l = newer ++ e :: older ∧ pickLag l i c = e.old ∧
      decLag l i = newer ++ [⟨e.old - 1, e.age⟩] := by
  induction l generalizing i with
  | nil => exact .inl ⟨rfl, rfl⟩
  | cons d l ih =>
    cases i with
    | zero => exact .inr ⟨[], d, l, rfl, rfl, rfl⟩
    | succ i =>
      rcases ih i with ⟨hd, hp⟩ | ⟨newer, e, older, hl, hp, hd⟩
      · exact .inl ⟨by rw [decLag, hd], hp⟩
      · refine .inr ⟨d :: newer, e, older, by rw [hl]; rfl, hp, ?_⟩
        rw [decLag, hd]
        cases newer <;> rfl

/-- The fetch of the word at `a` and the address after it follow the loop rule. -/
theorem loopFetched (t : State) (k : Nat) (a : PAddr) : LoopFetched t (t.loopFetch k a) a (t.loopAddr k a) := by
  refine ⟨by simp, _, _, loopBounds_inForce t k, fun h => ?_, fun h => ?_⟩
  · have hit : t.loopHit k a = false := by simpa [State.loopHit] using h
    simp [State.loopAddr, State.loopFetch, hit]
  · have hit : t.loopHit k a = true := by simpa [State.loopHit] using h
    have next : t.loopAddr k a = if t.testCount k = 1 then a + 1 else (t.loopBounds k).1 := by
      by_cases hc : t.testCount k = 1 <;> simp [State.loopAddr, hit, hc]
    have after : t.loopFetch k a = (t.loopDecrement k).dropLag := by rw [State.loopFetch, if_pos hit]
    rcases decLag_cases t.countHist (t.countIndex k) t.lpCount with ⟨hd, hp⟩ | ⟨newer, e, older, hl, hp, hd⟩
    · refine .inl ⟨?_, ?_, ?_⟩
      · rw [next, State.testCount, hp]
      · rw [after, State.loopDecrement, hd]; rfl
      · rw [after, State.loopDecrement, hd]; rfl
    · have dec : t.loopDecrement k = { t with countHist := newer ++ [⟨e.old - 1, e.age⟩] } := by
        rw [State.loopDecrement, hd]
        cases newer <;> rfl
      refine .inr ⟨newer, e, older, hl, ?_, ?_, ?_⟩
      · rw [next, State.testCount, hp]
      · rw [after, dec]; rfl
      · rw [after, dec]; rfl

/-- The values kept, one instruction later. -/
theorem laterBy1 (n : Nat) (l : List Lag) : LaterBy1 n l (ageLags n l) := by
  unfold LaterBy1
  induction l with
  | nil => rfl
  | cons e l ih =>
    rw [ageLags]
    by_cases h : e.age < n
    · rw [if_pos h, ih, List.filter_cons_of_pos (by simpa using h), List.map_cons]
    · rw [if_neg h, ih, List.filter_cons_of_neg (by simpa using h)]

/-- Settles O43: the exact rule for settled loop registers, and `loopFetched` for every state. -/
theorem loopNext : Obligations.LoopNext := by
  refine ⟨fun s hs => ?_, fun s => ⟨loopFetched s.tick 0 s.pc, loopFetched _ 1 _, by simp, by simp, laterBy1 2 _,
    laterBy1 2 _, laterBy1 3 _, fun v => ⟨rfl, rfl⟩⟩⟩
  have first := settled_tick hs
  have second := settled_loopFetch first 0 s.pc
  refine ⟨?_, ?_, ?_, ?_⟩
  · exact (loopAddr_settled first 0 s.pc).trans (by simp; rfl)
  · exact (loopFetch_lpCount_settled first 0 s.pc).trans (by simp; rfl)
  · exact (loopAddr_settled second 1 (s.fallThrough false)).trans (by simp; rfl)
  · exact (loopFetch_lpCount_settled second 1 (s.fallThrough false)).trans (by simp; rfl)

/-! ### The common part of the branches -/

/-- What each branch with a delay slot does after the fetch, `ds` being the slot's address. -/
def bccEffect (o : BranchOp) (t : State) (ds : PAddr) : State := t.transfer o.n (t.cond o.cc) ds (relTarget ds o.l)

def blccEffect (o : BranchOp) (t : State) (ds : PAddr) : State :=
  (if t.cond o.cc then t.link o.n ds else t).transfer o.n (t.cond o.cc) ds (relTarget ds o.l)

def lpccEffect (o : BranchOp) (t : State) (ds : PAddr) : State :=
  (if t.cond o.cc then t.setLoop ds (relTarget ds o.l) else t).transfer o.n (!t.cond o.cc) ds (relTarget ds o.l)

def jccEffect (b : CoreReg) (f : Bool) (n : SlotMode) (q : Cond) (t : State) (ds : PAddr) : State :=
  (if t.cond q then (t.touch b).flagsFrom f (t.readReg .operand1 b) else t.touch b).transfer n (t.cond q) ds
    ((t.readReg .operand1 b).setWidth 24)

def jlccEffect (b : CoreReg) (f : Bool) (n : SlotMode) (q : Cond) (t : State) (ds : PAddr) : State :=
  (if t.cond q then ((t.touch b).link n ds).flagsFrom f (t.readReg .operand1 b) else t.touch b).transfer n (t.cond q) ds
    ((t.readReg .operand1 b).setWidth 24)

theorem exec_bcc (o : BranchOp) (s : State) : exec (.bcc o) s = slotted o.n (bccEffect o) s := rfl
theorem exec_blcc (o : BranchOp) (s : State) : exec (.blcc o) s = slotted o.n (blccEffect o) s := rfl
theorem exec_lpcc (o : BranchOp) (s : State) : exec (.lpcc o) s = slotted o.n (lpccEffect o) s := rfl
theorem exec_jcc (b : CoreReg) (f : Bool) (n : SlotMode) (q : Cond) (s : State) :
    exec (.jcc ⟨.reg b, f, n, q⟩) s = slotted n (jccEffect b f n q) s := rfl
theorem exec_jlcc (b : CoreReg) (f : Bool) (n : SlotMode) (q : Cond) (s : State) :
    exec (.jlcc ⟨.reg b, f, n, q⟩) s = slotted n (jlccEffect b f n q) s := rfl

/-- Every branch with a delay slot goes through the common part. -/
theorem exec_slotted {i : Instr} {n : SlotMode} (h : slottedMode i = some n) :
    ∃ effect, ∀ s, exec i s = slotted n effect s := by
  cases i with
  | bcc o => cases h; exact ⟨_, exec_bcc o⟩
  | blcc o => cases h; exact ⟨_, exec_blcc o⟩
  | lpcc o => cases h; exact ⟨_, exec_lpcc o⟩
  | jcc o =>
    obtain ⟨src, f, m, q⟩ := o
    cases src with
    | reg b => cases h; exact ⟨_, exec_jcc b f n q⟩
    | limm w => cases h
  | jlcc o =>
    obtain ⟨src, f, m, q⟩ := o
    cases src with
    | reg b => cases h; exact ⟨_, exec_jlcc b f n q⟩
    | limm w => cases h
  | _ => cases h

/-- The common part by the word in the slot, outside an executed slot. -/
theorem slotted_eq {n : SlotMode} {effect : State → PAddr → State} {s : State} (h : ∀ target, s.slot ≠ .run target) :
    (s.slotWord (s.fallThrough false) = .stale → slotted n effect s = .fault .staleFetch) ∧
    (s.slotWord (s.fallThrough false) = .brk → slotted n effect s = .next s.holdAtBrk) ∧
    (s.slotWord (s.fallThrough false) = .twoWords → n ≠ .nd → slotted n effect s = .refused .longInSlot) := by
  unfold slotted
  split
  · exact absurd ‹_› (h _)
  · refine ⟨fun hw => ?_, fun hw => ?_, fun hw hn => ?_⟩
    · simp only [hw]
    · simp only [hw]
    · cases n with
      | nd => exact absurd rfl hn
      | d | jd => simp only [hw]

/-- A branch in an executed delay slot. -/
theorem slotted_run {n : SlotMode} {effect : State → PAddr → State} {s : State} {target : PAddr}
    (h : s.slot = .run target) : slotted n effect s = .refused .branchInSlot := by
  rw [slotted, h]

/-- Settles O41: every branch goes through the common part. -/
theorem slotContentsRefused : Obligations.SlotContentsRefused := by
  refine ⟨fun i s target hi hs => ?_, fun i s n hi hn hs hw => ?_⟩
  · cases i with
    | bcc o => exact (exec_bcc o s).trans (slotted_run hs)
    | blcc o => exact (exec_blcc o s).trans (slotted_run hs)
    | lpcc o => exact (exec_lpcc o s).trans (slotted_run hs)
    | jcc o =>
      obtain ⟨src, f, m, q⟩ := o
      cases src with
      | reg b => exact (exec_jcc b f m q s).trans (slotted_run hs)
      | limm w => simp only [exec, execJcc, hs]
    | jlcc o =>
      obtain ⟨src, f, m, q⟩ := o
      cases src with
      | reg b => exact (exec_jlcc b f m q s).trans (slotted_run hs)
      | limm w => simp only [exec, execJlcc, hs]
    | _ => cases hi
  · obtain ⟨effect, run⟩ := exec_slotted hi
    exact (run s).trans ((slotted_eq hs).2.2 hw hn)

/-- Settles O42. -/
theorem brkInSlot : Obligations.BrkInSlot := by
  intro i s n hi hs hw
  obtain ⟨effect, run⟩ := exec_slotted hi
  exact ⟨_, (run s).trans ((slotted_eq hs).2.1 hw), same_holdAtBrk s, rfl, rfl, rfl⟩

/-! ### The branches (R203, R210 to R216, R220) -/

/-- A branch whose own effects end in `u`. -/
theorem branches_of {i : Instr} {s u e : State} {n : SlotMode} {effect : State → PAddr → State} {j : Bool}
    {target : PAddr} (run : exec i s = slotted n effect s) (hs : SlotOk s n)
    (he : effect (s.issue false) (s.fallThrough false) = u.transfer n j (s.fallThrough false) target)
    (hu : Same e u) (count : u.lpCount = (s.issue false).lpCount)
    (loop : u.aged.loopAddr 1 (s.fallThrough false) = (s.issue false).aged.loopAddr 1 (s.fallThrough false)) :
    Branches i s n j target e :=
  ⟨_, run.trans ((slotted_next hs).trans (congrArg _ he)), hu.trans (same_transfer _ _ _ _ _),
    (State.transfer_lpCount ..).trans count, transfer_went s u n j target loop⟩

/-- Settles O36. -/
theorem bccResult : Obligations.BccResult := fun o s hs =>
  branches_of (exec_bcc o s) hs (by rw [bccEffect, State.issue_cond]; rfl) (same_issue s false) rfl rfl

/-- BLINK written: the frame, and what the loop mechanism sees. -/
theorem same_link {s u : State} (h : Same s u) (n : SlotMode) :
    Same { s with regs := regsWith s (.reg 31) (linkValue s n) } (u.link n (s.fallThrough false)) := by
  have value : u.linkWord n (s.fallThrough false) = linkValue s n := by
    cases n <;> exact statusWord_congr h _
  rw [← value]
  exact h.putDst (.reg 31) _

theorem link_loopAddr (s : State) (n : SlotMode) (ds : PAddr) (k : Nat) (a : PAddr) :
    (s.link n ds).aged.loopAddr k a = s.aged.loopAddr k a := rfl

theorem link_lpCount (s : State) (n : SlotMode) (ds : PAddr) : (s.link n ds).lpCount = s.lpCount :=
  (State.setReg_lpCount s 31 _).trans (if_neg (by decide))

/-- Settles O37. -/
theorem blccResult : Obligations.BlccResult := by
  intro o s hs
  let t := s.issue false
  let ds := s.fallThrough false
  refine branches_of (u := if s.cond o.cc then t.link o.n ds else t) (exec_blcc o s) hs
    (by rw [blccEffect, State.issue_cond]; rfl) ?_ ?_ ?_
  · cases s.cond o.cc
    · exact same_issue s false
    · exact same_link (same_issue s false) o.n
  · cases s.cond o.cc
    · rfl
    · exact link_lpCount t o.n ds
  · cases s.cond o.cc
    · rfl
    · exact link_loopAddr t o.n ds 1 ds

/-- The loop set up by LPcc. -/
theorem same_setLoop {s u : State} (h : Same s u) (p q : PAddr) :
    Same { s with lpStart := p, lpEnd := q } (u.setLoop p q) := by
  obtain ⟨cfg, regs, mr, -, flags, enables, halt, dbg, loads, sem, bytes, buffer, stored, outside⟩ := h
  exact ⟨cfg, regs, mr, ⟨rfl, rfl⟩, flags, enables, halt, dbg, loads, sem, bytes, buffer, stored, outside⟩

/-- LPcc taken to be a loop's start, not skipping its slot: the next comparison uses the older bounds, the one after it
the new ones. -/
theorem setLoop_lag {s : State} (h : LoopSettled s) {n : SlotMode} (hn : n ≠ .jd) (p q : PAddr) {t : State}
    (ht : t = ((s.issue false).setLoop p q).transfer n false p q) :
    t.tick.loopBounds 0 = (s.lpStart, s.lpEnd) ∧ (t.issue false).loopBounds 1 = (t.lpStart, t.lpEnd) := by
  have older : (s.issue false).aged.loopBounds 1 = (s.lpStart, s.lpEnd) := by
    obtain ⟨h1, h2, h3, -⟩ := settled_issue h
    simp only [State.loopBounds, h1, h2, h3, pickLag]
    simp
  have lag : t.lpLag = some ((s.issue false).aged.loopBounds 1) ∧ t.startHist = [] ∧ t.endHist = [] := by
    subst ht
    cases n with
    | nd | d => exact ⟨rfl, rfl, rfl⟩
    | jd => exact absurd rfl hn
  obtain ⟨h1, h2, h3⟩ := lag
  refine ⟨?_, ?_⟩
  · rw [← older]
    simp only [State.loopBounds, State.tick_lpLag, h1]
  · have l : (t.issue false).lpLag = none := by simp
    have a : (t.issue false).startHist = [] := by simp [h2, ageLags]
    have b : (t.issue false).endHist = [] := by simp [h3, ageLags]
    simp only [State.loopBounds, l, a, b, pickLag]
    simp

/-- Settles O38: the frame by `branches_of`, the lag by `setLoop_lag`. -/
theorem lpccResult : Obligations.LpccResult := by
  intro o s hs target
  let t := s.issue false
  let ds := s.fallThrough false
  refine ⟨?_, fun hl hc hn u hu => ?_⟩
  · refine branches_of (u := if s.cond o.cc then t.setLoop ds target else t) (exec_lpcc o s) hs
      (by rw [lpccEffect, State.issue_cond]; rfl) ?_ ?_ ?_
    · cases s.cond o.cc
      · exact same_issue s false
      · exact same_setLoop (same_issue s false) _ _
    · cases s.cond o.cc <;> rfl
    · cases s.cond o.cc <;> rfl
  · refine setLoop_lag hl hn ds target ?_
    have hu : u = _ := Host.Outcome.next.inj (hu.symm.trans ((exec_lpcc o s).trans (slotted_next hs)))
    rw [hu, lpccEffect, State.issue_cond, hc]
    rfl

/-! ### The jumps (R214 to R216) -/

/-- The flags and enables loaded by a jump with `F`, if it is taken. -/
theorem same_flagsFrom {e u : State} (h : Same e u) (f : Bool) (w : Word) :
    Same (withStatus e f w) (u.flagsFrom f w) := by
  cases f
  · exact h
  · obtain ⟨cfg, regs, mr, loops, -, -, halt, dbg, loads, sem, bytes, buffer, stored, outside⟩ := h
    exact ⟨cfg, regs, mr, loops, ⟨rfl, rfl, rfl, rfl⟩, ⟨rfl, rfl⟩, halt, dbg, loads, sem, bytes, buffer, stored, outside⟩

/-- The loop mechanism sees neither a wait for a register nor the flags. -/
theorem touch_loopAddr (s : State) (r : CoreReg) (k : Nat) (a : PAddr) :
    (s.touch r).aged.loopAddr k a = s.aged.loopAddr k a := by
  unfold State.touch
  split <;> rfl

theorem flagsFrom_loopAddr (s : State) (f : Bool) (w : Word) (k : Nat) (a : PAddr) :
    (s.flagsFrom f w).aged.loopAddr k a = s.aged.loopAddr k a := by
  cases f <;> rfl

theorem Same.goTo {e u : State} (h : Same e u) (p : PAddr) : Same e (u.goTo p) :=
  h.trans (by constructor <;> simp)

/-- The jumps to an explicit address, outside an executed slot. -/
theorem execJcc_limm (w : Word) (f : Bool) (n : SlotMode) (q : Cond) {s : State} (hs : ∀ target, s.slot ≠ .run target) :
    exec (.jcc ⟨.limm w, f, n, q⟩) s = .next (if s.cond q then ((s.issue true).flagsFrom f w).goTo (w.setWidth 24)
      else (s.issue true).goTo (s.fallThrough true)) := by
  cases h : s.slot with
  | run target => exact absurd h (hs target)
  | none | hold => simp only [exec, execJcc, State.issue_cond, h]

theorem execJlcc_limm (w : Word) (f : Bool) {n : SlotMode} (q : Cond) {s : State} (hs : ∀ target, s.slot ≠ .run target)
    (hn : n ≠ .d) : exec (.jlcc ⟨.limm w, f, n, q⟩) s = .next (if s.cond q then
        (((s.issue true).link n (s.fallThrough false)).flagsFrom f w).goTo (w.setWidth 24)
      else (s.issue true).goTo (s.fallThrough true)) := by
  cases h : s.slot with
  | run target => exact absurd h (hs target)
  | none | hold => simp only [exec, execJlcc, State.issue_cond, h, if_neg hn]

theorem execJlcc_limm_d (w : Word) (f : Bool) (q : Cond) {s : State} (hs : ∀ target, s.slot ≠ .run target) :
    exec (.jlcc ⟨.limm w, f, .d, q⟩) s = .refused (.undecodable .jumpForm) := by
  cases h : s.slot with
  | run target => exact absurd h (hs target)
  | none | hold => simp only [exec, execJlcc, h, if_true]

/-- Settles O39. -/
theorem jccResult : Obligations.JccResult := by
  intro b w f n q s
  refine ⟨fun hs => ?_, fun hs => ?_⟩
  · let x := operand s (.reg b)
    let u := (s.issue false).touch b
    have hu : Same s u := (same_issue s false).trans (same_touch _ _)
    have count : u.lpCount = (s.issue false).lpCount := by simp [u]
    have loop := touch_loopAddr (s.issue false) b 1 (s.fallThrough false)
    refine branches_of (u := if s.cond q then u.flagsFrom f x else u) (exec_jcc b f n q s) hs
      (by rw [jccEffect, State.issue_cond]; rfl) ?_ ?_ ?_
    · cases s.cond q
      · exact hu
      · exact same_flagsFrom hu f x
    · cases s.cond q
      · exact count
      · exact (State.flagsFrom_lpCount ..).trans count
    · cases s.cond q
      · exact loop
      · exact (flagsFrom_loopAddr ..).trans loop
  · refine ⟨_, execJcc_limm w f n q hs, ?_⟩
    cases s.cond q
    · exact ⟨(same_issue s true).goTo _, rfl, rfl, rfl⟩
    · exact ⟨(same_flagsFrom (same_issue s true) f w).goTo _, State.flagsFrom_lpCount .., rfl, rfl⟩

/-- Settles O40. -/
theorem jlccResult : Obligations.JlccResult := by
  intro b w f n q s linked
  refine ⟨fun hs => ?_, fun hs => ⟨fun hn => ?_, ?_⟩⟩
  · let x := operand s (.reg b)
    let ds := s.fallThrough false
    let u := (s.issue false).touch b
    have hu : Same s u := (same_issue s false).trans (same_touch _ _)
    have count : u.lpCount = (s.issue false).lpCount := by simp [u]
    have loop := touch_loopAddr (s.issue false) b 1 (s.fallThrough false)
    refine branches_of (u := if s.cond q then (u.link n ds).flagsFrom f x else u) (exec_jlcc b f n q s) hs
      (by rw [jlccEffect, State.issue_cond]; rfl) ?_ ?_ ?_
    · dsimp only [linked]
      cases s.cond q
      · exact hu
      · simp only [if_true, Bool.true_and]
        exact same_flagsFrom (same_link hu n) f x
    · cases s.cond q
      · exact count
      · exact (State.flagsFrom_lpCount ..).trans ((link_lpCount ..).trans count)
    · cases s.cond q
      · exact loop
      · exact (flagsFrom_loopAddr ..).trans ((link_loopAddr ..).trans loop)
  · refine ⟨_, execJlcc_limm w f q hs hn, ?_⟩
    dsimp only [linked]
    cases s.cond q
    · exact ⟨(same_issue s true).goTo _, rfl, rfl, rfl⟩
    · simp only [if_true, Bool.true_and]
      exact ⟨(same_flagsFrom (same_link (same_issue s true) n) f w).goTo _,
        (State.flagsFrom_lpCount ..).trans (link_lpCount ..), rfl, rfl⟩
  · exact execJlcc_limm_d w f q hs

/-! ### The return from an exception (60_exceptions.md R339) -/

/-- Settles O48: the jump loads the STATUS word that the entry saved. -/
theorem returnRestores : Obligations.ReturnRestores := by
  intro s t u k lv ret count ht hr hs
  obtain ⟨v, run, same, -, pc, slot⟩ := (jccResult (linkReg lv) 0 true .nd .al u).1 hs
  have small : (linkReg lv).val < 32 := by cases lv <;> decide
  have saved : operand u (.reg (linkReg lv)) = s.statusWord ret := by
    refine (readReg_core (u.issue false) .operand1 (linkReg lv) small).trans ?_
    simp only [State.issue_regs, hr, ht.same.regs]
    rw [regsWith_get, if_pos rfl]
  obtain ⟨b31, b30, b29, b28, b27, b26, -, -⟩ := statusWord_bits s ret
  refine ⟨v, run, pc.trans ?_, slot, ?_⟩
  · rw [saved, statusWord_setWidth]
  · have loaded : withStatus u (u.cond .al && true) (operand u (.reg (linkReg lv))) =
        { u with z := s.z, n := s.n, c := s.c, v := s.v, e1 := s.e1, e2 := s.e2 } := by
      rw [saved]
      simp only [withStatus, b31, b30, b29, b28, b27, b26]
      rfl
    rw [← loaded]
    exact same

end Sys2Proof
end

section
/-! Proofs of the family other: the step of the machine, interrupts, halt, sleep and reset (00_scope.md R10;
60_exceptions.md; 70_reset_and_hazards.md R380; 20_memory.md R85). -/

namespace Sys2Proof

open Machine

-- One thread, as in the laws.
set_option Elab.async false

/-! ### What the next input makes of a step -/

theorem step_lines {s : State} {irqs : List Nat} {l : List Input} (h : s.inputs = .lines irqs :: l) :
    step s = (s.withInputs l).coreStep irqs := by
  simp only [step, State.cycle, h]

theorem step_host {s : State} {a : HostAction} {l : List Input} (h : s.inputs = .host a :: l) :
    step s = (s.withInputs l).hostAct a := by
  simp only [step, State.cycle, h]

theorem step_reset {s : State} {l : List Input} (h : s.inputs = .reset :: l) :
    step s = .next (s.withInputs l).hardReset := by
  simp only [step, State.cycle, h]

theorem step_noInput {s : State} (h : s.inputs = []) : step s = s.coreStep [] := by
  simp only [step, State.cycle, h]

/-- No input, or asserted lines: a step of the core. -/
theorem step_core {s : State} {irqs : List Nat} {l : List Input}
    (h : s.inputs = [] ∧ irqs = [] ∧ l = [] ∨ s.inputs = .lines irqs :: l) :
    step s = (s.withInputs l).coreStep irqs := by
  rcases h with ⟨hi, rfl, rfl⟩ | hi
  · have same : s.withInputs [] = s := by rw [State.withInputs, ← hi]
    rw [same, step_noInput hi]
  · exact step_lines hi



/-! ### Interrupts (60_exceptions.md R322 to R333, R371; 43_control.md R251) -/

/-- The selection looks at the enables and the parameters only. -/
theorem selectIrq_congr {s t : State} (cfg : t.cfg = s.cfg) (enables : t.e1 = s.e1 ∧ t.e2 = s.e2) (irqs : List Nat) :
    t.selectIrq irqs = s.selectIrq irqs := by
  simp only [State.selectIrq, cfg, enables]

/-- A recognition point of the awake core, with an interrupt selected. -/
theorem awake_interrupt {s : State} {irqs : List Nat} {k : Nat} {lv : Level} (hs : s.slot = .none)
    (hi : s.selectIrq irqs = some (k, lv)) : s.awake irqs = s.interrupt k lv := by
  rw [State.awake, hs, hi]

/-- Behind a branch, or with nothing selected, the core goes on. -/
theorem awake_runUnit {s : State} {irqs : List Nat} (h : s.slot ≠ .none ∨ s.selectIrq irqs = none) :
    s.awake irqs = s.runUnit := by
  unfold State.awake
  split
  · rename_i hs hi
    exact h.elim (absurd hs) fun h => by rw [h] at hi; cases hi
  · rfl

theorem asleep_interrupt {s : State} {irqs : List Nat} {k : Nat} {lv : Level}
    (hi : s.selectIrq irqs = some (k, lv)) : s.asleep irqs = s.interrupt k lv := by
  rw [State.asleep, hi]

/-- Running or asleep, the core recognises the interrupt selected. -/
theorem coreStep_interrupt {s : State} {irqs : List Nat} {k : Nat} {lv : Level} (h : s.h = false) (hs : s.slot = .none)
    (hi : s.selectIrq irqs = some (k, lv)) : s.coreStep irqs = s.interrupt k lv := by
  unfold State.coreStep
  rw [h, asleep_interrupt hi, awake_interrupt hs hi, ite_self]
  rfl

theorem interrupt_brk {s : State} (k : Nat) (lv : Level) (h : s.brkNext = true) : s.interrupt k lv = exec .brk s :=
  if_pos h

theorem interrupt_enter {s : State} (k : Nat) (lv : Level) (h : s.brkNext = false) :
    s.interrupt k lv = .next (s.enter k lv s.pc) := if_neg (by rw [h]; decide)

/-- Settles O45. -/
theorem interruptEntry : Obligations.InterruptEntry := by
  intro s irqs l k lv hi h hs hk hb
  refine ⟨_, (step_lines hi).trans ((coreStep_interrupt (s := s.withInputs l) h hs hk).trans
    (interrupt_enter k lv hb)), ?_⟩
  exact enter_entered (s.withInputs l) k lv s.pc

/-- Whether a line requests, as the selection tests it. -/
theorem requests_iff (s : State) (irqs : List Nat) (lv : IrqLevel) (l : IrqLine) :
    (l.level == lv && irqs.contains l.line && decide (3 ≤ l.line) && decide (l.line < s.cfg.nVectors)) = true ↔
      Requests s irqs lv l := by
  simp [Requests, and_assoc]

theorem firstLine_some {s : State} {irqs : List Nat} {lv : IrqLevel} {k : Nat}
    (h : firstLine s.cfg lv irqs = some k) : FirstRequest s irqs lv k := by
  obtain ⟨l, hl, hk⟩ := Option.map_eq_some_iff.1 h
  obtain ⟨hp, before, after, hs, hb⟩ := List.find?_eq_some_iff_append.1 hl
  refine ⟨before, l, after, hs, hk, (requests_iff s irqs lv l).1 hp, fun l' hl' hr => ?_⟩
  have := hb l' hl'
  rw [(requests_iff s irqs lv l').2 hr] at this
  cases this

theorem firstLine_none {s : State} {irqs : List Nat} {lv : IrqLevel} (h : firstLine s.cfg lv irqs = none) :
    ∀ l ∈ s.cfg.irqLines, ¬ Requests s irqs lv l := fun l hl hr =>
  List.find?_eq_none.1 (Option.map_eq_none_iff.1 h) l hl ((requests_iff s irqs lv l).2 hr)

/-- The first requesting line of an enabled level. -/
theorem enabledLine_none {s : State} {irqs : List Nat} {lv : IrqLevel} {e : Bool}
    (h : (if e then firstLine s.cfg lv irqs else none) = none) (he : e = true) :
    ∀ l ∈ s.cfg.irqLines, ¬ Requests s irqs lv l := firstLine_none (by rwa [if_pos he] at h)

theorem enabledLine_some {s : State} {irqs : List Nat} {lv : IrqLevel} {e : Bool} {k : Nat}
    (h : (if e then firstLine s.cfg lv irqs else none) = some k) : e = true ∧ FirstRequest s irqs lv k := by
  cases e
  · cases h
  · exact ⟨rfl, firstLine_some h⟩

/-- Settles O46: the search for a level's line finds the first that requests. -/
theorem interruptPriority : Obligations.InterruptPriority := by
  intro s irqs
  unfold State.selectIrq
  split
  · rename_i k2 h2
    obtain ⟨e2, first⟩ := enabledLine_some h2
    refine ⟨fun k lv h => ?_, nofun⟩
    cases h
    exact .inl ⟨rfl, e2, first⟩
  · rename_i h2
    split
    · rename_i k1 h1
      obtain ⟨e1, first⟩ := enabledLine_some h1
      refine ⟨fun k lv h => ?_, nofun⟩
      cases h
      exact .inr ⟨rfl, e1, first, enabledLine_none h2⟩
    · rename_i h1
      exact ⟨nofun, fun _ => ⟨enabledLine_none h2, enabledLine_none h1⟩⟩

/-- Settles O47. -/
theorem interruptHeldOff : Obligations.InterruptHeldOff := by
  intro s irqs l hi h
  refine ⟨fun k lv hs hk hb => ?_, fun hz hor => ?_⟩
  · obtain ⟨t, run, halted, -, pc, -, count⟩ := brkHalts (s.withInputs l)
    exact ⟨t, (step_lines hi).trans ((coreStep_interrupt (s := s.withInputs l) h hs hk).trans
      ((interrupt_brk (s := s.withInputs l) k lv hb).trans run)), halted, pc, count⟩
  · have awake : (s.withInputs l).awake irqs = (s.withInputs l).runUnit :=
      awake_runUnit (hor.imp_left fun hs => by rw [State.withInputs_slot, hs]; nofun)
    rw [step_lines hi, State.coreStep, State.withInputs_h, State.withInputs_zz, h, hz]
    exact awake

/-! ### Halt and sleep (60_exceptions.md R356, R371) -/

theorem coreStep_halted {s : State} (irqs : List Nat) (h : s.h = true) (hs : s.ss = false) :
    s.coreStep irqs = .next s := by
  rw [State.coreStep, h, hs]; rfl

theorem coreStep_asleep {s : State} {irqs : List Nat} (h : s.h = false) (hz : s.zz = true)
    (hi : s.selectIrq irqs = none) : s.coreStep irqs = .next s := by
  rw [State.coreStep, h, hz, State.asleep, hi]; rfl

/-- Settles O49. -/
theorem haltedAndSleepingWait : Obligations.HaltedAndSleepingWait := fun s _ l =>
  ⟨fun h hs => ⟨fun hi => (step_noInput hi).trans (coreStep_halted _ h hs),
      fun hi => (step_lines hi).trans (coreStep_halted (s := s.withInputs l) _ h hs)⟩,
    fun h hz => ⟨fun hi => (step_noInput hi).trans (coreStep_asleep h hz (selectIrq_nil s)),
      fun hi hk => (step_lines hi).trans (coreStep_asleep (s := s.withInputs l) h hz hk)⟩⟩

/-! ### Steps the host orders (60_exceptions.md R360, R361) -/

theorem haltedAfter_endStep (u : State) (b : Bool) : HaltedAfter u (u.endStep b) := by
  refine ⟨?_, rfl, rfl, rfl, fun h => ?_⟩
  · constructor <;> simp [State.endStep]
  · rw [State.endStep_zz, h, Bool.false_and]

theorem haltedIdle_endStep (s : State) (b : Bool) : HaltedIdle s (s.restart.draw.endStep b) := by
  refine ⟨?_, by simp, by simp, by simp⟩
  have zz : (s.restart.draw.endStep b).zz = false := by simp
  constructor <;> simp +contextual [State.restart, State.settle]

/-- A step that is ordered runs a unit, or it is a cycle step that does nothing. -/
theorem singleStep_cases (s : State) (irqs : List Nat) :
    s.singleStep irqs = andThen (s.restart.draw.awake irqs) (fun t => .next (t.endStep (s.freeBit .sleepStep))) ∨
      s.is = false ∧ s.singleStep irqs = .next (s.restart.draw.endStep false) := by
  rw [State.singleStep]
  cases his : s.is
  · cases s.freeBit .cycleStep
    · exact .inr ⟨rfl, rfl⟩
    · exact .inl rfl
  · exact .inl rfl

/-- Settles O50: the step is a unit of the restarted core, or nothing. -/
theorem instructionStep : Obligations.InstructionStep := by
  intro s irqs l h hs hin q
  have run : step s = (s.withInputs l).singleStep irqs := by
    rw [step_core hin, State.coreStep, State.withInputs_h, State.withInputs_ss, h, hs]
    rfl
  have slot : q.slot = s.slot := by simp [q]
  have select : q.selectIrq irqs = s.selectIrq irqs := selectIrq_congr (by simp [q]) (by simp [q]) irqs
  have pc : q.pc = s.pc := by simp [q]
  have count : q.lpCount = s.lpCount := by simp [q]
  have idle : HaltedIdle { s with inputs := l } (q.endStep false) := haltedIdle_endStep (s.withInputs l) false
  have outcome : step s = andThen (q.awake irqs) (fun t => .next (t.endStep ((s.withInputs l).freeBit .sleepStep))) ∨
      s.is = false ∧ step s = .next (q.endStep false) := by
    rw [run]
    exact singleStep_cases (s.withInputs l) irqs
  refine ⟨fun u hu => ?_, fun f hf => ?_, fun r hr => ?_, fun hor => ?_, fun k lv hslot hk => ⟨fun hb => ?_, fun hb => ?_⟩⟩
  · rcases outcome with h | ⟨his, h⟩
    · exact ⟨_, h.trans (by rw [hu]; rfl), .inl (haltedAfter_endStep u _)⟩
    · exact ⟨_, h, .inr ⟨his, idle⟩⟩
  · rcases outcome with h | ⟨his, h⟩
    · exact .inl (h.trans (by rw [hf]; rfl))
    · exact .inr ⟨his, _, h, idle⟩
  · rcases outcome with h | ⟨his, h⟩
    · exact .inl (h.trans (by rw [hr]; rfl))
    · exact .inr ⟨his, _, h, idle⟩
  · exact awake_runUnit (by rw [slot, select]; exact hor)
  · exact (awake_interrupt (slot.trans hslot) (select.trans hk)).trans (interrupt_brk k lv hb)
  · refine ⟨_, (awake_interrupt (slot.trans hslot) (select.trans hk)).trans (interrupt_enter k lv hb), ?_⟩
    rw [← pc, ← count]
    exact enter_entered q k lv q.pc

/-! ### Reset (70_reset_and_hazards.md R380; 10_state.md R65) -/

/-- Settles O52. -/
theorem resetValues : Obligations.ResetValues :=
  ⟨rfl, rfl, rfl, rfl, rfl, rfl, rfl, rfl, rfl, rfl, rfl, rfl, rfl, rfl, rfl, rfl, rfl, rfl, rfl, rfl, rfl,
    rfl, rfl, rfl, rfl⟩

/-- What a hard reset loses was buffered. -/
theorem lost_sublist (s : State) : s.lost.Sublist s.buffer :=
  List.filter_sublist.trans List.filter_sublist

/-- Some buffered stores taken back, each of them is wholly there or wholly taken back. -/
theorem memRead_undo_cases {s : State} (hm : s.mem.wf) (ha : Apart s) {l : List Buffered} (hl : l.Sublist s.buffer)
    {b : Buffered} (hb : b ∈ s.buffer) :
    memRead s.cfg.endian (undo s.cfg.endian l s.mem) b.addr b.size = memRead s.cfg.endian s.mem b.addr b.size ∨
    memRead s.cfg.endian (undo s.cfg.endian l s.mem) b.addr b.size =
      BitVec.ofNat 32 (b.old.toNat % 2 ^ (8 * Size.bytes b.size)) := by
  by_cases hbl : b ∈ l
  · right
    rw [← lowBytes_eq]
    exact memRead_fold_mem Buffered.old l hm (List.Pairwise.sublist hl ha) hbl
  · left
    refine memRead_fold_apart Buffered.old l s.mem b.addr b.size fun c hc => ?_
    have symmetric : Std.Symm fun x y : Buffered => overlap x.addr x.size y.addr y.size = false :=
      ⟨fun x y h => by rw [overlap_comm]; exact h⟩
    exact List.Pairwise.forall ha (hl.subset hc) hb fun e => hbl (e ▸ hc)

theorem hardReset_cfg (s : State) : s.hardReset.cfg = s.cfg := by simp only [State.hardReset]

theorem hardReset_inputs (s : State) : s.hardReset.inputs = s.inputs := by simp only [State.hardReset]

/-- Settles O51: the stores lost are some of those buffered, put back. -/
theorem hardReset : Obligations.HardReset := by
  intro s l hi
  refine ⟨_, step_reset hi, ?_, rfl, rfl, rfl, rfl, rfl, rfl, rfl, rfl, rfl, rfl, rfl, rfl, rfl, rfl, rfl, rfl, rfl, rfl,
    rfl, rfl, rfl, rfl, ⟨rfl, rfl, rfl, rfl⟩, rfl, hardReset_cfg _, hardReset_inputs _, fun a ha => ?_, fun hm hap b hb => ?_⟩
  · exact BitVec.add_zero s.cfg.vectorBase
  · exact byte_fold_ne Buffered.old _ s.mem a fun b hb => ha b ((lost_sublist (s.withInputs l)).subset hb)
  · exact memRead_undo_cases (s := s.withInputs l) hm hap (lost_sublist (s.withInputs l)) hb

/-! ### A step runs what is at the pc (00_scope.md R10) -/

/-- A unit whose first word is an instruction. -/
theorem step_instr {s : State} {i : Instr} (h : s.h = false) (hz : s.zz = false) (hi : s.inputs = [])
    (hf : s.fetchInstr = .instr i) : step s = andThen (exec i s) State.slotIfAny := by
  have run : s.runOne = exec i s := by rw [State.runOne, hf]
  rw [step_running h hz hi, State.runUnit, run]

/-- The fetch of words that decode. -/
theorem fetchInstr_instr {s : State} {i : Instr} (hv : s.fetchValid s.pc = true) (hs : s.stale s.pc = false)
    (ho : opcodeValid s.cfg (s.codeWord s.pc) = true) {x : Word}
    (hx : needsLimm (s.codeWord s.pc) = true → s.fetchValid (s.fallThrough false) = true ∧
      s.stale (s.fallThrough false) = false ∧ s.codeWord (s.fallThrough false) = x)
    (h0 : needsLimm (s.codeWord s.pc) = false → x = 0) (hd : decode (s.codeWord s.pc) x = .instr i) :
    s.fetchInstr = .instr i := by
  unfold State.fetchInstr
  rw [hv, hs, ho]
  cases hn : needsLimm (s.codeWord s.pc)
  · rw [h0 hn] at hd
    simp only [hd]
    rfl
  · obtain ⟨v2, s2, c2⟩ := hx hn
    rw [v2, s2, c2, hd]
    rfl

/-- Settles O55: the words at the pc decode by O1. -/
theorem stepRunsDecoded : Obligations.StepRunsDecoded := by
  intro s i h hz hi hw hv hs ho he hx
  obtain ⟨long, dec⟩ := decodeEncode i hw
  rw [he] at long dec
  have fetch : s.fetchInstr = .instr i := by
    refine fetchInstr_instr hv hs ho (x := (encode i).2.getD 0) (fun hn => ?_) (fun hn => ?_) (dec 0)
    · obtain ⟨v, hv⟩ := Option.isSome_iff_exists.1 (long.symm.trans hn)
      rw [hv]; exact hx v hv
    · rw [Option.isSome_eq_false_iff.1 (long.symm.trans hn) |> Option.isNone_iff_eq_none.1]; rfl
  rw [step_instr h hz hi fetch]
  refine congrArg (andThen _) (funext fun t => ?_)
  unfold State.slotIfAny State.slotIfTaken
  cases t.slot <;> rfl

/-! ### Code the program has stored to (20_memory.md R85) -/

/-- A running core whose fetch meets a long word the program has stored to. -/
theorem step_stale {s : State} (h : s.h = false) (hz : s.zz = false) (hi : s.inputs = []) (hf : s.fetchInstr = .stale) :
    step s = .fault .staleFetch := by
  have run : s.runOne = .fault .staleFetch := by rw [State.runOne, hf]
  rw [step_running h hz hi, State.runUnit, run]
  rfl

/-- The note of stored code after a store. -/
theorem store_stale (s : State) (a v : Word) (z : Size) (p : PAddr) :
    (s.store a z v).stale p = true ↔
      s.stale p = true ∨ ∃ i < Size.bytes z, (a + BitVec.ofNat 32 i).toNat / 4 = p.toNat :=
  noteStored_contains a (Size.bytes z) s.stored p

theorem stale_congr {s t : State} (h : t.stored = s.stored) (p : PAddr) : t.stale p = s.stale p := by
  rw [State.stale, State.stale, h]

/-- A ST that completes, or takes the memory error, has noted its bytes. -/
theorem storeTo_stale {s e t : State} {b : RegField} {awb : Bool} {a v : Word} {z : Size} {p : PAddr}
    (he : e.stored = s.stored) (h : s.storeTo e (wbReg awb b) a z v p = .next t) (q : PAddr) :
    t.stale q = true ↔ s.stale q = true ∨ ∃ i < Size.bytes z, (a + BitVec.ofNat 32 i).toNat / 4 = q.toNat := by
  rcases storeTo_cases h with rfl | rfl
  · rw [stale_congr (s := (e.spoilBase (wbReg awb b) a).store a z (e.freeWord .stored)) (by simp [State.memoryError]),
      store_stale, stale_congr (s := s) (by simp [he])]
  · rw [stale_congr (s := s.store a z v) (by simp), store_stale]

/-- Settles O56: the fetch stops at a word noted, and a store notes the words of its bytes. -/
theorem staleFetchStops : Obligations.StaleFetchStops := by
  refine ⟨fun s h hz hi hv hs => step_stale h hz hi ?_, fun s h hz hi hv ho hn hv2 hs2 => step_stale h hz hi ?_,
    fun i s n hn hslot hv hs => ?_, fun s a v z p => store_stale s a v z p, fun o s t h p => ?_⟩
  · rw [State.fetchInstr, hv, hs]; rfl
  · rw [State.fetchInstr, hv, ho, hn, hv2, hs2]
    cases s.stale s.pc <;> rfl
  · obtain ⟨effect, run⟩ := exec_slotted hn
    refine (run s).trans ((slotted_eq hslot).1 ?_)
    rw [State.slotWord, hv, hs]; rfl
  · have run : (((s.issue (StoreOp.isLong o)).touchField o.base).touchField o.data).storeTo
        ((s.tick.touchField o.base).touchField o.data)
        (wbReg o.awb o.base) (storeAddr o (s.issue (StoreOp.isLong o))) o.size
        ((s.issue (StoreOp.isLong o)).fieldVal .operand2 o.data o.limm o.off) (s.fallThrough (StoreOp.isLong o)) =
          .next t := h
    rw [storeTo_stale (by simp) run p, stale_congr (s := s) (by simp)]

end Sys2Proof
end

section
/-! Proofs of the family other: which instructions write what (44_load_store.md R269, 45_aux_access.md R286,
42_jump_branch_loop.md R220, 46_extensions.md R291, 60_exceptions.md R332, R356, 43_control.md R252). -/

namespace Sys2Proof

open Machine

-- One thread, as in the laws.
set_option Elab.async false

/-- What the statements on writers say of an instruction `i` that takes `s` to `t`. -/
structure Writes (i : Instr) (s t : State) : Prop where
  bytes : (∀ o, i ≠ .st o) → ∀ a, t.mem.byte a = s.mem.byte a
  semArc : (∀ o, i ≠ .sr o) → t.semArc = s.semArc
  loops : (∀ o, i ≠ .sr o) → (∀ o, i ≠ .lpcc o) → t.lpStart = s.lpStart ∧ t.lpEnd = s.lpEnd
  mr : (∀ o, i ≠ .sr o) → (∀ o, i ≠ .mul64 o) → (∀ o, i ≠ .mulu64 o) → t.mr = s.mr
  halt : (∀ o, i ≠ .flag o) → i ≠ .brk → isBranch i = false → t.h = s.h
  zz : i ≠ .sleep → t.zz = s.zz ∨ t.zz = false
  enables : (∀ o, i ≠ .flag o) → (∀ o, i ≠ .jcc o) → (∀ o, i ≠ .jlcc o) → (t.e1 = s.e1 ∧ t.e2 = s.e2) ∨
    (t.e1 = false ∧ t.e2 = false ∧ (t.pc = vectorAddr s.cfg 1 ∨ t.pc = vectorAddr s.cfg 2))

/-- The fields in which an instruction that is not named as their writer leaves its frame `e`. -/
structure Agrees (i : Instr) (s e : State) : Prop where
  bytes : (∀ o, i ≠ .st o) → e.mem = s.mem
  semArc : e.semArc = s.semArc
  loops : (∀ o, i ≠ .lpcc o) → e.lpStart = s.lpStart ∧ e.lpEnd = s.lpEnd
  mr : (∀ o, i ≠ .mul64 o) → (∀ o, i ≠ .mulu64 o) → e.mr = s.mr
  halt : (∀ o, i ≠ .flag o) → i ≠ .brk → isBranch i = false → e.h = s.h

/-- A state that differs from `s` in none of those fields. -/
theorem Agrees.of_eq {i : Instr} {s e : State} (bytes : e.mem = s.mem) (semArc : e.semArc = s.semArc)
    (loops : e.lpStart = s.lpStart ∧ e.lpEnd = s.lpEnd) (mr : e.mr = s.mr) (halt : e.h = s.h) : Agrees i s e :=
  ⟨fun _ => bytes, semArc, fun _ => loops, fun _ _ => mr, fun _ _ _ => halt⟩

/-- An instruction that completes with a frame `e`. -/
theorem Writes.of_same {i : Instr} {s e t : State} (h : Same e t) (he : Agrees i s e) (zz : i ≠ .sleep → e.zz = s.zz)
    (enables : (∀ o, i ≠ .flag o) → (∀ o, i ≠ .jcc o) → (∀ o, i ≠ .jlcc o) → e.e1 = s.e1 ∧ e.e2 = s.e2) :
    Writes i s t where
  bytes hi a := (h.bytes a).trans (by rw [he.bytes hi])
  semArc _ := h.semaphores.1.trans he.semArc
  loops _ hi := ⟨h.loops.1.trans (he.loops hi).1, h.loops.2.trans (he.loops hi).2⟩
  mr _ h1 h2 := h.mr.trans (he.mr h1 h2)
  halt h1 h2 h3 := h.halt.1.trans (he.halt h1 h2 h3)
  zz hi := .inl (h.dbg.1.trans (zz hi))
  enables h1 h2 h3 := .inl ⟨h.enables.1.trans (enables h1 h2 h3).1, h.enables.2.trans (enables h1 h2 h3).2⟩

/-- A frame that agrees with `s` in the wait and the enables too. -/
theorem Writes.of_frame {i : Instr} {s e t : State} (h : Same e t) (he : Agrees i s e) (zz : e.zz = s.zz)
    (enables : e.e1 = s.e1 ∧ e.e2 = s.e2) : Writes i s t :=
  .of_same h he (fun _ => zz) fun _ _ _ => enables

/-- An instruction that takes vector 1 or 2. -/
theorem Writes.of_entered {i : Instr} {s e t : State} {k : Nat} {ret count : PAddr} (h : Entered e k .exc ret count t)
    (hk : k = 1 ∨ k = 2) (he : Agrees i s e) (cfg : e.cfg = s.cfg) : Writes i s t where
  bytes hi a := (h.same.bytes a).trans (by rw [he.bytes hi])
  semArc _ := h.same.semaphores.1.trans he.semArc
  loops _ hi := ⟨h.same.loops.1.trans (he.loops hi).1, h.same.loops.2.trans (he.loops hi).2⟩
  mr _ h1 h2 := h.same.mr.trans (he.mr h1 h2)
  halt h1 h2 h3 := h.same.halt.1.trans (he.halt h1 h2 h3)
  zz _ := .inr h.same.dbg.1
  enables _ _ _ := by
    refine .inr ⟨h.same.enables.1, h.same.enables.2, ?_⟩
    rw [← cfg]
    exact hk.imp (fun hk => by rw [h.pc, hk]; rfl) fun hk => by rw [h.pc, hk]; rfl

/-! ### The templates -/

/-- What a template that completes has changed: registers and flags. -/
def Computed (s t : State) : Prop :=
  ∃ regs z n c v, Same { s with regs := regs, z := z, n := n, c := c, v := v } t

theorem Computed.writes {i : Instr} {s t : State} (h : Computed s t) : Writes i s t := by
  obtain ⟨regs, z, n, c, v, h⟩ := h
  exact .of_frame h (.of_eq rfl rfl ⟨rfl, rfl⟩ rfl rfl) rfl ⟨rfl, rfl⟩

theorem computed_of_withOut {s t : State} {f : Bool} {o : AluOut} {regs : Vector Word 32}
    (h : Same { withOut s f o with regs := regs } t) : Computed s t := by
  cases f
  · exact ⟨_, _, _, _, _, h⟩
  · exact ⟨_, _, _, _, _, h⟩

theorem computed_of_same {s t : State} (h : Same s t) : Computed s t := ⟨_, _, _, _, _, h⟩

theorem computed_dualOp {fn : Word → Word → Bool → AluOut} {o : Dual} {s t : State} (h : dualOp fn o s = .next t) :
    Computed s t := by
  cases hc : s.cond o.cc
  · simp only [dualOp, State.issue_cond, hc] at h
    cases h
    exact computed_of_same (((same_issue s _).trans ((same_touch2 _ _).trans (same_awaitDst _ _))).retire _)
  · have writable : Writable s o.dst := by
      simp only [dualOp, State.issue_cond, hc, if_true] at h
      exact (complete_cases h).1.congr (by simp)
    obtain ⟨t', run, same, -⟩ := dualOp_next fn o s hc writable
    obtain rfl : t' = t := Host.Outcome.next.inj (run.symm.trans h)
    exact computed_of_withOut same

theorem computed_singleOp {fn : Word → Bool → AluOut} {o : Single} {s t : State} (h : singleOp fn o s = .next t) :
    Computed s t := by
  cases hc : s.cond o.cc
  · simp only [singleOp, State.issue_cond, hc] at h
    cases h
    exact computed_of_same (((same_issue s _).trans ((same_touch1 _ _).trans (same_awaitDst _ _))).retire _)
  · have writable : Writable s o.dst := by
      simp only [singleOp, State.issue_cond, hc, if_true] at h
      exact (complete_cases h).1.congr (by simp)
    obtain ⟨t', run, same, -⟩ := singleOp_next fn o s hc writable
    obtain rfl : t' = t := Host.Outcome.next.inj (run.symm.trans h)
    exact computed_of_withOut same

theorem writes_mulOp {i : Instr} {fn : Word → Word → BitVec 64} {o : MulOp} {s t : State} (run : exec i s = mulOp fn o s)
    (name : i = .mul64 o ∨ i = .mulu64 o) (h : exec i s = .next t) : Writes i s t := by
  cases hc : s.cond o.cc
  · obtain ⟨t', run', same, -⟩ := mulOp_skip fn o s hc i run
    obtain rfl : t' = t := Host.Outcome.next.inj (run'.symm.trans h)
    exact (computed_of_same same).writes
  · obtain ⟨t', run', ⟨same, -⟩, -⟩ := mulOp_next fn o s hc i run
    obtain rfl : t' = t := Host.Outcome.next.inj (run'.symm.trans h)
    refine .of_frame same ⟨fun _ => rfl, rfl, fun _ => ⟨rfl, rfl⟩, fun h1 h2 => ?_, fun _ _ _ => rfl⟩ rfl ⟨rfl, rfl⟩
    exact name.elim (absurd · (h1 o)) (absurd · (h2 o))

theorem writes_instructionError (i : Instr) (s : State) (long : Bool) : Writes i s (s.instructionError long) := by
  obtain ⟨ret, entered, -⟩ := instructionError_entered s long
  exact .of_entered entered (.inr rfl) (.of_eq rfl rfl ⟨rfl, rfl⟩ rfl rfl) rfl

/-! ### LD and ST -/

/-- A load, `e` being the state a memory error goes on from. -/
theorem writes_load {i : Instr} {s u e t : State} {d b : RegField} {awb : Bool} {a : Word} {z : Size} {x : Bool}
    {p : PAddr} (hu : Same s u) (he : Same s e) (h : u.load e d (wbReg awb b) a z x p = .next t) : Writes i s t := by
  rcases load_cases h with rfl | ⟨w, rfl⟩
  · have same := (spoilBase_same he awb b a).putDst d ((e.spoilBase (wbReg awb b) a).freeWord .result)
    rw [← spoilDst_eq] at same
    obtain ⟨ret, entered⟩ := memoryError_entered same
    exact .of_entered entered (.inl rfl) (.of_eq rfl rfl ⟨rfl, rfl⟩ rfl rfl) rfl
  · have same := ((((hu.trans (same_perform u a z)).putDst (backTo awb b) a).putDst d w).noteLoad d).retire p
    exact .of_frame same (.of_eq rfl rfl ⟨rfl, rfl⟩ rfl rfl) rfl ⟨rfl, rfl⟩

/-- The frame of a store agrees but for memory. -/
theorem agrees_st {o : StoreOp} {s e : State} (semArc : e.semArc = s.semArc)
    (loops : e.lpStart = s.lpStart ∧ e.lpEnd = s.lpEnd) (mr : e.mr = s.mr) (halt : e.h = s.h) : Agrees (.st o) s e :=
  ⟨fun h => absurd rfl (h o), semArc, fun _ => loops, fun _ _ => mr, fun _ _ _ => halt⟩

theorem writes_st {o : StoreOp} {s t : State} (h : exec (.st o) s = .next t) : Writes (.st o) s t := by
  let long := StoreOp.isLong o
  let u := ((s.issue long).touchField o.base).touchField o.data
  let e := (s.tick.touchField o.base).touchField o.data
  have hu : Same s u := (same_issue s long).trans (same_touchFields _ _ _)
  have he : Same s e := (same_tick s).trans (same_touchFields _ _ _)
  rcases storeTo_cases (s := u) (e := e) h with rfl | rfl
  · obtain ⟨ret, entered, -⟩ := storeFault_entered he (by simp [e]) (by simp [e]) o.awb o.base
      (storeAddr o (s.issue long)) (e.freeWord .stored) o.size
    exact .of_entered entered (.inl rfl) (agrees_st rfl ⟨rfl, rfl⟩ rfl rfl) rfl
  · have same := ((hu.store (storeAddr o (s.issue long)) o.size ((s.issue long).fieldVal .operand2 o.data o.limm
      o.off)).putDst (backTo o.awb o.base) (storeAddr o (s.issue long))).retire (s.fallThrough long)
    exact .of_frame same (agrees_st rfl ⟨rfl, rfl⟩ rfl rfl) rfl ⟨rfl, rfl⟩

/-! ### LR, SR, FLAG, BRK, SLEEP and SWI -/

theorem writes_lr {o : LrOp} {s t : State} (h : exec (.lr o) s = .next t) : Writes (.lr o) s t := by
  have writable : Writable s o.dst := by
    obtain ⟨u, hu, -⟩ := andThen_eq_next.1 (show andThen _ _ = _ from h)
    exact (writeDst_cases hu).1.congr (by simp)
  obtain ⟨w, ld, ⟨t', run, same, -⟩, -⟩ := lrResult o s writable
  obtain rfl : t' = t := Host.Outcome.next.inj (run.symm.trans h)
  exact .of_frame same (.of_eq rfl rfl ⟨rfl, rfl⟩ rfl rfl) rfl ⟨rfl, rfl⟩

theorem writes_sr {o : SrOp} {s t : State} (h : exec (.sr o) s = .next t) : Writes (.sr o) s t := by
  obtain ⟨w, hw, h⟩ := andThen_eq_next.1 (show andThen _ _ = _ from h)
  cases h
  have named : ∀ {P : Prop}, (∀ o', Instr.sr o ≠ .sr o') → P := fun h => absurd rfl (h o)
  rcases auxWrite_cases hw with ⟨-, rfl⟩ | ⟨-, rfl⟩ | ⟨-, rfl⟩ | ⟨-, -, rfl⟩ | rfl
  all_goals exact ⟨fun _ => by simp, named, named, named, fun _ _ _ => by simp, fun _ => .inl (by simp),
    fun _ _ _ => .inl (by simp)⟩

theorem writes_flag {o : Single} {s t : State} (h : exec (.flag o) s = .next t) : Writes (.flag o) s t := by
  have proper : ¬(o.f = true ∨ ∃ r, o.dst = .reg r) := fun hp => by rw [flagResult.1 o s hp] at h; cases h
  have agrees : ∀ {e : State}, e.mem = s.mem → e.semArc = s.semArc → (e.lpStart = s.lpStart ∧ e.lpEnd = s.lpEnd) →
      e.mr = s.mr → Agrees (.flag o) s e := fun h1 h2 h3 h4 =>
    ⟨fun _ => h1, h2, fun _ => h3, fun _ _ => h4, fun hf => absurd rfl (hf o)⟩
  have enables : ∀ {P : Prop}, (∀ o', Instr.flag o ≠ .flag o') → P := fun h => absurd rfl (h o)
  have hf : o.f = false := Bool.eq_false_iff.2 fun hf => proper (.inl hf)
  have hd : ∀ r, o.dst ≠ .reg r := fun r hr => proper (.inr ⟨r, hr⟩)
  cases hc : s.cond o.cc
  · have hr : o.dst.isReg = false := by
      cases hk : o.dst with
      | reg r => exact absurd hk (hd r)
      | ind k => rfl
    obtain ⟨t', run, same, -⟩ := flag_skip hf hr hc
    obtain rfl : t' = t := Host.Outcome.next.inj (run.symm.trans h)
    exact (computed_of_same same).writes
  · obtain ⟨go, stop⟩ := flagResult.2 o s hf hd hc
    cases hx : (operand s o.src).getLsbD 0
    · obtain ⟨t', run, same, -⟩ := go hx
      obtain rfl : t' = t := Host.Outcome.next.inj (run.symm.trans h)
      exact .of_same same (agrees rfl rfl ⟨rfl, rfl⟩ rfl) (fun _ => rfl) fun hf => enables hf
    · obtain ⟨t', run, ⟨same, -⟩, -⟩ := stop hx
      obtain rfl : t' = t := Host.Outcome.next.inj (run.symm.trans h)
      exact .of_same same (agrees rfl rfl ⟨rfl, rfl⟩ rfl) (fun _ => rfl) fun hf => enables hf

theorem writes_brk {s t : State} (h : exec .brk s = .next t) : Writes .brk s t := by
  obtain ⟨t', run, same, -⟩ := brkHalts s
  obtain rfl : t' = t := Host.Outcome.next.inj (run.symm.trans h)
  exact .of_frame same ⟨fun _ => rfl, rfl, fun _ => ⟨rfl, rfl⟩, fun _ _ => rfl, fun _ hb => absurd rfl hb⟩ rfl ⟨rfl, rfl⟩

theorem writes_sleep {s t : State} (h : exec .sleep s = .next t) : Writes .sleep s t := by
  obtain ⟨t', run, same, -⟩ := sleepResult s
  obtain rfl : t' = t := Host.Outcome.next.inj (run.symm.trans h)
  exact .of_same same (.of_eq rfl rfl ⟨rfl, rfl⟩ rfl rfl) (absurd rfl) fun _ _ _ => ⟨rfl, rfl⟩

theorem writes_swi {s t : State} (h : exec .swi s = .next t) : Writes .swi s t := by
  obtain ⟨t', run, entered⟩ := swiEntry s
  obtain rfl : t' = t := Host.Outcome.next.inj (run.symm.trans h)
  exact .of_entered entered (.inr rfl) (.of_eq rfl rfl ⟨rfl, rfl⟩ rfl rfl) rfl

/-! ### The branches -/

/-- The frame of a branch agrees but for H. -/
theorem agrees_branch {i : Instr} {s e : State} (hi : isBranch i = true) (bytes : e.mem = s.mem)
    (semArc : e.semArc = s.semArc) (loops : (∀ o, i ≠ .lpcc o) → e.lpStart = s.lpStart ∧ e.lpEnd = s.lpEnd)
    (mr : e.mr = s.mr) : Agrees i s e :=
  ⟨fun _ => bytes, semArc, loops, fun _ _ => mr, fun _ _ h => by rw [hi] at h; cases h⟩

/-- A branch that is held, or has its effect in `e`. -/
theorem writes_slotted {i : Instr} {n : SlotMode} {effect : State → PAddr → State} {s e t : State}
    (h : slotted n effect s = .next t) (hi : isBranch i = true)
    (he : Same e (effect (s.issue false) (s.fallThrough false))) (bytes : e.mem = s.mem) (semArc : e.semArc = s.semArc)
    (loops : (∀ o, i ≠ .lpcc o) → e.lpStart = s.lpStart ∧ e.lpEnd = s.lpEnd) (mr : e.mr = s.mr) (zz : e.zz = s.zz)
    (enables : (∀ o, i ≠ .flag o) → (∀ o, i ≠ .jcc o) → (∀ o, i ≠ .jlcc o) → e.e1 = s.e1 ∧ e.e2 = s.e2) :
    Writes i s t := by
  obtain ⟨-, rfl | rfl⟩ := slotted_cases h
  · exact .of_frame (same_holdAtBrk s) (agrees_branch hi rfl rfl (fun _ => ⟨rfl, rfl⟩) rfl) rfl ⟨rfl, rfl⟩
  · exact .of_same he (agrees_branch hi bytes semArc loops mr) (fun _ => zz) enables

theorem writes_bcc {o : BranchOp} {s t : State} (h : exec (.bcc o) s = .next t) : Writes (.bcc o) s t :=
  writes_slotted (effect := bccEffect o) h rfl ((same_issue s false).trans (same_transfer _ _ _ _ _)) rfl rfl
    (fun _ => ⟨rfl, rfl⟩) rfl rfl fun _ _ _ => ⟨rfl, rfl⟩

theorem writes_blcc {o : BranchOp} {s t : State} (h : exec (.blcc o) s = .next t) : Writes (.blcc o) s t := by
  have same : ∃ regs, Same { s with regs := regs } (blccEffect o (s.issue false) (s.fallThrough false)) := by
    unfold blccEffect
    split
    · exact ⟨_, (same_link (same_issue s false) o.n).trans (same_transfer _ _ _ _ _)⟩
    · exact ⟨s.regs, (same_issue s false).trans (same_transfer _ _ _ _ _)⟩
  obtain ⟨regs, same⟩ := same
  exact writes_slotted (effect := blccEffect o) h rfl same rfl rfl (fun _ => ⟨rfl, rfl⟩) rfl rfl fun _ _ _ => ⟨rfl, rfl⟩

theorem writes_lpcc {o : BranchOp} {s t : State} (h : exec (.lpcc o) s = .next t) : Writes (.lpcc o) s t := by
  have same : ∃ p q, Same { s with lpStart := p, lpEnd := q } (lpccEffect o (s.issue false) (s.fallThrough false)) := by
    unfold lpccEffect
    split
    · exact ⟨_, _, (same_setLoop (same_issue s false) _ _).trans (same_transfer _ _ _ _ _)⟩
    · exact ⟨s.lpStart, s.lpEnd, (same_issue s false).trans (same_transfer _ _ _ _ _)⟩
  obtain ⟨p, q, same⟩ := same
  exact writes_slotted (effect := lpccEffect o) h rfl same rfl rfl (fun hl => absurd rfl (hl o)) rfl rfl
    fun _ _ _ => ⟨rfl, rfl⟩

/-- What a jump changes before it goes: BLINK, and the flags and enables it loads. -/
def Loaded (s t : State) : Prop :=
  ∃ regs f w, Same (withStatus { s with regs := regs } f w) t

theorem Loaded.of_same {s t : State} (h : Same s t) : Loaded s t := ⟨s.regs, false, 0, h⟩

theorem Loaded.trans {s t u : State} (h : Loaded s t) (k : Same t u) : Loaded s u := by
  obtain ⟨regs, f, w, h⟩ := h
  exact ⟨regs, f, w, h.trans k⟩

theorem loaded_flagsFrom {s u : State} {regs : Vector Word 32} (h : Same { s with regs := regs } u) (f : Bool) (w : Word) :
    Loaded s (u.flagsFrom f w) := ⟨regs, f, w, same_flagsFrom h f w⟩

/-- A jump: only the flags and enables it may load are its own. -/
theorem Loaded.writes {i : Instr} {s t : State} (h : Loaded s t) (hi : (∃ o, i = .jcc o) ∨ ∃ o, i = .jlcc o) :
    Writes i s t := by
  obtain ⟨regs, f, w, h⟩ := h
  have agrees : Agrees i s (withStatus { s with regs := regs } f w) := by
    cases f <;> exact .of_eq rfl rfl ⟨rfl, rfl⟩ rfl rfl
  have zz : (withStatus { s with regs := regs } f w).zz = s.zz := by cases f <;> rfl
  refine .of_same h agrees (fun _ => zz) fun _ h1 h2 => ?_
  exact hi.elim (fun ⟨o, ho⟩ => absurd ho (h1 o)) fun ⟨o, ho⟩ => absurd ho (h2 o)

/-- A jump through a register: held, or gone. -/
theorem writes_jump {i : Instr} {n : SlotMode} {effect : State → PAddr → State} {s t : State}
    (h : slotted n effect s = .next t) (hi : (∃ o, i = .jcc o) ∨ ∃ o, i = .jlcc o)
    (he : Loaded s (effect (s.issue false) (s.fallThrough false))) : Writes i s t := by
  have branch : isBranch i = true := by
    rcases hi with ⟨o, rfl⟩ | ⟨o, rfl⟩ <;> rfl
  obtain ⟨-, rfl | rfl⟩ := slotted_cases h
  · exact .of_frame (same_holdAtBrk s) (agrees_branch branch rfl rfl (fun _ => ⟨rfl, rfl⟩) rfl) rfl ⟨rfl, rfl⟩
  · exact he.writes hi

/-- A branch that completes is not in an executed slot. -/
theorem slot_of_branch {i : Instr} {s t : State} (hi : isBranch i = true) (h : exec i s = .next t) :
    ∀ target, s.slot ≠ .run target := fun target hs => by
  rw [slotContentsRefused.1 i s target hi hs] at h; cases h

theorem writes_jcc {o : JumpOp} {s t : State} (h : exec (.jcc o) s = .next t) : Writes (.jcc o) s t := by
  obtain ⟨src, f, n, q⟩ := o
  cases src with
  | reg b =>
    have hu : Same s ((s.issue false).touch b) := (same_issue s false).trans (same_touch _ _)
    refine writes_jump (effect := jccEffect b f n q) h (.inl ⟨_, rfl⟩) (Loaded.trans ?_ (same_transfer _ _ _ _ _))
    split
    · exact loaded_flagsFrom (regs := s.regs) hu f _
    · exact .of_same hu
  | limm w =>
    rw [execJcc_limm w f n q (slot_of_branch rfl h)] at h
    cases h
    refine Loaded.writes ?_ (.inl ⟨_, rfl⟩)
    split
    · exact (loaded_flagsFrom (regs := s.regs) (same_issue s true) f w).trans ((Same.refl _).goTo _)
    · exact .of_same ((same_issue s true).goTo _)

theorem writes_jlcc {o : JumpOp} {s t : State} (h : exec (.jlcc o) s = .next t) : Writes (.jlcc o) s t := by
  obtain ⟨src, f, n, q⟩ := o
  cases src with
  | reg b =>
    have hu : Same s ((s.issue false).touch b) := (same_issue s false).trans (same_touch _ _)
    refine writes_jump (effect := jlccEffect b f n q) h (.inr ⟨_, rfl⟩) (Loaded.trans ?_ (same_transfer _ _ _ _ _))
    split
    · exact loaded_flagsFrom (same_link hu n) f _
    · exact .of_same hu
  | limm w =>
    have hs := slot_of_branch rfl h
    have hn : n ≠ .d := fun hn => by rw [hn, execJlcc_limm_d w f q hs] at h; cases h
    rw [execJlcc_limm w f q hs hn] at h
    cases h
    refine Loaded.writes ?_ (.inr ⟨_, rfl⟩)
    split
    · exact (loaded_flagsFrom (same_link (same_issue s true) n) f w).trans ((Same.refl _).goTo _)
    · exact .of_same ((same_issue s true).goTo _)

/-! ### Every instruction -/

theorem exec_writes {i : Instr} {s t : State} (h : exec i s = .next t) : Writes i s t := by
  by_cases ht : usesTemplate i = true
  · cases runsAs ht s with
    | dual fn o run => exact (computed_dualOp (run.symm.trans h)).writes
    | single fn o run => exact (computed_singleOp (run.symm.trans h)).writes
    | mul fn o run name => exact writes_mulOp run name h
    | absent long run =>
      obtain rfl := Host.Outcome.next.inj (run.symm.trans h)
      exact writes_instructionError i s long
  · cases i with
    | ldRR o => exact writes_load ((same_issue s _).trans (same_touch2 _ _)) ((same_tick s).trans (same_touch2 _ _)) h
    | ldRO o =>
      exact writes_load ((same_issue s _).trans (same_touchField _ _)) ((same_tick s).trans (same_touchField _ _)) h
    | lr o => exact writes_lr h
    | st o => exact writes_st h
    | sr o => exact writes_sr h
    | flag o => exact writes_flag h
    | brk => exact writes_brk h
    | sleep => exact writes_sleep h
    | swi => exact writes_swi h
    | bcc o => exact writes_bcc h
    | blcc o => exact writes_blcc h
    | lpcc o => exact writes_lpcc h
    | jcc o => exact writes_jcc h
    | jlcc o => exact writes_jlcc h
    | _ => exact absurd rfl ht

/-- Settles O59: each instruction's frame agrees with the state it started in, but for the fields it is named for. -/
theorem stateWriters : Obligations.StateWriters := by
  intro i s t h
  have keeps := (exec_keeps i h).1
  obtain ⟨bytes, semArc, loops, mr, halt, zz, -⟩ := exec_writes h
  exact ⟨keeps.cfg, keeps.semHost, keeps.host.1, keeps.host.2, keeps.step.1, keeps.step.2, bytes, semArc, loops, mr,
    halt, zz⟩

/-- Settles O60: from the same account of every instruction. -/
theorem enableWriters : Obligations.EnableWriters := fun _ _ _ h => (exec_writes h).enables

end Sys2Proof
end

section
/-! Proofs of the family other: the path of the fetches and the host's write of STATUS (60_exceptions.md R357 to R366;
10_state.md R60). -/

namespace Sys2Proof

open Machine

-- One thread, as in the laws.
set_option Elab.async false

/-! ### The path of the fetches -/

/-- A fetch that finds a BRK. -/
theorem fetchInstr_brk {s : State} (h : s.brkAt s.pc = true) : s.fetchInstr = .instr .brk := by
  simp only [State.brkAt, Bool.and_eq_true, Bool.not_eq_true', beq_iff_eq] at h
  obtain ⟨⟨hv, hs⟩, hw⟩ := h
  refine fetchInstr_instr hv hs (x := 0) ?_ ?_ (fun _ => rfl) ?_
  · rw [hw]; rfl
  · rw [hw]; intro hn; cases hn
  · rw [hw]; rfl

theorem secondFetch_brk {s : State} (h : s.brkAt s.pc = true) : s.secondFetch = s.pc := if_pos h

theorem secondFetch_next {s : State} (h : s.brkAt s.pc = false) : s.secondFetch = s.fallThrough false :=
  if_neg (by rw [h]; decide)

/-- A BRK at the pc stays where it is. -/
theorem thirdFetch_brk {s : State} (h : s.brkAt s.pc = true) : s.thirdFetch = s.pc := by
  have word : s.codeWord s.pc = brkWord := by
    simp only [State.brkAt, Bool.and_eq_true, beq_iff_eq] at h
    exact h.2
  rw [State.thirdFetch, fetchInstr_brk h, secondFetch_brk h, word]
  exact if_pos (by rw [h]; rfl)

/-- The fetch after the second, where the first and the second go on. -/
theorem goesOn_onward {s : State} (h : s.brkAt s.pc = false) {long : Bool} (hp : s.pathPc 2 = s.onward long) :
    GoesOn s long := by
  refine ⟨fun hl => ?_, fun hl hb => ?_, fun hl hb => ?_⟩
  · rw [hp, State.onward, if_pos hl]
  · rw [hp, State.onward, if_neg (by rw [hl]; decide), secondFetch_next h, if_pos hb]
  · rw [hp, State.onward, if_neg (by rw [hl]; decide), secondFetch_next h, if_neg (by rw [hb]; decide)]
    exact ⟨_, loopFetched (s.issue false).tick 0 (s.fallThrough false)⟩

/-- Where the model sends the fetch is where the statement says. -/
theorem sendsFetch_eq (s : State) (long : Bool) (i : Instr) :
    (s.issue long).sendsFetch (s.fallThrough false) i = redirected s long i := by
  cases i with
  | bcc o | blcc o | lpcc o => simp only [State.sendsFetch, redirected, State.issue_cond]; rfl
  | jcc o | jlcc o =>
    obtain ⟨src, f, n, q⟩ := o
    cases src <;> simp only [State.sendsFetch, redirected, State.issue_cond]
  | swi => simp only [State.sendsFetch, redirected, State.issue_cfg]; rfl
  | _ => rfl

/-- The fetch after the second, past an instruction that is no SWI. -/
theorem thirdFetch_instr {s : State} {i : Instr} (hi : s.fetchInstr = .instr i) (hn : i ≠ .swi) :
    s.thirdFetch = if !needsLimm (s.codeWord s.pc) && s.brkAt s.secondFetch then s.secondFetch
      else ((s.issue (needsLimm (s.codeWord s.pc))).sendsFetch s.secondFetch i).getD
        (s.onward (needsLimm (s.codeWord s.pc))) := by
  rw [State.thirdFetch, hi]
  cases i with
  | swi => exact absurd rfl hn
  | _ => rfl

theorem pathRule (s : State) : PathRule s := by
  have third : s.pathPc 2 = s.thirdFetch := rfl
  refine ⟨rfl, fun h => ⟨secondFetch_brk h, thirdFetch_brk h⟩, fun h => ⟨secondFetch_next h, ?_, ?_, ?_, ?_, ?_⟩⟩
  · rintro (hf | hf) <;> rw [third, State.thirdFetch, hf] <;> rfl
  · rintro (⟨b, hf⟩ | hf) <;> rw [third, State.thirdFetch, hf] <;> rfl
  · exact fun hf => goesOn_onward h (by rw [third, State.thirdFetch, hf])
  · rintro (⟨o, hf⟩ | ⟨r, hf⟩) <;> exact goesOn_onward h (by rw [third, State.thirdFetch, hf])
  · intro i hi hn
    have rule := thirdFetch_instr hi hn
    rw [secondFetch_next h, sendsFetch_eq] at rule
    refine ⟨fun hl hb => ?_, fun hor => ?_⟩
    · rw [third, rule, if_pos (by rw [hl, hb]; rfl)]
    · have past : (!needsLimm (s.codeWord s.pc) && s.brkAt (s.fallThrough false)) = false := by
        rcases hor with hl | hb
        · rw [hl]; rfl
        · rw [hb, Bool.and_false]
      rw [past] at rule
      refine ⟨fun p hp => ?_, fun hp => goesOn_onward h ?_⟩
      · rw [third, rule, hp]; rfl
      · rw [third, rule, hp]; rfl

/-! ### The host's write of STATUS -/

/-- The state in which a host access is made: the input taken, a fresh draw. -/
def atAccess (s : State) (l : List Input) : State := (s.withInputs l).draw

theorem step_access {s : State} {l : List Input} {a : Word} {v : Word} (h : s.inputs = .host (.writeAux a v) :: l) :
    step s = (atAccess s l).hostWriteAux a v := step_host h

theorem same_atAccess (s : State) (l : List Input) : Same { s with inputs := l } (atAccess s l) :=
  ⟨rfl, rfl, rfl, ⟨rfl, rfl⟩, ⟨rfl, rfl, rfl, rfl⟩, ⟨rfl, rfl⟩, ⟨rfl, rfl, rfl⟩, ⟨rfl, rfl, rfl⟩, fun _ h => h, ⟨rfl, rfl⟩,
    fun _ => rfl, fun _ h => h, ⟨rfl, rfl⟩, ⟨rfl, rfl, rfl⟩⟩

theorem hostWriteAux_status (s : State) (v : Word) : s.hostWriteAux 0 v = .next (s.hostStatus v) :=
  if_neg (by simp [dualAccess])

/-- A halt the host asks for. -/
theorem hostHalt_halted (s : State) (l : List Input) :
    let t := (atAccess s l).hostHalt
    HaltedFrom { s with inputs := l } s.sh s.bh t ∧ t.pc = s.pc ∧ t.slot = s.slot ∧ t.lpCount = s.lpCount ∧
      (s.zz = true → t.hostPc = none) ∧
      (s.zz = false → SeenOnPath { s with inputs := l, draws := s.draws + 1 } t) := by
  refine ⟨?_, rfl, rfl, rfl, fun hz => ?_, fun hz => ?_⟩
  · unfold HaltedFrom; constructor <;> simp [atAccess, State.hostHalt, State.halt]
  · exact if_pos hz
  · obtain ⟨k, hk, h⟩ := seenPc_cases (atAccess s l)
    refine ⟨k, hk, (if_neg ?_ : (atAccess s l).hostHalt.hostPc = some (atAccess s l).seenPc).trans (congrArg some h)⟩
    rw [show (atAccess s l).zz = false from hz]; decide

/-- The pc replaced, what the pipeline held being discarded. -/
def movedTo (s : State) (p : PAddr) : State := { s with pc := p, slot := .none, lpLag := none, hostPc := none }

/-- The pc the host writes, back to the one it read to go on, or any other. -/
theorem hostSetPc_eq (s : State) (p : PAddr) (restarting : Bool) :
    s.hostSetPc p restarting =
      if restarting = true ∧ p = s.hostPc.getD s.pc ∧ ¬(s.bh = true ∧ s.hostPc ≠ none) then s
      else movedTo s p := by
  have held : s.branchHeld = true ↔ s.bh = true ∧ s.hostPc ≠ none := by
    rw [State.branchHeld, Bool.and_eq_true, Option.isSome_iff_ne_none]
  unfold State.hostSetPc
  refine ite_congr (propext ?_) (fun _ => rfl) fun _ => rfl
  rw [Bool.and_eq_true, Bool.and_eq_true, beq_iff_eq, Bool.not_eq_true', ← held, Bool.not_eq_true, and_assoc]
  rfl

/-- A restart leaves what the statement names. -/
theorem same_restart {e u : State} (h : Same e u) :
    Same { e with h := false, sh := false, bh := false, zz := false, ss := false, is := false, hostPc := none }
      u.restart := by
  obtain ⟨cfg, regs, mr, loops, flags, enables, -, -, loads, sem, bytes, buffer, stored, outside⟩ := h
  exact ⟨cfg, regs, mr, loops, flags, enables, ⟨rfl, rfl, rfl⟩, ⟨rfl, rfl, rfl⟩, loads, sem, bytes,
    fun b hb => buffer b (List.mem_filter.1 hb).1, stored, ⟨outside.1, rfl, outside.2.2⟩⟩

/-- The state a halted core is in after STATUS is written. -/
theorem hostStatus_halted {s : State} (h : s.h = true) (v : Word) :
    s.hostStatus v = if v.getLsbD 25 then (s.loadStatus v).hostSetPc (v.setWidth 24) false
      else ((s.loadStatus v).hostSetPc (v.setWidth 24) true).restart := by
  unfold State.hostStatus
  rw [if_pos h]
  cases v.getLsbD 25 <;> rfl

theorem same_loadStatus {e u : State} (h : Same e u) (w : Word) : Same (withStatus e true w) (u.loadStatus w) :=
  same_flagsFrom h true w

theorem same_movedTo {e u : State} (h : Same e u) (p : PAddr) : Same { e with hostPc := none } (movedTo u p) := by
  obtain ⟨cfg, regs, mr, loops, flags, enables, halt, dbg, loads, sem, bytes, buffer, stored, outside⟩ := h
  exact ⟨cfg, regs, mr, loops, flags, enables, halt, dbg, loads, sem, bytes, buffer, stored,
    ⟨outside.1, rfl, outside.2.2⟩⟩

/-- Settles O53: the path of the fetches, and the host's write by H and bit 25. -/
theorem hostStatusWrite : Obligations.HostStatusWrite := by
  refine ⟨pathRule, fun s v l hi => ?_⟩
  have run : step s = .next ((atAccess s l).hostStatus v) := (step_access hi).trans (hostWriteAux_status _ v)
  refine ⟨fun h hv => ?_, fun h hv => ?_, fun h => ?_⟩
  · refine ⟨atAccess s l, run.trans (congrArg _ ?_), same_atAccess s l, rfl, rfl, rfl⟩
    have hh : (atAccess s l).h = false := h
    rw [State.hostStatus, hh, hv]; rfl
  · obtain ⟨halted, pc, slot, count, asleep, awake⟩ := hostHalt_halted s l
    refine ⟨_, run.trans (congrArg _ ?_), halted, pc, slot, count, asleep, awake⟩
    have hh : (atAccess s l).h = false := h
    rw [State.hostStatus, hh, hv]; rfl
  · have same := same_loadStatus (same_atAccess s l) v
    have pos := hostSetPc_eq ((atAccess s l).loadStatus v) (v.setWidth 24)
    rw [hostStatus_halted (s := atAccess s l) h] at run
    generalize hu : (atAccess s l).loadStatus v = u at same pos run
    have pc : u.pc = s.pc := by rw [← hu]; rfl
    have slot : u.slot = s.slot := by rw [← hu]; rfl
    have lag : u.lpLag = s.lpLag := by rw [← hu]; rfl
    have count : u.lpCount = s.lpCount := by rw [← hu]; rfl
    have bh : u.bh = s.bh := by rw [← hu]; rfl
    have seen : u.hostPc = s.hostPc := by rw [← hu]; rfl
    rw [bh, seen, pc] at pos
    cases hv : v.getLsbD 25
    · rw [hv, if_neg (by decide), pos] at run
      by_cases hc : v.setWidth 24 = s.hostPc.getD s.pc ∧ ¬(s.bh = true ∧ s.hostPc ≠ none)
      · rw [if_pos ⟨rfl, hc⟩] at run
        refine ⟨_, run, count, ?_, nofun, fun _ => same_restart same⟩
        rw [if_pos ⟨rfl, hc⟩]
        exact ⟨pc, slot, lag⟩
      · rw [if_neg fun h => hc h.2] at run
        refine ⟨_, run, count, ?_, nofun, fun _ => same_restart (same_movedTo same _)⟩
        rw [if_neg fun h => hc h.2]
        exact ⟨rfl, rfl, rfl⟩
    · rw [hv, if_pos rfl, pos false, if_neg fun h => nomatch h.1] at run
      refine ⟨_, run, count, ?_, fun _ => same_movedTo same _, nofun⟩
      rw [if_neg fun h => nomatch h.1]
      exact ⟨rfl, rfl, rfl⟩

end Sys2Proof
end

section
/-! Proofs of the family other: the host's accesses to registers (60_exceptions.md R355, R358 to R362; 45_aux_access.md;
20_memory.md R90, R91). -/

namespace Sys2Proof

open Machine

-- One thread, as in the laws.
set_option Elab.async false

/-! ### Core registers -/

theorem step_readCore {s : State} {l : List Input} {r : CoreReg} (h : s.inputs = .host (.readCore r) :: l) :
    step s = (atAccess s l).hostReadCore r := step_host h

theorem step_writeCore {s : State} {l : List Input} {r : CoreReg} {v : Word}
    (h : s.inputs = .host (.writeCore r v) :: l) : step s = (atAccess s l).hostWriteCore r v := step_host h

theorem step_readAux {s : State} {l : List Input} {a : Word} (h : s.inputs = .host (.readAux a) :: l) :
    step s = (atAccess s l).hostReadAux a := step_host h

/-- A read's answer changes nothing else. -/
theorem same_answer {e u : State} (h : Same e u) (w : Word) : Same { e with hostData := w } (u.answer w) := by
  obtain ⟨cfg, regs, mr, loops, flags, enables, halt, dbg, loads, sem, bytes, buffer, stored, outside⟩ := h
  exact ⟨cfg, regs, mr, loops, flags, enables, halt, dbg, loads, sem, bytes, buffer, stored, ⟨outside.1, outside.2.1, rfl⟩⟩

/-- An access that only reads. -/
theorem hostGets_of {s : State} {act : HostAction} {P : Word → Prop} (w : List Input → Word)
    (run : ∀ l, s.inputs = .host act :: l → step s = .next ((atAccess s l).answer (w l)))
    (hP : ∀ l, P (w l)) : HostGets s act P := fun l hi =>
  ⟨_, run l hi, hP l, same_answer (same_atAccess s l) (w l), rfl, rfl, rfl⟩

theorem hostReadsCore (s : State) (r : CoreReg) : HostReadsCore s r := by
  intro h
  refine hostGets_of (fun l => if r = 60 then s.lpCount.setWidth 32 else (atAccess s l).readReg .operand1 r)
    (fun l hi => (step_readCore hi).trans (if_neg (by rw [show (atAccess s l).h = true from h]; decide))) fun l => ?_
  refine ⟨fun hr => ?_, fun hr => if_pos hr, fun hm => ⟨?_, ?_, ?_⟩⟩
  · have h60 : r ≠ 60 := fun e => absurd (e ▸ hr) (by decide)
    rw [if_neg h60, readReg_core _ _ _ hr]
    rfl
  · rintro rfl; exact (readReg_product (atAccess s l) .operand1 hm).1
  · rintro rfl; exact (readReg_product (atAccess s l) .operand1 hm).2.1
  · rintro rfl; exact (readReg_product (atAccess s l) .operand1 hm).2.2

/-- LP_COUNT is none of r0 to r31. -/
theorem regsWith_count (s : State) (w : Word) : regsWith s (.reg 60) w = s.regs := by
  ext i hi
  have hne : ¬ RegField.reg 60 = .reg ⟨i, by omega⟩ := by
    simp only [RegField.reg.injEq, Fin.ext_iff]; show ¬ 60 = i; omega
  rw [regsWith_get, if_neg hne]

theorem hostWritesCore (s : State) (r : CoreReg) (v : Word) : HostWritesCore s r v := by
  intro h l hi
  have run : step s = if r = 60 then .next { (atAccess s l).arrive 60 with lpCount := v.setWidth 24 }
      else (atAccess s l).writeReg r v :=
    (step_writeCore hi).trans (if_neg (by rw [show (atAccess s l).h = true from h]; decide))
  refine ⟨fun hw => ?_, fun hm hr => ?_⟩
  · by_cases h60 : r = 60
    · subst h60
      rw [if_pos rfl] at run
      refine ⟨_, run, ?_, rfl, rfl, (if_pos rfl).symm⟩
      rw [regsWith_count]
      obtain ⟨cfg, regs, mr, loops, flags, enables, halt, dbg, loads, sem, bytes, buffer, stored, outside⟩ :=
        (same_atAccess s l).trans (same_arrive _ 60)
      exact ⟨cfg, regs, mr, loops, flags, enables, halt, dbg, loads, sem, bytes, buffer, stored, outside⟩
    · rw [if_neg h60, State.writeReg, if_neg (by rw [show (atAccess s l).cfg = s.cfg from rfl, hw r rfl]; decide)] at run
      refine ⟨_, run, (same_atAccess s l).putDst (.reg r) v, by simp [atAccess], by simp [atAccess], ?_⟩
      rw [State.setReg_lpCount, if_neg h60, if_neg h60]
      rfl
  · have h60 : r ≠ 60 := by
      rintro rfl
      simp [MulField] at hr
    rw [run, if_neg h60]
    exact if_pos (isMulReg_of_mulField hm hr)

/-! ### Auxiliary registers read -/

/-- The accesses the host has at any time, and those to a halted core. -/
theorem access_allowed {s : State} {a : Word} (h : s.h = true ∨ a = 0 ∨ a = 1 ∨ a = 4 ∨ a = 5) :
    (!s.h && !dualAccess a) = false := by
  rcases h with h | rfl | rfl | rfl | rfl
  · rw [h]; rfl
  all_goals exact Bool.and_false _

theorem access_refused {s : State} {a : Word} (h : s.h = false) (h0 : a ≠ 0) (h1 : a ≠ 1) (h4 : a ≠ 4) (h5 : a ≠ 5) :
    (!s.h && !dualAccess a) = true := by
  rw [h, dualAccess, beq_eq_false_iff_ne.2 h0, beq_eq_false_iff_ne.2 h1, beq_eq_false_iff_ne.2 h4,
    beq_eq_false_iff_ne.2 h5]
  rfl

/-- A read of DEBUG may end the note of outstanding loads; no other read changes anything. -/
theorem same_auxSeen {e u : State} (h : Same e u) (a : Word) :
    Same { e with loads := if a = 5 ∧ u.loadPending = false then [] else e.loads } (u.auxSeen a) := by
  obtain ⟨cfg, regs, mr, loops, flags, enables, halt, dbg, loads, sem, bytes, buffer, stored, outside⟩ := h
  rw [auxSeen_eq]
  refine ⟨cfg, regs, mr, loops, flags, enables, halt, dbg, fun d hd => ?_, sem, bytes, buffer, stored, outside⟩
  dsimp only at hd ⊢
  split
  · rwa [if_pos ‹_›] at hd
  · rw [if_neg ‹_›] at hd; exact loads d hd

theorem hostReadsAux (s : State) (a : Word) : HostReadsAux s a := by
  intro hor l hi
  let q := atAccess s l
  let w := q.auxRead a (q.statusWord q.hostPcRead) q.semHost
  have run : step s = .next ((q.auxSeen a).answer w) :=
    (step_readAux hi).trans (if_neg (by rw [access_allowed (s := atAccess s l) hor]; decide))
  obtain ⟨r0, r1, r2, r3, r4, r5, rb, ro⟩ := auxRead_values q a (q.statusWord q.hostPcRead) q.semHost
  refine ⟨_, q.loadPending, run, same_answer (same_auxSeen (same_atAccess s l) a) w, by simp [q, atAccess],
    by simp [q, atAccess], by simp [q, atAccess], fun hl => ?_, r0, r1, r2, r3, r4, r5, rb, ro⟩
  have : q.loads = [] := hl
  rw [State.loadPending, this]; rfl

/-! ### Auxiliary registers written -/

/-- The host's write of an auxiliary register of a halted core, by the address. -/
theorem hostWriteAux_halted {s : State} (h : s.h = true) (v : Word) :
    s.hostWriteAux 2 v = .next { s with lpStart := v.setWidth 24 } ∧
    s.hostWriteAux 3 v = .next { s with lpEnd := v.setWidth 24 } ∧
    (s.cfg.hasMul = true → s.hostWriteAux 0x12 v = .next (s.writeMulHi v)) ∧
    ∀ a : Word, 6 ≤ a.toNat →
      (0x60 ≤ a.toNat ∧ a.toNat ≤ 0x7F → s.hostWriteAux a v = .refused .readOnlyAux) ∧
      (¬(0x60 ≤ a.toNat ∧ a.toNat ≤ 0x7F) → ¬(a = 0x12 ∧ s.cfg.hasMul) → s.hostWriteAux a v = .next s) := by
  have allowed : ∀ a : Word, ¬((!s.h && !dualAccess a) = true) := fun a => by
    rw [access_allowed (.inl h)]; decide
  have far : ∀ a : Word, 6 ≤ a.toNat → s.hostWriteAux a v =
      if 0x60 ≤ a.toNat ∧ a.toNat ≤ 0x7F then .refused .readOnlyAux
      else if a = 0x12 ∧ s.cfg.hasMul then .next (s.writeMulHi v) else .next s := fun a ha => by
    obtain ⟨h0, h1, h2, h3, h4, h5⟩ := aux_ne_of_le ha
    rw [State.hostWriteAux, if_neg (allowed a), if_neg h0, if_neg h1, if_neg h2, if_neg h3, if_neg h4, if_neg h5]
  refine ⟨if_neg (allowed 2), if_neg (allowed 3), fun hm => ?_, fun a ha => ⟨fun hb => ?_, fun hb hm => ?_⟩⟩
  · rw [far 0x12 (by decide), if_neg (by decide), if_pos ⟨rfl, hm⟩]
  · rw [far a ha, if_pos hb]
  · rw [far a ha, if_neg hb, if_neg hm]

theorem hostWritesAux (s : State) (a v : Word) : HostWritesAux s a v := by
  refine ⟨?_, fun h l hi => ?_⟩
  · rintro rfl l hi
    exact (step_access hi).trans (if_neg (by rw [access_allowed (.inr (.inr (.inr (.inl rfl))))]; decide))
  let q := atAccess s l
  have run := step_access hi
  obtain ⟨w2, w3, w12, far⟩ := hostWriteAux_halted (s := q) h v
  obtain ⟨cfg, regs, mr, loops, flags, enables, halt, dbg, loads, sem, bytes, buffer, stored, outside⟩ := same_atAccess s l
  refine ⟨?_, ?_, ?_, fun ha hn hm => ?_, fun hl hh => ?_⟩
  · rintro rfl
    exact ⟨_, run.trans w2, ⟨cfg, regs, mr, ⟨rfl, rfl⟩, flags, enables, halt, dbg, loads, sem, bytes, buffer, stored,
      outside⟩, rfl, rfl, rfl⟩
  · rintro rfl
    exact ⟨_, run.trans w3, ⟨cfg, regs, mr, ⟨rfl, rfl⟩, flags, enables, halt, dbg, loads, sem, bytes, buffer, stored,
      outside⟩, rfl, rfl, rfl⟩
  · rintro rfl hm
    exact ⟨_, run.trans (w12 hm), ⟨⟨cfg, regs, rfl, loops, flags, enables, halt, dbg, loads, sem, bytes, buffer, stored,
      outside⟩, writeMulHi_halves q v⟩, rfl, rfl, rfl⟩
  · refine ⟨_, run.trans ((far a ha).2 hn ?_), same_atAccess s l, rfl, rfl, rfl⟩
    rintro ⟨h12, hmul⟩
    exact hm.elim (fun h => h h12) fun h => by rw [show q.cfg = s.cfg from rfl, h] at hmul; cases hmul
  · exact run.trans ((far a (by omega)).1 ⟨hl, hh⟩)

theorem hostWritesSemaphore (s : State) (v : Word) : HostWritesSemaphore s v := by
  intro l hi
  obtain ⟨cfg, regs, mr, loops, flags, enables, halt, dbg, loads, sem, bytes, buffer, stored, outside⟩ := same_atAccess s l
  refine ⟨{ atAccess s l with semHost := semClaim (semMask s.cfg) s.semArc v }, (step_access hi).trans
    (if_neg (by rw [access_allowed (.inr (.inr (.inl rfl)))]; decide)), ?_, rfl, rfl, rfl,
    fun k hk => semClaim_getLsbD s.cfg s.semArc v hk⟩
  exact ⟨cfg, regs, mr, loops, flags, enables, halt, dbg, loads, ⟨rfl, rfl⟩, bytes, buffer, stored, outside⟩

theorem hostWritesDebug (s : State) (v : Word) : HostWritesDebug s v := by
  intro l hi fh ss is
  have run : step s = (atAccess s l).hostDebug v :=
    (step_access hi).trans (if_neg (by rw [access_allowed (.inr (.inr (.inr (.inr rfl))))]; decide))
  have debug : (atAccess s l).hostDebug v = if is && !ss then .refused .hostStep
      else if s.h then .next { atAccess s l with ss := ss, is := is }
      else if ss then .refused .hostStep
      else if fh then .next (atAccess s l).hostHalt
      else .next (atAccess s l) := rfl
  rw [debug] at run
  refine ⟨fun hor => ?_, fun h hnis hnss => ?_, fun h his => ?_⟩
  · rw [run]
    rcases hor with ⟨his, hss⟩ | ⟨h, hss⟩
    · rw [his, hss]; rfl
    · rw [h, hss, Bool.not_true, Bool.and_false]; rfl
  · rw [hnis, hnss, h] at run
    cases hfh : fh
    · rw [hfh] at run
      exact ⟨_, run, rfl, rfl, rfl, nofun, fun _ => same_atAccess s l⟩
    · rw [hfh] at run
      obtain ⟨halted, pc, slot, count, asleep, awake⟩ := hostHalt_halted s l
      exact ⟨_, run, pc, slot, count, fun _ => ⟨halted, asleep, awake⟩, nofun⟩
  · have order : (is && !ss) = false := by
      cases hi' : is
      · rfl
      · rw [his hi']; rfl
    rw [order, h] at run
    obtain ⟨cfg, regs, mr, loops, flags, enables, halt, dbg, loads, sem, bytes, buffer, stored, outside⟩ :=
      same_atAccess s l
    exact ⟨_, run, rfl, rfl, rfl, ⟨cfg, regs, mr, loops, flags, enables, halt, ⟨dbg.1, rfl, rfl⟩, loads, sem, bytes,
      buffer, stored, outside⟩⟩

end Sys2Proof
end

section
/-! Proofs of the family other: the host's accesses to memory (20_memory.md R72 to R85; 60_exceptions.md R355). -/

namespace Sys2Proof

open Machine

-- One thread, as in the laws.
set_option Elab.async false

/-! ### The bytes of an access -/

/-- Two memories in which an access reads the same have the same bytes there. -/
theorem byte_eq_of_memRead {e : Endian} {m m' : Memory} {a : Word} {z : Size} (h : memRead e m a z = memRead e m' a z)
    {i : Nat} (hi : i < Size.bytes z) : m.byte (a + BitVec.ofNat 32 i).toNat = m'.byte (a + BitVec.ofNat 32 i).toNat := by
  have empty : Memory.wf [] := ⟨List.Pairwise.nil, nofun⟩
  rw [← byte_copy (e := e) (m' := m) empty a z hi, h, byte_copy empty a z hi]

/-- Two memories with the same bytes of an access read the same there. -/
theorem memRead_congr {e : Endian} {m m' : Memory} {a : Word} {z : Size}
    (h : ∀ i < Size.bytes z, m.byte (a + BitVec.ofNat 32 i).toNat = m'.byte (a + BitVec.ofNat 32 i).toNat) :
    memRead e m a z = memRead e m' a z := by
  rw [memRead, memRead, Memory.readList_congr h]

/-- A write in two memories: a byte at which they agree, or of the access, is the same afterwards. -/
theorem byte_memWrite_congr {e : Endian} {m m' : Memory} (hm : m.wf) (hm' : m'.wf) (a : Word) (z : Size) (v : Word)
    {x : Nat} (h : m.byte x = m'.byte x) : (memWrite e m a z v).byte x = (memWrite e m' a z v).byte x := by
  by_cases hx : ∃ i < Size.bytes z, x = (a + BitVec.ofNat 32 i).toNat
  · obtain ⟨i, hi, rfl⟩ := hx
    exact byte_eq_of_memRead ((memRead_memWrite hm e a z v).trans (memRead_memWrite hm' e a z v).symm) hi
  · have out : ∀ i < Size.bytes z, x ≠ (a + BitVec.ofNat 32 i).toNat := fun i hi e => hx ⟨i, hi, e⟩
    rw [byte_memWrite_ne out, byte_memWrite_ne out, h]

/-! ### The stores the host does not see yet (20_memory.md R82) -/

/-- The stores not performed by the time `s` is at are buffered in `s`. -/
theorem settle_sublist (s : State) : s.settle.buffer.Sublist s.buffer := List.filter_sublist

/-- In a core halted with no load outstanding every store is performed. -/
theorem settle_halted {s : State} (h : s.h = true) (hl : s.loads = []) : s.settle.buffer = [] := by
  refine List.filter_eq_nil_iff.2 fun b _ => ?_
  rw [State.performed, h, hl]; exact Bool.false_ne_true

/-- An access none of whose bytes is in a buffered store, or in a core that has stopped. -/
theorem settle_apart {s : State} {a : Word} {z : Size}
    (h : (∀ b ∈ s.buffer, overlap b.addr b.size a z = false) ∨ s.h = true ∧ s.loads = []) :
    ∀ b ∈ s.settle.buffer, overlap b.addr b.size a z = false := by
  rcases h with h | ⟨hh, hl⟩
  · exact fun b hb => h b ((settle_sublist s).subset hb)
  · rw [settle_halted hh hl]; nofun

/-- A byte of a store that is taken back is the byte before it. -/
theorem byte_undo {e : Endian} {l : List Buffered} {m : Memory} (hm : m.wf)
    (hl : l.Pairwise fun d e => overlap d.addr d.size e.addr e.size = false) {b : Buffered} (hb : b ∈ l) {i : Nat}
    (hi : i < Size.bytes b.size) :
    (undo e l m).byte (b.addr + BitVec.ofNat 32 i).toNat =
      (memWrite e [] b.addr b.size b.old).byte (b.addr + BitVec.ofNat 32 i).toNat := by
  have empty : Memory.wf [] := ⟨List.Pairwise.nil, nofun⟩
  exact byte_eq_of_memRead ((memRead_fold_mem Buffered.old l hm hl hb).trans
    (memRead_memWrite empty e b.addr b.size b.old).symm) hi

/-! ### Reads -/

theorem step_readMem {s : State} {l : List Input} {a : Word} {z : Size} (h : s.inputs = .host (.readMem a z) :: l) :
    step s = (atAccess s l).hostReadMem a z := step_host h

theorem step_writeMem {s : State} {l : List Input} {a : Word} {z : Size} {v : Word}
    (h : s.inputs = .host (.writeMem a z v) :: l) : step s = (atAccess s l).hostWriteMem a z v := step_host h

theorem hostReadMem_eq (s : State) (a : Word) (z : Size) :
    (memValid s.cfg a.toNat (Size.bytes z) .load = false → s.hostReadMem a z = .refused .hostMemory) ∧
    (memValid s.cfg a.toNat (Size.bytes z) .load = true → accessOk s.cfg a z = false →
      s.hostReadMem a z = .fault .misaligned) ∧
    (memValid s.cfg a.toNat (Size.bytes z) .load = true → accessOk s.cfg a z = true →
      s.hostReadMem a z = .next (s.answer (memRead s.cfg.endian s.hostMem a z))) := by
  refine ⟨fun hv => ?_, fun hv ha => ?_, fun hv ha => ?_⟩
  · rw [State.hostReadMem, hv]; rfl
  · rw [State.hostReadMem, hv, ha]; rfl
  · rw [State.hostReadMem, hv, ha]; rfl

theorem hostReadsMem (s : State) (a : Word) (z : Size) : HostReadsMem s a z := by
  refine ⟨fun l hi => ⟨fun hv => (step_readMem hi).trans ((hostReadMem_eq (atAccess s l) a z).1 hv),
    fun hv ha => (step_readMem hi).trans ((hostReadMem_eq (atAccess s l) a z).2.1 hv ha)⟩, fun hv ha => ?_⟩
  refine hostGets_of (fun l => memRead s.cfg.endian (atAccess s l).hostMem a z)
    (fun l hi => (step_readMem hi).trans ((hostReadMem_eq (atAccess s l) a z).2.2 hv ha)) fun l => ⟨fun h => ?_,
      fun hm hap b hb hba hbz => ?_⟩
  · exact memRead_fold_apart Buffered.old _ s.mem a z (settle_apart (s := atAccess s l) h)
  · subst hba hbz
    exact memRead_undo_cases hm hap (settle_sublist (atAccess s l)) hb

/-! ### The bytes a write leaves (R82; log 29) -/

/-- A store that stays buffered over a write of the host keeps what the host wrote as what was there before. -/
def restored (s : State) (a : Word) (z : Size) (v : Word) (b : Buffered) : Buffered :=
  { b with old := memRead s.cfg.endian (memWrite s.cfg.endian s.hostMem a z v) b.addr b.size }

theorem inStore_map {l : List Buffered} {f : Buffered → Buffered} (addr : ∀ b, (f b).addr = b.addr)
    (size : ∀ b, (f b).size = b.size) (x : Nat) : InStore (l.map f) x ↔ InStore l x := by
  constructor
  · rintro ⟨b, hb, i, hi, hx⟩
    obtain ⟨c, hc, rfl⟩ := List.mem_map.1 hb
    exact ⟨c, hc, i, by rwa [size] at hi, by rwa [addr] at hx⟩
  · rintro ⟨b, hb, i, hi, hx⟩
    exact ⟨f b, List.mem_map_of_mem hb, i, by rwa [size], by rwa [addr]⟩

theorem inStore_mono {l l' : List Buffered} (h : l.Sublist l') {x : Nat} (hx : InStore l x) : InStore l' x := by
  obtain ⟨b, hb, r⟩ := hx
  exact ⟨b, h.subset hb, r⟩

/-- A store still buffered goes over the host's write; every other byte is as the write makes it. -/
theorem hostPutMem_byte {s : State} (hm : s.mem.wf) (a : Word) (z : Size) (v : Word) (x : Nat) :
    (InStore s.settle.buffer x → (s.hostPutMem a z v).mem.byte x = s.mem.byte x) ∧
    (¬ InStore s.settle.buffer x → (s.hostPutMem a z v).mem.byte x = (memWrite s.cfg.endian s.mem a z v).byte x) :=
  byte_fold_copy s.mem s.settle.buffer (memWrite_wf hm s.cfg.endian a z v) x

theorem hostPutMem_outside {s : State} (hm : s.mem.wf) {a : Word} {z : Size} (v : Word) {x : Nat}
    (hx : ∀ i < Size.bytes z, x ≠ (a + BitVec.ofNat 32 i).toNat) : (s.hostPutMem a z v).mem.byte x = s.mem.byte x := by
  obtain ⟨store, other⟩ := hostPutMem_byte hm a z v x
  by_cases h : InStore s.settle.buffer x
  · exact store h
  · rw [other h, byte_memWrite_ne hx]

/-- The state at a later time. -/
def atDraw (s : State) (m : Nat) : State := { s with draws := m }

/-- A store performed once stays performed. -/
theorem settle_later {s : State} {m : Nat} (h : s.draws ≤ m) :
    (atDraw s m).settle.buffer = s.settle.buffer.filter fun b => !(atDraw s m).performed b := by
  have later : ∀ b, s.performed b = true → (atDraw s m).performed b = true := fun b hb => by
    simp only [State.performed, Bool.or_eq_true, decide_eq_true_eq] at hb ⊢
    exact hb.imp_right fun hb => hb.trans h
  rw [State.settle, State.settle, List.filter_filter]
  refine List.filter_congr fun b _ => ?_
  cases hp : s.performed b
  · rw [Bool.not_false, Bool.and_true]
  · rw [later b hp]; rfl

/-- The stores buffered after a write of the host are performed when they would have been without it. -/
theorem settle_hostPutMem {s : State} (a : Word) (z : Size) (v : Word) {m : Nat} (h : s.draws ≤ m) :
    (atDraw (s.hostPutMem a z v) m).settle.buffer = (atDraw s m).settle.buffer.map (restored s a z v) := by
  rw [settle_later h]
  exact List.filter_map

/-- What the host reads some time after its write. -/
theorem hostMem_hostPutMem {s : State} (hm : s.mem.wf) (a : Word) (z : Size) (v : Word) {m : Nat} (h : s.draws ≤ m)
    (x : Nat) :
    (InStore (atDraw s m).settle.buffer x →
      (atDraw (s.hostPutMem a z v) m).hostMem.byte x = (memWrite s.cfg.endian s.hostMem a z v).byte x) ∧
    (¬ InStore (atDraw s m).settle.buffer x →
      (atDraw (s.hostPutMem a z v) m).hostMem.byte x = (s.hostPutMem a z v).mem.byte x) := by
  have seen : (atDraw (s.hostPutMem a z v) m).hostMem = (atDraw s m).settle.buffer.foldl (fun k b =>
      memWrite s.cfg.endian k b.addr b.size (memRead s.cfg.endian (memWrite s.cfg.endian s.hostMem a z v) b.addr b.size))
      (s.hostPutMem a z v).mem := by
    rw [State.hostMem, settle_hostPutMem a z v h, undo, List.foldl_map]
    rfl
  rw [seen]
  exact byte_fold_copy _ _ (hostPutMem_wf hm a z v) x

/-- The host reads at once what it wrote, over what it would have read. -/
theorem hostMem_at_once {s : State} (hm : s.mem.wf) (a : Word) (z : Size) (v : Word) (x : Nat) :
    (s.hostPutMem a z v).hostMem.byte x = (memWrite s.cfg.endian s.hostMem a z v).byte x := by
  obtain ⟨store, other⟩ := hostMem_hostPutMem hm a z v (Nat.le_refl s.draws) x
  by_cases h : InStore s.settle.buffer x
  · exact store h
  · refine (other h).trans (((hostPutMem_byte hm a z v x).2 h).trans ?_)
    refine byte_memWrite_congr hm (hostMem_wf hm) a z v ?_
    exact (byte_fold_ne Buffered.old _ s.mem x fun b hb i hi hx => h ⟨b, hb, i, hi, hx⟩).symm

/-- Outside the access, what the host reads at any later time is what it would have read. -/
theorem hostMem_later {s : State} (hm : s.mem.wf) (ha : Apart s) {a : Word} {z : Size} (v : Word) {m : Nat}
    (h : s.draws ≤ m) {x : Nat} (hx : ∀ i < Size.bytes z, x ≠ (a + BitVec.ofNat 32 i).toNat) :
    (atDraw (s.hostPutMem a z v) m).hostMem.byte x = (atDraw s m).hostMem.byte x := by
  obtain ⟨store, other⟩ := hostMem_hostPutMem hm a z v h x
  have inner : (atDraw s m).settle.buffer.Sublist s.settle.buffer := settle_later h ▸ List.filter_sublist
  by_cases hs : InStore (atDraw s m).settle.buffer x
  · rw [store hs, byte_memWrite_ne hx]
    obtain ⟨b, hb, i, hi, rfl⟩ := hs
    have now := byte_undo (e := s.cfg.endian) hm (List.Pairwise.sublist (settle_sublist s) ha) (inner.subset hb) hi
    exact now.trans (byte_undo hm (List.Pairwise.sublist (settle_sublist (atDraw s m)) ha) hb hi).symm
  · rw [other hs, hostPutMem_outside hm v hx]
    exact (byte_fold_ne Buffered.old _ s.mem x fun b hb i hi hx => hs ⟨b, hb, i, hi, hx⟩).symm

/-! ### The words a fetch finds (R85) -/

/-- A word of which no older value is left. -/
theorem codeWord_current {s : State} {p : PAddr} (h : ∀ c ∈ s.oldCode, s.unseen p c = false) :
    s.codeWord p = memRead s.cfg.endian s.mem (codeAddr p) .long := by
  rw [State.codeWord, List.find?_eq_none.2 fun c hc => by rw [h c hc]; decide]

/-- The word as it is, or as it was before a change by the host. -/
theorem codeWord_cases (s : State) (p : PAddr) :
    s.codeWord p = memRead s.cfg.endian s.mem (codeAddr p) .long ∨
      ∃ c ∈ s.oldCode, c.word = p.toNat ∧ s.codeWord p = c.old := by
  cases hf : s.oldCode.find? (s.unseen p) with
  | none => exact .inl (by rw [State.codeWord, hf])
  | some c =>
    have hu := List.find?_some hf
    simp only [State.unseen, Bool.and_eq_true, beq_iff_eq] at hu
    exact .inr ⟨c, List.mem_of_find?_eq_some hf, hu.1, by rw [State.codeWord, hf]⟩

/-- From some time on every change by the host is seen. -/
theorem codeWord_eventually (s : State) (p : PAddr) :
    ∃ n, ∀ m ≥ n, (atDraw s m).codeWord p = memRead s.cfg.endian s.mem (codeAddr p) .long := by
  have bound : ∀ l : List OldCode, ∃ n, ∀ c ∈ l, c.since + Config.freeIndex c.since .codeSeen ≤ n := fun l => by
    induction l with
    | nil => exact ⟨0, nofun⟩
    | cons c l ih =>
      obtain ⟨n, hn⟩ := ih
      refine ⟨max (c.since + Config.freeIndex c.since .codeSeen) n, fun d hd => ?_⟩
      rcases List.mem_cons.1 hd with rfl | hd
      · exact Nat.le_max_left _ _
      · exact (hn d hd).trans (Nat.le_max_right _ _)
  obtain ⟨n, hn⟩ := bound s.oldCode
  refine ⟨n, fun m hm => codeWord_current (s := atDraw s m) fun c hc => ?_⟩
  have seen : ¬ m < c.since + Config.freeIndex c.since .codeSeen := Nat.not_lt.2 ((hn c hc).trans hm)
  rw [State.unseen, show (atDraw s m).draws = m from rfl, decide_eq_false seen, Bool.and_false]

/-- The older words kept after a write of the host: none of those it changed if the core is halted. -/
theorem noteCode_halted {s : State} (h : s.h = true) {a : Word} {z : Size} {p : PAddr}
    (hp : ∃ i < Size.bytes z, (a + BitVec.ofNat 32 i).toNat / 4 = p.toNat) :
    ∀ c ∈ (s.noteCode a z).oldCode, c.word ≠ p.toNat := by
  intro c hc e
  have kept : c ∈ s.oldCode.filter fun e => !(noteStored a (Size.bytes z) []).contains e.word := by
    rw [State.noteCode, if_pos h] at hc; exact hc
  have noted := (noteStored_contains a (Size.bytes z) [] p).2 (.inr hp)
  have := (List.mem_filter.1 kept).2
  rw [e, noted] at this
  cases this

/-- While the core runs the words it had, and those the write changes as they are in memory. -/
theorem noteCode_running {s : State} (h : s.h = false) {a : Word} {z : Size} {c : OldCode}
    (hc : c ∈ (s.noteCode a z).oldCode) :
    c ∈ s.oldCode ∨ c.old = memRead s.cfg.endian s.mem (codeAddr (BitVec.ofNat 24 c.word)) .long := by
  rw [State.noteCode, h] at hc
  rcases List.mem_append.1 hc with hc | hc
  · exact .inl hc
  · obtain ⟨q, -, rfl⟩ := List.mem_map.1 hc
    exact .inr rfl

/-! ### Writes -/

theorem hostWriteMem_eq (s : State) (a : Word) (z : Size) (v : Word) :
    (memValid s.cfg a.toNat (Size.bytes z) .store = false → s.hostWriteMem a z v = .refused .hostMemory) ∧
    (memValid s.cfg a.toNat (Size.bytes z) .store = true → accessOk s.cfg a z = false →
      s.hostWriteMem a z v = .fault .misaligned) ∧
    (memValid s.cfg a.toNat (Size.bytes z) .store = true → accessOk s.cfg a z = true →
      s.hostWriteMem a z v = .next ((s.noteCode a z).hostPutMem a z v)) := by
  refine ⟨fun hv => ?_, fun hv ha => ?_, fun hv ha => ?_⟩
  · rw [State.hostWriteMem, hv]; rfl
  · rw [State.hostWriteMem, hv, ha]; rfl
  · rw [State.hostWriteMem, hv, ha]; rfl

/-- What the host sees of memory is decided by these fields. -/
theorem hostMem_congr {s t : State} (cfg : t.cfg = s.cfg) (mem : t.mem = s.mem) (buffer : t.buffer = s.buffer)
    (h : t.h = s.h) (loads : t.loads = s.loads) (draws : t.draws = s.draws) : t.hostMem = s.hostMem := by
  simp only [State.hostMem, State.settle, State.performed, cfg, mem, buffer, h, loads, draws]

/-- A write of the host changes memory, the buffer and the older words. -/
theorem same_hostPutMem {e u : State} (h : Same e u) (a : Word) (z : Size) (v : Word) :
    Same { e with
      mem := (u.hostPutMem a z v).mem
      buffer := (u.hostPutMem a z v).buffer
      oldCode := (u.hostPutMem a z v).oldCode } (u.hostPutMem a z v) := by
  obtain ⟨cfg, regs, mr, loops, flags, enables, halt, dbg, loads, sem, bytes, buffer, stored, outside⟩ := h
  constructor <;> simp_all

/-- The state `q` in which memory is written: the access of `s`, with the older words noted. -/
structure Noted (s q : State) (l : List Input) (a : Word) (z : Size) : Prop where
  same : Same { s with inputs := l, oldCode := q.oldCode } q
  place : q.pc = s.pc ∧ q.slot = s.slot ∧ q.lpCount = s.lpCount
  mem : q.mem = s.mem
  buffer : q.buffer = s.buffer
  loads : q.loads = s.loads
  draws : q.draws = s.draws + 1
  halted : s.h = true → ∀ p : PAddr, (∃ i < Size.bytes z, (a + BitVec.ofNat 32 i).toNat / 4 = p.toNat) →
    ∀ c ∈ q.oldCode, c.word ≠ p.toNat
  running : s.h = false → ∀ c ∈ q.oldCode,
    c ∈ s.oldCode ∨ c.old = memRead s.cfg.endian s.mem (codeAddr (BitVec.ofNat 24 c.word)) .long

theorem noted_noteCode (s : State) (l : List Input) (a : Word) (z : Size) :
    Noted s ((atAccess s l).noteCode a z) l a z where
  same := by
    obtain ⟨cfg, regs, mr, loops, flags, enables, halt, dbg, loads, sem, bytes, buffer, stored, outside⟩ :=
      same_atAccess s l
    exact ⟨cfg, regs, mr, loops, flags, enables, halt, dbg, loads, sem, bytes, buffer, ⟨stored.1, rfl⟩, outside⟩
  place := ⟨rfl, rfl, rfl⟩
  mem := rfl
  buffer := rfl
  loads := rfl
  draws := rfl
  halted h p hp := noteCode_halted (s := atAccess s l) h hp
  running h _ hc := noteCode_running (s := atAccess s l) h hc

/-- The host sees memory as it would in `s`, at any time. -/
theorem Noted.hostMem_eq {s q : State} {l : List Input} {a : Word} {z : Size} (n : Noted s q l a z) (m : Nat) :
    (atDraw q m).hostMem = (atDraw s m).hostMem :=
  hostMem_congr n.same.cfg n.mem n.buffer n.same.halt.1 n.loads rfl

theorem Noted.hostMem_now {s q : State} {l : List Input} {a : Word} {z : Size} (n : Noted s q l a z) :
    q.hostMem = (atDraw s (s.draws + 1)).hostMem :=
  hostMem_congr n.same.cfg n.mem n.buffer n.same.halt.1 n.loads n.draws

/-- The frame of the write. -/
theorem Noted.frame {s q : State} {l : List Input} {a : Word} {z : Size} (n : Noted s q l a z) (v : Word) :
    Same { s with
      inputs := l
      mem := (q.hostPutMem a z v).mem
      buffer := (q.hostPutMem a z v).buffer
      oldCode := (q.hostPutMem a z v).oldCode } (q.hostPutMem a z v) := same_hostPutMem n.same a z v

/-- The bytes of memory after the write. -/
theorem Noted.bytes {s q : State} {l : List Input} {a : Word} {z : Size} (n : Noted s q l a z) (hm : s.mem.wf) (v : Word)
    (x : Nat) :
    (¬ InStore (q.hostPutMem a z v).buffer x →
      (q.hostPutMem a z v).mem.byte x = (memWrite s.cfg.endian s.mem a z v).byte x) ∧
    (InStore (q.hostPutMem a z v).buffer x → InStore s.buffer x ∧ (q.hostPutMem a z v).mem.byte x = s.mem.byte x) := by
  have inBuffer : InStore (q.hostPutMem a z v).buffer x ↔ InStore q.settle.buffer x :=
    inStore_map (f := restored q a z v) (fun _ => rfl) (fun _ => rfl) x
  obtain ⟨store, other⟩ := hostPutMem_byte (s := q) (by rw [n.mem]; exact hm) a z v x
  rw [n.mem, n.same.cfg] at other
  rw [n.mem] at store
  rw [inBuffer, ← n.buffer]
  exact ⟨other, fun h => ⟨inStore_mono (settle_sublist q) h, store h⟩⟩

/-- What the host reads after the write. -/
theorem Noted.seen {s q : State} {l : List Input} {a : Word} {z : Size} (n : Noted s q l a z) (hm : s.mem.wf) (v : Word) :
    memRead s.cfg.endian (q.hostPutMem a z v).hostMem a z = BitVec.ofNat 32 (v.toNat % 2 ^ (8 * Size.bytes z)) ∧
    (∀ x, (q.hostPutMem a z v).hostMem.byte x =
      (memWrite s.cfg.endian (atDraw s (s.draws + 1)).hostMem a z v).byte x) ∧
    (Apart s → ∀ m > s.draws, ∀ x, (∀ i < Size.bytes z, x ≠ (a + BitVec.ofNat 32 i).toNat) →
      (atDraw (q.hostPutMem a z v) m).hostMem.byte x = (atDraw s m).hostMem.byte x) := by
  have hq : q.mem.wf := by rw [n.mem]; exact hm
  have once := hostMem_at_once hq a z v
  rw [n.same.cfg] at once
  refine ⟨?_, fun x => by rw [← n.hostMem_now]; exact once x, fun hap m hlt x hx => ?_⟩
  · rw [memRead_congr fun i hi => once _]
    exact memRead_memWrite_lowBytes (hostMem_wf hq) s.cfg.endian a z v
  · rw [← n.hostMem_eq]
    exact hostMem_later hq (by unfold Apart; rw [n.buffer]; exact hap) v (by rw [n.draws]; exact hlt) hx

/-- Where no buffered store is in the way, the core reads what the host wrote. -/
theorem Noted.read {s q : State} {l : List Input} {a : Word} {z : Size} (n : Noted s q l a z) (hm : s.mem.wf) (v : Word)
    (h : (∀ b ∈ s.buffer, overlap b.addr b.size a z = false) ∨ s.h = true ∧ s.loads = []) :
    memRead s.cfg.endian (q.hostPutMem a z v).mem a z = BitVec.ofNat 32 (v.toNat % 2 ^ (8 * Size.bytes z)) := by
  rw [← n.buffer, ← n.same.halt.1, ← n.loads] at h
  have apart := memRead_fold_apart (e := q.cfg.endian) (fun b => memRead q.cfg.endian q.mem b.addr b.size)
    q.settle.buffer (memWrite q.cfg.endian q.mem a z v) a z (settle_apart h)
  rw [n.same.cfg, n.mem] at apart
  rw [← memRead_memWrite_lowBytes hm s.cfg.endian a z v, ← apart, ← n.same.cfg, ← n.mem]
  rfl

/-- What a fetch finds after the write. -/
theorem Noted.code {s q : State} {l : List Input} {a : Word} {z : Size} (n : Noted s q l a z) (v : Word) (p : PAddr) :
    let t := q.hostPutMem a z v
    (s.h = true → (∃ i < Size.bytes z, (a + BitVec.ofNat 32 i).toNat / 4 = p.toNat) →
      t.codeWord p = memRead s.cfg.endian t.mem (codeAddr p) .long) ∧
    (s.h = false → t.codeWord p = memRead s.cfg.endian t.mem (codeAddr p) .long ∨
      t.codeWord p = memRead s.cfg.endian s.mem (codeAddr p) .long ∨
      ∃ c ∈ s.oldCode, c.word = p.toNat ∧ t.codeWord p = c.old) ∧
    ∃ k, ∀ m ≥ k, (atDraw t m).codeWord p = memRead s.cfg.endian t.mem (codeAddr p) .long := by
  intro t
  have cfg : t.cfg = s.cfg := (State.hostPutMem_cfg q a z v).trans n.same.cfg
  have words : t.oldCode = q.oldCode := State.hostPutMem_oldCode q a z v
  rw [← cfg]
  refine ⟨fun h hp => codeWord_current fun c hc => ?_, fun h => ?_, codeWord_eventually t p⟩
  · rw [State.unseen, beq_eq_false_iff_ne.2 (n.halted h p hp c (words ▸ hc)), Bool.false_and]
  · refine (codeWord_cases t p).imp_right fun ⟨c, hc, hw, hold⟩ => ?_
    refine (n.running h c (words ▸ hc)).symm.imp (fun he => ?_) fun hc => ⟨c, hc, hw, hold⟩
    rw [hold, he, hw, BitVec.ofNat_toNat, BitVec.setWidth_eq, cfg]

theorem hostWritesMem (s : State) (a : Word) (z : Size) (v : Word) : HostWritesMem s a z v := by
  refine ⟨fun l hi => ⟨fun hv => (step_writeMem hi).trans ((hostWriteMem_eq (atAccess s l) a z v).1 hv),
    fun hv ha => (step_writeMem hi).trans ((hostWriteMem_eq (atAccess s l) a z v).2.1 hv ha)⟩, fun hv ha hm l hi => ?_⟩
  have run := (step_writeMem hi).trans ((hostWriteMem_eq (atAccess s l) a z v).2.2 hv ha)
  have n := noted_noteCode s l a z
  generalize (atAccess s l).noteCode a z = q at run n
  have hq : q.mem.wf := by rw [n.mem]; exact hm
  obtain ⟨own, bytes, later⟩ := n.seen hm v
  refine ⟨_, run, (State.hostPutMem_pc q a z v).trans n.place.1, (State.hostPutMem_slot q a z v).trans n.place.2.1,
    (State.hostPutMem_lpCount q a z v).trans n.place.2.2, n.frame v, fun x hx => ?_, fun x => (n.bytes hm v x).1,
    fun x => (n.bytes hm v x).2, own, bytes, later, n.read hm v, fun h p => (n.code v p).1 h,
    fun h p => ⟨(n.code v p).2.1 h, (n.code v p).2.2⟩⟩
  rw [hostPutMem_outside hq v hx, n.mem]

/-! ### All accesses -/

/-- Settles O54: register accesses by the model's own cases, memory by the stores still buffered at the time of the access. -/
theorem hostAccessRunning : Obligations.HostAccessRunning := by
  refine ⟨fun s r a v l h => ?_, fun s r => ⟨hostReadsCore s r, hostWritesCore s r⟩,
    fun s a => ⟨hostReadsAux s a, hostWritesAux s a⟩, fun s v => ⟨hostWritesDebug s v, hostWritesSemaphore s v⟩,
    fun s a z => ⟨hostReadsMem s a z, hostWritesMem s a z⟩⟩
  have running : (!(atAccess s l).h) = true := by rw [show (atAccess s l).h = false from h]; rfl
  refine ⟨fun hi => (step_readCore hi).trans (if_pos running), fun hi => (step_writeCore hi).trans (if_pos running),
    fun ha hi => ?_, fun h0 h1 h4 h5 => ⟨fun hi => ?_, fun hi => ?_⟩⟩
  · obtain ⟨t, -, run, -⟩ := hostReadsAux s a (.inr ha) l hi
    exact ⟨t, run⟩
  · exact (step_readAux hi).trans (if_pos (access_refused (s := atAccess s l) h h0 h1 h4 h5))
  · exact (step_access hi).trans (if_pos (access_refused (s := atAccess s l) h h0 h1 h4 h5))

end Sys2Proof
end
